-- ==== Sys2Proof/Word.lean ====
section
/-!
DEFINITION. The words of the machine (R3, R50): bytes, 32-bit sequencer words, 64-bit words and registers.
-/

namespace Sys2Proof

/-- One byte of memory. -/
abbrev Byte := BitVec 8

/-- A 64-bit register value or instruction word (R21, R50). -/
abbrev Word := BitVec 64

/-- A 32-bit sequencer word (R332). -/
abbrev Word32 := BitVec 32

end Sys2Proof
end

