-- ==== Sys2Proof/Config.lean ====
section
/-!
DEFINITION. What an implementation fixes and the spec leaves open: free values with no body, so that nothing can be
proved of the value itself (the assumption log names each).
-/

namespace Sys2Proof.Config

/-- The value of a temporary's lane, or of its sub-elements, that no word of the run has written (R68 gives none). The
argument is the free-value counter of the state (log 8). -/
opaque freeTemp : Nat → BitVec 64

/-- Whether a fetch of a word stored after the launch returns the content at the launch (R52 leaves it open, log 9). -/
opaque fetchOld : Nat → Bool

/-- What a register lane holds after an uncorrectable error in the register file (R385: undefined, log 21). -/
opaque freeRegister : Nat → BitVec 64

/-- A byte of a line after an uncorrectable error (R385 marks the line and says nothing of its bits, log 21). -/
opaque freeByte : Nat → BitVec 8

/-- The draw of one combination of RED or SCAN under rs (R45 rounds it under the instruction's mode and R38 names no lane's state for it): a function of
the live lanes' stochastic states and of the node (log 33). -/
opaque nodeDraw : Nat → Nat → Nat

/-- Whether an atomic of one side takes its old value from before the last atomic of the other side, where R176 lets updates be lost (log 34). -/
opaque lostUpdate : Nat → Bool

/-- A choice the spec leaves to the device where a step needs one bit (named in the log at each use). -/
opaque freeBool : Nat → Bool

/-- A count the spec gives no rule for (`MC_CPSTAT`, R147, log 22). -/
opaque freeCount : Nat → BitVec 64

/-- The sensor readings that PLDM Type 2 reports (R414 names the quantities and no values, log 30). -/
opaque sensorReport : Nat → List (BitVec 8)

/-- The measurement of the boot ROM and of the fuse settings (R419, log 30). -/
opaque romDigest : BitVec 256
opaque fuseDigest : Nat → BitVec 256 → BitVec 256

/-- The signature of the identity key over a report (R419, log 30). -/
opaque signature : Nat → List (BitVec 8) → BitVec 512

/-- Whether a destination line of a transfer that a lost link fails has its new content (R226 leaves it undefined, log 13). -/
opaque freshLine : Nat → Nat → Bool

end Sys2Proof.Config
end

