-- ==== Sys2Proof/Syntax.lean ====
section
/-!
DEFINITION. The instructions and the machine's other steps: one constructor of `Instr` per row of spec/opcode_table.json.
Words of the compute cores carry their decoded fields (R53 to R58); sequencer words theirs (R332); the rows that are
events of the device carry what the event concerns.
-/

namespace Sys2Proof

/-- Shape codes 0..12 (R21). -/
inductive Shape where
  | i64 | i32x2 | i16x4 | i8x8 | i4x16 | f64 | f32x2 | f16x4 | bf16x4 | e4m3x8 | e5m2x8 | e2m1x16 | ts8x8
  deriving DecidableEq, Repr, Inhabited

/-- Operands named by a 9-bit code (R59). -/
inductive Opd where
  | v (n : BitVec 8)      -- v0..v255
  | s (n : BitVec 6)      -- s0..s63
  | k (n : BitVec 2)      -- k0..k3
  | m (n : BitVec 3)      -- m0..m7
  | ic (n : BitVec 5)     -- integer constant
  | fc (n : BitVec 4)     -- FP constant table entry (R61)
  | ind (n : BitVec 6)    -- v[sn]
  deriving DecidableEq, Repr, Inhabited

/-- Mask selector (R62); code 4 is reserved. -/
inductive Msk where
  | all | p1 | p2 | p3 | n1 | n2 | n3
  deriving DecidableEq, Repr, Inhabited

/-- Rounding selector of MOD[8:6] (R36); code 7 is reserved. -/
inductive Rnd where
  | rne | rz | rd | ru | rna | rs | dyn
  deriving DecidableEq, Repr, Inhabited

/-- Sub-element routing of MOD[4:3] (R63). -/
inductive Route where
  | elem | bcb | bca | lo
  deriving DecidableEq, Repr, Inhabited

/-- Scopes (R160). -/
inductive Scope where
  | grp | team | clu | dev | sys
  deriving DecidableEq, Repr, Inhabited

/-- Memory orders (R55). -/
inductive MOrder where
  | rlx | acq | rel | ar
  deriving DecidableEq, Repr, Inhabited

/-- Fields of a format-A word with operand fields B and C (R53, R63). A field that an instruction does not use holds the
operand or code whose encoding is zero. -/
structure FmtA where
  shp : Shape
  msk : Msk
  d : Opd
  a : Opd
  b : Opd
  c : Opd
  rnd : Rnd
  sat : Bool
  rt : Route
  fam : BitVec 3
  deriving DecidableEq, Repr, Inhabited

/-- Fields of a format-A word of MAJ 0x12 and 0x13, whose C field is a control field (R108). -/
structure FmtC where
  shp : Shape
  msk : Msk
  d : Opd
  a : Opd
  b : Opd
  ctl : BitVec 9
  rnd : Rnd
  sat : Bool
  fam : BitVec 3
  deriving DecidableEq, Repr, Inhabited

/-- Fields of a format-I word (R54). -/
structure FmtI where
  shp : Shape
  msk : Msk
  d : Opd
  a : Opd
  imm : BitVec 27
  deriving DecidableEq, Repr, Inhabited

/-- Fields of a format-M word of MAJ 0x20 (R55, R151). -/
structure FmtM where
  shp : BitVec 4
  msk : Msk
  d : Opd
  a : Opd
  scope : Scope
  order : MOrder
  ch : BitVec 2
  off : BitVec 20
  deriving DecidableEq, Repr, Inhabited

/-- Fields of an atomic word of MAJ 0x22 (R186). -/
structure FmtAt where
  shp : BitVec 4
  msk : Msk
  d : Opd
  a : Opd
  scope : Scope
  order : MOrder
  op : BitVec 4
  off : BitVec 16
  deriving DecidableEq, Repr, Inhabited

/-- Part selector of MXRD and MXWR (R280). -/
inductive TilePart where
  | row | u | v
  deriving DecidableEq, Repr, Inhabited

/-- Agents that may write device registers (R360, R411, R417). -/
inductive RegAgent where
  | host | mgmt | super
  deriving DecidableEq, Repr, Inhabited

/-- A host access over CXL.mem (R412): a read, a write (poison marks the lines, R387), or a host atomic (R176, R412; `op` by the codes
of R187, `wd` 4 or 8 bytes). -/
inductive HostOp where
  | read (pa : Nat) (n : Nat)
  | write (pa : Nat) (data : List Byte) (poison : Bool)
  | atomic (pa : Nat) (wd : Nat) (op : BitVec 4) (val : BitVec 64)
  | bar0Read (off : Nat) (n : Nat)             -- n bytes at an offset of BAR0, which maps the device register range
  | bar0Write (off : Nat) (n : Nat) (val : BitVec 64)
  deriving DecidableEq, Repr, Inhabited

/-- A peer's access at a peer address (R398): a read of n bytes, a write whose lines carry a poison mark each (R387), an atomic, the arrival of a PUT
(R403), or the end of a transfer all of whose attempts have failed, with the barrier that it was to arrive on (R226). -/
inductive PeerOp where
  | read (addr : BitVec 64) (n : Nat)
  | write (addr : BitVec 64) (data : List Byte) (poison : List Bool)
  | atomic (addr : BitVec 64) (wd : Nat) (op : BitVec 4) (val : BitVec 64)
  | arrive (addr : BitVec 64)
  | fail (addr : BitVec 64)
  deriving DecidableEq, Repr, Inhabited

/-- How an attempt of a transfer ends (R226, R397, R398): its checksum agrees, or not, or the receiving device refuses it. -/
inductive XferEnd where
  | agrees | mismatch | refused
  deriving DecidableEq, Repr, Inhabited

/-- Where an uncorrectable error is found (R385, R391). -/
inductive ErrPlace where
  | line (pa : Nat)                          -- HBM4E, base-die SRAM or L2: a 64-byte line
  | l1 (core : Nat)
  | shared (team : Nat) (word : Nat)         -- an 8-byte word of the shared store
  | vreg (g : Nat) (n : Nat) (lane : Nat)
  | sreg (g : Nat) (n : Nat)
  | tile (team : Nat) (z : Nat)
  | table (g : Nat) (j : Nat) (line : Nat)
  | fabric (cmp : Nat)
  | boundary (i : Nat)                       -- a flit crosses die boundary i with its data marked poisoned (R391)
  deriving DecidableEq, Repr, Inhabited

/-- One step of the machine: an instruction word, a sequencer word, or an event. One constructor per table row. -/
inductive Instr where
  -- integer family, MAJ 0x01 and 0x02 (R111, R112)
  | iadd (f : FmtA) | iaddI (f : FmtI) | isub (f : FmtA) | isubI (f : FmtI)
  | imul (f : FmtA) | imulI (f : FmtI) | imulh (f : FmtA) | imulhI (f : FmtI)
  | imad (f : FmtA) | imadI (f : FmtI) | imin (f : FmtA) | iminI (f : FmtI)
  | imax (f : FmtA) | imaxI (f : FmtI) | iabs (f : FmtA) | iabsI (f : FmtI)
  | and (f : FmtA) | andI (f : FmtI) | or (f : FmtA) | orI (f : FmtI)
  | xor (f : FmtA) | xorI (f : FmtI) | andn (f : FmtA) | andnI (f : FmtI)
  | shl (f : FmtA) | shlI (f : FmtI) | shr (f : FmtA) | shrI (f : FmtI)
  | sar (f : FmtA) | sarI (f : FmtI) | popc (f : FmtA) | popcI (f : FmtI)
  | clz (f : FmtA) | clzI (f : FmtI) | bfx (f : FmtA) | bfxI (f : FmtI)
  | bfi (f : FmtA) | bfiI (f : FmtI) | lea (f : FmtA) | leaI (f : FmtI)
  -- floating-point family, MAJ 0x08 and 0x09 (R113 to R115)
  | fadd (f : FmtA) | faddI (f : FmtI) | fsub (f : FmtA) | fsubI (f : FmtI)
  | fmul (f : FmtA) | fmulI (f : FmtI) | ffma (f : FmtA) | ffmaI (f : FmtI)
  | fmin (f : FmtA) | fminI (f : FmtI) | fmax (f : FmtA) | fmaxI (f : FmtI)
  | fabs (f : FmtA) | fabsI (f : FmtI) | fneg (f : FmtA) | fnegI (f : FmtI)
  | frnd (f : FmtA) | frndI (f : FmtI) | frcp (f : FmtA) | frcpI (f : FmtI)
  | frsq (f : FmtA) | frsqI (f : FmtI) | fsqrt (f : FmtA) | fsqrtI (f : FmtI)
  | fexp2 (f : FmtA) | fexp2I (f : FmtI) | flog2 (f : FmtA) | flog2I (f : FmtI)
  | ftanh (f : FmtA) | ftanhI (f : FmtI)
  -- compare and mask family, MAJ 0x10 and 0x11 (R116 to R120)
  | icmp (f : FmtA) | icmpI (f : FmtI) | fcmp (f : FmtA) | fcmpI (f : FmtI)
  | sel (f : FmtA) | selI (f : FmtI) | mop (f : FmtA) | mopI (f : FmtI)
  | mcnt (f : FmtA) | mcntI (f : FmtI) | mmov (f : FmtA) | mmovI (f : FmtI)
  -- conversion family, MAJ 0x12 (R121 to R125)
  | cvt (f : FmtC) | pack (f : FmtC) | qnt (f : FmtC) | qntScl (f : FmtC) | dqnt (f : FmtC)
  -- cross-lane family, MAJ 0x13 (R126 to R131)
  | xperm (f : FmtC) | ptld (f : FmtC) | shfl (f : FmtC) | red (f : FmtC) | scan (f : FmtC)
  -- group family, MAJ 0x14 (R84 to R89)
  | rxa (n : BitVec 3) | rxr (n : BitVec 3) | srd (d : Opd) (sr : BitVec 8) | swr (a : Opd) (sr : BitVec 8)
  -- memory family, MAJ 0x20 (R151 to R154)
  | ld (f : FmtM) | st (f : FmtM) | ldsh (f : FmtM) | stsh (f : FmtM) | ldc (f : FmtM) | prf (f : FmtM)
  -- copies, MAJ 0x21 (R155 to R157)
  | cpy (a : Opd) | drain (d : Opd) (mem : BitVec 3)
  -- atomics, MAJ 0x22 (R186 to R190)
  | amo (f : FmtAt) | cas (f : FmtAt) | redo (f : FmtAt)
  -- ordering, MAJ 0x23 (R192, R193)
  | fence (sc : Scope) (o : MOrder) | rflush (d : Opd)
  -- transactions, MAJ 0x24 (R213 to R218)
  | tbegin | tend | retry | otherwise (off : BitVec 27) | tabort
  -- queues and chains, MAJ 0x25 (R240, R256)
  | qbind (a : Opd) (q : BitVec 3) | qbindFree (q : BitVec 3) | put (d a : Opd) (q : BitVec 3)
  | get (d : Opd) (q : BitVec 3) | qcnt (d : Opd) (q : BitVec 3)
  | chload (d a : Opd) | chfold (d : Opd) | chspread (d : Opd)
  -- barriers, MAJ 0x26 (R230)
  | binit (a : Opd) (n : BitVec 24) | barv (r : Bool) (sc : Scope) (d a : Opd) (n : BitVec 16)
  | bwait (sc : Scope) (d a : Opd) | btest (d a : Opd)
  -- tiles, MAJ 0x27 (R280)
  | mxacq (d : Opd) (z : BitVec 4) | mxrel (drop : Bool) (z : BitVec 4) | mxiss (d a : Opd)
  | mxrank (d : Opd) (z : BitVec 4) | mxrankSet (d a : Opd) (z : BitVec 4)
  | mxrd (p : TilePart) (d a : Opd) (z : BitVec 4) | mxwr (p : TilePart) (d a : Opd) (z : BitVec 4)
  -- fabric, MAJ 0x28 (R310)
  | fcfg (nocache : Bool) (d a : Opd) (n : BitVec 7) | fcfgRestore (nocache : Bool) (d a : Opd) (n : BitVec 7)
  | frun (d a : Opd) | fconst (d a : Opd) (n : BitVec 7) (i : BitVec 12)
  | fstopKill (d : Opd) (n : BitVec 7) | fstopSave (d a : Opd) (n : BitVec 7) | fstopUnload (d : Opd) (n : BitVec 7)
  | fstat (d : Opd) (n : BitVec 7)
  -- launch and collectives, MAJ 0x29 (R353, R400)
  | launch (d a r : Opd) | coll (d a : Opd)
  -- system, MAJ 0x2A (R383, R158)
  | eret (next : Bool) | tlbiPage (d a : Opd) (c : BitVec 6) | tlbiCtx (d : Opd) (c : BitVec 6) | tlbiAll (d : Opd)
  -- branches, MAJ 0x7E (R95)
  | bra (msk : Msk) (prio : BitVec 12) (off : BitVec 33)
  | brm (cond : BitVec 2) (msk : Msk) (prio : BitVec 12) (off : BitVec 33)
  | call (msk : Msk) (prio : BitVec 12) (off : BitVec 33)
  | calli (msk : Msk) (r : Opd) | ret (msk : Msk) | exit (msk : Msk) | yield (msk : Msk)
  | trap (msk : Msk) (n : BitVec 33) | brk (msk : Msk) (n : BitVec 33)
  -- trailer, MAJ 0x7F (R58); `none` is the publish name 0x1FF
  | trl (y f q : Bool) (prio : BitVec 12) (n0 n1 n2 n3 : Option Opd)
  -- words that are not instructions (R74)
  | unassignedWord (w : BitVec 64) | illegalWord (w : BitVec 64)
  -- sequencer words (R332, R333)
  | seqLi (rd : BitVec 4) (imm : BitVec 22) | seqAdd (rd ra rb : BitVec 4) | seqAddi (rd ra : BitVec 4) (imm : BitVec 18)
  | seqSub (rd ra rb : BitVec 4) | seqShl (rd ra rb : BitVec 4) | seqShr (rd ra rb : BitVec 4)
  | seqAnd (rd ra rb : BitVec 4) | seqOr (rd ra rb : BitVec 4)
  | seqBeq (ra rb : BitVec 4) (off : BitVec 18) | seqBne (ra rb : BitVec 4) (off : BitVec 18)
  | seqBlt (ra rb : BitVec 4) (off : BitVec 18) | seqJ (off : BitVec 26) | seqArg (rd : BitVec 4) (n : BitVec 6)
  | seqRec (ra rb : BitVec 4) (ovr : Bool) | seqPwait (ra : BitVec 4) | seqCnst (ra : BitVec 4) (i : BitVec 12)
  | seqArrv (ra : BitVec 4) (n : BitVec 16) | seqEvt (ra : BitVec 4) | seqHalt
  -- events of the sequencer, the groups and the cores
  | seqWaitEnd (cmp : Nat)
  | classVResultReturn (g : Nat) (tag : Nat)
  | placement (g : Nat) | selection (g : Nat) | wake (g : Nat) | txConflict (g : Nat) | compatRound (team : Nat)
  | budgetExhaustion (g : Nat) | groupStop (g : Nat) | ywaitExpiry (ctx : Nat)
  | groupRestore (ctx : Nat) (rec : Nat) (g : Nat)
  | copyComplete (id : Nat) | partialStaged (idx : Nat) | kernelSettled (grid : BitVec 64)
  | barrierArrival (pa : Nat) (n : Nat) (src : BitVec 8)
  | chainFold (id : Nat) | chainSpread (id : Nat)
  -- engine operations (R274): the head of a core's queue
  | tileZero (core : Nat) | tileMma (core : Nat) | tileAdd (core : Nat) | tileMul (core : Nat) | tileRcmp (core : Nat)
  | tileDns (core : Nat) | tileLdt (core : Nat) | tileStt (core : Nat) | tileScl (core : Nat)
  | engineEntryReentry (team : Nat)
  -- compartments
  | configLoadComplete (cmp : Nat) | compartmentRestoreDone (cmp : Nat) | saveComplete (cmp : Nat)
  | unitFire (cmp : Nat) (node : Nat) | islandDot (cmp : Nat) (node : Nat) | stallTimeout (cmp : Nat)
  | sluiceReadElement (cmp : Nat) (slc : Nat) | sluiceWriteToken (cmp : Nat) (slc : Nat)
  | graphCompletion (cmp : Nat) | slResume (stack : Nat)
  -- fault queue, dispatch, homes
  | faultRecordPush (ctx : Nat) | dispatcherPop (ctx : Nat) (lq : BitVec 2)
  | clusterPlacement (grid : BitVec 64) (die : BitVec 2) (slot : Nat)
  | steal (grid : BitVec 64) (die : BitVec 2) (slot : Option Nat)
  | homeService (stack : Nat) | latencyBoundExpiry (stack : Nat)
  -- contexts (R359, R361)
  | contextSaved (ctx : Nat) | contextRestored (ctx : Nat) | contextEnded (ctx : Nat)
  -- commands with a number (R359, R370, R417)
  | grant (stack : Nat) | withdraw (stack : Nat) | cpStorePlain (stack : Nat) | cpStoreCompressed (stack : Nat)
  -- links and network
  | linkEnable (n : BitVec 5) | linkDisable (n : BitVec 5) | linkTrained (n : BitVec 5) (lanes : Nat) (peer : BitVec 16)
  | trainingFailed (n : BitVec 5) | errorBurst (n : BitVec 5) | flitReceive (n : BitVec 5) (flit : List Byte)
  | nakReplay (n : BitVec 5) (seq : BitVec 12) | transferComplete (id : Nat) (outcome : XferEnd) (fresh : List Nat)
  | peerAccess (n : BitVec 5) (op : PeerOp) | collRankComplete (id : Nat)
  | frameReceive (port : BitVec 2) (frame : List Byte) | netTransmit (port : BitVec 2)
  | ncBindWrite (b : BitVec 6) (val : BitVec 64)
  -- host and management
  | hostMemAccess (op : HostOp) | mctpRegisterAccess (pa : Nat) (val : Option (BitVec 64))
  | statusClear (ag : RegAgent) (pa : Nat) (val : BitVec 64) | registerWrite (ag : RegAgent) (pa : Nat) (val : BitVec 64)
  | pldmFirmwareUpdate (image : List Byte) (ver : Nat) (auth : List Byte × List Byte) | getMeasurements (idx : Nat)
  | uncorrectableError (pl : ErrPlace) | correctedError (stack : Nat) | securityAlarm (which : BitVec 3)
  | securedSession (ag : RegAgent) (key : List Byte)
  -- events and commands without operands (they stand last: a compiled constructor with fields has to be among the first 245)
  | ctxCreate | ctxHalt | ctxResume | ctxSave | ctxRestore | ctxEnd
  | trapCmdResume | trapCmdSkip | trapCmdReflect | trapCmdTerminate
  | keyLoad | keyLoadPlain | keyErase
  | pldmSensors | coldReset | functionLevelReset
  deriving DecidableEq, Repr, Inhabited

end Sys2Proof
end

