-- ==== Sys2Proof/Decode.lean ====
section
/-!
DEFINITION. The decoder and the encoder, both written from the encoding tables: operand and field codes (R21, R36, R55, R59, R62, R63),
the six formats (R53 to R58), the opcode map (R73), the words that are not instructions (R74), the field rules of each instruction, and the
sequencer's words (R332, R333).
-/

namespace Sys2Proof

-- ===== codes of the fields =====

/-- Shape codes (R21); 13..15 are reserved (R63). -/
def shapeOf? : Nat → Option Shape
  | 0 => some .i64 | 1 => some .i32x2 | 2 => some .i16x4 | 3 => some .i8x8 | 4 => some .i4x16 | 5 => some .f64 | 6 => some .f32x2
  | 7 => some .f16x4 | 8 => some .bf16x4 | 9 => some .e4m3x8 | 10 => some .e5m2x8 | 11 => some .e2m1x16 | 12 => some .ts8x8 | _ => none

/-- The code of a shape (R21). -/
def Shape.code : Shape → Nat
  | .i64 => 0 | .i32x2 => 1 | .i16x4 => 2 | .i8x8 => 3 | .i4x16 => 4 | .f64 => 5 | .f32x2 => 6 | .f16x4 => 7 | .bf16x4 => 8
  | .e4m3x8 => 9 | .e5m2x8 => 10 | .e2m1x16 => 11 | .ts8x8 => 12

/-- Width of a sub-element (R21). -/
def Shape.width : Shape → Nat
  | .i64 => 64 | .i32x2 => 32 | .i16x4 => 16 | .i8x8 => 8 | .i4x16 => 4 | .f64 => 64 | .f32x2 => 32 | .f16x4 => 16 | .bf16x4 => 16
  | .e4m3x8 => 8 | .e5m2x8 => 8 | .e2m1x16 => 4 | .ts8x8 => 8

/-- Number of sub-elements (R21). -/
def Shape.count : Shape → Nat
  | .i64 => 1 | .i32x2 => 2 | .i16x4 => 4 | .i8x8 => 8 | .i4x16 => 16 | .f64 => 1 | .f32x2 => 2 | .f16x4 => 4 | .bf16x4 => 4
  | .e4m3x8 => 8 | .e5m2x8 => 8 | .e2m1x16 => 16 | .ts8x8 => 8

/-- The integer shapes, codes 0..4. -/
def Shape.isInt : Shape → Bool
  | .i64 | .i32x2 | .i16x4 | .i8x8 | .i4x16 => true
  | _ => false

/-- The shapes of the floating-point family, codes 5..8 (R107). -/
def Shape.isFp : Shape → Bool
  | .f64 | .f32x2 | .f16x4 | .bf16x4 => true
  | _ => false

/-- Operand codes (R59); reserved codes give none. -/
def opdOf? (c : BitVec 9) : Option Opd :=
  if c.toNat < 0x100 then some (.v (c.setWidth 8))
  else if c.toNat < 0x140 then some (.s (c.setWidth 6))
  else if c.toNat < 0x144 then some (.k (c.setWidth 2))
  else if c.toNat < 0x14C then some (.m ((c - 0x144#9).setWidth 3))
  else if c.toNat < 0x150 then none
  else if c.toNat < 0x170 then some (.ic ((c - 0x150#9).setWidth 5))
  else if c.toNat < 0x180 then some (.fc ((c - 0x170#9).setWidth 4))
  else if c.toNat < 0x1C0 then none
  else some (.ind (c.setWidth 6))

/-- The 9-bit code of an operand (R59). -/
def Opd.code : Opd → BitVec 9
  | .v n => n.setWidth 9
  | .s n => 0x100#9 + n.setWidth 9
  | .k n => 0x140#9 + n.setWidth 9
  | .m n => 0x144#9 + n.setWidth 9
  | .ic n => 0x150#9 + n.setWidth 9
  | .fc n => 0x170#9 + n.setWidth 9
  | .ind n => 0x1C0#9 + n.setWidth 9

/-- Mask selector codes (R62). -/
def mskOf? : Nat → Option Msk
  | 0 => some .all | 1 => some .p1 | 2 => some .p2 | 3 => some .p3 | 5 => some .n1 | 6 => some .n2 | 7 => some .n3 | _ => none

/-- The code of a mask selector (R62). -/
def Msk.code : Msk → BitVec 3
  | .all => 0 | .p1 => 1 | .p2 => 2 | .p3 => 3 | .n1 => 5 | .n2 => 6 | .n3 => 7

/-- Rounding codes (R36). -/
def rndOf? : Nat → Option Rnd
  | 0 => some .rne | 1 => some .rz | 2 => some .rd | 3 => some .ru | 4 => some .rna | 5 => some .rs | 6 => some .dyn | _ => none

/-- The code of a rounding selector (R36). -/
def Rnd.code : Rnd → BitVec 3
  | .rne => 0 | .rz => 1 | .rd => 2 | .ru => 3 | .rna => 4 | .rs => 5 | .dyn => 6

/-- Routing codes (R63). -/
def routeOf (c : BitVec 2) : Route :=
  if c = 0 then .elem else if c = 1 then .bcb else if c = 2 then .bca else .lo

/-- The code of a routing (R63). -/
def Route.code : Route → BitVec 2
  | .elem => 0 | .bcb => 1 | .bca => 2 | .lo => 3

/-- Scope codes (R55, R160); 5..7 are reserved. -/
def scopeOf? : Nat → Option Scope
  | 0 => some .grp | 1 => some .team | 2 => some .clu | 3 => some .dev | 4 => some .sys | _ => none

/-- The code of a scope (R160). -/
def Scope.code : Scope → BitVec 3
  | .grp => 0 | .team => 1 | .clu => 2 | .dev => 3 | .sys => 4

/-- Order codes (R55). -/
def orderOf (c : BitVec 2) : MOrder :=
  if c = 0 then .rlx else if c = 1 then .acq else if c = 2 then .rel else .ar

/-- The code of an order (R55). -/
def MOrder.code : MOrder → BitVec 2
  | .rlx => 0 | .acq => 1 | .rel => 2 | .ar => 3

/-- Part codes of MXRD and MXWR (R280); 3 is reserved. -/
def partOf? : Nat → Option TilePart
  | 0 => some .row | 1 => some .u | 2 => some .v | _ => none

/-- The code of a tile part (R280). -/
def TilePart.code : TilePart → BitVec 7
  | .row => 0 | .u => 1 | .v => 2

/-- A one-bit field from a Boolean. -/
def bit1 (b : Bool) : BitVec 1 := if b then 1#1 else 0#1

-- ===== the formats, as raw fields =====

/-- Raw fields of formats A and I (R53, R54): the low 27 bits stay together. -/
structure RawA where
  maj : BitVec 7
  min : BitVec 5
  shp : BitVec 4
  msk : BitVec 3
  d : BitVec 9
  a : BitVec 9
  low : BitVec 27
  deriving DecidableEq, Repr

/-- Raw fields of format X (R57). -/
structure RawX where
  maj : BitVec 7
  min : BitVec 5
  flg : BitVec 7
  d : BitVec 9
  a : BitVec 9
  imm : BitVec 27
  deriving DecidableEq, Repr

/-- Raw fields of format B (R56). -/
structure RawB where
  maj : BitVec 7
  min : BitVec 5
  cond : BitVec 4
  msk : BitVec 3
  prio : BitVec 12
  off : BitVec 33
  deriving DecidableEq, Repr

/-- Raw fields of format T (R58). -/
structure RawT where
  maj : BitVec 7
  res : BitVec 2
  y : BitVec 1
  f : BitVec 1
  q : BitVec 1
  prio : BitVec 12
  n0 : BitVec 9
  n1 : BitVec 9
  n2 : BitVec 9
  n3 : BitVec 9
  low : BitVec 4
  deriving DecidableEq, Repr

def splitA (w : BitVec 64) : RawA :=
  ⟨w.extractLsb' 57 7, w.extractLsb' 52 5, w.extractLsb' 48 4, w.extractLsb' 45 3, w.extractLsb' 36 9, w.extractLsb' 27 9,
    w.extractLsb' 0 27⟩
def packA (r : RawA) : BitVec 64 := (r.maj ++ r.min ++ r.shp ++ r.msk ++ r.d ++ r.a ++ r.low).setWidth 64
def splitX (w : BitVec 64) : RawX :=
  ⟨w.extractLsb' 57 7, w.extractLsb' 52 5, w.extractLsb' 45 7, w.extractLsb' 36 9, w.extractLsb' 27 9, w.extractLsb' 0 27⟩
def packX (r : RawX) : BitVec 64 := (r.maj ++ r.min ++ r.flg ++ r.d ++ r.a ++ r.imm).setWidth 64
def splitB (w : BitVec 64) : RawB :=
  ⟨w.extractLsb' 57 7, w.extractLsb' 52 5, w.extractLsb' 48 4, w.extractLsb' 45 3, w.extractLsb' 33 12, w.extractLsb' 0 33⟩
def packB (r : RawB) : BitVec 64 := (r.maj ++ r.min ++ r.cond ++ r.msk ++ r.prio ++ r.off).setWidth 64
def splitT (w : BitVec 64) : RawT :=
  ⟨w.extractLsb' 57 7, w.extractLsb' 55 2, w.extractLsb' 54 1, w.extractLsb' 53 1, w.extractLsb' 52 1, w.extractLsb' 40 12,
    w.extractLsb' 31 9, w.extractLsb' 22 9, w.extractLsb' 13 9, w.extractLsb' 4 9, w.extractLsb' 0 4⟩
def packT (r : RawT) : BitVec 64 :=
  (r.maj ++ r.res ++ r.y ++ r.f ++ r.q ++ r.prio ++ r.n0 ++ r.n1 ++ r.n2 ++ r.n3 ++ r.low).setWidth 64

/-- The low 27 bits of a format-A word: B, C, MOD (R53, R63). -/
def FmtA.low (f : FmtA) : BitVec 27 := f.b.code ++ f.c.code ++ f.rnd.code ++ bit1 f.sat ++ f.rt.code ++ f.fam
/-- The low 27 bits of a word of MAJ 0x12 and 0x13 (R108); MOD[4:3] is reserved. -/
def FmtC.low (f : FmtC) : BitVec 27 := f.b.code ++ f.ctl ++ f.rnd.code ++ bit1 f.sat ++ 0#2 ++ f.fam
/-- The low 27 bits of a format-M word (R55). -/
def FmtM.low (f : FmtM) : BitVec 27 := f.scope.code ++ f.order.code ++ f.ch ++ f.off
/-- The low 27 bits of an atomic word (R186). -/
def FmtAt.low (f : FmtAt) : BitVec 27 := f.scope.code ++ f.order.code ++ 0#2 ++ f.op ++ f.off

-- ===== the field rules: which field values an instruction has (anything else is UNASSIGNED, R74) =====

/-- A field that an instruction does not use is reserved and zero (R63); the operand of code 0. -/
def Opd.zero : Opd := .v 0

/-- Field rules of a format-A word: accepted shapes, and which of B, C, rounding, saturate, routing it uses; accepted MOD[2:0]. -/
def ruleA (f : FmtA) (shp : Shape → Bool) (b c rnd sat rt : Bool) (fam : BitVec 3 → Bool) : Bool :=
  shp f.shp && (b || f.b == .zero) && (c || f.c == .zero) && (rnd || f.rnd == .rne) && (sat || !f.sat) && (rt || f.rt == .elem) && fam f.fam

def famZero (x : BitVec 3) : Bool := x == 0
def famUns (x : BitVec 3) : Bool := x.toNat ≤ 1
def famAny (_ : BitVec 3) : Bool := true
def shpZero (s : Shape) : Bool := s == .i64
def shpAny (_ : Shape) : Bool := true
/-- BFX and BFI accept shapes 0 and 1 (R107). -/
def shpBf (s : Shape) : Bool := s == .i64 || s == .i32x2
/-- RED and SCAN accept shapes 0..8 (R107). -/
def shpRed (s : Shape) : Bool := s.isInt || s.isFp
/-- The element shapes of QNT and DQNT (R124). -/
def shpElem (s : Shape) : Bool := s == .e4m3x8 || s == .e5m2x8 || s == .e2m1x16 || s == .ts8x8 || s == .i8x8

/-- An integer-family format-A word (R111). -/
def ruleInt (f : FmtA) (b c uns sat : Bool) : Bool :=
  ruleA f Shape.isInt b c false sat true (if uns then famUns else famZero)
/-- A floating-point-family format-A word (R113). -/
def ruleFp (f : FmtA) (b c : Bool) : Bool := ruleA f Shape.isFp b c true true true famZero

/-- Field rules of a format-I word (R54): the shapes, and whether it reads B. -/
def ruleI (f : FmtI) (shp : Shape → Bool) (b : Bool) : Bool := shp f.shp && (b || f.imm == 0)

/-- Source shape, part and reserved bits of the control field of MAJ 0x12 (R121). -/
def FmtC.srcShape? (f : FmtC) : Option Shape := shapeOf? (f.ctl.extractLsb' 0 4).toNat
def FmtC.part (f : FmtC) : Nat := (f.ctl.extractLsb' 4 3).toNat

/-- The part rule's refusals (R121): `P ≥ q` or `q = 16`. -/
def partOk (dst src : Shape) (p : Nat) : Bool :=
  let q := if dst.count ≥ src.count then dst.count / src.count else src.count / dst.count
  p < q && q != 16

/-- Block length of QNT.scl by MOD[1:0] (R124). -/
def sclLen (c : Nat) : Nat := if c = 0 then 32 else if c = 1 then 16 else 64

/-- Field rules of the conversion family (R121 to R125). -/
def ruleCvt (f : FmtC) (chk : Shape → Bool) : Bool :=
  f.ctl.extractLsb' 7 2 == 0 && (match f.srcShape? with | none => false | some s => chk s)

/-- Field rules of a memory word (R151). -/
def ruleM (f : FmtM) (shp : Nat → Bool) (sc : Scope → Bool) (od : MOrder → Bool) (ch : Nat → Bool) : Bool :=
  shp f.shp.toNat && sc f.scope && od f.order && ch f.ch.toNat

def shLd (n : Nat) : Bool := n ≤ 6
def shLdDec (n : Nat) : Bool := n ≤ 6 || (8 ≤ n && n ≤ 11)
def shSt (n : Nat) : Bool := n ≤ 3
def odAcq (o : MOrder) : Bool := o == .rlx || o == .acq
def odRel (o : MOrder) : Bool := o == .rlx || o == .rel
def scSh (s : Scope) : Bool := s == .grp || s == .team
def scNone (s : Scope) : Bool := s == .grp
def odNone (o : MOrder) : Bool := o == .rlx
def chNone (n : Nat) : Bool := n == 0

/-- Atomic shapes 0 i64, 1 i32, 5 f64, 6 f32 with the operations that R187 pairs with them. -/
def atOpOk (shp op : Nat) (redo : Bool) : Bool :=
  if op = 1 then !redo && (shp == 0 || shp == 1 || shp == 5 || shp == 6)
  else if op ≤ 8 then shp == 0 || shp == 1
  else if op ≤ 11 then shp == 5 || shp == 6
  else false

/-- Special register numbers 0x25..0xFF are reserved (R86). -/
def srOk (n : BitVec 8) : Bool := n.toNat ≤ 0x24

/-- The scope of a barrier word is 1..4 (R230). -/
def scBar (s : Scope) : Bool := s != .grp

/-- The field rules of every instruction word: a word whose fields break them is UNASSIGNED (R63, R74 and each instruction's table). Sequencer
words and events have their rules in their own fields' types. -/
def fieldRules : Instr → Bool
  | .iadd f | .isub f | .imul f => ruleInt f true false true true
  | .imulh f => ruleInt f true false true false
  | .imad f => ruleInt f true true true true
  | .imin f | .imax f => ruleInt f true false true false
  | .iabs f => ruleInt f false false false true
  | .and f | .or f | .xor f | .andn f => ruleInt f true false false false
  | .shl f => ruleInt f true false true true
  | .shr f | .sar f => ruleInt f true false false false
  | .popc f | .clz f => ruleInt f false false false false
  | .bfx f => ruleInt f true false true false && shpBf f.shp
  | .bfi f => ruleInt f true true false false && shpBf f.shp
  | .lea f => ruleA f Shape.isInt true false false true true famAny
  | .iaddI f | .isubI f | .imulI f | .imulhI f | .imadI f | .iminI f | .imaxI f | .andI f | .orI f | .xorI f | .andnI f
  | .shlI f | .shrI f | .sarI f | .leaI f => ruleI f Shape.isInt true
  | .iabsI f | .popcI f | .clzI f => ruleI f Shape.isInt false
  | .bfxI f | .bfiI f => ruleI f shpBf true
  | .fadd f | .fsub f | .fmul f | .fmin f | .fmax f => ruleFp f true false
  | .ffma f => ruleFp f true true
  | .fabs f | .fneg f | .frnd f | .frcp f | .frsq f | .fsqrt f | .fexp2 f | .flog2 f | .ftanh f => ruleFp f false false
  | .faddI f | .fsubI f | .fmulI f | .ffmaI f | .fminI f | .fmaxI f => ruleI f Shape.isFp true
  | .fabsI f | .fnegI f | .frndI f | .frcpI f | .frsqI f | .fsqrtI f | .fexp2I f | .flog2I f | .ftanhI f => ruleI f Shape.isFp false
  | .icmp f => ruleA f Shape.isInt true false false false true famAny
  | .fcmp f => ruleA f Shape.isFp true false false false true famAny
  | .sel f => ruleA f shpAny true false false false true famAny
  | .mop f => ruleA f shpZero (f.fam != 4) false false false false (fun x => x.toNat ≤ 4)
  | .mcnt f => ruleA f shpZero false false false false false (fun x => x.toNat ≤ 2)
  | .mmov f => ruleA f shpZero false false false false false (fun x => x.toNat ≤ 3)
  | .icmpI f => ruleI f Shape.isInt true
  | .fcmpI f => ruleI f Shape.isFp true
  | .selI f => ruleI f shpAny true
  | .mopI f => shpZero f.shp && (f.imm.extractLsb' 24 3).toNat ≤ 4 && (f.imm.extractLsb' 24 3 != 4 || f.imm.extractLsb' 0 24 == 0)
  | .mcntI f => shpZero f.shp && (f.imm.extractLsb' 24 3).toNat ≤ 2 && f.imm.extractLsb' 0 24 == 0
  | .mmovI f => shpZero f.shp && (f.imm.extractLsb' 24 3).toNat ≤ 3 && f.imm.extractLsb' 0 24 == 0
  | .cvt f => ruleCvt f (fun s => partOk f.shp s f.part && f.b == .zero && f.fam.toNat < 4)
  | .pack f => ruleCvt f (fun s => f.shp.count == 2 * s.count && f.part == 0 && f.fam.toNat < 4)
  | .qnt f => ruleCvt f (fun s => shpElem f.shp && s.isFp && partOk f.shp s f.part && f.fam == 0)
  | .qntScl f => ruleCvt f (fun s => shpElem f.shp && s.isFp && partOk f.shp s f.part && f.part == 0 && f.b == .zero && f.rnd == .rne && !f.sat &&
      4 ≤ f.fam.toNat && f.fam.toNat < 7 && sclLen (f.fam.toNat - 4) ≤ 32 * s.count)
  | .dqnt f => ruleCvt f (fun s => shpElem s && f.shp.isFp && partOk f.shp s f.part && f.fam == 0)
  | .xperm f => f.ctl == 0 && f.rnd == .rne && !f.sat &&
      (f.fam.toNat < 4 || (f.b == .zero && (f.shp.width == 4 || f.shp.width == 8 || f.shp.width == 16)))
  | .ptld f => f.ctl == 0 && f.rnd == .rne && !f.sat && f.shp == .i64 && f.d == .zero && f.b == .zero && f.fam.toNat < 4
  | .shfl f => f.ctl == 0 && f.rnd == .rne && !f.sat && f.fam.toNat ≤ 4
  | .red f | .scan f => shpRed f.shp && f.b == .zero && f.rnd != .rs && f.ctl.extractLsb' 2 7 == 0 && f.fam.toNat ≤ 5 &&
      (f.shp.isInt || f.fam.toNat ≤ 2)
  | .rxa n => n != 0
  | .rxr _ => true
  | .srd _ sr => srOk sr
  | .swr _ sr => srOk sr
  | .ld f => ruleM f shLdDec (fun _ => true) odAcq (fun _ => true)
  | .st f => ruleM f shSt (fun _ => true) odRel (fun _ => true)
  | .ldsh f => ruleM f shLd scSh odAcq chNone
  | .stsh f => ruleM f shSt scSh odRel chNone
  | .ldc f => ruleM f shLd scNone odNone chNone
  | .prf f => ruleM f (· == 0) scNone odNone (fun n => n ≤ 2) && f.d == .zero
  | .cpy _ => true
  | .drain _ mem => mem != 0
  | .amo f => atOpOk f.shp.toNat f.op.toNat false
  | .cas f => f.shp.toNat ≤ 1 && f.op == 0
  | .redo f => atOpOk f.shp.toNat f.op.toNat true && scNone f.scope && odNone f.order
  | .fence _ o => o != .rlx
  | .rflush _ | .tbegin | .tend | .retry | .otherwise _ | .tabort => true
  | .qbind _ _ | .qbindFree _ | .put _ _ _ | .get _ _ | .qcnt _ _ => true
  | .chload _ _ | .chfold _ | .chspread _ => true
  | .binit _ n => n != 0
  | .barv r sc d _ n => scBar sc && n != 0 && (r || d == .zero)
  | .bwait sc _ _ => scBar sc
  | .btest _ _ => true
  | .mxacq _ _ | .mxrel _ _ | .mxiss _ _ | .mxrank _ _ | .mxrankSet _ _ _ | .mxrd _ _ _ _ | .mxwr _ _ _ _ => true
  | .fcfg _ _ _ _ | .fcfgRestore _ _ _ _ | .frun _ _ | .fconst _ _ _ _ | .fstopKill _ _ | .fstopSave _ _ _ | .fstopUnload _ _
  | .fstat _ _ => true
  | .launch _ _ _ | .coll _ _ | .eret _ | .tlbiPage _ _ _ | .tlbiCtx _ _ | .tlbiAll _ => true
  | .bra _ _ _ | .brm _ _ _ _ | .call _ _ _ | .calli _ _ | .ret _ | .exit _ | .yield _ | .trap _ _ | .brk _ _ => true
  | .trl _ _ _ _ _ _ _ _ => true
  -- words that are not instructions, sequencer words and events carry no field that an encoding could break
  | _ => true

-- ===== decoding =====

/-- A bound check on an optional instruction: its field rules must hold. -/
def checked (i : Instr) : Option Instr := if fieldRules i then some i else none

/-- The fields of a format-A word (R53). -/
def fmtA? (w : BitVec 64) : Option FmtA := do
  let r := splitA w
  let shp ← shapeOf? r.shp.toNat
  let msk ← mskOf? r.msk.toNat
  let d ← opdOf? r.d
  let a ← opdOf? r.a
  let b ← opdOf? (r.low.extractLsb' 18 9)
  let c ← opdOf? (r.low.extractLsb' 9 9)
  let rnd ← rndOf? (r.low.extractLsb' 6 3).toNat
  some ⟨shp, msk, d, a, b, c, rnd, r.low.extractLsb' 5 1 == 1, routeOf (r.low.extractLsb' 3 2), r.low.extractLsb' 0 3⟩

/-- The fields of a word of MAJ 0x12 and 0x13 (R108): C is a control field and MOD[4:3] reserved. -/
def fmtC? (w : BitVec 64) : Option FmtC := do
  let r := splitA w
  let shp ← shapeOf? r.shp.toNat
  let msk ← mskOf? r.msk.toNat
  let d ← opdOf? r.d
  let a ← opdOf? r.a
  let b ← opdOf? (r.low.extractLsb' 18 9)
  let rnd ← rndOf? (r.low.extractLsb' 6 3).toNat
  if r.low.extractLsb' 3 2 = 0 then
    some ⟨shp, msk, d, a, b, r.low.extractLsb' 9 9, rnd, r.low.extractLsb' 5 1 == 1, r.low.extractLsb' 0 3⟩
  else none

/-- The fields of a format-I word (R54). -/
def fmtI? (w : BitVec 64) : Option FmtI := do
  let r := splitA w
  let shp ← shapeOf? r.shp.toNat
  let msk ← mskOf? r.msk.toNat
  let d ← opdOf? r.d
  let a ← opdOf? r.a
  some ⟨shp, msk, d, a, r.low⟩

/-- The fields of a memory word (R55). -/
def fmtM? (w : BitVec 64) : Option FmtM := do
  let r := splitA w
  let msk ← mskOf? r.msk.toNat
  let d ← opdOf? r.d
  let a ← opdOf? r.a
  let sc ← scopeOf? (r.low.extractLsb' 24 3).toNat
  some ⟨r.shp, msk, d, a, sc, orderOf (r.low.extractLsb' 22 2), r.low.extractLsb' 20 2, r.low.extractLsb' 0 20⟩

/-- The fields of an atomic word (R186). -/
def fmtAt? (w : BitVec 64) : Option FmtAt := do
  let r := splitA w
  let msk ← mskOf? r.msk.toNat
  let d ← opdOf? r.d
  let a ← opdOf? r.a
  let sc ← scopeOf? (r.low.extractLsb' 24 3).toNat
  if r.low.extractLsb' 20 2 = 0 then
    some ⟨r.shp, msk, d, a, sc, orderOf (r.low.extractLsb' 22 2), r.low.extractLsb' 16 4, r.low.extractLsb' 0 16⟩
  else none

/-- MIN codes of the integer family, format A (R73). -/
def intA? (n : Nat) (f : FmtA) : Option Instr :=
  match n with
  | 0 => some (.iadd f) | 1 => some (.isub f) | 2 => some (.imul f) | 3 => some (.imulh f) | 4 => some (.imad f)
  | 5 => some (.imin f) | 6 => some (.imax f) | 7 => some (.iabs f) | 8 => some (.and f) | 9 => some (.or f)
  | 10 => some (.xor f) | 11 => some (.andn f) | 12 => some (.shl f) | 13 => some (.shr f) | 14 => some (.sar f)
  | 15 => some (.popc f) | 16 => some (.clz f) | 17 => some (.bfx f) | 18 => some (.bfi f) | 19 => some (.lea f)
  | _ => none
/-- MIN codes of the integer family, format I. -/
def intI? (n : Nat) (f : FmtI) : Option Instr :=
  match n with
  | 0 => some (.iaddI f) | 1 => some (.isubI f) | 2 => some (.imulI f) | 3 => some (.imulhI f) | 4 => some (.imadI f)
  | 5 => some (.iminI f) | 6 => some (.imaxI f) | 7 => some (.iabsI f) | 8 => some (.andI f) | 9 => some (.orI f)
  | 10 => some (.xorI f) | 11 => some (.andnI f) | 12 => some (.shlI f) | 13 => some (.shrI f) | 14 => some (.sarI f)
  | 15 => some (.popcI f) | 16 => some (.clzI f) | 17 => some (.bfxI f) | 18 => some (.bfiI f) | 19 => some (.leaI f)
  | _ => none
/-- MIN codes of the floating-point family, format A. -/
def fpA? (n : Nat) (f : FmtA) : Option Instr :=
  match n with
  | 0 => some (.fadd f) | 1 => some (.fsub f) | 2 => some (.fmul f) | 3 => some (.ffma f) | 4 => some (.fmin f)
  | 5 => some (.fmax f) | 6 => some (.fabs f) | 7 => some (.fneg f) | 8 => some (.frnd f) | 9 => some (.frcp f)
  | 10 => some (.frsq f) | 11 => some (.fsqrt f) | 12 => some (.fexp2 f) | 13 => some (.flog2 f) | 14 => some (.ftanh f)
  | _ => none
/-- MIN codes of the floating-point family, format I. -/
def fpI? (n : Nat) (f : FmtI) : Option Instr :=
  match n with
  | 0 => some (.faddI f) | 1 => some (.fsubI f) | 2 => some (.fmulI f) | 3 => some (.ffmaI f) | 4 => some (.fminI f)
  | 5 => some (.fmaxI f) | 6 => some (.fabsI f) | 7 => some (.fnegI f) | 8 => some (.frndI f) | 9 => some (.frcpI f)
  | 10 => some (.frsqI f) | 11 => some (.fsqrtI f) | 12 => some (.fexp2I f) | 13 => some (.flog2I f) | 14 => some (.ftanhI f)
  | _ => none
/-- MIN codes of the compare and mask family. -/
def cmpA? (n : Nat) (f : FmtA) : Option Instr :=
  match n with
  | 0 => some (.icmp f) | 1 => some (.fcmp f) | 2 => some (.sel f) | 3 => some (.mop f) | 4 => some (.mcnt f) | 5 => some (.mmov f)
  | _ => none
def cmpI? (n : Nat) (f : FmtI) : Option Instr :=
  match n with
  | 0 => some (.icmpI f) | 1 => some (.fcmpI f) | 2 => some (.selI f) | 3 => some (.mopI f) | 4 => some (.mcntI f) | 5 => some (.mmovI f)
  | _ => none
/-- MIN codes of the conversion family; QNT with MOD[2] set is its scale mode (R124). -/
def cvt? (n : Nat) (f : FmtC) : Option Instr :=
  match n with
  | 0 => some (.cvt f) | 1 => some (.pack f) | 2 => if f.fam.toNat < 4 then some (.qnt f) else some (.qntScl f) | 3 => some (.dqnt f)
  | _ => none
/-- MIN codes of the cross-lane family. -/
def cross? (n : Nat) (f : FmtC) : Option Instr :=
  match n with
  | 0 => some (.xperm f) | 1 => some (.ptld f) | 2 => some (.shfl f) | 3 => some (.red f) | 4 => some (.scan f)
  | _ => none
/-- MIN codes of the memory family (R151). -/
def mem? (n : Nat) (f : FmtM) : Option Instr :=
  match n with
  | 0 => some (.ld f) | 1 => some (.st f) | 2 => some (.ldsh f) | 3 => some (.stsh f) | 4 => some (.ldc f) | 5 => some (.prf f)
  | _ => none
/-- MIN codes of the atomics (R186). -/
def atom? (n : Nat) (f : FmtAt) : Option Instr :=
  match n with
  | 0 => some (.amo f) | 1 => some (.cas f) | 2 => some (.redo f)
  | _ => none

/-- A format-X word whose fields D, A, FLG and IMM27 are as the instruction's table allows (R57): `uses` says which of them are used; the others
are reserved and zero. -/
def resX (r : RawX) (flg d a imm : Bool) : Bool := (flg || r.flg == 0) && (d || r.d == 0) && (a || r.a == 0) && (imm || r.imm == 0)

/-- The group family (R84 to R89), MAJ 0x14. -/
def decGroup (r : RawX) : Option Instr :=
  let imm := r.imm
  match r.min.toNat with
  | 0 => if resX r false false false true && imm.toNat < 8 then some (.rxa (imm.setWidth 3)) else none
  | 1 => if resX r false false false true && imm.toNat < 8 then some (.rxr (imm.setWidth 3)) else none
  | 2 => if resX r false true false true && imm.toNat < 256 then (opdOf? r.d).map (.srd · (imm.setWidth 8)) else none
  | 3 => if resX r false false true true && imm.toNat < 256 then (opdOf? r.a).map (.swr · (imm.setWidth 8)) else none
  | _ => none

/-- Copies (R155, R157), MAJ 0x21. -/
def decCopy (r : RawX) : Option Instr :=
  match r.min.toNat with
  | 0 => if resX r false false true false then (opdOf? r.a).map .cpy else none
  | 1 => if resX r true true false false && r.flg.toNat < 8 then (opdOf? r.d).map (.drain · (r.flg.setWidth 3)) else none
  | _ => none

/-- Ordering (R192, R193), MAJ 0x23. -/
def decFence (r : RawX) : Option Instr :=
  match r.min.toNat with
  | 0 =>
    if resX r true false false false && r.flg.toNat < 32 then
      (scopeOf? (r.flg.extractLsb' 0 3).toNat).map (.fence · (orderOf (r.flg.extractLsb' 3 2)))
    else none
  | 1 => if resX r false true false false then (opdOf? r.d).map .rflush else none
  | _ => none

/-- Transactions (R213), MAJ 0x24. -/
def decTx (r : RawX) : Option Instr :=
  let imm := r.imm
  match r.min.toNat with
  | 0 => if resX r false false false false then some .tbegin else none
  | 1 => if resX r false false false false then some .tend else none
  | 2 => if resX r false false false false then some .retry else none
  | 3 => if resX r false false false true then some (.otherwise imm) else none
  | 4 => if resX r false false false false then some .tabort else none
  | _ => none

/-- Queues and chains (R240, R256), MAJ 0x25. -/
def decQueue (r : RawX) : Option Instr :=
  let imm := r.imm
  match r.min.toNat with
  | 0 =>
    if r.flg = 0 then
      if resX r false false true true && imm.toNat < 8 then (opdOf? r.a).map (.qbind · (imm.setWidth 3)) else none
    else if r.flg = 1 then if resX r true false false true && imm.toNat < 8 then some (.qbindFree (imm.setWidth 3)) else none
    else none
  | 1 =>
    if resX r false true true true && imm.toNat < 8 then do
      let d ← opdOf? r.d
      let a ← opdOf? r.a
      some (.put d a (imm.setWidth 3))
    else none
  | 2 => if resX r false true false true && imm.toNat < 8 then (opdOf? r.d).map (.get · (imm.setWidth 3)) else none
  | 3 => if resX r false true false true && imm.toNat < 8 then (opdOf? r.d).map (.qcnt · (imm.setWidth 3)) else none
  | 4 =>
    if resX r false true true false then do
      let d ← opdOf? r.d
      let a ← opdOf? r.a
      some (.chload d a)
    else none
  | 5 => if resX r false true false false then (opdOf? r.d).map .chfold else none
  | 6 => if resX r false true false false then (opdOf? r.d).map .chspread else none
  | _ => none

/-- Barriers (R230), MAJ 0x26. -/
def decBarrier (r : RawX) : Option Instr :=
  let imm := r.imm
  match r.min.toNat with
  | 0 => if resX r false false true true && imm.toNat < 2 ^ 24 then (opdOf? r.a).map (.binit · (imm.setWidth 24)) else none
  | 1 =>
    if resX r true true true true && r.flg.toNat < 16 && imm.toNat < 2 ^ 16 then do
      let sc ← scopeOf? (r.flg.extractLsb' 0 3).toNat
      let d ← opdOf? r.d
      let a ← opdOf? r.a
      some (.barv (r.flg.extractLsb' 3 1 == 1) sc d a (imm.setWidth 16))
    else none
  | 2 =>
    if resX r true true true false && r.flg.toNat < 8 then do
      let sc ← scopeOf? (r.flg.extractLsb' 0 3).toNat
      let d ← opdOf? r.d
      let a ← opdOf? r.a
      some (.bwait sc d a)
    else none
  | 3 =>
    if resX r false true true false then do
      let d ← opdOf? r.d
      let a ← opdOf? r.a
      some (.btest d a)
    else none
  | _ => none

/-- Tiles (R280), MAJ 0x27. -/
def decTile (r : RawX) : Option Instr :=
  let imm := r.imm
  match r.min.toNat with
  | 0 => if resX r false true false true && imm.toNat < 16 then (opdOf? r.d).map (.mxacq · (imm.setWidth 4)) else none
  | 1 => if resX r true false false true && r.flg.toNat < 2 && imm.toNat < 16 then some (.mxrel (r.flg == 1) (imm.setWidth 4)) else none
  | 2 =>
    if resX r false true true false then do
      let d ← opdOf? r.d
      let a ← opdOf? r.a
      some (.mxiss d a)
    else none
  | 3 =>
    if imm.toNat < 16 then
      if r.flg = 0 then if r.a = 0 then (opdOf? r.d).map (.mxrank · (imm.setWidth 4)) else none
      else if r.flg = 1 then do
        let d ← opdOf? r.d
        let a ← opdOf? r.a
        some (.mxrankSet d a (imm.setWidth 4))
      else none
    else none
  | 4 =>
    if imm.toNat < 16 then do
      let p ← partOf? r.flg.toNat
      let d ← opdOf? r.d
      let a ← opdOf? r.a
      some (.mxrd p d a (imm.setWidth 4))
    else none
  | 5 =>
    if imm.toNat < 16 then do
      let p ← partOf? r.flg.toNat
      let d ← opdOf? r.d
      let a ← opdOf? r.a
      some (.mxwr p d a (imm.setWidth 4))
    else none
  | _ => none

/-- The fabric (R310), MAJ 0x28. -/
def decFabric (r : RawX) : Option Instr :=
  let imm := r.imm
  match r.min.toNat with
  | 0 =>
    if r.flg.toNat < 4 && imm.toNat < 128 then do
      let d ← opdOf? r.d
      let a ← opdOf? r.a
      if r.flg.extractLsb' 0 1 = 1 then some (.fcfgRestore (r.flg.extractLsb' 1 1 == 1) d a (imm.setWidth 7))
      else some (.fcfg (r.flg.extractLsb' 1 1 == 1) d a (imm.setWidth 7))
    else none
  | 1 =>
    if resX r false true true false then do
      let d ← opdOf? r.d
      let a ← opdOf? r.a
      some (.frun d a)
    else none
  | 2 =>
    if resX r false true true true && imm.toNat < 2 ^ 19 then do
      let d ← opdOf? r.d
      let a ← opdOf? r.a
      some (.fconst d a (imm.extractLsb' 0 7) (imm.extractLsb' 7 12))
    else none
  | 3 =>
    if imm.toNat < 128 then
      if r.flg = 0 then if r.a = 0 then (opdOf? r.d).map (.fstopKill · (imm.setWidth 7)) else none
      else if r.flg = 1 then do
        let d ← opdOf? r.d
        let a ← opdOf? r.a
        some (.fstopSave d a (imm.setWidth 7))
      else if r.flg = 2 then if r.a = 0 then (opdOf? r.d).map (.fstopUnload · (imm.setWidth 7)) else none
      else none
    else none
  | 4 => if resX r false true false true && imm.toNat < 128 then (opdOf? r.d).map (.fstat · (imm.setWidth 7)) else none
  | _ => none

/-- Launch and collectives (R353, R400), MAJ 0x29. -/
def decLaunch (r : RawX) : Option Instr :=
  let imm := r.imm
  match r.min.toNat with
  | 0 =>
    if resX r false true true true && imm.toNat < 512 then do
      let d ← opdOf? r.d
      let a ← opdOf? r.a
      let c ← opdOf? (imm.setWidth 9)
      some (.launch d a c)
    else none
  | 1 =>
    if resX r false true true false then do
      let d ← opdOf? r.d
      let a ← opdOf? r.a
      some (.coll d a)
    else none
  | _ => none

/-- The system family (R383, R158), MAJ 0x2A. -/
def decSystem (r : RawX) : Option Instr :=
  let imm := r.imm
  match r.min.toNat with
  | 0 => if resX r true false false false && r.flg.toNat < 2 then some (.eret (r.flg == 1)) else none
  | 1 =>
    if r.flg = 0 then
      if imm.toNat < 64 then do
        let d ← opdOf? r.d
        let a ← opdOf? r.a
        some (.tlbiPage d a (imm.setWidth 6))
      else none
    else if r.flg = 1 then if r.a = 0 && imm.toNat < 64 then (opdOf? r.d).map (.tlbiCtx · (imm.setWidth 6)) else none
    else if r.flg = 2 then if r.a = 0 && imm = 0 then (opdOf? r.d).map .tlbiAll else none
    else none
  | _ => none

/-- The format-X families (R73 and the table of each instruction). -/
def decodeX (w : BitVec 64) : Option Instr :=
  let r := splitX w
  match r.maj.toNat with
  | 0x14 => decGroup r
  | 0x21 => decCopy r
  | 0x23 => decFence r
  | 0x24 => decTx r
  | 0x25 => decQueue r
  | 0x26 => decBarrier r
  | 0x27 => decTile r
  | 0x28 => decFabric r
  | 0x29 => decLaunch r
  | 0x2A => decSystem r
  | _ => none

/-- The branch family (R95). -/
def decodeB (w : BitVec 64) : Option Instr := do
  let r := splitB w
  let msk ← mskOf? r.msk.toNat
  let plain := r.cond == 0
  match r.min.toNat with
  | 0 => if plain then some (.bra msk r.prio r.off) else none
  | 1 => if r.cond.toNat ≤ 3 then some (.brm (r.cond.setWidth 2) msk r.prio r.off) else none
  | 2 => if plain then some (.call msk r.prio r.off) else none
  | 3 => if plain && r.prio == 0 && r.off.toNat < 512 then (opdOf? (r.off.setWidth 9)).map (.calli msk ·) else none
  | 4 => if plain && r.prio == 0 && r.off == 0 then some (.ret msk) else none
  | 5 => if plain && r.prio == 0 && r.off == 0 then some (.exit msk) else none
  | 6 => if plain && r.prio == 0 && r.off == 0 then some (.yield msk) else none
  | 7 => if plain && r.prio == 0 then some (.trap msk r.off) else none
  | 8 => if plain && r.prio == 0 then some (.brk msk r.off) else none
  | _ => none

/-- A publish name (R58): 0x1FF is none; a reserved code makes the trailer UNASSIGNED (R68). -/
def nameOf? (c : BitVec 9) : Option (Option Opd) := if c = 0x1FF then some none else (opdOf? c).map some
/-- The code of a publish name. -/
def nameCode : Option Opd → BitVec 9
  | none => 0x1FF
  | some o => o.code

/-- The trailer (R58). The code 0x1FF is the name none, so v[s63] is no publish name. -/
def decodeT (w : BitVec 64) : Option Instr := do
  let r := splitT w
  if r.res = 0 && r.low = 0 then
    let n0 ← nameOf? r.n0
    let n1 ← nameOf? r.n1
    let n2 ← nameOf? r.n2
    let n3 ← nameOf? r.n3
    some (.trl (r.y == 1) (r.f == 1) (r.q == 1) r.prio n0 n1 n2 n3)
  else none

/-- The assigned instruction of a word, where it is one (R73), before the field rules. -/
def decodeRaw (w : BitVec 64) : Option Instr :=
  let maj := (w.extractLsb' 57 7).toNat
  let min := (w.extractLsb' 52 5).toNat
  match maj with
  | 0x01 => (fmtA? w).bind (intA? min)
  | 0x02 => (fmtI? w).bind (intI? min)
  | 0x08 => (fmtA? w).bind (fpA? min)
  | 0x09 => (fmtI? w).bind (fpI? min)
  | 0x10 => (fmtA? w).bind (cmpA? min)
  | 0x11 => (fmtI? w).bind (cmpI? min)
  | 0x12 => (fmtC? w).bind (cvt? min)
  | 0x13 => (fmtC? w).bind (cross? min)
  | 0x20 => (fmtM? w).bind (mem? min)
  | 0x22 => (fmtAt? w).bind (atom? min)
  | 0x7E => decodeB w
  | 0x7F => decodeT w
  | _ => decodeX w

/-- The decoder of the cores (R73, R74): every 64-bit word decodes; MAJ 0 is ILLEGAL, every other word that is no instruction UNASSIGNED. -/
def decodeWord (w : BitVec 64) : Instr :=
  if w.extractLsb' 57 7 = 0 then .illegalWord w
  else match (decodeRaw w).bind checked with
    | some i => i
    | none => .unassignedWord w

/-- The decoder of the sequencer (R332, R333); `none` is a word that abandons the graph with ARG. -/
def decodeSeq (w : BitVec 32) : Option Instr :=
  let rd := w.extractLsb' 22 4
  let ra := w.extractLsb' 18 4
  let rb := w.extractLsb' 14 4
  let low := w.extractLsb' 0 18
  let r (i : Instr) : Option Instr := if w.extractLsb' 0 14 = 0 then some i else none
  match (w.extractLsb' 26 6).toNat with
  | 1 => some (.seqLi rd (w.extractLsb' 0 22))
  | 2 => r (.seqAdd rd ra rb)
  | 3 => some (.seqAddi rd ra low)
  | 4 => r (.seqSub rd ra rb)
  | 5 => r (.seqShl rd ra rb)
  | 6 => r (.seqShr rd ra rb)
  | 7 => r (.seqAnd rd ra rb)
  | 8 => r (.seqOr rd ra rb)
  | 9 => some (.seqBeq rd ra low)
  | 10 => some (.seqBne rd ra low)
  | 11 => some (.seqBlt rd ra low)
  | 12 => some (.seqJ (w.extractLsb' 0 26))
  | 13 => if w.extractLsb' 6 16 = 0 then some (.seqArg rd (w.extractLsb' 0 6)) else none
  | 14 => if w.extractLsb' 1 17 = 0 then some (.seqRec rd ra (w.extractLsb' 0 1 == 1)) else none
  | 15 => if w.extractLsb' 0 22 = 0 then some (.seqPwait rd) else none
  | 16 => if ra = 0 && w.extractLsb' 12 6 = 0 then some (.seqCnst rd (w.extractLsb' 0 12)) else none
  | 17 => if ra = 0 && w.extractLsb' 16 2 = 0 && w.extractLsb' 0 16 != 0 then some (.seqArrv rd (w.extractLsb' 0 16)) else none
  | 18 => if w.extractLsb' 0 22 = 0 then some (.seqEvt rd) else none
  | 19 => if w.extractLsb' 0 26 = 0 then some .seqHalt else none
  | _ => none

/-- Why bytes give no instruction. -/
inductive DecodeError where
  | truncated                      -- fewer bytes than one word
  | sequencerWord (w : BitVec 32)  -- a sequencer word with an unassigned OP, a nonzero reserved field or an ARRV of weight 0 (R333)
  deriving DecidableEq, Repr

/-- A word from its bytes, little-endian (R3). -/
def ofBytes (bs : List Byte) : Nat := bs.foldr (fun b acc => b.toNat + 256 * acc) 0

/-- The bytes of a number, little-endian (R3). -/
def toBytes : Nat → Nat → List Byte
  | 0, _ => []
  | k + 1, n => BitVec.ofNat 8 n :: toBytes k (n / 256)

/-- Decoding a core's word from bytes (R50): every eight bytes are some word. -/
def decode (bs : List Byte) : Except DecodeError (Instr × List Byte) :=
  if bs.length < 8 then .error .truncated else .ok (decodeWord (BitVec.ofNat 64 (ofBytes (bs.take 8))), bs.drop 8)

/-- Decoding a sequencer's word from bytes (R332). -/
def decodeSequencer (bs : List Byte) : Except DecodeError (Instr × List Byte) :=
  if bs.length < 4 then .error .truncated
  else
    let w := BitVec.ofNat 32 (ofBytes (bs.take 4))
    match decodeSeq w with
    | some i => .ok (i, bs.drop 4)
    | none => .error (.sequencerWord w)

/-- The host's question: the instruction of a word of the opcode table. -/
def decodeTableWord (nbits w : Nat) : Option Instr :=
  if nbits = 64 then match decode (toBytes 8 w) with
    | .ok (i, _) => some i
    | .error _ => none
  else if nbits = 32 then match decodeSequencer (toBytes 4 w) with
    | .ok (i, _) => some i
    | .error _ => none
  else none

-- ===== encoding =====

/-- Head and low bits of a format-A word. -/
def encA (maj min : Nat) (f : FmtA) : BitVec 64 :=
  packA ⟨BitVec.ofNat 7 maj, BitVec.ofNat 5 min, BitVec.ofNat 4 f.shp.code, f.msk.code, f.d.code, f.a.code, f.low⟩
def encC (maj min : Nat) (f : FmtC) : BitVec 64 :=
  packA ⟨BitVec.ofNat 7 maj, BitVec.ofNat 5 min, BitVec.ofNat 4 f.shp.code, f.msk.code, f.d.code, f.a.code, f.low⟩
def encI (maj min : Nat) (f : FmtI) : BitVec 64 :=
  packA ⟨BitVec.ofNat 7 maj, BitVec.ofNat 5 min, BitVec.ofNat 4 f.shp.code, f.msk.code, f.d.code, f.a.code, f.imm⟩
def encM (min : Nat) (f : FmtM) : BitVec 64 :=
  packA ⟨0x20, BitVec.ofNat 5 min, f.shp, f.msk.code, f.d.code, f.a.code, f.low⟩
def encAt (min : Nat) (f : FmtAt) : BitVec 64 :=
  packA ⟨0x22, BitVec.ofNat 5 min, f.shp, f.msk.code, f.d.code, f.a.code, f.low⟩
def encX (maj min : Nat) (flg : BitVec 7) (d a : BitVec 9) (imm : BitVec 27) : BitVec 64 :=
  packX ⟨BitVec.ofNat 7 maj, BitVec.ofNat 5 min, flg, d, a, imm⟩
def encB (min : Nat) (cond : BitVec 4) (msk : Msk) (prio : BitVec 12) (off : BitVec 33) : BitVec 64 :=
  packB ⟨0x7E, BitVec.ofNat 5 min, cond, msk.code, prio, off⟩

/-- The 64-bit word of an instruction of the cores (R73); none for sequencer words and events. -/
def encodeWord : Instr → Option (BitVec 64)
  | .iadd f => some (encA 0x01 0 f) | .isub f => some (encA 0x01 1 f) | .imul f => some (encA 0x01 2 f)
  | .imulh f => some (encA 0x01 3 f) | .imad f => some (encA 0x01 4 f) | .imin f => some (encA 0x01 5 f)
  | .imax f => some (encA 0x01 6 f) | .iabs f => some (encA 0x01 7 f) | .and f => some (encA 0x01 8 f)
  | .or f => some (encA 0x01 9 f) | .xor f => some (encA 0x01 10 f) | .andn f => some (encA 0x01 11 f)
  | .shl f => some (encA 0x01 12 f) | .shr f => some (encA 0x01 13 f) | .sar f => some (encA 0x01 14 f)
  | .popc f => some (encA 0x01 15 f) | .clz f => some (encA 0x01 16 f) | .bfx f => some (encA 0x01 17 f)
  | .bfi f => some (encA 0x01 18 f) | .lea f => some (encA 0x01 19 f)
  | .iaddI f => some (encI 0x02 0 f) | .isubI f => some (encI 0x02 1 f) | .imulI f => some (encI 0x02 2 f)
  | .imulhI f => some (encI 0x02 3 f) | .imadI f => some (encI 0x02 4 f) | .iminI f => some (encI 0x02 5 f)
  | .imaxI f => some (encI 0x02 6 f) | .iabsI f => some (encI 0x02 7 f) | .andI f => some (encI 0x02 8 f)
  | .orI f => some (encI 0x02 9 f) | .xorI f => some (encI 0x02 10 f) | .andnI f => some (encI 0x02 11 f)
  | .shlI f => some (encI 0x02 12 f) | .shrI f => some (encI 0x02 13 f) | .sarI f => some (encI 0x02 14 f)
  | .popcI f => some (encI 0x02 15 f) | .clzI f => some (encI 0x02 16 f) | .bfxI f => some (encI 0x02 17 f)
  | .bfiI f => some (encI 0x02 18 f) | .leaI f => some (encI 0x02 19 f)
  | .fadd f => some (encA 0x08 0 f) | .fsub f => some (encA 0x08 1 f) | .fmul f => some (encA 0x08 2 f)
  | .ffma f => some (encA 0x08 3 f) | .fmin f => some (encA 0x08 4 f) | .fmax f => some (encA 0x08 5 f)
  | .fabs f => some (encA 0x08 6 f) | .fneg f => some (encA 0x08 7 f) | .frnd f => some (encA 0x08 8 f)
  | .frcp f => some (encA 0x08 9 f) | .frsq f => some (encA 0x08 10 f) | .fsqrt f => some (encA 0x08 11 f)
  | .fexp2 f => some (encA 0x08 12 f) | .flog2 f => some (encA 0x08 13 f) | .ftanh f => some (encA 0x08 14 f)
  | .faddI f => some (encI 0x09 0 f) | .fsubI f => some (encI 0x09 1 f) | .fmulI f => some (encI 0x09 2 f)
  | .ffmaI f => some (encI 0x09 3 f) | .fminI f => some (encI 0x09 4 f) | .fmaxI f => some (encI 0x09 5 f)
  | .fabsI f => some (encI 0x09 6 f) | .fnegI f => some (encI 0x09 7 f) | .frndI f => some (encI 0x09 8 f)
  | .frcpI f => some (encI 0x09 9 f) | .frsqI f => some (encI 0x09 10 f) | .fsqrtI f => some (encI 0x09 11 f)
  | .fexp2I f => some (encI 0x09 12 f) | .flog2I f => some (encI 0x09 13 f) | .ftanhI f => some (encI 0x09 14 f)
  | .icmp f => some (encA 0x10 0 f) | .fcmp f => some (encA 0x10 1 f) | .sel f => some (encA 0x10 2 f)
  | .mop f => some (encA 0x10 3 f) | .mcnt f => some (encA 0x10 4 f) | .mmov f => some (encA 0x10 5 f)
  | .icmpI f => some (encI 0x11 0 f) | .fcmpI f => some (encI 0x11 1 f) | .selI f => some (encI 0x11 2 f)
  | .mopI f => some (encI 0x11 3 f) | .mcntI f => some (encI 0x11 4 f) | .mmovI f => some (encI 0x11 5 f)
  | .cvt f => some (encC 0x12 0 f) | .pack f => some (encC 0x12 1 f) | .qnt f => some (encC 0x12 2 f)
  | .qntScl f => some (encC 0x12 2 f) | .dqnt f => some (encC 0x12 3 f)
  | .xperm f => some (encC 0x13 0 f) | .ptld f => some (encC 0x13 1 f) | .shfl f => some (encC 0x13 2 f)
  | .red f => some (encC 0x13 3 f) | .scan f => some (encC 0x13 4 f)
  | .rxa n => some (encX 0x14 0 0 0 0 (n.setWidth 27)) | .rxr n => some (encX 0x14 1 0 0 0 (n.setWidth 27))
  | .srd d sr => some (encX 0x14 2 0 d.code 0 (sr.setWidth 27)) | .swr a sr => some (encX 0x14 3 0 0 a.code (sr.setWidth 27))
  | .ld f => some (encM 0 f) | .st f => some (encM 1 f) | .ldsh f => some (encM 2 f) | .stsh f => some (encM 3 f)
  | .ldc f => some (encM 4 f) | .prf f => some (encM 5 f)
  | .cpy a => some (encX 0x21 0 0 0 a.code 0) | .drain d mem => some (encX 0x21 1 (mem.setWidth 7) d.code 0 0)
  | .amo f => some (encAt 0 f) | .cas f => some (encAt 1 f) | .redo f => some (encAt 2 f)
  | .fence sc o => some (encX 0x23 0 (0#2 ++ o.code ++ sc.code) 0 0 0) | .rflush d => some (encX 0x23 1 0 d.code 0 0)
  | .tbegin => some (encX 0x24 0 0 0 0 0) | .tend => some (encX 0x24 1 0 0 0 0) | .retry => some (encX 0x24 2 0 0 0 0)
  | .otherwise off => some (encX 0x24 3 0 0 0 off) | .tabort => some (encX 0x24 4 0 0 0 0)
  | .qbind a q => some (encX 0x25 0 0 0 a.code (q.setWidth 27)) | .qbindFree q => some (encX 0x25 0 1 0 0 (q.setWidth 27))
  | .put d a q => some (encX 0x25 1 0 d.code a.code (q.setWidth 27)) | .get d q => some (encX 0x25 2 0 d.code 0 (q.setWidth 27))
  | .qcnt d q => some (encX 0x25 3 0 d.code 0 (q.setWidth 27)) | .chload d a => some (encX 0x25 4 0 d.code a.code 0)
  | .chfold d => some (encX 0x25 5 0 d.code 0 0) | .chspread d => some (encX 0x25 6 0 d.code 0 0)
  | .binit a n => some (encX 0x26 0 0 0 a.code (n.setWidth 27))
  | .barv r sc d a n => some (encX 0x26 1 (0#3 ++ bit1 r ++ sc.code) d.code a.code (n.setWidth 27))
  | .bwait sc d a => some (encX 0x26 2 (0#4 ++ sc.code) d.code a.code 0) | .btest d a => some (encX 0x26 3 0 d.code a.code 0)
  | .mxacq d z => some (encX 0x27 0 0 d.code 0 (z.setWidth 27)) | .mxrel dr z => some (encX 0x27 1 (0#6 ++ bit1 dr) 0 0 (z.setWidth 27))
  | .mxiss d a => some (encX 0x27 2 0 d.code a.code 0) | .mxrank d z => some (encX 0x27 3 0 d.code 0 (z.setWidth 27))
  | .mxrankSet d a z => some (encX 0x27 3 1 d.code a.code (z.setWidth 27))
  | .mxrd p d a z => some (encX 0x27 4 p.code d.code a.code (z.setWidth 27))
  | .mxwr p d a z => some (encX 0x27 5 p.code d.code a.code (z.setWidth 27))
  | .fcfg nc d a n => some (encX 0x28 0 (0#5 ++ bit1 nc ++ 0#1) d.code a.code (n.setWidth 27))
  | .fcfgRestore nc d a n => some (encX 0x28 0 (0#5 ++ bit1 nc ++ 1#1) d.code a.code (n.setWidth 27))
  | .frun d a => some (encX 0x28 1 0 d.code a.code 0)
  | .fconst d a n i => some (encX 0x28 2 0 d.code a.code ((i ++ n).setWidth 27))
  | .fstopKill d n => some (encX 0x28 3 0 d.code 0 (n.setWidth 27)) | .fstopSave d a n => some (encX 0x28 3 1 d.code a.code (n.setWidth 27))
  | .fstopUnload d n => some (encX 0x28 3 2 d.code 0 (n.setWidth 27)) | .fstat d n => some (encX 0x28 4 0 d.code 0 (n.setWidth 27))
  | .launch d a r => some (encX 0x29 0 0 d.code a.code (r.code.setWidth 27)) | .coll d a => some (encX 0x29 1 0 d.code a.code 0)
  | .eret nx => some (encX 0x2A 0 (0#6 ++ bit1 nx) 0 0 0)
  | .tlbiPage d a c => some (encX 0x2A 1 0 d.code a.code (c.setWidth 27)) | .tlbiCtx d c => some (encX 0x2A 1 1 d.code 0 (c.setWidth 27))
  | .tlbiAll d => some (encX 0x2A 1 2 d.code 0 0)
  | .bra msk p off => some (encB 0 0 msk p off) | .brm c msk p off => some (encB 1 (c.setWidth 4) msk p off)
  | .call msk p off => some (encB 2 0 msk p off) | .calli msk r => some (encB 3 0 msk 0 (r.code.setWidth 33))
  | .ret msk => some (encB 4 0 msk 0 0) | .exit msk => some (encB 5 0 msk 0 0) | .yield msk => some (encB 6 0 msk 0 0)
  | .trap msk n => some (encB 7 0 msk 0 n) | .brk msk n => some (encB 8 0 msk 0 n)
  | .trl y f q p n0 n1 n2 n3 => some (packT ⟨0x7F, 0, bit1 y, bit1 f, bit1 q, p, nameCode n0, nameCode n1, nameCode n2, nameCode n3, 0⟩)
  | .unassignedWord w => some w
  | .illegalWord w => some w
  | _ => none

/-- The 32-bit word of a sequencer instruction (R332, R333). -/
def encodeSeq : Instr → Option (BitVec 32)
  | .seqLi rd imm => some (1#6 ++ rd ++ imm)
  | .seqAdd rd ra rb => some (2#6 ++ rd ++ ra ++ rb ++ 0#14)
  | .seqAddi rd ra imm => some (3#6 ++ rd ++ ra ++ imm)
  | .seqSub rd ra rb => some (4#6 ++ rd ++ ra ++ rb ++ 0#14)
  | .seqShl rd ra rb => some (5#6 ++ rd ++ ra ++ rb ++ 0#14)
  | .seqShr rd ra rb => some (6#6 ++ rd ++ ra ++ rb ++ 0#14)
  | .seqAnd rd ra rb => some (7#6 ++ rd ++ ra ++ rb ++ 0#14)
  | .seqOr rd ra rb => some (8#6 ++ rd ++ ra ++ rb ++ 0#14)
  | .seqBeq ra rb off => some (9#6 ++ ra ++ rb ++ off)
  | .seqBne ra rb off => some (10#6 ++ ra ++ rb ++ off)
  | .seqBlt ra rb off => some (11#6 ++ ra ++ rb ++ off)
  | .seqJ off => some (12#6 ++ off)
  | .seqArg rd n => some (13#6 ++ rd ++ 0#16 ++ n)
  | .seqRec ra rb ovr => some (14#6 ++ ra ++ rb ++ 0#17 ++ bit1 ovr)
  | .seqPwait ra => some (15#6 ++ ra ++ 0#22)
  | .seqCnst ra i => some (16#6 ++ ra ++ 0#10 ++ i)
  | .seqArrv ra n => some (17#6 ++ ra ++ 0#6 ++ n)
  | .seqEvt ra => some (18#6 ++ ra ++ 0#22)
  | .seqHalt => some (19#6 ++ 0#26)
  | _ => none

/-- The bytes of an instruction as the hardware stores them (R50, R332). -/
def encode (i : Instr) : Option (List Byte) :=
  match encodeWord i with
  | some w => some (toBytes 8 w.toNat)
  | none => (encodeSeq i).map (fun w => toBytes 4 w.toNat)

end Sys2Proof
end

