-- ==== Sys2Proof/Machine/Crypto.lean ====
section
/-!
DEFINITION. The cryptographic functions that the spec names: AES-256 (FIPS 197), AES-256-XTS with the 64-byte line as data unit (R145), the AES
key unwrapping of RFC 3394 (R417), AES-GMAC (R408), and the CRC-32 of IEEE 802.3 (R291). Bytes are lists of `Byte`.
-/

namespace Sys2Proof.Machine

/-- Multiplication by x in GF(2^8) (AES polynomial). -/
def xtime (b : Byte) : Byte := if b.getLsbD 7 then (b <<< 1) ^^^ 0x1B else b <<< 1

/-- Multiplication in GF(2^8), `n` bits of `a` from bit 0. -/
def gmulBits : Nat → Byte → Byte → Byte
  | 0, _, _ => 0
  | n + 1, a, b => (if a.getLsbD 0 then b else 0) ^^^ gmulBits n (a >>> 1) (xtime b)
def gmul (a b : Byte) : Byte := gmulBits 8 a b

/-- b^254, the inverse (0 for 0). -/
def ginv (b : Byte) : Byte :=
  let b2 := gmul b b
  let b3 := gmul b2 b
  let b6 := gmul b3 b3
  let b12 := gmul b6 b6
  let b15 := gmul b12 b3
  let b30 := gmul b15 b15
  let b60 := gmul b30 b30
  let b120 := gmul b60 b60
  let b126 := gmul b120 b6
  let b127 := gmul b126 b
  gmul b127 b127

def rotl8 (b : Byte) (k : Nat) : Byte := b.rotateLeft k
/-- The AES S-box. -/
def sbox (x : Byte) : Byte :=
  let b := ginv x
  b ^^^ rotl8 b 1 ^^^ rotl8 b 2 ^^^ rotl8 b 3 ^^^ rotl8 b 4 ^^^ 0x63
/-- The inverse S-box. -/
def sboxInv (y : Byte) : Byte := ginv (rotl8 y 1 ^^^ rotl8 y 3 ^^^ rotl8 y 6 ^^^ 0x05)

def xorBytes (a b : List Byte) : List Byte := List.zipWith (· ^^^ ·) a b

/-- AES-256 key expansion: `n` more 4-byte words, newest first; `i` is the index of the next word. -/
def keyExpand : Nat → Nat → Byte → List (List Byte) → List (List Byte)
  | 0, _, _, ws => ws
  | n + 1, i, rc, ws =>
    let last := ws.headD []
    let back := ws.getD 7 []
    let t :=
      if i % 8 = 0 then xorBytes ((last.drop 1 ++ last.take 1).map sbox) [rc, 0, 0, 0]
      else if i % 8 = 4 then last.map sbox
      else last
    keyExpand n (i + 1) (if i % 8 = 0 then xtime rc else rc) (xorBytes back t :: ws)

/-- Consecutive pieces of `k` bytes. -/
def chunks (k : Nat) : Nat → List Byte → List (List Byte)
  | 0, _ => []
  | n + 1, l => l.take k :: chunks k n (l.drop k)

/-- The 15 round keys of AES-256. -/
def roundKeys (key : List Byte) : List (List Byte) :=
  let ws := (keyExpand 52 8 1 (chunks 4 8 key).reverse).reverse
  (List.range 15).map (fun r => ((ws.drop (4 * r)).take 4).flatten)

def shiftRows (s : List Byte) : List Byte := (List.range 16).map (fun i => s.getD ((i + 4 * (i % 4)) % 16) 0)
def shiftRowsInv (s : List Byte) : List Byte := (List.range 16).map (fun i => s.getD ((i + 12 * (i % 4)) % 16) 0)
/-- MixColumns with a row of coefficients. -/
def mixWith (c : List Byte) (s : List Byte) : List Byte :=
  (List.range 16).map fun i =>
    (List.range 4).foldl (fun acc j => acc ^^^ gmul (c.getD ((j + 4 - i % 4) % 4) 0) (s.getD (4 * (i / 4) + j) 0)) 0

/-- AES-256 encryption of a block. -/
def aesEnc (key blk : List Byte) : List Byte :=
  let rk := roundKeys key
  let st := ((rk.drop 1).take 13).foldl (fun s k => xorBytes (mixWith [2, 3, 1, 1] (shiftRows (s.map sbox))) k) (xorBytes blk (rk.headD []))
  xorBytes (shiftRows (st.map sbox)) (rk.getD 14 [])

/-- AES-256 decryption of a block. -/
def aesDec (key blk : List Byte) : List Byte :=
  let rk := roundKeys key
  let st := ((rk.drop 1).take 13).reverse.foldl (fun s k => mixWith [14, 11, 13, 9] (xorBytes ((shiftRowsInv s).map sboxInv) k))
    (xorBytes blk (rk.getD 14 []))
  xorBytes ((shiftRowsInv st).map sboxInv) (rk.headD [])

/-- Multiplication of an XTS tweak by x in GF(2^128), little-endian. -/
def tweakNext (t : List Byte) : List Byte :=
  let n := ofBytes t
  let m := (2 * n) % 2 ^ 128
  toBytes 16 (if n / 2 ^ 127 = 1 then m ^^^ 0x87 else m)

/-- The blocks of an XTS data unit under a block function. -/
def xtsBlocks (f : List Byte → List Byte) : Nat → List Byte → List Byte → List Byte
  | 0, _, _ => []
  | n + 1, tw, l => xorBytes (f (xorBytes (l.take 16) tw)) tw ++ xtsBlocks f n (tweakNext tw) (l.drop 16)

/-- A stored line from plain data: AES-256-XTS, tweak PA[51:6] (R145). -/
def xtsEnc (key : List Byte) (line : Nat) (data : List Byte) : List Byte :=
  xtsBlocks (aesEnc (key.take 32)) 4 (aesEnc (key.drop 32) (toBytes 16 line)) data
/-- Plain data from a stored line. -/
def xtsDec (key : List Byte) (line : Nat) (data : List Byte) : List Byte :=
  xtsBlocks (aesDec (key.take 32)) 4 (aesEnc (key.drop 32) (toBytes 16 line)) data

/-- One step of the unwrapping of RFC 3394: `t` counts down from 6·n. -/
def unwrapSteps (kek : List Byte) : Nat → List Byte → List (List Byte) → List Byte × List (List Byte)
  | 0, a, r => (a, r)
  | t + 1, a, r =>
    let i := t % r.length
    let ax := xorBytes a (toBytes 8 (t + 1)).reverse
    let b := aesDec kek (ax ++ r.getD i [])
    unwrapSteps kek t (b.take 8) (r.set i (b.drop 8))

/-- AES-KW unwrapping of a 72-byte wrapped key (R417); none when the integrity check fails. -/
def unwrapKey (kek w : List Byte) : Option (List Byte) :=
  let r := unwrapSteps kek 48 (w.take 8) (chunks 8 8 (w.drop 8))
  if r.1 = List.replicate 8 0xA6 then some r.2.flatten else none

/-- Multiplication in the field of GHASH: bit 0 is the most significant bit of the first byte. -/
def ghashMul : Nat → Nat → Nat → Nat
  | 0, _, _ => 0
  | n + 1, x, v =>
    (if x / 2 ^ n % 2 = 1 then v else 0) ^^^ ghashMul n x (if v % 2 = 1 then (v / 2) ^^^ (0xE1 * 2 ^ 120) else v / 2)

def beNat (l : List Byte) : Nat := l.foldl (fun a b => 256 * a + b.toNat) 0

/-- The AES-256-GMAC tag of a message with a 96-bit IV (NIST SP 800-38D). -/
def gmac (key iv msg : List Byte) : List Byte :=
  let hk := beNat (aesEnc key (List.replicate 16 0))
  let nb := (msg.length + 15) / 16
  let blocks := chunks 16 nb (msg ++ List.replicate (16 * nb - msg.length) 0)
  let y := blocks.foldl (fun y b => ghashMul 128 (y ^^^ beNat b) hk) 0
  let y2 := ghashMul 128 (y ^^^ (8 * msg.length * 2 ^ 64)) hk
  xorBytes (toBytes 16 y2).reverse (aesEnc key (iv ++ [0, 0, 0, 1]))

/-- `n` bit steps of the reflected CRC-32 (IEEE 802.3). -/
def crcBits : Nat → BitVec 32 → BitVec 32
  | 0, c => c
  | n + 1, c => crcBits n (if c.getLsbD 0 then (c >>> 1) ^^^ 0xEDB88320 else c >>> 1)

/-- CRC-32: initial value all ones, final complement (R291). -/
def crc32 (bs : List Byte) : BitVec 32 := ~~~ (bs.foldl (fun c b => crcBits 8 (c ^^^ b.setWidth 32)) 0xFFFFFFFF#32)

end Sys2Proof.Machine
end

