-- ==== Sys2Proof/Machine/SMap.lean ====
section
/-!
DEFINITION. Finite maps as plain data: lists of (key, value) with strictly rising keys and no entry that holds the default value, so that equal
maps are equal lists. Memory, register files and every numbered collection of the state use them.
-/

namespace Sys2Proof.Machine

/-- A map from natural numbers; an unlisted key reads as the default. -/
abbrev SMap (α : Type) := List (Nat × α)

/-- The value at a key. -/
def SMap.get [Inhabited α] : SMap α → Nat → α
  | [], _ => default
  | (k, v) :: r, n => if n = k then v else SMap.get r n

/-- The rest of a map after a key has been put, in order. -/
def SMap.put : SMap α → Nat → α → SMap α
  | [], n, x => [(n, x)]
  | (k, v) :: r, n, x => if n < k then (n, x) :: (k, v) :: r else if n = k then (n, x) :: r else (k, v) :: SMap.put r n x

/-- A map without a key. -/
def SMap.del (m : SMap α) (n : Nat) : SMap α := m.filter (fun e => e.1 != n)

/-- Writing a value; writing the default removes the entry, so the form stays canonical. -/
def SMap.set [Inhabited α] [DecidableEq α] (m : SMap α) (n : Nat) (x : α) : SMap α :=
  if x = default then SMap.del m n else SMap.put m n x

/-- Changing the value at a key. -/
def SMap.upd [Inhabited α] [DecidableEq α] (m : SMap α) (n : Nat) (f : α → α) : SMap α := SMap.set m n (f (SMap.get m n))

/-- The keys at or above `lo`: a bound every key of a well-formed tail meets. -/
def SMap.above : SMap α → Nat → Bool
  | [], _ => true
  | (k, _) :: r, lo => lo ≤ k && SMap.above r (k + 1)

/-- The canonical form: keys strictly rise and no entry holds the default. -/
def SMap.wf [Inhabited α] [DecidableEq α] (m : SMap α) : Bool := SMap.above m 0 && m.all (fun e => e.2 != default)

/-- The keys of a map. -/
def SMap.keys (m : SMap α) : List Nat := m.map (·.1)

/-- Entries outside a range of keys. -/
def SMap.clear (m : SMap α) (lo n : Nat) : SMap α := m.filter (fun e => e.1 < lo || lo + n ≤ e.1)

end Sys2Proof.Machine
end

