-- ==== Sys2Proof/Machine/State.lean ====
section
/-!
DEFINITION. The state of the device: plain data, every piece of state that the spec names (INVENTORY.md lists them with their rules), and
`State.reset`, the state after a cold reset (R421).
-/

namespace Sys2Proof.Machine

-- ===== values =====

/-- A register value with its poison bit (R82). -/
structure PV where
  val : BitVec 64 := 0
  poi : Bool := false
  deriving DecidableEq, Repr, Inhabited

/-- Atomic operation request (R186 to R189). -/
structure AtomReq where
  op : BitVec 4 := 0        -- R187
  cas : Bool := false
  wide : Bool := false      -- 8 bytes
  fp : Bool := false
  val : BitVec 64 := 0
  cmp : BitVec 64 := 0
  deriving DecidableEq, Repr, Inhabited

/-- A leaf translation of one 64 KiB page of a context (R133, R134). -/
structure Leaf where
  pa : Nat := 0             -- physical base of the 64 KiB
  key : Nat := 0
  sa : Bool := false
  cp : Nat := 0
  fmt : Nat := 0
  bg : Nat := 0
  w : Bool := false
  x : Bool := false
  u : Bool := false
  deriving DecidableEq, Repr, Inhabited

/-- A translation kept by the machine's agents (R136, R137); `on` says that accesses use it now (log 10). -/
structure TlbEnt where
  ctx : Nat
  vpn : Nat
  leaf : Leaf
  on : Bool
  deriving DecidableEq, Repr, Inhabited

-- ===== the ordering machine (R159) =====

/-- How the bytes of a load become a register value (R151, R142). -/
inductive Ext where
  | zero
  | sign
  | dec (shp : Shape) (fmt bg : Nat) (scalePa : Nat)
  deriving DecidableEq, Repr, Inhabited

/-- What a queued operation does. -/
inductive OpKind where
  | load (ext : Ext)
  | store
  | atomic (r : AtomReq)
  | fence
  deriving DecidableEq, Repr, Inhabited

/-- A memory operation issued and not yet performed (IQ of R159). -/
structure MemOp where
  id : Nat := 0
  word : Nat := 0           -- the word that issued it: operations of one word are unordered among themselves (R161)
  kind : OpKind := .fence
  shared : Bool := false    -- shared-store offset (R182) instead of a physical address
  ldc : Bool := false       -- LDC: constant path (R153)
  pa : Nat := 0
  n : Nat := 0
  bytes : SMap (Option Byte) := []  -- a store's bytes by address
  poi : Bool := false
  key : Nat := 0
  sa : Bool := false
  cp : Nat := 0             -- cache policy of the page (R150)
  scope : Scope := .grp
  order : MOrder := .rlx
  tag : Nat := 0            -- the result in flight that it feeds
  reg : Nat := 0            -- operand code of the destination
  lane : Nat := 0
  deriving DecidableEq, Repr, Inhabited

/-- An entry of SB, CV or DV: the bytes one instruction gave one line (R159, log 4). In the buffer towards the shared store, whose poison marks
words (R149), a line is a word of 8 bytes. -/
structure MEnt where
  line : Nat := 0
  bytes : SMap (Option Byte) := []   -- by offset in the line
  dirty : Bool := false
  poi : Bool := false
  key : Nat := 0
  writer : Nat := 0                  -- the group whose write it is
  deriving DecidableEq, Repr, Inhabited

/-- A word as it stood before the last atomic that performed on it at H without the home's serialisation with the other side: address and length, the
side (host and peers, or the device), the earlier value (R176). -/
structure OldWord where
  pa : Nat := 0
  n : Nat := 0
  host : Bool := false
  val : Nat := 0
  deriving DecidableEq, Repr, Inhabited

/-- Home memory (H): stored bytes, poisoned lines, and the length of each line's coherence order (R159, R197). -/
structure HMem where
  bytes : SMap Byte := []
  poi : SMap Bool := []
  pos : SMap Nat := []
  deriving DecidableEq, Repr, Inhabited

-- ===== the group =====

/-- A frontier entry (R91), with the run state that a return left for it (R383). -/
structure Xfer where
  jump : List (Nat × (BitVec 64 × Nat × Nat)) := []   -- lane, target, priority, depth
  exits : BitVec 32 := 0
  eret : Option Bool := none
  yield : Bool := false
  decided : Bool := false
  deriving DecidableEq, Repr, Inhabited

/-- Run state (R70, R71): word position, temporaries, run hazard set, decided transfer. -/
structure RunState where
  pos : Nat := 0
  temps : SMap PV := []      -- key 32·k + lane
  tdef : BitVec 4 := 0       -- which temporaries the run has written
  hazard : List Nat := []    -- operand codes 0x000..0x13F
  xfer : Xfer := {}
  pass : Option Nat := none  -- the stage of a folded chain that control passes to at the run's trailer (R251)
  deriving DecidableEq, Repr, Inhabited

structure Entry where
  pc : BitVec 64 := 0
  prio : Nat := 0
  depth : Nat := 0
  mask : BitVec 32 := 0
  resume : Option RunState := none
  deriving DecidableEq, Repr, Inhabited

/-- The issuing run: its entry, the address of its next word, its run state. -/
structure Issue where
  ent : Entry := {}
  pc : BitVec 64 := 0
  rs : RunState := {}
  deriving DecidableEq, Repr, Inhabited

/-- Life-cycle states (R78). -/
inductive Life where
  | unborn | ready | issuing | parked | waiting | trapped | frozen | exited
  deriving DecidableEq, Repr, Inhabited

/-- A queue handle (R239). -/
structure QHandle where
  bound : Bool := false
  link : Bool := false
  addr : BitVec 64 := 0
  deriving DecidableEq, Repr, Inhabited

/-- One register write of a result (operand code, lane, value). -/
structure RegWrite where
  reg : Nat
  lane : Nat
  pv : PV
  deriving DecidableEq, Repr, Inhabited

/-- What a result in flight still waits for. -/
inductive WaitOn where
  | ops                            -- memory operations of its own tag
  | copies (ids : List Nat)        -- copies accepted before (DRAIN, TLBI)
  | partials (ids : List Nat)      -- partials not yet staged (RFLUSH)
  | load (cmp : Nat)               -- the loader (FCFG)
  | save (cmp : Nat)               -- a freeze and its save (FSTOP.save)
  | consts (cmp i : Nat)           -- units that have not switched (FCONST)
  | chain (id : Nat)               -- a fold or spread (CHFOLD, CHSPREAD)
  | engine (ids : List Nat)        -- engine entries (TLBI, R158)
  | ranks (ids : List Nat)         -- ranks of collectives (TLBI)
  deriving DecidableEq, Repr, Inhabited

/-- A class-V result in flight (R66). -/
structure Flight where
  tag : Nat := 0
  regs : List Nat := []            -- operand codes whose pending bit is set
  writes : List RegWrite := []
  flags : BitVec 5 := 0
  pinfo : List (Nat × BitVec 64) := []   -- POISON_INFO records that it delivers, each with its lane (R388, R439)
  waits : List WaitOn := []
  acquire : Bool := false          -- its return acts as an acquire at dev
  drainKinds : Nat := 0            -- DRAIN: kinds whose poisoned-line count it takes (R157)
  stage : Nat := 0                 -- the stage whose word it is, whose FPMODE takes its flags (R246)
  deriving DecidableEq, Repr, Inhabited

/-- An atomic-buffer entry (R190). -/
structure RedoEnt where
  pa : Nat := 0
  wide : Bool := false
  fp : Bool := false
  op : BitVec 4 := 0
  acc : BitVec 64 := 0
  key : Nat := 0
  deriving DecidableEq, Repr, Inhabited

/-- A read-set entry: line, recorded position, alternative (R197). -/
structure ReadEnt where
  line : Nat
  pos : Nat
  alt : Nat
  deriving DecidableEq, Repr, Inhabited

/-- A write-set entry: buffered bytes by offset and their poison (R197). -/
structure WriteEnt where
  line : Nat
  key : Nat
  bytes : SMap (Option Byte)
  poi : SMap Bool := []             -- poisoned bytes by offset
  whole : Bool := false             -- one clean store has covered all 64 bytes (R152)
  deriving DecidableEq, Repr, Inhabited

/-- A place to restart: address, priority, depth, return-stack entries by lane (R194, R200, R207). -/
structure Restart where
  pc : BitVec 64 := 0
  prio : Nat := 0
  depth : Nat := 0
  rstk : SMap (List (BitVec 64)) := []
  nest : Nat := 0
  deriving DecidableEq, Repr, Inhabited

/-- The transaction of a group (R194). -/
structure Tx where
  act : Bool := false
  lanes : BitVec 32 := 0
  restart : Restart := {}
  nest : Nat := 0
  alt : Nat := 0
  reads : List ReadEnt := []
  writes : List WriteEnt := []
  succ : Option Restart := none
  deriving DecidableEq, Repr, Inhabited

/-- The saved state of a trap (R378) or of an escalation (R379). -/
structure TrapState where
  pc : BitVec 64 := 0
  prio : Nat := 0
  depth : Nat := 0
  lanes : BitVec 32 := 0
  rs : RunState := {}
  trl : Bool := false        -- the trapping word is the run's trailer: it has no successor in the run
  deriving DecidableEq, Repr, Inhabited

/-- A word of a lane's compatibility buffer (R183): memory or shared-store word, bytes by offset in it, poison; `rel` is the level that a release
store among its writes names, 0 for none; `stage` is the stage of a chain whose stores it holds (R255). -/
structure CWord where
  stage : Nat := 0
  lane : Nat
  shared : Bool
  addr : Nat                        -- word address
  key : Nat
  cp : Nat := 0                     -- cache policy of its page (R150)
  bytes : SMap (Option Byte)
  poi : Bool
  rel : Nat
  deriving DecidableEq, Repr, Inhabited

/-- Lines that a waiting group is parked on (R209): memory lines, the core's pool line, the team's tile line. -/
inductive WLine where
  | mem (line pos : Nat)
  | pool (pos : Nat)
  | tiles (pos : Nat)
  deriving DecidableEq, Repr, Inhabited

/-- The special registers of group scope that are stored (R87). -/
structure Specials where
  group : BitVec 64 := 0
  team : BitVec 64 := 0
  cluster : BitVec 64 := 0
  grid : BitVec 64 := 0
  ngroup : BitVec 64 := 0
  nteam : BitVec 64 := 0
  argp : BitVec 64 := 0
  fpmode : BitVec 64 := 0
  rseed : BitVec 64 := 0
  deadline : BitVec 64 := 0
  uvec : BitVec 64 := 0
  trapCause : BitVec 64 := 0
  trapPc : BitVec 64 := 0
  trapAddr : BitVec 64 := 0
  emuWord : BitVec 64 := 0
  emuD : BitVec 64 := 0
  emuA : BitVec 64 := 0
  emuB : BitVec 64 := 0
  emuC : BitVec 64 := 0
  emuImm : BitVec 64 := 0
  emuShp : BitVec 64 := 0
  stkBase : BitVec 64 := 0
  stkLimit : BitVec 64 := 0
  txCause : Nat := 0        -- TX_STATUS.CAUSE
  txWpc : BitVec 64 := 0    -- TX_STATUS.WPC, as an address
  poisonInfo : BitVec 64 := 0
  deriving DecidableEq, Repr, Inhabited

/-- A group (R78 to R106). -/
structure Group where
  life : Life := .exited
  ctx : Nat := 0
  sup : Bool := false               -- runs at supervisor level
  tid : Nat := 0                    -- its team
  kern : Nat := 0                   -- its kernel's GRID
  slice : Nat := 0
  clu : Nat := 0
  die : Nat := 0
  slotNo : Nat := 0                 -- the die slot of its cluster (R347)
  xblk : Nat := 0                   -- declared extended blocks
  blocks : Nat := 0                 -- extended blocks held
  frontier : List Entry := []
  run : Option Issue := none
  v : SMap PV := []                 -- key 32·n + lane
  s : SMap PV := []
  m : SMap (BitVec 32) := []        -- m1..m7; m0 is hardwired
  q : SMap QHandle := []
  rstk : SMap (List (BitVec 64)) := []   -- by lane, newest first, at most 4
  rng : SMap (BitVec 32) := []
  ptab : SMap (BitVec 16) := []     -- key 512·table + entry
  ptabPoi : SMap Bool := []         -- key 16·table + line
  inflight : List Flight := []
  iq : List MemOp := []
  sb : List MEnt := []
  shsb : List MEnt := []            -- store buffer towards the shared store (R182)
  redo : List RedoEnt := []
  flushes : Nat := 0
  srcKey : Nat := 0                 -- (core, quadrant, slot) of the first placement as core·64 + quad·16 + slot
  spr : Specials := {}
  budget : Nat := 0
  budgeted : Bool := false
  tx : Tx := {}
  capCount : Nat := 0
  thaw : List WLine := []
  parkNames : List Nat := []
  trapS : Option TrapState := none
  escS : Option TrapState := none
  chain : Option (Nat × Nat) := none         -- chain number, stage (spread form)
  cbuf : List CWord := []                    -- compatibility buffers (R183)
  atBoundary : Bool := false                 -- stands at a quantum boundary (R184)
  roundDone : Bool := false                  -- the round for this boundary has taken place
  pastWord : Bool := false                   -- the boundary is one that a word reached by waiting: the word itself is over (R184)
  stopWait : Bool := false                   -- asked to stop (HELD slice, SAVE)
  yielded : Bool := false                    -- has just yielded (R346)
  safe : Bool := false                       -- its last trailer had Y set (R363)
  deriving DecidableEq, Repr, Inhabited

-- ===== teams and tiles =====

/-- A tile register (R257, R258). -/
structure Tile where
  dense : Bool := false
  int : Bool := false
  rank : Nat := 0
  poi : Bool := false
  flt : Nat := 0
  fblk : Nat := 0
  nextk : Nat := 0
  res : Bool := false
  tok : Bool := false
  d : SMap (BitVec 32) := []    -- 64·i + j
  u : SMap (BitVec 32) := []    -- U(i, l) at 64·l + i
  v : SMap (BitVec 32) := []    -- V(l, j) at 64·l + j
  deriving DecidableEq, Repr, Inhabited

/-- A team (R339, R257, R260). -/
structure Team where
  live : Bool := false
  ctx : Nat := 0
  grid : BitVec 64 := 0
  index : Nat := 0              -- TEAM
  clu : Nat := 0
  core : Nat := 0
  ngroup : Nat := 0
  shm : Nat := 0                -- units of 4 KiB
  sh : SMap Byte := []
  shPoi : SMap Bool := []       -- by 8-byte word
  tol : BitVec 64 := 0
  rcap : BitVec 64 := 31
  tileMode : BitVec 64 := 0
  quota : Nat := 0
  tiles : SMap Tile := []
  tlPos : Nat := 0              -- writes to the tile line
  engLines : List Nat := []     -- lines that the engine wrote for the team and no MXACQ has acquired yet (R178)
  exits : Nat := 0              -- groups of the launch that have exited
  deriving DecidableEq, Repr, Inhabited

/-- An engine entry with its snapshots (R272). -/
structure EngEnt where
  id : Nat := 0
  tid : Nat := 0
  ctx : Nat := 0
  sup : Bool := false
  blk : Nat := 0
  words : List (BitVec 64) := []
  amap : List (BitVec 64) := []
  bmap : List (BitVec 64) := []
  tol : BitVec 32 := 0
  rcap : Nat := 31
  dfall : Bool := false
  xl : List (Nat × Leaf) := []   -- translations of the 64 KiB pages of GLB rows
  badRow : Option Nat := none    -- a restored GLB entry whose row failed its translation (R367)
  flg : BitVec 5 := 0            -- flags of the chunks that a stopped MMA has done (R271, R279)
  deriving DecidableEq, Repr, Inhabited

/-- A copy in flight (R156). -/
structure Copy where
  id : Nat := 0
  core : Nat := 0
  ctx : Nat := 0
  tid : Nat := 0
  gid : Nat := 0
  src : BitVec 64 := 0
  dst : BitVec 64 := 0
  dec : Bool := false
  dshp : Nat := 0
  dkind : Nat := 0
  skind : Nat := 0
  rows : Nat := 0
  rowlen : Nat := 0
  spitch : BitVec 64 := 0
  dpitch : BitVec 64 := 0
  row : Nat := 0                  -- rows already copied
  xl : List (Nat × Leaf) := []
  cov : SMap (BitVec 64) := []    -- bytes written so far, by destination line
  bad : SMap Bool := []           -- destination lines written poisoned
  deriving DecidableEq, Repr, Inhabited

/-- A REDO partial (R190, R191). -/
structure Partial where
  id : Nat := 0
  ctx : Nat := 0
  grid : BitVec 64 := 0
  ent : RedoEnt := {}
  src : Nat := 0                  -- source key
  seq : Nat := 0
  deriving DecidableEq, Repr, Inhabited

-- ===== chains =====

/-- The per-stage state of R246 that a folded chain holds for a stage, with its suspended run. -/
structure StageState where
  frontier : List Entry := []
  run : Option Issue := none
  m : SMap (BitVec 32) := []
  q : SMap QHandle := []
  fpmode : BitVec 64 := 0
  rseed : BitVec 64 := 0
  rng : SMap (BitVec 32) := []
  rstk : SMap (List (BitVec 64)) := []
  deriving DecidableEq, Repr, Inhabited

/-- A stage (R244, R245). -/
structure Stage where
  pc : BitVec 64 := 0
  vbase : Nat := 0
  vlen : Nat := 0
  sbase : Nat := 0
  slen : Nat := 0
  arg : BitVec 64 := 0
  outq : BitVec 64 := 0
  gid : Nat := 0                  -- its group in spread form
  exited : Bool := false
  link : Option (List (BitVec 64) × Bool) := none   -- link register to the next stage with its poison, folded form
  linkPoi : List (BitVec 64) := []   -- POISON_INFO of a poisoned element that a fold took from its ring (R255, R388)
  st : StageState := {}
  deriving DecidableEq, Repr, Inhabited

/-- A fold or spread that has been asked for (R253 to R256): by a stage and the result to return, or by the scheduler (tag 0); `on` once the stage
has reached its trailer. -/
structure ChainWant where
  fold : Bool
  stage : Nat
  tag : Nat
  on : Bool
  deriving DecidableEq, Repr, Inhabited

/-- A chain (R244 to R255). -/
structure Chain where
  live : Bool := false
  core : Nat := 0
  tid : Nat := 0
  ctx : Nat := 0
  sup : Bool := false
  desc : BitVec 64 := 0
  bar : BitVec 64 := 0
  noSpread : Bool := false
  noFold : Bool := false
  folded : Bool := false
  gid : Nat := 0                  -- the chain's group in folded form
  running : Nat := 0
  wants : List ChainWant := []
  stages : List Stage := []
  deriving DecidableEq, Repr, Inhabited

-- ===== polder =====

/-- A token (R288); `scale` marks a scale token of a burst (R301). -/
structure Token where
  data : BitVec 64 := 0
  valid : Bool := false
  ends : BitVec 4 := 0
  poi : Bool := false
  scale : Bool := false
  deriving DecidableEq, Repr, Inhabited

/-- State of a unit or island between firings (R300 to R302, R306): `sum` is the sum, count or current scale; `started` says for DQNT that a burst is
open; `burst` counts the elements of the current burst, or an island's rows of the current segment; `closedA` says for QNT that it emits its burst;
`queue` holds the tokens of a BUF, the elements that a QNT gathers or emits, and an island's vector followed by its current row. -/
structure UnitState where
  sum : BitVec 64 := 0
  started : Bool := false
  burst : Nat := 0
  closedA : Bool := false
  closedB : Bool := false
  endsA : BitVec 4 := 0
  endsB : BitVec 4 := 0
  poi : Bool := false
  queue : List Token := []
  deriving DecidableEq, Repr, Inhabited

/-- A stream record as accepted (R318, R319). -/
structure StreamRec where
  write : Bool := false
  dmode : Nat := 0
  ew : Nat := 0
  tfmt : Nat := 0
  base : Nat := 0
  badBase : Bool := false         -- OVR with d(RB)[63:55] nonzero (R334)
  counts : List Nat := []
  strides : List (BitVec 64) := []
  cmds : List (BitVec 64) := []   -- the commands as stored, with BASE as accepted (R336)
  deriving DecidableEq, Repr, Inhabited

/-- A sluice of a compartment (R334, R336). The bytes that the active write record gave each line, and the lines that it poisoned, decide what one
record's writes do to a poisoned line (R152). -/
structure Sluice where
  active : Option StreamRec := none
  posn : Nat := 0                 -- position of the walk
  waiting : List StreamRec := []
  stalled : Bool := false
  cov : SMap (BitVec 64) := []
  bad : SMap Bool := []
  deriving DecidableEq, Repr, Inhabited

/-- What a sequencer waits for at its word (R333, R334). -/
inductive SeqWait where
  | none
  | room (slc : Nat)              -- REC: a place behind the sluice's active record
  | done (mask : BitVec 32)       -- PWAIT: the records of these sluices
  | consts (i : Nat)              -- CNST: the units that still read the old value
  deriving DecidableEq, Repr, Inhabited

/-- The sequencer (R331). -/
structure Seqr where
  pc : BitVec 64 := 0
  d : SMap (BitVec 64) := []
  on : Bool := false
  halted : Bool := false
  stalled : Bool := false
  wait : SeqWait := .none
  deriving DecidableEq, Repr, Inhabited

/-- Compartment states (R289). -/
inductive CState where
  | empty | loading | loaded | running | freezing
  deriving DecidableEq, Repr, Inhabited

/-- The planes of a configuration (R291 to R295). -/
structure Planes where
  cfgid : Nat := 0
  crc : Nat := 0
  shr : Nat := 0
  shc : Nat := 0
  nodes : List (BitVec 64) := []
  edges : List (BitVec 64) := []
  consts : List (BitVec 64) := []
  depths : List (BitVec 32) := []
  deriving DecidableEq, Repr, Inhabited

/-- A constant being rewritten: entry, old value, nodes that still read it (R303). -/
structure ConstSwitch where
  entry : Nat
  old : BitVec 64
  nodes : List Nat
  deriving DecidableEq, Repr, Inhabited

/-- A load under way (R311): the state before it, the result that returns its code (0: none), the header as read, where its bytes are, and the
translations of its pages and of the image that a restore reads. -/
structure Loading where
  prev : CState := .empty
  tag : Nat := 0
  hdr : List (BitVec 64) := []
  va : BitVec 64 := 0
  phys : Option Nat := none       -- a context restore's save record (R368)
  xl : List (Nat × Leaf) := []
  imgHdr : List (BitVec 64) := []
  imgPoi : Bool := false
  restore : Bool := false
  nocache : Bool := false
  sup : Bool := false
  ctx : Nat := 0                  -- context of the group that asked
  deriving DecidableEq, Repr, Inhabited

/-- What the machine keeps of a saved run beside its save, which has no place for it: the level of the FRUN, and tokens of nodes beyond the save's size
(log 26). -/
structure KeptRun where
  ctx : Nat := 0
  pa : Nat := 0                   -- the save's physical address
  sup : Bool := false
  held : SMap (List Token) := []
  deriving DecidableEq, Repr, Inhabited

/-- A save under way (R305, R311). -/
structure Saving where
  tag : Nat := 0
  va : BitVec 64 := 0
  phys : Option Nat := none
  xl : List (Nat × Leaf) := []
  deriving DecidableEq, Repr, Inhabited

/-- A compartment (R287 to R315). -/
structure Compartment where
  rect : Option (Nat × Nat × Nat × Nat) := none   -- origin row and column, rows and columns of blocks
  grant : Nat := 0                -- context
  slmask : BitVec 32 := 0
  st : CState := .empty
  planes : Planes := {}
  imgva : BitVec 64 := 0
  islands : List Nat := []
  bufs : SMap (List Token) := []  -- by edge, head first
  units : SMap UnitState := []
  switching : List ConstSwitch := []
  flg : BitVec 5 := 0
  err : Nat := 0
  bar : BitVec 64 := 0
  barAt : Nat × Nat := (0, 0)     -- physical address and key index of the barrier
  sup : Bool := false             -- level of the FRUN
  args : List (BitVec 64) := []   -- snapshot of the argument block, by word
  seq : Seqr := {}
  sl : SMap Sluice := []
  quiet : Nat := 0                -- consecutive quiet fabric clocks (R304)
  loading : Option Loading := none
  saving : Option Saving := none
  deriving DecidableEq, Repr, Inhabited

-- ===== kernels, contexts =====

/-- Kernel states (R340). -/
inductive KState where
  | running | settling | complete | refused | aborted
  deriving DecidableEq, Repr, Inhabited

/-- Slice states (R343). -/
inductive SlState where
  | unstarted | active | held | done
  deriving DecidableEq, Repr, Inhabited

/-- Unstarted clusters of a slot: first and number (R347, R348). -/
structure Range where
  slice : Nat
  die : Nat
  slot : Option Nat               -- none: still with the die's distributor
  first : Nat
  n : Nat
  deriving DecidableEq, Repr, Inhabited

/-- An accepted kernel (R337 to R351). -/
structure Kernel where
  st : KState := .running
  ctx : Nat := 0
  grid : BitVec 64 := 0
  rep : Bool := false
  entry : BitVec 64 := 0
  argp : BitVec 64 := 0
  uvec : BitVec 64 := 0
  crows : Nat := 1
  ccols : Nat := 1
  ngroup : Nat := 1
  xblk : Nat := 0
  nclu : Nat := 1
  quota : Nat := 0
  shm : Nat := 0
  stkbase : BitVec 64 := 0
  stkper : BitVec 64 := 0
  deadline : Nat := 0
  dstep : Nat := 0
  budget : Nat := 0
  slen : Nat := 1
  bar : BitVec 64 := 0
  dmask : Nat := 0
  slices : SMap SlState := []     -- by slice; unlisted ones are unstarted
  ranges : List Range := []       -- unstarted clusters handed out
  handed : List Nat := []         -- slices already divided among the dies
  placed : Nat := 0               -- clusters placed
  exited : SMap Nat := []         -- groups that have exited, by slice
  snap : SMap Byte := []          -- stored bytes at the launch (R52, R153)
  deriving DecidableEq, Repr, Inhabited

/-- Context states (R358). -/
inductive CtxState where
  | free | active | halted | saving | saved | restoring | quarantined | ending
  deriving DecidableEq, Repr, Inhabited

/-- A launch queue found unusable: its number, its descriptor's line and that line's position then; `again` says that a TLBI, a RESUME or a
RESTORE has come since (R341). -/
structure BadQueue where
  lq : Nat := 0
  line : Option (Nat × Nat) := none
  again : Bool := false
  deriving DecidableEq, Repr, Inhabited

/-- A context: its descriptor as read (R356) and its state. -/
structure Ctx where
  st : CtxState := .free
  hcause : Nat := 0
  root : Nat := 0
  sup : Bool := false
  compat : Bool := false
  share : Nat := 0
  latb : Nat := 0
  ywait : Nat := 0
  rdq : Nat := 0
  keybase : Nat := 0
  keycnt : Nat := 0
  fq : Nat := 0
  savepa : Nat := 0
  savelen : Nat := 0
  lqs : List (BitVec 64) := []
  cores : BitVec 384 := 0
  popped : Nat := 0
  badq : List BadQueue := []
  frecs : List (List Byte) := []  -- fault records waiting for room, oldest first (R328, R374)
  saveClock : Nat := 0            -- clock at which SAVE was accepted (R363)
  wasHalted : Bool := false       -- it was HALTED when SAVE was accepted (R363)
  deriving DecidableEq, Repr, Inhabited

/-- Why a group is FROZEN: its context is saved, its slice is HELD (R345), or it yielded to an earlier slice (R346). -/
inductive FrozenBy where
  | save | held | yield
  deriving DecidableEq, Repr, Inhabited

/-- A FROZEN group: its record in the save area, and what the record has no place for (log 26). `due` says that RESTORE has read the record, or that
the supervisor has resumed the group's slice. -/
structure Frozen where
  pa : Nat := 0
  ctx : Nat := 0
  why : FrozenBy := .save
  due : Bool := false
  x : Group := {}
  deriving DecidableEq, Repr, Inhabited

-- ===== links, host =====

/-- A device link (R394 to R398). -/
structure Link where
  en : Bool := false
  st : Nat := 0                   -- R395 codes
  replay : Nat := 0
  peer : BitVec 16 := 0
  txSeq : BitVec 12 := 0
  rxSeq : BitVec 12 := 0
  unacked : List (List Byte) := []
  crcFails : Nat := 0             -- one flit's CRC failures in a row
  naked : Bool := false           -- a NAK is out: flits are discarded until the replay
  deriving DecidableEq, Repr, Inhabited

/-- A link transfer in flight on behalf of a rank (R397, R226, R401): a PUT's data to a peer address, or the traffic of a collective with one
neighbour. -/
structure Transfer where
  id : Nat := 0
  link : Nat := 0
  rank : Nat := 0
  peerAddr : BitVec 64 := 0
  data : List Byte := []
  poiLines : List Nat := []       -- destination lines fed by poisoned sources
  tries : Nat := 0
  deriving DecidableEq, Repr, Inhabited

/-- A rank of a collective accepted by COLL (R401, R402). -/
structure Rank where
  id : Nat := 0
  ctx : Nat := 0
  sup : Bool := false
  gid : Nat := 0
  op : Nat := 0
  dt : Nat := 0
  rop : Nat := 0
  k : Nat := 0
  p : Nat := 1
  rank : Nat := 0
  tag : BitVec 64 := 0
  src : BitVec 64 := 0
  dst : BitVec 64 := 0
  count : Nat := 0
  bar : BitVec 64 := 0
  res : BitVec 64 := 0
  ids : List (BitVec 16) := []
  xl : List (Nat × Leaf) := []
  data : List Byte := []          -- its contribution, read when the rank is accepted
  poi : SMap Bool := []           -- elements of it that lie on poisoned lines
  resid : List Byte := []         -- with K > 0, the residual that it leaves (R404)
  written : Bool := false         -- its destination and its residual hold their values at their homes
  done : Bool := false
  deriving DecidableEq, Repr, Inhabited

/-- What a rank on another device contributes, as its links deliver it. -/
structure RemoteVec where
  tag : BitVec 64
  p : Nat
  rank : Nat
  data : List Byte
  poi : SMap Bool
  deriving DecidableEq, Repr, Inhabited

/-- A request at a home controller (R371, R372). -/
structure HReq where
  cls : Nat                       -- context, or 64 for the residual class
  cost : Nat
  core : Bool
  latb : Nat
  arrived : Nat
  deriving DecidableEq, Repr, Inhabited

/-- The scheduler of a home controller (R371). -/
structure Home where
  reqs : List HReq := []
  deficit : SMap Int := []
  cur : Option Nat := none        -- the class being served in this round
  served : Nat := 0               -- lines served so far
  deriving DecidableEq, Repr, Inhabited

/-- A key slot (R145, R417): disabled, plain, or a 64-byte XTS key pair. -/
inductive KeySlot where
  | disabled
  | plain
  | key (k : List Byte)
  deriving DecidableEq, Repr, Inhabited

/-- A firmware image that an update has installed: its bytes, its security version, the signing key and the signature (R418). -/
structure FwImage where
  image : List Byte := []
  ver : Nat := 0
  key : List Byte := []           -- the two coordinates of the public key
  sig : List Byte := []           -- r and s
  deriving DecidableEq, Repr, Inhabited

/-- The device registers that are stored (R409); pending commands with the agent that wrote them. -/
structure Regs where
  devId : BitVec 16 := 0
  ctxCmd : BitVec 64 := 0
  ctxDesc : BitVec 64 := 0
  trapCmd : BitVec 64 := 0
  keyCmd : BitVec 64 := 0
  alarm : BitVec 64 := 0
  bootStat : Nat := 5
  capHead : BitVec 64 := 0
  caps : SMap (BitVec 64) := []   -- words of 0x5000..0x53FF by index
  ctxPend : List (BitVec 64) := []
  trapPend : List (BitVec 64) := []
  keyPend : List (BitVec 64 × RegAgent) := []
  mcCmd : SMap (BitVec 64) := []
  mcPend : SMap (List (BitVec 64)) := []
  slResume : SMap (BitVec 64) := []
  slPend : SMap (List (BitVec 64)) := []
  plGrant : SMap (BitVec 64) := []
  plPend : SMap (List (BitVec 64)) := []
  hbStat : SMap (BitVec 64) := []
  dbStat : SMap (BitVec 64) := []
  win : SMap (BitVec 64) := []    -- 16·link + w
  ncBind : SMap (BitVec 64) := []
  ncSeq : SMap Nat := []
  ncDrop : SMap (BitVec 64) := []
  netRx : SMap (BitVec 64) := []
  netTx : SMap (BitVec 64) := []
  netDrop : SMap (BitVec 64) := []
  haMap : SMap (BitVec 64) := []
  deriving DecidableEq, Repr, Inhabited

-- ===== who moves next =====

/-- The agent whose word or event `exec` runs. -/
inductive Agent where
  | none
  | group (g : Nat)
  | seqr (cmp : Nat)
  | outside
  deriving DecidableEq, Repr, Inhabited

/-- One step of some agent (log 1). The steps that are table rows are `event`s; `word` and `seqWord` fetch and run a word; the others are the
ordering machine's steps (R163), time, kept translations, and the smaller steps of agents. -/
inductive Action where
  | event (i : Instr)
  | word (g : Nat)
  | seqWord (cmp : Nat)
  | perform (g id : Nat) (fill : Nat)
  | pass (lvl inst ix : Nat)      -- lvl 0 SB, 1 CV, 2 DV, 3 the store buffer towards the shared store
  | drop (lvl inst ix : Nat)
  | time (n : Nat)
  | tlbFill (ctx vpn set : Nat)   -- set: 0 the page's own entry, else the size of the contiguity set whose first entry is used (R137)
  | tlbSet (ix : Nat) (on : Bool)
  | copyRow (id : Nat)
  | switchConst (cmp node : Nat)
  | cacheDrop (ix : Nat)
  | request (stack cls cost : Nat) (core : Bool)
  | fold (chain : Nat) (f : Bool)
  | flitSend (link typ : Nat) (payload : List Byte)
  | ack (link n : Nat)
  | remoteData (v : RemoteVec)
  | bootStep                      -- the next stage of a cold reset (R419, R421)
  deriving DecidableEq, Repr, Inhabited

-- ===== faults and refusals =====

/-- Why a step stops with a fault. -/
inductive Fault where
  | noIssuer   -- raised by `exec` on an instruction word when no group issues, or on a sequencer word when no sequencer runs; safe: no step of
               -- `step` does so
  deriving DecidableEq, Repr, Inhabited

/-- Why an instruction has no meaning in the model. -/
inductive Refusal where
  | notModelled (mnemonic : String)   -- raised by an arm of `exec` whose instruction has no meaning yet; safe: the run stops
  deriving DecidableEq, Repr, Inhabited

-- ===== the state =====

/-- The device's state. -/
structure State where
  agenda : List Action := []            -- the model's own: which agents move next (log 1)
  tick : Nat := 0                       -- the model's own: counter of free values drawn
  cur : Agent := .none                  -- the model's own: whose word or event runs
  nextId : Nat := 1                     -- the model's own: next identity for results, operations, copies
  h : HMem := {}
  cv : SMap (List MEnt) := []           -- by core
  dv : SMap (List MEnt) := []           -- by die
  tlb : List TlbEnt := []
  oldWords : List OldWord := []         -- what an atomic of the other side may still take as old value (R176)
  clock : Nat := 0
  groups : SMap Group := []             -- by core·48 + quadrant·12 + slot
  teams : SMap Team := []
  nextTeam : Nat := 1
  poolPos : SMap Nat := []              -- writes to each core's pool line
  engines : SMap (List EngEnt) := []    -- by core
  reentry : SMap (List EngEnt) := []    -- saved entries of restored teams waiting to re-enter (R279), by team
  copies : List Copy := []
  poiLines : List (Nat × Nat × Nat × Nat) := []   -- core, kind, copy, line written poisoned and not yet counted by a DRAIN (R157)
  flights : List Partial := []          -- partials on their way
  staged : List Partial := []
  chains : SMap Chain := []
  nextChain : Nat := 1
  comps : SMap Compartment := []
  keptRuns : List KeptRun := []         -- the model's own: what saves of running graphs have no place for (log 26)
  cache : List (Nat × Nat × Planes) := []    -- configuration caches: stack, context, planes (R298)
  kernels : List Kernel := []
  ctxs : SMap Ctx := []
  frozen : List Frozen := []
  keys : SMap KeySlot := []
  sessions : SMap (Option (List Byte)) := [] -- SPDM sessions: 0 host, 1 management controller
  links : SMap Link := []
  transfers : List Transfer := []
  ranks : List Rank := []
  remotes : List RemoteVec := []
  homes : SMap Home := []
  compressed : List Nat := []           -- compressed 64 KiB frames (R147)
  regs : Regs := {}
  hostMem : SMap Byte := []
  frames : SMap (List (List Byte)) := []     -- frames out of each port's send ring
  peerOut : List (Nat × PeerOp) := []   -- what finished PUTs have sent to peers, newest first: link, access
  hostOut : List (Nat × Nat) := []      -- MSI-X vectors signalled, newest first: vector, count
  fwVersion : Nat := 0                  -- fused security version
  fwKey : BitVec 256 := 0               -- fused digest of the signing key
  fwDigest : BitVec 256 := 0            -- measurement of the running firmware
  fwNext : Option FwImage := none       -- the image that the next boot verifies
  replies : List (List Byte) := []      -- bytes returned to the host or the management port, newest first
  deriving DecidableEq, Repr, Inhabited

/-- The capability list of the model's device: all five capabilities, at 0x5000 onwards (R415, log 3). -/
def capWords : SMap (BitVec 64) :=
  [(0, 0x0000501000010001#64), (2, 0x0000502000010002#64), (4, 0x0000503000010003#64), (6, 0x0000504000010004#64),
   (8, 0x0000000000010005#64), (9, 4500#64)]

/-- The machine after a cold reset (R421): memory zero without poison, compression off, every key slot disabled, every context FREE, links DOWN,
bindings, windows and HA_MAP clear, BOOT_STAT READY. -/
def State.reset : State :=
  { regs := { capHead := 0x5000, caps := capWords } }

end Sys2Proof.Machine
end

