-- ==== Sys2Proof/Machine/Home.lean ====
section
/-!
DEFINITION. The homes: the physical address map (R13, R14), home memory with its keys (R145, R146), poison (R152, R385) and coherence positions
(R197), and the status register of each home (R390).
-/

namespace Sys2Proof.Machine

-- ===== the physical address map (R13, R14) =====

def sramBase : Nat := 0x10000000000
def memTop : Nat := 0x10080000000
def devBase : Nat := 0x20000000000
def devTop : Nat := 0x20100000000
def apertureBase : Nat := 0x20080000000

/-- HBM4E or base-die SRAM. -/
def inMemory (pa : Nat) : Bool := pa < memTop
/-- The device register range. -/
def inDevice (pa : Nat) : Bool := devBase ≤ pa && pa < devTop
/-- The stack that owns an address of memory (R14). -/
def stackOf (pa : Nat) : Nat := if pa < sramBase then pa / 2 ^ 36 else (pa - sramBase) / 2 ^ 27
/-- The channel of an HBM4E address within its stack (R14). -/
def channelOf (pa : Nat) : Nat := pa / 256 % 32

/-- Core and die of a group number (R8, R9). -/
def coreOf (g : Nat) : Nat := g / 48
def dieOfCore (c : Nat) : Nat := c / 96

-- ===== dies, boundaries and routes (R6, R7, R14, R17, R20) =====

/-- A die's row and column in the arrangement of R6. -/
def dieRow (d : Nat) : Nat := d / 2
def dieCol (d : Nat) : Nat := d % 2
/-- The compute die that a stack and its base die belong to (R6). -/
def dieOfStack (s : Nat) : Nat := s / 4
/-- The die of a line's home (R17). -/
def homeDie (pa : Nat) : Nat := dieOfStack (stackOf pa)
/-- The L2 slice of that die that serves an HBM4E address (R14). -/
def l2Slice (pa : Nat) : Nat := stackOf pa % 4 * 8 + pa / 1024 % 8
/-- The dies of the I/O blocks: PCIe and the management port, a device link, an Ethernet port (R20). -/
def hostDie : Nat := 0
def linkDie (n : Nat) : Nat := n / 8
def portDie (p : Nat) : Nat := p
/-- The boundary of two neighbouring dies, as `DB_STAT` and `ERR_SUM` number them: 0–1, 2–3, 0–2, 1–3 (R6, R391). -/
def boundaryOf (a b : Nat) : Option Nat :=
  if a = b then none else if dieRow a = dieRow b then some (dieRow a) else if dieCol a = dieCol b then some (2 + dieCol a) else none
/-- The boundaries that traffic from one die to another crosses: along the row, then along the column (R7). -/
def route (a b : Nat) : List Nat :=
  let turn := 2 * dieRow a + dieCol b
  (boundaryOf a turn).toList ++ (boundaryOf turn b).toList

/-- Poisoned data travels from one die to another: every boundary on its way notes it (UE of R391). -/
def crossed (s : State) (a b : Nat) (poi : Bool) : State :=
  if poi then { s with regs := { s.regs with dbStat := (route a b).foldl (fun m i => m.upd i (fun x => x ||| 2)) s.regs.dbStat } } else s

-- ===== status of a home (R390) =====

def hbCE : BitVec 64 := 0x01
def hbUE : BitVec 64 := 0x02
def hbPW : BitVec 64 := 0x04
def hbROL : BitVec 64 := 0x08
def hbBAL : BitVec 64 := 0x10
def hbFRL : BitVec 64 := 0x20

/-- Setting status bits of a stack's home. -/
def hbSet (s : State) (stack : Nat) (b : BitVec 64) : State :=
  { s with regs := { s.regs with hbStat := s.regs.hbStat.upd stack (fun x => x ||| b) } }

-- ===== home memory =====

/-- The alarm of R420 is set: reads are poisoned and writes discarded. -/
def alarmed (s : State) : Bool := s.regs.alarm != 0

/-- The XTS key behind a key index; 0 stands for no key, `k + 1` for slot `k` (R145, R146). -/
def keyOf (s : State) (k : Nat) : Option (List Byte) :=
  if k = 0 then none else match s.keys.get (k - 1) with
    | .key b => some b
    | _ => none

/-- The 64 stored bytes of a line. -/
def hStored (s : State) (line : Nat) : List Byte := (List.range 64).map (fun i => s.h.bytes.get (64 * line + i))

/-- The bytes of a line as an agent reads them under a key index. -/
def hLine (s : State) (key line : Nat) : List Byte :=
  match keyOf s key with
  | none => hStored s line
  | some k => xtsDec k line (hStored s line)

/-- One byte as an agent reads it under a key index. -/
def hByte (s : State) (key pa : Nat) : Byte :=
  match keyOf s key with
  | none => s.h.bytes.get pa
  | some k => (xtsDec k (pa / 64) (hStored s (pa / 64))).getD (pa % 64) 0

/-- Whether a read of a line delivers poison. -/
def hPoi (s : State) (line : Nat) : Bool := alarmed s || s.h.poi.get line

/-- The length of a line's coherence order (R197). -/
def hPos (s : State) (line : Nat) : Nat := s.h.pos.get line

/-- Storing bytes at consecutive addresses. -/
def putBytes (m : SMap Byte) (pa : Nat) : List Byte → SMap Byte
  | [] => m
  | b :: r => putBytes (m.set pa b) (pa + 1) r

/-- Storing bytes given by offsets within a line. -/
def putOffsets (m : SMap Byte) (base : Nat) : SMap (Option Byte) → SMap Byte
  | [] => m
  | (o, some b) :: r => putOffsets (m.set (base + o) b) base r
  | (_, none) :: r => putOffsets m base r

/-- A line with some of its bytes replaced. -/
def mergeLine (old : List Byte) (bs : SMap (Option Byte)) : List Byte :=
  (List.range 64).map (fun i => (bs.get i).getD (old.getD i 0))

/-- The poison mark of a line after one write (R152): a poisoned write marks it; a clean write of all 64 bytes clears it. -/
def poiAfter (old : Bool) (count : Nat) (poi : Bool) : Bool := poi || (old && count < 64)

/-- One write appended at the home of a line: bytes by offset under a key index, and the poison it carries (R19, R145, R152, R390). -/
def hWrite (s : State) (key line : Nat) (bs : SMap (Option Byte)) (poi : Bool) : State :=
  if alarmed s then s
  else
    let mem := match keyOf s key with
      | none => putOffsets s.h.bytes (64 * line) bs
      | some k => putBytes s.h.bytes (64 * line) (xtsEnc k line (mergeLine (xtsDec k line (hStored s line)) bs))
    let s1 := { s with h := { bytes := mem, poi := s.h.poi.set line (poiAfter (s.h.poi.get line) bs.length poi),
                              pos := s.h.pos.set line (s.h.pos.get line + 1) } }
    if poi then hbSet s1 (stackOf (64 * line)) (hbUE ||| hbPW) else s1

/-- The bytes of a write that starts at an address, by line: `(line, bytes by offset)`. -/
def splitLines (pa : Nat) (data : List Byte) : List (Nat × SMap (Option Byte)) :=
  (List.range ((pa % 64 + data.length + 63) / 64)).map fun j =>
    let line := pa / 64 + j
    (line, (List.range 64).filterMap fun o =>
      if pa ≤ 64 * line + o then (data[64 * line + o - pa]?).map (fun b => (o, some b)) else none)

/-- One agent's write of consecutive bytes: one write to each line it touches (R152, R175). -/
def hWriteSpan (s : State) (key pa : Nat) (data : List Byte) (poi : Bool) : State :=
  (splitLines pa data).foldl (fun s l => if l.2.isEmpty then s else hWrite s key l.1 l.2 poi) s

/-- Consecutive bytes read at home. -/
def hRead (s : State) (key pa n : Nat) : List Byte := (List.range n).map (fun i => hByte s key (pa + i))

/-- Whether any line of a range reads poisoned. -/
def hPoiSpan (s : State) (pa n : Nat) : Bool := (List.range ((pa % 64 + n + 63) / 64)).any (fun j => hPoi s (pa / 64 + j))

/-- A little-endian number of `n` bytes read at home (R3). -/
def hNat (s : State) (key pa n : Nat) : Nat := ofBytes (hRead s key pa n)
/-- A 64-bit word read at home. -/
def hWord (s : State) (key pa : Nat) : BitVec 64 := BitVec.ofNat 64 (hNat s key pa 8)

/-- Data read at the home of a range arrives at a die: poisoned lines mark the boundaries that they cross (R7, R391). -/
def arrives (s : State) (die pa n : Nat) : State := crossed s (homeDie pa) die (hPoiSpan s pa n)

/-- One write that an agent at a die sends to the home of a line. -/
def hSend (s : State) (die key line : Nat) (bs : SMap (Option Byte)) (poi : Bool) : State :=
  crossed (hWrite s key line bs poi) die (homeDie (64 * line)) poi

/-- The same for consecutive bytes. -/
def hSendSpan (s : State) (die key pa : Nat) (data : List Byte) (poi : Bool) : State :=
  crossed (hWriteSpan s key pa data poi) die (homeDie pa) (poi && !data.isEmpty)

/-- Marking a line poisoned at its home (R385). -/
def hMark (s : State) (line : Nat) : State :=
  hbSet { s with h := { s.h with poi := s.h.poi.set line true } } (stackOf (64 * line)) hbUE

end Sys2Proof.Machine
end

