-- ==== Sys2Proof/Machine/Num.lean ====
section
/-!
DEFINITION. Numbers (chapter 03): the element formats of R23 and R27, exact values, the one rounding of R24 and R36 to R38 into every format
with its overflow (R37, R40, R41) and flags (R43), TS8 (R33 to R35), and exact arithmetic on values.
-/

namespace Sys2Proof.Machine

-- ===== formats =====

/-- Floating-point element formats (R23). -/
inductive FF where
  | fp64 | fp32 | fp16 | bf16 | e4m3 | e5m2 | e3m2 | e2m3 | e2m1
  deriving DecidableEq, Repr, Inhabited

/-- Width of the fraction field. -/
def FF.frac : FF → Nat
  | .fp64 => 52 | .fp32 => 23 | .fp16 => 10 | .bf16 => 7 | .e4m3 => 3 | .e5m2 => 2 | .e3m2 => 2 | .e2m3 => 3 | .e2m1 => 1
/-- Width of the exponent field. -/
def FF.expBits : FF → Nat
  | .fp64 => 11 | .fp32 => 8 | .fp16 => 5 | .bf16 => 8 | .e4m3 => 4 | .e5m2 => 5 | .e3m2 => 3 | .e2m3 => 2 | .e2m1 => 2
/-- Exponent bias. -/
def FF.bias : FF → Nat
  | .fp64 => 1023 | .fp32 => 127 | .fp16 => 15 | .bf16 => 127 | .e4m3 => 7 | .e5m2 => 15 | .e3m2 => 3 | .e2m3 => 1 | .e2m1 => 1
/-- Whether the format has infinities. -/
def FF.hasInf : FF → Bool
  | .fp64 | .fp32 | .fp16 | .bf16 | .e5m2 => true
  | _ => false
/-- Whether the format has a NaN. -/
def FF.hasNan : FF → Bool
  | .e3m2 | .e2m3 | .e2m1 => false
  | _ => true
/-- Whether NaNs may be signalling (R25). -/
def FF.hasSig : FF → Bool
  | .fp64 | .fp32 | .fp16 | .bf16 => true
  | _ => false
def FF.width (f : FF) : Nat := 1 + f.expBits + f.frac
/-- The magnitude code of the greatest finite value: exponent and fraction fields as one number. -/
def FF.maxCode (f : FF) : Nat :=
  if f.hasInf then (2 ^ f.expBits - 1) * 2 ^ f.frac - 1
  else if f.hasNan then 2 ^ (f.expBits + f.frac) - 2
  else 2 ^ (f.expBits + f.frac) - 1
/-- The magnitude code of infinity, where there is one. -/
def FF.infCode (f : FF) : Nat := (2 ^ f.expBits - 1) * 2 ^ f.frac
/-- The canonical NaN (R25). -/
def FF.canonNan : FF → Nat
  | .fp64 => 0x7FF8000000000000 | .fp32 => 0x7FC00000 | .fp16 => 0x7E00 | .bf16 => 0x7FC0 | .e4m3 => 0x7F | .e5m2 => 0x7E
  | _ => 0
/-- Bits of a sign and a magnitude code. -/
def FF.pack (f : FF) (neg : Bool) (code : Nat) : Nat := (if neg then 2 ^ (f.expBits + f.frac) else 0) + code

-- ===== exact values =====

/-- An exact value, or one known to lie strictly between `m·2^e` and `(m+1)·2^e` in magnitude when `st` is set. -/
inductive Val where
  | nan (sig : Bool)
  | inf (neg : Bool)
  | fin (neg : Bool) (m : Nat) (e : Int) (st : Bool)
  deriving DecidableEq, Repr, Inhabited

def Val.zero (neg : Bool) : Val := .fin neg 0 0 false
def Val.ofInt (x : Int) : Val := .fin (x < 0) x.natAbs 0 false
def Val.isNan : Val → Bool
  | .nan _ => true
  | _ => false
def Val.isSig : Val → Bool
  | .nan s => s
  | _ => false
def Val.isZero : Val → Bool
  | .fin _ 0 _ false => true
  | _ => false
def Val.isInf : Val → Bool
  | .inf _ => true
  | _ => false
/-- The sign of a value (false for NaN). -/
def Val.neg? : Val → Bool
  | .nan _ => false
  | .inf n => n
  | .fin n _ _ _ => n
def Val.negate : Val → Val
  | .nan s => .nan s
  | .inf n => .inf (!n)
  | .fin n m e st => .fin (!n) m e st
def Val.abs : Val → Val
  | .nan s => .nan s
  | .inf _ => .inf false
  | .fin _ m e st => .fin false m e st
/-- The value times a power of two. -/
def Val.scale (x : Val) (k : Int) : Val :=
  match x with
  | .fin n m e st => .fin n m (e + k) st
  | y => y

/-- The value of an encoding (R23, R25). -/
def FF.decode (f : FF) (bits : Nat) : Val :=
  let top := 2 ^ (f.expBits + f.frac)
  let neg := bits / top % 2 = 1
  let code := bits % top
  let ex := code / 2 ^ f.frac
  let fr := code % 2 ^ f.frac
  if f.hasInf && ex == 2 ^ f.expBits - 1 then
    if fr = 0 then .inf neg else .nan (f.hasSig && fr < 2 ^ (f.frac - 1))
  else if !f.hasInf && f.hasNan && code == top - 1 then .nan false
  else if ex = 0 then .fin neg fr (1 - (f.bias : Int) - f.frac) false
  else .fin neg (2 ^ f.frac + fr) ((ex : Int) - f.bias - f.frac) false

-- ===== flags (R42, R43) =====

def fNV : BitVec 5 := 0b10000
def fDZ : BitVec 5 := 0b01000
def fOF : BitVec 5 := 0b00100
def fUF : BitVec 5 := 0b00010
def fNX : BitVec 5 := 0b00001
def flagIf (c : Bool) (f : BitVec 5) : BitVec 5 := if c then f else 0

-- ===== rounding =====

/-- `x * 2^k` floored, with the remainder and the number of bits dropped. -/
def shiftDown (m : Nat) (k : Int) : Nat × Nat × Nat :=
  if k ≥ 0 then (m * 2 ^ k.toNat, 0, 0) else (m / 2 ^ (-k).toNat, m % 2 ^ (-k).toNat, (-k).toNat)

/-- Whether a magnitude with integer part `n`, remainder `rem` of `2^sh` and a sticky bit rounds away from zero (R36, R38). `draw` is R of R38. -/
def roundUp (mode : Rnd) (neg : Bool) (n rem sh : Nat) (st : Bool) (draw : Nat) : Bool :=
  let some? := rem != 0 || st
  match mode with
  | .rz => false
  | .rd => neg && some?
  | .ru => !neg && some?
  | .rna => 2 * rem ≥ 2 ^ sh && sh != 0
  | .rs => if st then draw * 2 ^ sh ≤ 2 ^ 24 * rem && sh != 0 else draw * 2 ^ sh < 2 ^ 24 * rem
  | _ => sh != 0 && (2 * rem > 2 ^ sh || (2 * rem == 2 ^ sh && (st || n % 2 == 1)))

/-- Result of an overflow (R37, R40, R41). -/
def overflowCode (f : FF) (mode : Rnd) (sat neg : Bool) : Nat :=
  let toMax := sat || (!f.hasNan) || mode == .rz || (mode == .rd && !neg) || (mode == .ru && neg)
  if toMax then f.pack neg f.maxCode else if f.hasInf then f.pack neg f.infCode else f.canonNan

/-- Rounding into a floating-point format: the bits and the flags (R24, R25, R36 to R38, R40, R41, R43). -/
def FF.round (f : FF) (mode : Rnd) (sat : Bool) (draw : Nat) (x : Val) : Nat × BitVec 5 :=
  match x with
  | .nan sig => if f.hasNan then (f.canonNan, flagIf sig fNV) else (0, fNV)
  | .inf neg =>
    if f.hasInf && !sat then (f.pack neg f.infCode, 0)
    else if f.hasNan && !f.hasInf && !sat then (f.canonNan, fNV)
    else (f.pack neg f.maxCode, fNX)
  | .fin neg m e st =>
    if m = 0 && !st then (f.pack neg 0, 0)
    else
      let top : Int := if m = 0 then e - 1 else (Nat.log2 m : Int) + e
      let emin : Int := 1 - (f.bias : Int)
      let q : Int := (if top < emin then emin else top) - f.frac
      let r := shiftDown m (e - q)
      let n := r.1
      let inexact := r.2.1 != 0 || st
      let up := roundUp mode neg n r.2.1 r.2.2 st draw
      let low := if top < emin then n else ((q + f.frac + f.bias).toNat) * 2 ^ f.frac + n - 2 ^ f.frac
      let code := if up then low + 1 else low
      if code > f.maxCode then (overflowCode f mode sat neg, fOF ||| fNX)
      else (f.pack neg code, flagIf inexact fNX ||| flagIf (inexact && code != 0 && code < 2 ^ f.frac) fUF)

/-- Rounding a value to an integer under a mode: the integer, and whether it is inexact (R36). -/
def roundInt (mode : Rnd) (draw : Nat) (x : Val) : Int × Bool :=
  match x with
  | .fin neg m e st =>
    let r := shiftDown m e
    let up := roundUp mode neg r.1 r.2.1 r.2.2 st draw
    let n : Int := if up then (r.1 : Int) + 1 else r.1
    (if neg then -n else n, r.2.1 != 0 || st)
  | _ => (0, false)

/-- Limits of an integer width (R22). -/
def intMin (w : Nat) (uns : Bool) : Int := if uns then 0 else -(2 ^ (w - 1) : Nat)
def intMax (w : Nat) (uns : Bool) : Int := if uns then (2 ^ w : Nat) - 1 else (2 ^ (w - 1) : Nat) - 1
/-- Clamping to an integer range (R40). -/
def clampInt (w : Nat) (uns : Bool) (x : Int) : Int := if x < intMin w uns then intMin w uns else if intMax w uns < x then intMax w uns else x
/-- The low `w` bits of an integer. -/
def wrapBits (w : Nat) (x : Int) : Nat := (x % (2 ^ w : Nat)).toNat
/-- A `w`-bit field as an integer (R22). -/
def toInt (w : Nat) (uns : Bool) (b : Nat) : Int := if uns then b else if b < 2 ^ (w - 1) then b else (b : Int) - (2 ^ w : Nat)

/-- Conversion of a value to an integer format: always saturating (R41). -/
def valToInt (w : Nat) (uns : Bool) (mode : Rnd) (draw : Nat) (x : Val) : Nat × BitVec 5 :=
  match x with
  | .nan _ => (0, fNV)
  | .inf neg => (wrapBits w (if neg then intMin w uns else intMax w uns), fNV)
  | y =>
    let r := roundInt mode draw y
    let c := clampInt w uns r.1
    if c != r.1 then (wrapBits w c, fNV) else (wrapBits w c, flagIf r.2 fNX)

-- ===== TS8 (R33 to R35) =====

/-- The value of a TS8 byte in units of 2^-6 (R33). -/
def ts8Int (b : Nat) : Int :=
  let term (sg sh : Nat) : Int := if sh = 7 then 0 else if sg = 1 then -(2 ^ (6 - sh) : Nat) else (2 ^ (6 - sh) : Nat)
  term (b / 128 % 2) (b / 16 % 8) + term (b / 8 % 2) (b % 8)
def ts8Val (b : Nat) : Val := .fin (ts8Int b < 0) (ts8Int b).natAbs (-6) false

/-- Candidate bytes in the order of R34: smaller a first, then smaller b; an absent term has sign bit 0; zero is 0x77 alone. -/
def ts8Cands : List Nat :=
  (List.range 8).flatMap fun a => (List.range 8).flatMap fun b =>
    ((List.range 2).flatMap fun sa => (List.range 2).map fun sb => sa * 128 + a * 16 + sb * 8 + b).filter
      (fun c => (a != 7 || c / 128 == 0) && (b != 7 || c / 8 % 2 == 0) && (ts8Int c != 0 || c == 0x77))

/-- The nearest TS8 byte, ties to the earlier candidate (R35): `x` and the candidates are compared after scaling by `2^k`. -/
def ts8Near (x : Int) (k : Nat) : List Nat → Nat × Nat → Nat
  | [], best => best.2
  | c :: r, best =>
    let d := (x - ts8Int c * (2 ^ k : Nat)).natAbs
    ts8Near x k r (if d < best.1 then (d, c) else best)

/-- Conversion into TS8 (R35). -/
def toTs8 (x : Val) : Nat × BitVec 5 :=
  match x with
  | .nan _ => (0x77, fNV)
  | .inf neg => (if neg then 0x88 else 0x00, fNX)
  | .fin neg m e _ =>
    if m = 0 then (0x77, 0)
    else
      let k := (-(e + 6)).toNat
      let u := m * 2 ^ (e + 6).toNat
      let xi : Int := if neg then -u else u
      let c := ts8Near xi k ts8Cands ((xi.natAbs + 1) * 2 ^ k + 512 * 2 ^ k, 0x77)
      if u > 128 * 2 ^ k then (if neg then 0x88 else 0x00, fOF ||| fNX)
      else (c, flagIf (xi != ts8Int c * (2 ^ k : Nat)) fNX)

-- ===== exact arithmetic =====

/-- A signed integer with exponent, as a value; an exact zero takes the sign `zneg`. -/
def Val.ofScaled (x : Int) (e : Int) (zneg : Bool) : Val := if x = 0 then .zero zneg else .fin (x < 0) x.natAbs e false

/-- The signed integer of a magnitude at exponent `e0 ≤ e`. -/
def alignTo (neg : Bool) (m : Nat) (e e0 : Int) : Int :=
  let k : Nat := m * 2 ^ (e - e0).toNat
  if neg then -(k : Int) else k

/-- The exact sum, and the flags of invalid operations (R24, R43). -/
def Val.add (mode : Rnd) (x y : Val) : Val × BitVec 5 :=
  match x, y with
  | .nan a, .nan b => (.nan false, flagIf (a || b) fNV)
  | .nan a, _ => (.nan false, flagIf a fNV)
  | _, .nan b => (.nan false, flagIf b fNV)
  | .inf a, .inf b => if a = b then (.inf a, 0) else (.nan false, fNV)
  | .inf a, _ => (.inf a, 0)
  | _, .inf b => (.inf b, 0)
  | .fin n1 m1 e1 _, .fin n2 m2 e2 _ =>
    if m1 = 0 && m2 = 0 then (.zero (if n1 = n2 then n1 else mode == .rd), 0)
    else
      let e0 := if e1 < e2 then e1 else e2
      (.ofScaled (alignTo n1 m1 e1 e0 + alignTo n2 m2 e2 e0) e0 (mode == .rd), 0)

/-- The exact product. -/
def Val.mul (x y : Val) : Val × BitVec 5 :=
  match x, y with
  | .nan a, .nan b => (.nan false, flagIf (a || b) fNV)
  | .nan a, _ => (.nan false, flagIf a fNV)
  | _, .nan b => (.nan false, flagIf b fNV)
  | .inf a, .inf b => (.inf (a != b), 0)
  | .inf a, .fin n m _ _ => if m = 0 then (.nan false, fNV) else (.inf (a != n), 0)
  | .fin n m _ _, .inf b => if m = 0 then (.nan false, fNV) else (.inf (n != b), 0)
  | .fin n1 m1 e1 _, .fin n2 m2 e2 _ => (.fin (n1 != n2) (m1 * m2) (e1 + e2) false, 0)

/-- The exact value of a·b + c (one rounding follows). -/
def Val.fma (mode : Rnd) (a b c : Val) : Val × BitVec 5 :=
  let p := a.mul b
  let r := p.1.add mode c
  (r.1, p.2 ||| r.2)

/-- Comparison of two values that are not NaN: their difference's sign. -/
def Val.cmp (x y : Val) : Ordering :=
  match x, y with
  | .inf a, .inf b => if a = b then .eq else if a then .lt else .gt
  | .inf a, _ => if a then .lt else .gt
  | _, .inf b => if b then .gt else .lt
  | .fin n1 m1 e1 _, .fin n2 m2 e2 _ =>
    let e0 := if e1 < e2 then e1 else e2
    compare (alignTo n1 m1 e1 e0) (alignTo n2 m2 e2 e0)
  | _, _ => .eq

/-- ⌊log2⌋ of a nonzero finite magnitude. -/
def Val.log2 : Val → Int
  | .fin _ m e _ => (Nat.log2 m : Int) + e
  | _ => 0

-- ===== stochastic rounding (R38) =====

/-- One step of the generator of R38. -/
def xorshift32 (s : BitVec 32) : BitVec 32 :=
  let a := s ^^^ (s <<< 13)
  let b := a ^^^ (a >>> 17)
  b ^^^ (b <<< 5)

/-- Seeding of a lane's state (R38). -/
def seedState (rseed : BitVec 64) (l : Nat) : BitVec 32 :=
  let s := rseed.setWidth 32 ^^^ BitVec.ofNat 32 l
  if s = 0 then 0x2545F491#32 else s

/-- R of R38: the state's upper 24 bits. -/
def drawOf (s : BitVec 32) : Nat := (s >>> 8).toNat

-- ===== element formats in registers and memory =====

/-- The element format of a register shape, for its numeric reading. -/
inductive EF where
  | int (w : Nat) (uns : Bool)
  | fp (f : FF)
  | ts8
  | mxint8
  deriving DecidableEq, Repr, Inhabited

def shapeFmt (s : Shape) (uns : Bool) : EF :=
  match s with
  | .i64 => .int 64 uns | .i32x2 => .int 32 uns | .i16x4 => .int 16 uns | .i8x8 => .int 8 uns | .i4x16 => .int 4 uns
  | .f64 => .fp .fp64 | .f32x2 => .fp .fp32 | .f16x4 => .fp .fp16 | .bf16x4 => .fp .bf16
  | .e4m3x8 => .fp .e4m3 | .e5m2x8 => .fp .e5m2 | .e2m1x16 => .fp .e2m1 | .ts8x8 => .ts8

/-- The floating-point format of a floating-point shape (FP64 for any other). -/
def shapeFF (s : Shape) : FF :=
  match s with
  | .f32x2 => .fp32 | .f16x4 => .fp16 | .bf16x4 => .bf16 | .e4m3x8 => .e4m3 | .e5m2x8 => .e5m2 | .e2m1x16 => .e2m1 | _ => .fp64

/-- The value that a bit field holds in an element format. -/
def EF.decode (f : EF) (b : Nat) : Val :=
  match f with
  | .int w uns => .ofInt (toInt w uns b)
  | .fp g => g.decode b
  | .ts8 => ts8Val b
  | .mxint8 => (Val.ofInt (toInt 8 false b)).scale (-6)

/-- Conversion of a value into an element format (R122, R29 step 3 for MXINT8). -/
def EF.encode (f : EF) (mode : Rnd) (sat : Bool) (draw : Nat) (x : Val) : Nat × BitVec 5 :=
  match f with
  | .int w uns => valToInt w uns mode draw x
  | .fp g => g.round mode sat draw x
  | .ts8 => toTs8 x
  | .mxint8 =>
    match x with
    | .nan _ => (0, fNV)
    | .inf neg => (wrapBits 8 (if neg then -127 else 127), fNX)
    | y =>
      let r := roundInt mode draw (y.scale 6)
      if r.1 > 127 then (127, fOF ||| fNX) else if r.1 < -127 then (wrapBits 8 (-127), fOF ||| fNX) else (wrapBits 8 r.1, flagIf r.2 fNX)

/-- The value of an E8M0 scale 0..254 as a power of two (R26). -/
def scaleExp (e : Nat) : Int := (e : Int) - 127

/-- The element format and width of a PTE FMT code (R141); 0 and the reserved codes give none. -/
def fmtOf? (c : Nat) : Option EF :=
  match c with
  | 1 => some (.fp .fp32) | 2 => some (.fp .fp16) | 3 => some (.fp .bf16) | 4 => some (.fp .e4m3) | 5 => some (.fp .e5m2)
  | 6 => some (.fp .e4m3) | 7 => some (.fp .e5m2) | 8 => some (.fp .e3m2) | 9 => some (.fp .e2m3) | 10 => some (.fp .e2m1)
  | 11 => some .mxint8 | 12 => some .ts8 | 13 => some (.int 8 false) | 14 => some (.int 4 false) | _ => none
def EF.width : EF → Nat
  | .int w _ => w
  | .fp f => f.width
  | .ts8 => 8
  | .mxint8 => 8
/-- Whether a FMT code is block-scaled (R27). -/
def fmtScaled (c : Nat) : Bool := 6 ≤ c && c ≤ 12
/-- emax of the element formats (R27). -/
def EF.emax : EF → Int
  | .fp .e4m3 => 8
  | .fp .e5m2 => 15
  | .fp .e3m2 => 4
  | .fp .e2m3 => 2
  | .fp .e2m1 => 2
  | .ts8 => 1
  | _ => 0
/-- Block length of a BG code (R134); reserved codes give none. -/
def bgLen? (c : Nat) : Option Nat := if c = 0 then some 32 else if c = 1 then some 16 else if c = 2 then some 64 else none

/-- Decoding a block-scaled element (R28): its exact value and NV for the scale 0xFF. -/
def decScaled (f : EF) (scale b : Nat) : Val × BitVec 5 :=
  if scale = 255 then (.nan false, fNV) else ((f.decode b).scale (scaleExp scale), 0)

/-- The greatest ⌊log2⌋ of the nonzero finite values of a block. -/
def maxLog : List Val → Option Int
  | [] => none
  | x :: r => match maxLog r with
    | none => if x.isZero then none else some x.log2
    | some k => if x.isZero then some k else some (if x.log2 < k then k else x.log2)

/-- Steps 1 and 2 of R29: the scale of a block and NV for a non-finite input. -/
def blockScale (f : EF) (xs : List Val) : Nat × BitVec 5 :=
  if xs.any (fun x => x.isNan || x.isInf) then (255, fNV)
  else match maxLog xs with
    | none => (0, 0)
    | some k => ((if k - f.emax + 127 < 0 then 0 else if 254 < k - f.emax + 127 then 254 else (k - f.emax + 127).toNat), 0)

/-- The encoding of +0 in an element format: 0x77 in TS8 (R34). -/
def EF.plusZero : EF → Nat
  | .ts8 => 0x77
  | _ => 0

/-- Step 3 of R29 and the element mode of QNT (R124): conversion of `x / 2^(E-127)`, always saturating, never NaN or infinity. -/
def encScaled (f : EF) (mode : Rnd) (draw scale : Nat) (x : Val) : Nat × BitVec 5 :=
  match x with
  | .nan _ => (f.plusZero, fNV)
  | .inf neg => match f with
    | .fp g => (g.pack neg g.maxCode, fNX)
    | .ts8 => (if neg then 0x88 else 0x00, fNX)
    | _ => (wrapBits 8 (if neg then -127 else 127), fNX)
  | y => f.encode mode true draw (y.scale (-(scaleExp scale)))

end Sys2Proof.Machine
end

