-- ==== Sys2Proof/Machine/Order.lean ====
section
/-!
DEFINITION. The ordering machine (R159 to R170, R182): store buffers, core and die views, the passes and drops of their entries, and the
performance of a group's queued operations (R162) with releases, acquires and atomics. Entries are the bytes that one instruction gave one line
(log 4).
-/

namespace Sys2Proof.Machine

-- ===== groups and views =====

def State.grp (s : State) (g : Nat) : Group := s.groups.get g
def State.setGrp (s : State) (g : Nat) (x : Group) : State := { s with groups := s.groups.set g x }
def State.updGrp (s : State) (g : Nat) (f : Group → Group) : State := s.setGrp g (f (s.grp g))

/-- The level of the ordering machine that a scope names (R160). -/
def scopeLevel : Scope → Nat
  | .grp => 0 | .team => 1 | .clu => 2 | .dev => 3 | .sys => 3

/-- The instance at which an atomic of a scope performs (R168). -/
def atomLevel : Scope → Nat
  | .grp => 1 | .team => 1 | .clu => 2 | .dev => 3 | .sys => 3

def isAcq : MOrder → Bool
  | .acq | .ar => true
  | _ => false
def isRel : MOrder → Bool
  | .rel | .ar => true
  | _ => false

/-- The instance of a level on a group's path: its store buffer, its core, its die (R160). -/
def instOf (g lvl : Nat) : Nat := if lvl = 0 then g else if lvl = 1 then coreOf g else dieOfCore (coreOf g)

/-- The entries of an instance: 0 SB, 1 CV, 2 DV, 3 the buffer towards the shared store. -/
def ents (s : State) (lvl inst : Nat) : List MEnt :=
  match lvl with
  | 0 => (s.grp inst).sb
  | 1 => s.cv.get inst
  | 2 => s.dv.get inst
  | _ => (s.grp inst).shsb

def setEnts (s : State) (lvl inst : Nat) (l : List MEnt) : State :=
  match lvl with
  | 0 => s.updGrp inst (fun x => { x with sb := l })
  | 1 => { s with cv := s.cv.set inst l }
  | 2 => { s with dv := s.dv.set inst l }
  | _ => s.updGrp inst (fun x => { x with shsb := l })

-- ===== entries =====

/-- The bytes of a map at offsets that another map does not list. -/
def without (bs other : SMap (Option Byte)) : SMap (Option Byte) := bs.filter (fun e => (other.get e.1).isNone)

/-- An older entry after a newer one of the same line (of `u` bytes) has taken its bytes (R163): gone when nothing is left of it, but a poisoned
write that has lost its bytes still marks its line, unless the newer write replaces the whole line. -/
def stripEnt (u : Nat) (e x : MEnt) : Option MEnt :=
  if x.line != e.line then some x
  else
    let bs := without x.bytes e.bytes
    if bs.isEmpty && (!(x.dirty && x.poi) || (e.dirty && e.bytes.length == u)) then none else some { x with bytes := bs }

/-- A new entry placed at an instance: at most one entry per byte (R159). -/
def addEnt (l : List MEnt) (e : MEnt) : List MEnt := e :: l.filterMap (stripEnt 64 e)

/-- The same for a buffer towards the shared store, whose entries are words (R149). -/
def addSh (l : List MEnt) (e : MEnt) : List MEnt := e :: l.filterMap (stripEnt 8 e)

/-- The byte that an entry holds at an address's offset. -/
def MEnt.byteAt (e : MEnt) (line off : Nat) : Option Byte := if e.line = line then e.bytes.get off else none

-- ===== passes (R163) =====

/-- The pass of an entry of DV to H; the source becomes clean. -/
def passDv (s : State) (d : Nat) (e : MEnt) : State :=
  let l := s.dv.get d
  let l1 := if e.bytes.isEmpty then l.erase e else l.map (fun x => if x == e then { e with dirty := false } else x)
  hSend { s with dv := s.dv.set d l1 } d e.key e.line e.bytes e.poi

/-- Entries of one line under another key leave an instance before an entry enters it: dirty ones pass, clean ones drop. -/
def clashes (e x : MEnt) : Bool := x.line == e.line && x.key != e.key

/-- An entry enters DV. -/
def enterDv (s : State) (d : Nat) (e : MEnt) : State :=
  let s1 := ((s.dv.get d).filter (fun x => clashes e x && x.dirty)).foldl (fun s x => passDv s d x) s
  { s1 with dv := s1.dv.set d (addEnt ((s1.dv.get d).filter (fun x => !clashes e x)) e) }

/-- The pass of an entry of CV to its die's view. -/
def passCv (s : State) (c : Nat) (e : MEnt) : State :=
  let l := s.cv.get c
  let l1 := if e.bytes.isEmpty then l.erase e else l.map (fun x => if x == e then { e with dirty := false } else x)
  enterDv { s with cv := s.cv.set c l1 } (dieOfCore c) e

/-- An entry enters CV. -/
def enterCv (s : State) (c : Nat) (e : MEnt) : State :=
  let s1 := ((s.cv.get c).filter (fun x => clashes e x && x.dirty)).foldl (fun s x => passCv s c x) s
  { s1 with cv := s1.cv.set c (addEnt ((s1.cv.get c).filter (fun x => !clashes e x)) e) }

/-- The pass of an entry of SB to its core's view; it leaves SB. -/
def passSb (s : State) (g : Nat) (e : MEnt) : State :=
  enterCv (s.updGrp g (fun x => { x with sb := x.sb.erase e })) (coreOf g) e

/-- An entry enters SB. -/
def enterSb (s : State) (g : Nat) (e : MEnt) : State :=
  let s1 := ((s.grp g).sb.filter (clashes e)).foldl (fun s x => passSb s g x) s
  s1.updGrp g (fun x => { x with sb := addEnt (x.sb.filter (fun y => !clashes e y)) e })

/-- A write of one word arriving at a team's shared store, with its poison mark (R149, R152). -/
def shWord (s : State) (tid word : Nat) (bs : SMap (Option Byte)) (poi : Bool) : State :=
  { s with teams := s.teams.upd tid (fun t =>
      { t with sh := putOffsets t.sh (8 * word) bs, shPoi := t.shPoi.set word (poi || (t.shPoi.get word && bs.length < 8)) }) }

/-- The pass of an entry from a group's buffer to its team's shared store (R182). -/
def passSh (s : State) (g : Nat) (e : MEnt) : State :=
  shWord (s.updGrp g (fun x => { x with shsb := x.shsb.erase e })) (s.grp g).tid e.line e.bytes e.poi

/-- The pass of one dirty entry at any instance. -/
def passEnt (s : State) (lvl inst : Nat) (e : MEnt) : State :=
  match lvl with
  | 0 => passSb s inst e
  | 1 => passCv s inst e
  | 2 => passDv s inst e
  | _ => passSh s inst e

/-- The action that passes the entry at a place of an instance's list, if it is dirty. -/
def passIx (s : State) (lvl inst ix : Nat) : State :=
  match (ents s lvl inst)[ix]? with
  | some e => if e.dirty then passEnt s lvl inst e else s
  | none => s

/-- The action that drops a clean entry of CV or DV. -/
def dropIx (s : State) (lvl inst ix : Nat) : State :=
  if lvl = 1 || lvl = 2 then
    match (ents s lvl inst)[ix]? with
    | some e => if e.dirty then s else setEnts s lvl inst ((ents s lvl inst).eraseIdx ix)
    | none => s
  else s

/-- Passing every dirty entry of an instance that meets a condition, oldest first. -/
def passWhere (s : State) (lvl inst : Nat) (p : MEnt → Bool) : State :=
  ((ents s lvl inst).filter (fun e => e.dirty && p e)).reverse.foldl (fun s e => passEnt s lvl inst e) s

/-- Passing a group's own dirty entries that meet a condition out of every level inward of `upto`. -/
def passOwn (s : State) (g upto : Nat) (p : MEnt → Bool) : State :=
  (List.range upto).foldl (fun s lvl => passWhere s lvl (instOf g lvl) (fun e => e.writer == g && p e)) s

/-- Dropping clean entries that meet a condition from the levels 1 and 2 of a group's path inward of `upto` (R166). -/
def dropClean (s : State) (g upto : Nat) (p : MEnt → Bool) : State :=
  let cut (s : State) (lvl : Nat) : State :=
    if lvl < upto then setEnts s lvl (instOf g lvl) ((ents s lvl (instOf g lvl)).filter (fun e => e.dirty || !p e)) else s
  cut (cut s 1) 2

/-- Whether a dirty entry of a write of the group remains inward of a level (R167). -/
def ownDirty (s : State) (g upto : Nat) : Bool :=
  (List.range upto).any (fun lvl => (ents s lvl (instOf g lvl)).any (fun e => e.dirty && e.writer == g))

-- ===== searches (R164) =====

/-- A byte found by the search of R164: its level, its value, its poison, and whether it is a clean copy. -/
structure Found where
  lvl : Nat
  byte : Byte
  poi : Bool
  copy : Bool := false
  deriving DecidableEq, Repr

/-- The search in one instance: dirty entries always, clean ones unless ignored or under another key. -/
def findIn (l : List MEnt) (key line off : Nat) (ign : Bool) : Option MEnt :=
  l.find? (fun e => (e.byteAt line off).isSome && (e.dirty || (!ign && e.key == key)))

/-- The search of R164 from a level on: clean entries inward of `ign` are ignored. -/
def findByte (s : State) (g key pa start ign : Nat) : Found :=
  let line := pa / 64
  let off := pa % 64
  let look (lvl : Nat) : Option Found :=
    if lvl < start then none
    else match findIn (ents s lvl (instOf g lvl)) key line off (lvl < ign) with
      | some e => some ⟨lvl, (e.byteAt line off).getD 0, e.poi, !e.dirty⟩
      | none => none
  match look 0, look 1, look 2 with
  | some f, _, _ => f
  | none, some f, _ => f
  | none, none, some f => f
  | none, none, none => ⟨3, hByte s key pa, hPoi s line, false⟩

/-- Whether a dirty entry of the line under another key lies on the group's path: it passes before the access. -/
def keyClash (s : State) (g key line : Nat) : Bool :=
  (List.range 3).any (fun lvl => (ents s lvl (instOf g lvl)).any (fun e => e.dirty && e.line == line && e.key != key))

/-- Passing every dirty entry of a line under another key out to H, whoever wrote it. -/
def passClash (s : State) (g key line : Nat) : State :=
  (List.range 3).foldl (fun s lvl => passWhere s lvl (instOf g lvl) (fun e => e.line == line && e.key != key)) s

/-- The bytes of an access as one search finds them. -/
def findOnce (s : State) (g key pa n start ign : Nat) : List Found := (List.range n).map (fun i => findByte s g key (pa + i) start ign)

/-- The level of a clean copy that an access would join with a byte found further outward: that byte may be of a write newer than the copy. -/
def mixLevel (fs : List Found) : Option Nat := (fs.find? (fun f => f.copy && fs.any (fun h => f.lvl < h.lvl))).map (·.lvl)

/-- The level inward of which an access takes no clean copy: the one asked for, or further outward while copies would mix with bytes from beyond them,
so that no part of a write is returned (R164, R170, log 4). -/
def wholeIgn (s : State) (g key pa n start ign : Nat) : Nat :=
  match mixLevel (findOnce s g key pa n start ign) with
  | none => ign
  | some c => match mixLevel (findOnce s g key pa n start (c + 1)) with
    | none => c + 1
    | some d => d + 1

/-- The bytes of an access (R164). -/
def findBytes (s : State) (g key pa n start ign : Nat) : List Found := findOnce s g key pa n start (wholeIgn s g key pa n start ign)

/-- An entry holds one of the bytes of a range. -/
def MEnt.holds (e : MEnt) (pa n : Nat) : Bool := e.bytes.any (fun b => pa ≤ 64 * e.line + b.1 && 64 * e.line + b.1 < pa + n)

/-- The state after an access: the clean copies that it passed over are gone, so that no later access goes back to them (R165). -/
def dropMixed (s : State) (g key pa n start ign : Nat) : State :=
  let i := wholeIgn s g key pa n start ign
  if i = ign then s else dropClean s g i (fun e => e.holds pa n)

/-- A range as pieces within aligned words of 8 bytes: address and length. -/
def words8 (pa n : Nat) : List (Nat × Nat) :=
  (List.range ((pa % 8 + n + 7) / 8)).map fun j =>
    let a := if j = 0 then pa else pa / 8 * 8 + 8 * j
    (a, min (pa + n) (pa / 8 * 8 + 8 * (j + 1)) - a)

/-- The level inward of which a relaxed read of a page takes no clean copy (R150). -/
def relaxedIgn (cp : Nat) : Nat := if cp = 2 then 3 else 0

/-- A range read as relaxed loads of its aligned words (R164). -/
def findSpan (s : State) (g key pa n cp : Nat) : List Found := (words8 pa n).flatMap (fun c => findBytes s g key c.1 c.2 0 (relaxedIgn cp))

/-- What reading a range so does to the state: entries under another key pass before it, copies that it passes over go, and poison that comes from home
marks the boundaries on its way (R145, R165, R391). The bytes are then found as before. -/
def seenSpan (s : State) (g key pa n cp : Nat) : State :=
  let s1 := (List.range ((pa % 64 + n + 63) / 64)).foldl (fun s j => passClash s g key (pa / 64 + j)) s
  let s2 := (words8 pa n).foldl (fun s c => dropMixed s g key c.1 c.2 0 (relaxedIgn cp)) s1
  let s3 := if cp = 2 then dropClean s2 g 3 (fun e => e.holds pa n) else s2
  crossed s3 (homeDie pa) (instOf g 2) ((findSpan s1 g key pa n cp).any (fun f => f.poi && f.lvl == 3))

/-- A clean entry without the bytes of an aligned range. -/
def cutClean (pa n : Nat) (e : MEnt) : Option MEnt :=
  if e.dirty then some e
  else
    let bs := e.bytes.filter (fun b => 64 * e.line + b.1 < pa || pa + n ≤ 64 * e.line + b.1)
    if bs.isEmpty then none else some { e with bytes := bs }

/-- Clean copies of the bytes found at level 2 or 3, placed at the inward levels (Fill of R163); the other copies of the same aligned 16 bytes there
are dropped with it, so that all copies of one access's bytes are of one time (log 4). A page with CP 1 keeps out of CV, with CP 2 out of both. -/
def fillFrom (s : State) (g key pa cp : Nat) (fs : List Found) : State :=
  let put (s : State) (lvl : Nat) : State :=
    let bs : SMap (Option Byte) := (List.range fs.length).filterMap (fun i =>
      let f := fs.getD i ⟨0, 0, false, false⟩
      if 2 ≤ f.lvl && lvl < f.lvl then some (pa % 64 + i, some f.byte) else none)
    if bs.isEmpty || lvl ≤ cp then s
    else
      let e : MEnt := { line := pa / 64, bytes := bs, dirty := false, poi := fs.any (·.poi), key := key, writer := g }
      let a := pa / 16 * 16
      setEnts s lvl (instOf g lvl) (addEnt ((ents s lvl (instOf g lvl)).filterMap (cutClean a ((pa + fs.length + 15) / 16 * 16 - a))) e)
  put (put s 2) 1

-- ===== atomics (R187) =====

/-- The new value of an atomic or a reduction on a `w`-bit word (R187). -/
def atomNew (r : AtomReq) (old v : Nat) : Nat :=
  let w := if r.wide then 64 else 32
  let m := 2 ^ w
  let ff : FF := if r.wide then .fp64 else .fp32
  let so := toInt w false old
  let sv := toInt w false v
  let nanOr (pick : Val → Val → Bool) : Nat :=
    let a := ff.decode old
    let b := ff.decode v
    if a.isNan && b.isNan then ff.canonNan else if a.isNan then v else if b.isNan then old
    else if a.isZero && b.isZero then (if pick (.fin a.neg? 1 0 false) (.fin b.neg? 1 0 false) then old else v)
    else if pick a b then old else v
  match r.op.toNat with
  | 0 => (old + v) % m
  | 1 => v
  | 2 => old &&& v
  | 3 => old ||| v
  | 4 => old ^^^ v
  | 5 => if so ≤ sv then old else v
  | 6 => if sv ≤ so then old else v
  | 7 => if old ≤ v then old else v
  | 8 => if v ≤ old then old else v
  | 9 => (ff.round .rne false 0 ((ff.decode old).add .rne (ff.decode v)).1).1
  | 10 => nanOr (fun a b => a.cmp b != .gt)
  | 11 => nanOr (fun a b => a.cmp b != .lt)
  | _ => old

-- ===== operations (R161, R162) =====

/-- Bytes that an operation touches: its own and, for a decoding load, the scale's. -/
def MemOp.touches (o : MemOp) : List (Nat × Nat) :=
  match o.kind with
  | .load (.dec _ fmt _ sp) => if fmtScaled fmt then [(o.pa, o.n), (sp, 1)] else [(o.pa, o.n)]
  | .fence => []
  | .store => o.bytes.map (fun e => (o.pa + e.1, 1))
  | _ => [(o.pa, o.n)]

def MemOp.writes (o : MemOp) : Bool :=
  match o.kind with
  | .store => true
  | .atomic _ => true
  | _ => false

/-- Whether two operations touch a common byte. -/
def opsOverlap (x y : MemOp) : Bool :=
  x.shared == y.shared && x.touches.any (fun a => y.touches.any (fun b => a.1 < b.1 + b.2 && b.1 < a.1 + a.2))

/-- The table of R162, and R165 for the loads of one byte: an earlier operation that keeps a later one from performing first. -/
def blocks (x y : MemOp) : Bool :=
  (opsOverlap x y && (x.writes || y.writes || x.word != y.word)) ||
  (x.word != y.word && ((isAcq x.order && x.kind != .store) || (isRel y.order && y.writes) || x.kind == .fence || y.kind == .fence))

/-- Delivering one value of a result in flight (R66). -/
def deliver (x : Group) (tag : Nat) (ws : List RegWrite) (fl : BitVec 5) (pi : List (Nat × BitVec 64)) : Group :=
  { x with inflight := x.inflight.map (fun f =>
      if f.tag == tag then { f with writes := f.writes ++ ws, flags := f.flags ||| fl, pinfo := f.pinfo ++ pi } else f) }

/-- POISON_INFO of a poisoned read (R388). -/
def pinfoOf (shared : Bool) (a : Nat) : BitVec 64 :=
  if shared then 0x8000000000000000#64 ||| BitVec.ofNat 64 (a / 8 * 8 % 2 ^ 52) else 0x4000000000000000#64 ||| BitVec.ofNat 64 (a / 64 * 64 % 2 ^ 52)

/-- Sub-elements packed into a register value, lowest first. -/
def packSubs (w : Nat) : List Nat → Nat
  | [] => 0
  | x :: r => x % 2 ^ w + 2 ^ w * packSubs w r

/-- The `i`-th sub-element of width `w`. -/
def subOf (w i v : Nat) : Nat := v / 2 ^ (w * i) % 2 ^ w

/-- The value of a load's bytes (R142, R151) with its flags; `scale` is the scale byte of a block-scaled page. -/
def extend (ext : Ext) (n : Nat) (bs : List Byte) (scale : Nat) (off : Nat) : BitVec 64 × BitVec 5 :=
  let raw := ofBytes bs
  match ext with
  | .zero => (BitVec.ofNat 64 raw, 0)
  | .sign => (BitVec.ofInt 64 (toInt (8 * n) false raw), 0)
  | .dec shp fmt _ _ =>
    match fmtOf? fmt with
    | none => (0, 0)
    | some f =>
      let bits := raw / 2 ^ off
      let one (i : Nat) : Nat × BitVec 5 :=
        let b := subOf f.width i bits
        let v : Val × BitVec 5 := if fmtScaled fmt then decScaled f scale b else (f.decode b, 0)
        let r := (shapeFmt shp false).encode .rne false 0 v.1
        (r.1, r.2 ||| v.2)
      let rs := (List.range shp.count).map one
      (BitVec.ofNat 64 (packSubs shp.width (rs.map (·.1))), rs.foldl (fun a r => a ||| r.2) 0)

/-- The level inward of which a load ignores clean entries: an acquire's scope, or every level for an uncached page (R150, R164). -/
def loadIgn (o : MemOp) : Nat := if o.cp = 2 then 3 else if isAcq o.order then (scopeLevel o.scope) else 0

/-- The bytes that LDC returns: what the search finds, or the content at the launch of the group's kernel (R153, log 9). -/
def ldcBytes (s : State) (g : Nat) (o : MemOp) (fs : List Found) : List Found :=
  match s.kernels.find? (fun k => k.grid == (s.grp g).spr.grid) with
  | none => fs
  | some k =>
    let old : State := { s with h := { s.h with bytes := k.snap } }
    if o.ldc && Config.fetchOld (s.tick * 2 ^ 64 + o.pa) then
      (List.range fs.length).map (fun i => { (fs.getD i ⟨3, 0, false, false⟩) with byte := hByte old o.key (o.pa + i) })
    else fs

/-- A load from global memory performs (R164, R166). A poisoned lane contributes no flag (R44, log 34). -/
def performLoad (s : State) (g : Nat) (o : MemOp) (ext : Ext) (fill : Bool) : State :=
  let ign := loadIgn o
  let fs := findBytes s g o.key o.pa o.n 0 ign
  let sp := match ext with
    | .dec _ fmt _ sp => if fmtScaled fmt then [findByte s g o.key sp 0 ign] else []
    | _ => []
  let poi := fs.any (·.poi) || sp.any (·.poi)
  let val := extend ext o.n ((ldcBytes s g o fs).map (·.byte)) (match sp with | [] => 127 | f :: _ => f.byte.toNat) 0
  let pi := (if fs.any (·.poi) then [(o.lane, pinfoOf false o.pa)] else []) ++
    (match ext with | .dec _ _ _ a => if sp.any (·.poi) then [(o.lane, pinfoOf false a)] else [] | _ => [])
  let s1 := dropMixed s g o.key o.pa o.n 0 ign
  let s2 := if fill then fillFrom s1 g o.key o.pa o.cp fs else s1
  let s3 := if isAcq o.order then dropClean s2 g (scopeLevel o.scope) (fun _ => true)
    else if o.cp = 2 then dropClean s2 g 3 (fun e => e.holds o.pa o.n) else s2
  let s4 := if o.ldc then { s3 with tick := s3.tick + 1 } else s3
  let s5 := crossed s4 (homeDie o.pa) (instOf g 2) (fs.any (fun f => f.poi && f.lvl == 3) || sp.any (fun f => f.poi && f.lvl == 3))
  s5.updGrp g (fun x => deliver x o.tag [⟨o.reg, o.lane, ⟨val.1, poi⟩⟩] (if poi then 0 else val.2) pi)

/-- A load from the shared store performs: SB(g), then the team's store (R182). -/
def performLoadSh (s : State) (g : Nat) (o : MemOp) (ext : Ext) : State :=
  let x := s.grp g
  let t := s.teams.get x.tid
  let one (i : Nat) : Byte × Bool :=
    match x.shsb.find? (fun e => (e.byteAt ((o.pa + i) / 8) ((o.pa + i) % 8)).isSome) with
    | some e => ((e.byteAt ((o.pa + i) / 8) ((o.pa + i) % 8)).getD 0, e.poi)
    | none => (t.sh.get (o.pa + i), t.shPoi.get ((o.pa + i) / 8))
  let bs := (List.range o.n).map one
  let poi := bs.any (·.2)
  let val := extend ext o.n (bs.map (·.1)) 127 0
  s.updGrp g (fun x => deliver x o.tag [⟨o.reg, o.lane, ⟨val.1, poi⟩⟩] val.2 (if poi then [(o.lane, pinfoOf true o.pa)] else []))

/-- The bytes that share one poison mark: a line of memory, a word of the shared store (R13, R149). -/
def storeUnit (shared : Bool) : Nat := if shared then 8 else 64

/-- A store performs: its bytes become a dirty entry (R163). Through a page with CP 1 or 2 they pass at once beyond L1, or to the home (R150). -/
def performStore (s : State) (g : Nat) (o : MemOp) : State :=
  let e : MEnt := { line := o.pa / storeUnit o.shared, bytes := o.bytes, dirty := true, poi := o.poi, key := o.key, writer := g }
  if o.shared then s.updGrp g (fun x => { x with shsb := addSh x.shsb e })
  else if o.cp = 0 then enterSb s g e
  else
    let own (y : MEnt) : Bool := y.line == e.line
    dropClean (passOwn (enterSb s g e) g (o.cp + 1) own) g (o.cp + 1) own

/-- The bytes of a number at an address, as an entry's bytes. -/
def entBytes (pa n v : Nat) : SMap (Option Byte) := (List.range n).map (fun i => (pa % 64 + i, some (BitVec.ofNat 8 (v / 256 ^ i))))

/-- The instance at which an atomic of a page performs: its scope's (R168), or further outward where the page keeps its lines out of L1 or L2 (R150,
log 4). -/
def atomAt (o : MemOp) : Nat := max (atomLevel o.scope) (if o.cp = 0 then 0 else o.cp + 1)

/-- Whether an atomic may take an old value from before the last host or peer atomic, and lose its update: on a page without SA, at H, and narrower
than `sys` (R176). -/
def mayLose (s : State) (o : MemOp) : Option OldWord :=
  if !o.sa && o.scope != .sys && atomAt o == 3 then s.oldWords.find? (fun w => w.host && w.pa == o.pa && w.n == o.n) else none

/-- A word's value before an atomic of one side is kept for the other side (R176). -/
def keepOld (s : State) (w : OldWord) : State := { s with oldWords := w :: s.oldWords.filter (fun v => !(v.pa == w.pa && v.n == w.n && v.host == w.host)) }

/-- What an atomic reads at its instance, once its group's own dirty entries for its bytes have passed there (R168). -/
def atomFound (s : State) (g : Nat) (o : MemOp) : List Found :=
  findBytes (passOwn s g (atomAt o) (fun e => e.holds o.pa o.n)) g o.key o.pa o.n (atomAt o) 0

/-- The old value that an atomic returns and works on. -/
def atomOld (s : State) (g : Nat) (o : MemOp) : Nat :=
  match mayLose s o with
  | some w => if Config.lostUpdate s.tick then w.val else ofBytes ((atomFound s g o).map (·.byte))
  | none => ofBytes ((atomFound s g o).map (·.byte))

/-- A CAS whose comparison fails (R189). -/
def casFails (s : State) (g : Nat) (o : MemOp) (r : AtomReq) : Bool :=
  r.cas && !(atomFound s g o).any (·.poi) && atomOld s g o != r.cmp.toNat % 256 ^ o.n

/-- The part of an atomic that changes memory: its own entries pass, the copies inward of its instance go, and the new value is written there; a CAS
that fails passes nothing and an atomic that writes nothing leaves the value that it found as a clean copy at the instance (R168, R188, R189). -/
def atomWrite (s : State) (g : Nat) (o : MemOp) (r : AtomReq) : State :=
  let lvl := atomAt o
  let fs := atomFound s g o
  let old := atomOld s g o
  let fails := casFails s g o r
  let s1 := if fails then s else passOwn s g lvl (fun e => e.holds o.pa o.n)
  let s2 := dropClean (dropMixed s1 g o.key o.pa o.n lvl 0) g lvl (fun e => e.holds o.pa o.n)
  if fs.any (·.poi) || fails then crossed (fillFrom s2 g o.key o.pa (lvl - 1) fs) (homeDie o.pa) (instOf g 2) (fs.any (fun f => f.poi && f.lvl == 3))
  else
    let bs := entBytes o.pa o.n (if r.cas then r.val.toNat % 256 ^ o.n else atomNew r old (r.val.toNat % 256 ^ o.n))
    let e : MEnt := { line := o.pa / 64, bytes := bs, dirty := true, poi := false, key := o.key, writer := g }
    if lvl = 3 then
      let s3 := if o.sa || o.scope == .sys then { s2 with oldWords := s2.oldWords.filter (fun w => w.host || w.pa != o.pa) }
        else keepOld s2 ⟨o.pa, o.n, false, ofBytes (fs.map (·.byte))⟩
      hWrite s3 o.key (o.pa / 64) bs false
    else if lvl = 2 then enterDv s2 (instOf g 2) e else enterCv s2 (instOf g 1) e

/-- An atomic performs in one step at its instance (R168, R188, R189). -/
def performAtomic (s : State) (g : Nat) (o : MemOp) (r : AtomReq) : State :=
  let s1 := atomWrite s g o r
  let s2 := if isAcq o.order then dropClean s1 g (scopeLevel o.scope) (fun _ => true) else s1
  let s3 := if (mayLose s o).isSome then { s2 with tick := s2.tick + 1 } else s2
  s3.updGrp g (fun x => deliver x o.tag [⟨o.reg, o.lane, ⟨BitVec.ofNat 64 (atomOld s g o), (atomFound s g o).any (·.poi)⟩⟩] 0 [])

/-- A FENCE performs: its acquire part drops clean entries (R192). -/
def performFence (s : State) (g : Nat) (o : MemOp) : State :=
  if isAcq o.order then dropClean s g (scopeLevel o.scope) (fun _ => true) else s

/-- A release's condition on entries (R167): a dirty entry of the group's own still lies inward of its scope, in the buffer towards the shared store
too. -/
def needsPass (s : State) (g : Nat) (o : MemOp) : Bool :=
  isRel o.order && o.scope != .grp && (ownDirty s g (scopeLevel o.scope) || !(s.grp g).shsb.isEmpty)

/-- What an operation does when it performs. -/
def performOp (s : State) (g : Nat) (o : MemOp) (fill : Bool) : State :=
  match o.kind with
  | .load ext => if o.shared then performLoadSh s g o ext else performLoad s g o ext fill
  | .store => performStore s g o
  | .atomic r => performAtomic s g o r
  | .fence => performFence s g o

/-- An operation leaves the issue queue. -/
def dequeue (s : State) (g id : Nat) : State := s.updGrp g (fun x => { x with iq := x.iq.filter (fun o => o.id != id) })

/-- The operations of a group that issued before one. -/
def earlier (q : List MemOp) (id : Nat) : List MemOp := q.takeWhile (fun o => o.id != id)

/-- Whether an operation may perform now (R162, R167). -/
def mayPerform (s : State) (g : Nat) (o : MemOp) : Bool :=
  !(earlier (s.grp g).iq o.id).any (fun x => blocks x o) && !needsPass s g o && (o.shared || !keyClash s g o.key (o.pa / 64))

/-- A CAS as the load that it is when its comparison fails: with the acquire part of its order alone (R189). -/
def casLoad (o : MemOp) : MemOp := { o with kind := .load .zero, order := if isAcq o.order then .acq else .rlx }

/-- Whether a CAS may perform now as a comparison that fails. -/
def mayFail (s : State) (g : Nat) (o : MemOp) : Bool :=
  match o.kind with
  | .atomic r => casFails s g o r && mayPerform s g (casLoad o)
  | _ => false

/-- The action that performs one queued operation; one that may not perform yet stays (log 2). -/
def performId (s : State) (g id : Nat) (fill : Bool) : State :=
  match (s.grp g).iq.find? (fun o => o.id == id) with
  | none => s
  | some o => if mayPerform s g o || mayFail s g o then performOp (dequeue s g id) g o fill else s

/-- Passing what a forced operation needs. -/
def passFor (s : State) (g : Nat) (o : MemOp) : State :=
  let s1 := if needsPass s g o then passWhere (passOwn s g (scopeLevel o.scope) (fun _ => true)) 3 g (fun _ => true) else s
  if !o.shared && keyClash s1 g o.key (o.pa / 64) then passClash s1 g o.key (o.pa / 64) else s1

/-- Every queued operation of a group performs, in program order (one of the schedules that R163 allows). -/
def performAll (s : State) (g : Nat) : State :=
  (s.grp g).iq.foldl (fun s o => performOp (passFor (dequeue s g o.id) g o) g o false) s

/-- Every write of a group made so far reaches H and the shared store. -/
def passAll (s : State) (g : Nat) : State := passWhere (passOwn s g 3 (fun _ => true)) 3 g (fun _ => true)

/-- A releasing step at a scope, forced: every earlier operation performs and no dirty entry remains inward (R167). -/
def releaseAt (s : State) (g : Nat) (sc : Scope) : State :=
  let s1 := performAll s g
  passWhere (passOwn s1 g (scopeLevel sc) (fun _ => true)) 3 g (fun _ => sc != .grp)

/-- An acquiring step at a scope (R166). -/
def acquireAt (s : State) (g : Nat) (sc : Scope) : State := dropClean s g (scopeLevel sc) (fun _ => true)

/-- Before a step that reads a line at H for a group: its earlier operations perform, its dirty entries of the line pass, and older copies of the
line on its path are gone (R181, R197, R211). -/
def settleLine (s : State) (g key line : Nat) : State :=
  let s1 := passOwn (performAll s g) g 3 (fun e => e.line == line)
  arrives (dropClean (passClash s1 g key line) g 3 (fun e => e.line == line)) (instOf g 2) (64 * line) 64

end Sys2Proof.Machine
end

