-- ==== Sys2Proof/Machine/Xlate.lean ====
section
/-!
DEFINITION. Translation: the walk (R133 to R135), kept translations (R136, R137, log 10), and the checks of an access in the order of R140 with
the permissions of R144 and R411.
-/

namespace Sys2Proof.Machine

-- ===== trap causes (R377) =====

def cIllegal : Nat := 0x01
def cUnassigned : Nat := 0x02
def cRunHazard : Nat := 0x03
def cTempUndef : Nat := 0x04
def cPriv : Nat := 0x05
def cPageFault : Nat := 0x10
def cProt : Nat := 0x11
def cFormat : Nat := 0x12
def cAlign : Nat := 0x13
def cPoison : Nat := 0x18
def cStack : Nat := 0x20
def cRegBlock : Nat := 0x21
def cTileToken : Nat := 0x28
def cRankOverflow : Nat := 0x29
def cTileSpace : Nat := 0x2A
def cTxCapacity : Nat := 0x30
def cBudget : Nat := 0x38
def cQueueDesc : Nat := 0x40
def cBarrierBroken : Nat := 0x48
def cFabric : Nat := 0x50
def cSw : Nat := 0x60
def cBrk : Nat := 0x61

/-- A trap that a word raises: its cause and TRAP_ADDR. -/
structure Trap where
  cause : Nat
  addr : BitVec 64
  deriving DecidableEq, Repr, Inhabited

-- ===== the walk =====

/-- Bits `hi..lo` of an entry as a number. -/
def field (e : BitVec 64) (lo n : Nat) : Nat := e.toNat / 2 ^ lo % 2 ^ n
def flag (e : BitVec 64) (i : Nat) : Bool := e.getLsbD i

/-- A malformed valid entry (R135). -/
def malformed (e : BitVec 64) (level : Nat) : Bool :=
  if flag e 62 then
    level == 2 || flag e 36 || field e 60 2 == 3 || (level == 1 && field e 60 2 != 0) || field e 48 2 == 3
  else level == 0 || field e 36 26 != 0 || !inMemory (field e 0 36 * 65536)

/-- The leaf of an entry for a 64 KiB page at an offset from the entry's start (R134). -/
def leafOf (e : BitVec 64) (off : Nat) : Leaf :=
  { pa := field e 0 36 * 65536 + off, key := field e 51 9, sa := flag e 50, cp := field e 48 2, fmt := field e 43 5, bg := field e 40 3,
    w := flag e 39, x := flag e 38, u := flag e 37 }

/-- An entry as a walk reads it at its home: none where it is invalid, malformed or on a poisoned line (R133). -/
def readPte (s : State) (pa level : Nat) : Option (BitVec 64) :=
  if hPoi s (pa / 64) then none
  else
    let e := hWord s 0 pa
    if flag e 63 && !malformed e level then some e else none

/-- The table of level 0 that a walk reaches, or a leaf before it. -/
def walkUpper (s : State) (root : Nat) (va : BitVec 64) : Option (Leaf ⊕ Nat) := do
  let e2 ← readPte s (root + 8 * field va 42 13) 2
  let e1 ← readPte s (field e2 0 36 * 65536 + 8 * field va 29 13) 1
  if flag e1 62 then some (.inl (leafOf e1 (field va 16 13 * 65536))) else some (.inr (field e1 0 36 * 65536))

/-- The walk of R133 for the 64 KiB page of an address. -/
def walk (s : State) (root : Nat) (va : BitVec 64) : Option Leaf :=
  match walkUpper s root va with
  | none => none
  | some (.inl l) => some l
  | some (.inr t) => (readPte s (t + 8 * field va 16 13) 0).map (leafOf · 0)

/-- The walk through the first entry of a contiguity set of `n` entries (R137): some valid entry of the aligned set promises it, and the first one is
valid; where software has broken the promise, the page's own entry need not be. -/
def walkSet (s : State) (root : Nat) (va : BitVec 64) (n : Nat) : Option Leaf :=
  match walkUpper s root va with
  | some (.inr t) => do
    let i := field va 16 13
    let sz := if n = 32 then 1 else if n = 512 then 2 else 3
    let promised := (List.range n).any (fun j => match readPte s (t + 8 * (i / n * n + j)) 0 with
      | some e => field e 60 2 == sz
      | none => false)
    if promised then
      let f ← readPte s (t + 8 * (i / n * n)) 0
      some (leafOf f (i % n * 65536))
    else none
  | _ => none

/-- The translation that an access of a context uses for a page: a kept one that is in use, else a walk (log 10). -/
def xlate (s : State) (ctx : Nat) (va : BitVec 64) : Option Leaf :=
  match s.tlb.find? (fun e => e.on && e.ctx == ctx && e.vpn == va.toNat / 65536) with
  | some e => some e.leaf
  | none => walk s (s.ctxs.get ctx).root va

-- ===== access checks =====

/-- Access kinds of R144. -/
inductive Acc where
  | load | store | exec
  deriving DecidableEq, Repr

/-- Whether a key slot is enabled for a context (R145, R373). -/
def keyEnabled (s : State) (ctx k : Nat) : Bool :=
  let c := s.ctxs.get ctx
  c.keybase ≤ k && k < c.keybase + c.keycnt && s.keys.get k != .disabled

/-- The key index of accesses through a slot: a slot loaded plain is as no key (R417). -/
def keyIx (s : State) (k : Nat) : Nat :=
  match s.keys.get k with
  | .key _ => k + 1
  | _ => 0

/-- The key index of a context's save records: slot KEYBASE when it has slots, else plain (R146). -/
def recKey (s : State) (ctx : Nat) : Nat := let c := s.ctxs.get ctx; if c.keycnt = 0 then 0 else keyIx s c.keybase

/-- Whether the permissions of R144 refuse an access. -/
def permOk (sup : Bool) (k : Acc) (l : Leaf) : Bool :=
  (sup || l.u) && (match k with | .load => true | .store => l.w | .exec => l.x)

/-- The host-aperture entry of an address admits accesses (R412). -/
def apertureOk (s : State) (pa : Nat) : Bool := pa < apertureBase || flag (s.regs.haMap.get ((pa - apertureBase) / 2 ^ 27)) 0

/-- Check 6 of R140: populated, in a device register range that admits the access (R411), and under an enabled slot. -/
def placeOk (s : State) (ctx : Nat) (sup dev : Bool) (l : Leaf) (pa : Nat) : Bool :=
  (inMemory pa || (dev && sup && inDevice pa && !l.u && l.cp == 2 && apertureOk s pa)) && keyEnabled s ctx l.key

/-- A translated access. -/
structure Xl where
  pa : Nat
  leaf : Leaf
  key : Nat
  deriving DecidableEq, Repr, Inhabited

/-- Checks 2 to 6 of R140 for one address; `dev` says that R411 admits the access kind to device registers. -/
def checkAddr (s : State) (ctx : Nat) (sup : Bool) (k : Acc) (dev : Bool) (va : BitVec 64) (align : Nat) : Except Trap Xl :=
  if va.toNat % align ≠ 0 then .error ⟨cAlign, va⟩
  else if field va 55 9 ≠ 0 then .error ⟨cProt, va⟩
  else match xlate s ctx va with
    | none => .error ⟨cPageFault, va⟩
    | some l =>
      let pa := l.pa + va.toNat % 65536
      if !permOk sup k l then .error ⟨cProt, va⟩
      else if !placeOk s ctx sup dev l pa then .error ⟨cProt, va⟩
      else .ok ⟨pa, l, keyIx s l.key⟩

/-- The addresses at which the bytes of a range must be checked: its start and each 64 KiB page that it enters. -/
def pageStarts (va : BitVec 64) (n : Nat) : List (BitVec 64) :=
  if n = 0 then []
  else (List.range ((va.toNat % 65536 + n + 65535) / 65536)).map
    (fun j => if j = 0 then va else BitVec.ofNat 64 (va.toNat / 65536 * 65536 + 65536 * j))

/-- Checks of every byte of a range (R156): the translations of its pages, by virtual page number. -/
def checkSpan (s : State) (ctx : Nat) (sup : Bool) (k : Acc) (va : BitVec 64) (n : Nat) : Except Trap (List (Nat × Leaf)) :=
  (pageStarts va n).mapM (fun a => do
    let x ← checkAddr s ctx sup k false a 1
    pure (a.toNat / 65536, x.leaf))

/-- A leaf among kept translations. -/
def leafIn (xl : List (Nat × Leaf)) (va : Nat) : Leaf :=
  match xl.find? (fun e => e.1 == va / 65536) with
  | some e => e.2
  | none => default

/-- Physical address of a virtual one under kept translations. -/
def paIn (xl : List (Nat × Leaf)) (va : Nat) : Nat := (leafIn xl va).pa + va % 65536

/-- Pieces of a range that lie in one page each: virtual address and length. -/
def pieces (va n : Nat) : List (Nat × Nat) :=
  if n = 0 then []
  else (List.range ((va % 65536 + n + 65535) / 65536)).map fun j =>
    let a := if j = 0 then va else va / 65536 * 65536 + 65536 * j
    let e := min (va + n) (va / 65536 * 65536 + 65536 * (j + 1))
    (a, e - a)

/-- Reading a range at H under kept translations: bytes and poison (R175). -/
def readIn (s : State) (xl : List (Nat × Leaf)) (va n : Nat) : List Byte × Bool :=
  (pieces va n).foldl (fun r p =>
    let pa := paIn xl p.1
    (r.1 ++ hRead s (keyIx s (leafIn xl p.1).key) pa p.2, r.2 || hPoiSpan s pa p.2)) ([], false)

/-- Data read at H under kept translations arrives at a die: poisoned lines mark the boundaries that they cross (R391). -/
def arrivesIn (s : State) (die : Nat) (xl : List (Nat × Leaf)) (va n : Nat) : State :=
  (pieces va n).foldl (fun s p => arrives s die (paIn xl p.1) p.2) s

/-- Writing a range at H under kept translations: one write to each line (R152, R175). -/
def writeIn (s : State) (xl : List (Nat × Leaf)) (va : Nat) (data : List Byte) (poi : Bool) : State :=
  ((pieces va data.length).foldl (fun (r : State × List Byte) p =>
    (hWriteSpan r.1 (keyIx r.1 (leafIn xl p.1).key) (paIn xl p.1) (r.2.take p.2) poi, r.2.drop p.2)) (s, data)).1

/-- The same by an agent at a die. -/
def sendIn (s : State) (die : Nat) (xl : List (Nat × Leaf)) (va : Nat) (data : List Byte) (poi : Bool) : State :=
  ((pieces va data.length).foldl (fun (r : State × List Byte) p =>
    (hSendSpan r.1 die (keyIx r.1 (leafIn xl p.1).key) (paIn xl p.1) (r.2.take p.2) poi, r.2.drop p.2)) (s, data)).1

/-- The parts of a range that lie in one line each: virtual address and length. -/
def lineParts (va n : Nat) : List (Nat × Nat) :=
  (List.range ((va % 64 + n + 63) / 64)).map (fun j =>
    let lo := max va (64 * (va / 64 + j))
    (lo, min (va + n) (64 * (va / 64 + j + 1)) - lo))

/-- A line of memory holds bytes of a range. -/
def inRange (xl : List (Nat × Leaf)) (va n line : Nat) : Bool := (pieces va n).any (fun p => paIn xl p.1 / 64 ≤ line && line ≤ (paIn xl p.1 + p.2 - 1) / 64)

/-- The least first failing check over lanes: the first error in a list of per-lane results (R140). -/
def firstTrap : List (Except Trap α) → Except Trap (List α)
  | [] => .ok []
  | .error t :: _ => .error t
  | .ok a :: r => match firstTrap r with
    | .ok l => .ok (a :: l)
    | .error t => .error t

-- ===== device registers reached by groups (R409, R411) are read and written in Machine/Regs.lean =====

end Sys2Proof.Machine
end

