-- ==== Sys2Proof/Machine/Operands.lean ====
section
/-!
DEFINITION. Operands: lanes and masks (R62), registers by code (R59), constants (R60, R61), immediates (R54), sub-elements and routing (R63), and
the writing of destinations with poison (R109) and temporaries (R68).
-/

namespace Sys2Proof.Machine

-- ===== lanes =====

def fullMask : BitVec 32 := 0xFFFFFFFF#32
/-- The lanes of a mask, ascending. -/
def lanes (m : BitVec 32) : List Nat := (List.range 32).filter (fun l => m.getLsbD l)
def bitOf (l : Nat) : BitVec 32 := 1#32 <<< l
def maskOf (ls : List Nat) : BitVec 32 := ls.foldl (fun m l => m ||| bitOf l) 0
/-- Whether every lane of a mask belongs to another. -/
def within (m n : BitVec 32) : Bool := m &&& ~~~n == 0
def popc32 (m : BitVec 32) : Nat := (lanes m).length

/-- A mask register; m0 is hardwired to all ones (R80). -/
def mreg (x : Group) (n : Nat) : BitVec 32 := if n = 0 then fullMask else x.m.get n
/-- Writing a mask register; m0 cannot be written. -/
def setMreg (x : Group) (n : Nat) (v : BitVec 32) : Group := if n = 0 then x else { x with m := x.m.set n v }

/-- The active lanes of the issuing run (R62). -/
def active (x : Group) : BitVec 32 := match x.run with
  | some r => r.ent.mask
  | none => 0

/-- The live lanes that a mask selector leaves (R62). -/
def liveOf (x : Group) : Msk → BitVec 32
  | .all => active x
  | .p1 => active x &&& mreg x 1
  | .p2 => active x &&& mreg x 2
  | .p3 => active x &&& mreg x 3
  | .n1 => active x &&& ~~~mreg x 1
  | .n2 => active x &&& ~~~mreg x 2
  | .n3 => active x &&& ~~~mreg x 3

-- ===== the run =====

def runPc (x : Group) : BitVec 64 := match x.run with
  | some r => r.pc
  | none => 0
def runEnt (x : Group) : Entry := match x.run with
  | some r => r.ent
  | none => default
def runState (x : Group) : RunState := match x.run with
  | some r => r.rs
  | none => {}
def updRun (x : Group) (f : Issue → Issue) : Group := { x with run := x.run.map f }
def updRs (x : Group) (f : RunState → RunState) : Group := updRun x (fun r => { r with rs := f r.rs })

-- ===== registers by operand code =====

/-- A register's value in a lane, by its code: v, s, k, m (R59). -/
def rget (x : Group) (c l : Nat) : PV :=
  if c < 0x100 then x.v.get (32 * c + l)
  else if c < 0x140 then x.s.get (c - 0x100)
  else if c < 0x144 then (runState x).temps.get (32 * (c - 0x140) + l)
  else ⟨(mreg x (c - 0x144)).setWidth 64, false⟩

/-- Writing a register in a lane, by its code. -/
def rset (x : Group) (c l : Nat) (p : PV) : Group :=
  if c < 0x100 then { x with v := x.v.set (32 * c + l) p }
  else if c < 0x140 then { x with s := x.s.set (c - 0x100) p }
  else if c < 0x144 then updRs x (fun r => { r with temps := r.temps.set (32 * (c - 0x140) + l) p })
  else setMreg x (c - 0x144) (p.val.setWidth 32)

/-- The code of the register that an operand reaches: an indirect operand names v[s n] (R60). -/
def opCode (x : Group) (o : Opd) : Nat :=
  match o with
  | .ind n => (x.s.get n.toNat).val.toNat
  | o => o.code.toNat

def opIsS : Opd → Bool
  | .s _ => true
  | _ => false
def opIsK : Opd → Bool
  | .k _ => true
  | _ => false
def opIsM : Opd → Bool
  | .m _ => true
  | _ => false
def opIsV : Opd → Bool
  | .v _ => true
  | _ => false
def opIsInd : Opd → Bool
  | .ind _ => true
  | _ => false
def opIsC : Opd → Bool
  | .ic _ => true
  | .fc _ => true
  | _ => false

/-- The FP64 value of an entry of the FP constant table (R61). -/
def fpConst (n : Nat) : Nat :=
  match n with
  | 0 => 0 | 1 => 0x3FE0000000000000 | 2 => 0x3FF0000000000000 | 3 => 0x4000000000000000 | 4 => 0x4008000000000000 | 5 => 0x4010000000000000
  | 6 => 0x4020000000000000 | 7 => 0x4024000000000000 | 8 => 0xBFF0000000000000 | 9 => 0xBFE0000000000000 | 10 => 0x3FD0000000000000
  | 11 => 0x3FE62E42FEFA39EF | 12 => 0x3FF71547652B82FE | 13 => 0x400921FB54442D18 | 14 => 0x7FF0000000000000 | _ => 0xFFF0000000000000

/-- The sub-element that a constant supplies in a shape (R60, R61). -/
def constSub (shp : Shape) (o : Opd) : Nat :=
  let f := shapeFmt shp false
  match o with
  | .ic c => if shp.isInt then c.toNat % 2 ^ shp.width else (f.encode .rne false 0 (.ofInt c.toNat)).1
  | .fc c => (f.encode .rne false 0 (FF.fp64.decode (fpConst c.toNat))).1
  | _ => 0

/-- The 64-bit value of a constant in a shape. -/
def constVal (shp : Shape) (o : Opd) : BitVec 64 :=
  BitVec.ofNat 64 (packSubs shp.width (List.replicate shp.count (constSub shp o)))

/-- An operand's value in a lane; constants are never poisoned (R109). -/
def opVal (x : Group) (shp : Shape) (o : Opd) (l : Nat) : PV :=
  if opIsC o then ⟨constVal shp o, false⟩ else rget x (opCode x o) l

-- ===== writing destinations =====

/-- What a word writes to one lane of its destination: the bits `care` of `val`, and poison; a write that keeps part of the old content keeps its
poison too (R109). -/
structure LaneW where
  lane : Nat
  val : BitVec 64
  care : BitVec 64 := 0xFFFFFFFFFFFFFFFF#64
  poi : Bool := false
  deriving DecidableEq, Repr

/-- One lane's write into a register. -/
def applyLane (x : Group) (c : Nat) (w : LaneW) : Group :=
  let old := rget x c w.lane
  rset x c w.lane ⟨(old.val &&& ~~~w.care) ||| (w.val &&& w.care), w.poi || (old.poi && w.care != 0xFFFFFFFFFFFFFFFF#64)⟩

/-- A temporary's first write in a run: lanes and parts that it does not write hold free values, without poison (R68, log 8). -/
def bornTemp (s : State) (g k : Nat) (whole : BitVec 32) : State :=
  let x := s.grp g
  if (runState x).tdef.getLsbD k then s
  else
    let y := (lanes (~~~whole)).foldl (fun y l => rset y (0x140 + k) l ⟨Config.freeTemp (s.tick + l), false⟩) x
    { s.setGrp g (updRs y (fun r => { r with tdef := r.tdef ||| (1#4 <<< k) })) with tick := s.tick + 32 }

/-- A destination temporary is born at its first write. -/
def bornDest (s : State) (g : Nat) (o : Opd) (ws : List LaneW) : State :=
  match o with
  | .k n => bornTemp s g n.toNat (maskOf ((ws.filter (fun (w : LaneW) => w.care == 0xFFFFFFFFFFFFFFFF#64)).map LaneW.lane))
  | _ => s

/-- A word's writes to its destination. -/
def writeLanes (s : State) (g : Nat) (o : Opd) (ws : List LaneW) : State :=
  if ws.isEmpty then s
  else
    let s1 := bornDest s g o ws
    let c := opCode (s1.grp g) o
    s1.updGrp g (fun x => ws.foldl (fun x w => applyLane x c w) x)

-- ===== immediates (R54) =====

/-- The 64-bit value of a format-I immediate of MAJ 0x02: IMM27 sign-extended, cut to the shape's sub-elements. -/
def immInt (shp : Shape) (n imm : Nat) : BitVec 64 :=
  let v := wrapBits 64 (toInt n false (imm % 2 ^ n))
  BitVec.ofNat 64 (packSubs shp.width (List.replicate shp.count (v % 2 ^ shp.width)))

/-- The immediate of MAJ 0x09: an FP32 value whose top bits are the immediate, rounded into the shape's format. -/
def immFp (shp : Shape) (n imm : Nat) : BitVec 64 :=
  let bits := imm % 2 ^ n * 2 ^ (32 - n)
  BitVec.ofNat 64 (packSubs shp.width (List.replicate shp.count (((shapeFmt shp false).encode .rne false 0 (FF.fp32.decode bits)).1)))

-- ===== sub-elements and routing (R63, R108) =====

/-- The sub-element of A, and of B, that sub-element `i` of the result reads. -/
def routeA (rt : Route) (i : Nat) : Nat := if rt = .bca then 0 else i
def routeB (rt : Route) (i : Nat) : Nat := if rt = .bcb then 0 else i

/-- The sub-elements that a word computes and writes. -/
def written (shp : Shape) (rt : Route) : List Nat := if rt = .lo then [0] else List.range shp.count

/-- The bits of a register that a list of sub-elements covers. -/
def careBits (w : Nat) (is : List Nat) : BitVec 64 := is.foldl (fun m i => m ||| BitVec.ofNat 64 ((2 ^ w - 1) * 2 ^ (w * i))) 0

/-- A register value from values at sub-element places. -/
def placeSubs (w : Nat) (vs : List (Nat × Nat)) : BitVec 64 := vs.foldl (fun m p => m ||| BitVec.ofNat 64 (p.2 % 2 ^ w * 2 ^ (w * p.1))) 0

end Sys2Proof.Machine
end

