-- ==== Sys2Proof/Machine/Flags.lean ====
section
/-!
DEFINITION. Flags: FPMODE's sticky bits (R42 to R44), the rounding mode that a word uses (R36, R42) and the stochastic states (R38).
-/

namespace Sys2Proof.Machine

/-- The flags of a word that completes, ORed into FPMODE (R44). -/
def orFlags (s : State) (g : Nat) (f : BitVec 5) : State :=
  s.updGrp g (fun x => { x with spr := { x.spr with fpmode := x.spr.fpmode ||| f.setWidth 64 } })

/-- The mode that a rounding selector names: `.dyn` takes FPMODE.DRM, whose codes 6 and 7 round as rne (R36, R42). -/
def modeOf (x : Group) (r : Rnd) : Rnd :=
  match r with
  | .dyn => match field x.spr.fpmode 8 3 with
    | 1 => .rz | 2 => .rd | 3 => .ru | 4 => .rna | 5 => .rs | _ => .rne
  | m => m

/-- A lane's stochastic state: seeded at birth and at each SWR to RSEED (R38). -/
def rngOf (x : Group) (l : Nat) : BitVec 32 := if x.rng.get l = 0 then seedState 0 l else x.rng.get l

/-- FPMODE after an SWR: DRM and the five flags are written (R42). -/
def fpmodeWrite (v : BitVec 64) : BitVec 64 := v &&& 0x71F#64

/-- The flags of one lane: none when a source is poisoned (R44). -/
def laneFlags (poi : Bool) (f : BitVec 5) : BitVec 5 := if poi then 0 else f

/-- Clamping of an integer result sets OF and NX (R110). -/
def clampFlags (clamped : Bool) : BitVec 5 := if clamped then fOF ||| fNX else 0

end Sys2Proof.Machine
end

