-- ==== Sys2Proof/Machine/Group.lean ====
section
/-!
DEFINITION. The group (chapter 05): results in flight (R66), the frontier (R91 to R93, R196, R378), atomic-buffer flushes (R190) and a group's end
(R101).
-/

namespace Sys2Proof.Machine

-- ===== results in flight (R66) =====

/-- Whether a register's pending bit is set. -/
def pending (x : Group) (c : Nat) : Bool := x.inflight.any (fun f => f.regs.contains c)

/-- Whether what a result waits for has happened. -/
def waitDone (s : State) (x : Group) (tag : Nat) : WaitOn → Bool
  | .ops => !x.iq.any (fun o => o.tag == tag)
  | .copies ids => !s.copies.any (fun c => ids.contains c.id)
  | .partials ids => !s.flights.any (fun p => ids.contains p.id)
  | .load c => (s.comps.get c).loading.isNone
  | .save c => (s.comps.get c).saving.isNone
  | .consts c i => !(s.comps.get c).switching.any (fun w => w.entry == i)
  | .chain id => !(s.chains.get id).wants.any (fun w => w.tag == tag)
  | .engine ids => !s.engines.any (fun e => e.2.any (fun n => ids.contains n.id))
  | .ranks ids => !s.ranks.any (fun r => !r.done && ids.contains r.id)

def flightReady (s : State) (x : Group) (f : Flight) : Bool := f.waits.all (waitDone s x f.tag)

/-- The record of the lowest lane, and within it the lowest address (R439). -/
def lowestPoison : List (Nat × BitVec 64) → Nat × BitVec 64
  | [] => (0, 0)
  | [p] => p
  | p :: ps =>
    let q := lowestPoison ps
    if p.1 < q.1 || (p.1 = q.1 && p.2.toNat ≤ q.2.toNat) then p else q

/-- POISON_INFO after a result that delivers poison (R388, R439): the first to come is kept, and MULT says that more came, from another line, word or
tile of the same result or with a later one. -/
def notePoison (cur : BitVec 64) (ps : List (Nat × BitVec 64)) : BitVec 64 :=
  if ps.isEmpty then cur
  else if cur ≠ 0 then cur ||| 0x2000000000000000#64
  else
    let p := (lowestPoison ps).2
    if ps.any (fun q => q.2 != p) then p ||| 0x2000000000000000#64 else p

/-- What a DRAIN of a core counts: lines of copies of its kinds that issued before it (R157). -/
def drainHit (core kinds tag : Nat) (e : Nat × Nat × Nat × Nat) : Bool := e.1 == core && kinds / 2 ^ e.2.1 % 2 == 1 && e.2.2.1 < tag
/-- The number of distinct lines and shared words. -/
def drainCount (s : State) (core kinds tag : Nat) : Nat :=
  (((s.poiLines.filter (drainHit core kinds tag)).map (fun e => (e.2.1 == 0, e.2.2.2))).eraseDups).length
def drainReset (s : State) (core kinds tag : Nat) : State := { s with poiLines := s.poiLines.filter (fun e => !drainHit core kinds tag e) }

/-- The stage of a chain that a group runs now, 0 for a group that runs none. -/
def stageIx (x : Group) : Nat := match x.chain with
  | some (_, i) => i
  | none => 0

/-- The flags of a result whose stage has lost control of its folded chain go to that stage's own FPMODE (R246). -/
def stageFlags (s : State) (x : Group) (f : Flight) : State :=
  match x.chain with
  | some (c, i) =>
    if f.stage = i then s
    else { s with chains := s.chains.upd c (fun h => { h with stages := h.stages.modify f.stage (fun t =>
      { t with st := { t.st with fpmode := t.st.fpmode ||| f.flags.setWidth 64 } }) }) }
  | none => s

/-- A result returns: its registers receive their values, its flags are ORed in, its pending bits clear; a parked group none of whose names is
still pending becomes READY (R66, R69, R79). -/
def returnFlight (s : State) (g : Nat) (f : Flight) : State :=
  let core := coreOf g
  let ws := if f.drainKinds = 0 then f.writes
    else f.writes ++ f.regs.map (fun c => ⟨c, 0, ⟨BitVec.ofNat 64 (drainCount s core f.drainKinds f.tag % 2 ^ 32), false⟩⟩)
  let s1 := if f.drainKinds = 0 then s else drainReset s core f.drainKinds f.tag
  let s2 := stageFlags (if f.acquire then acquireAt s1 g .dev else s1) (s.grp g) f
  s2.updGrp g (fun x =>
    let y := ws.foldl (fun y w => rset y w.reg w.lane w.pv) x
    let fl : BitVec 5 := if x.chain.isSome && f.stage != stageIx x then 0 else f.flags
    let z := { y with inflight := y.inflight.filter (fun h => h.tag != f.tag),
                      spr := { y.spr with fpmode := y.spr.fpmode ||| fl.setWidth 64, poisonInfo := notePoison y.spr.poisonInfo f.pinfo } }
    if z.life == .parked && !z.parkNames.any (pending z) then { z with life := .ready, parkNames := [] } else z)

/-- A class-V word's result goes in flight and its destinations enter the run hazard set (R66, R67). -/
def launchFlight (s : State) (g : Nat) (f : Flight) : State :=
  s.updGrp g (fun x => updRs { x with inflight := x.inflight ++ [{ f with stage := stageIx x }] } (fun r => { r with hazard := r.hazard ++ f.regs }))

/-- A new identity for results, operations, copies and partials. -/
def freshId (s : State) : Nat × State := (s.nextId, { s with nextId := s.nextId + 1 })

/-- A result that is known at once but returns later: one register, one value per lane written. -/
def flightNow (s : State) (g : Nat) (o : Opd) (ws : List (Nat × PV)) (fl : BitVec 5) (waits : List WaitOn) : State :=
  let c := opCode (s.grp g) o
  let r := freshId s
  launchFlight r.2 g { tag := r.1, regs := [c], writes := ws.map (fun w => ⟨c, w.1, w.2⟩), flags := fl, waits := waits }

/-- Whether every result in flight could return now. -/
def allReady (s : State) (g : Nat) : Bool := (s.grp g).inflight.all (flightReady s (s.grp g))
/-- Every result in flight returns. -/
def returnAll (s : State) (g : Nat) : State := (s.grp g).inflight.foldl (fun s f => returnFlight s g f) s

-- ===== the frontier =====

/-- IH of TRAP_CAUSE: the U handler runs (R380). -/
def inHandler (x : Group) : Bool := flag x.spr.trapCause 9
/-- The lanes of the handler (R378). -/
def handlerLanes (x : Group) : BitVec 32 := match x.trapS with
  | some t => t.lanes
  | none => 0

/-- Lanes of an open transaction never merge with others (R196). -/
def sameSide (x : Group) (a b : BitVec 32) : Bool := !x.tx.act || within a x.tx.lanes == within b x.tx.lanes

/-- Merging lanes into the entry of equal pc and depth, or adding an entry (R93); the run state that a return has left for that place stays with the
merged entry (log 14). -/
def insertIn (x : Group) (e : Entry) : List Entry → List Entry
  | [] => [e]
  | f :: r =>
    if f.pc = e.pc && f.depth = e.depth && sameSide x f.mask e.mask then
      { f with mask := f.mask ||| e.mask, prio := max f.prio e.prio, resume := e.resume.orElse (fun _ => f.resume) } :: r
    else f :: insertIn x e r

/-- Insertion of lanes into the frontier (R93). -/
def insert (x : Group) (e : Entry) : Group := if e.mask = 0 then x else { x with frontier := insertIn x e x.frontier }

/-- The entries that may be selected: while a transaction is open, those of its lanes alone; in a handler, those of its lanes alone. -/
def selectable (x : Group) (e : Entry) : Bool :=
  (!x.tx.act || within e.mask x.tx.lanes) && (!inHandler x || within e.mask (handlerLanes x))

/-- Greatest depth, then greatest priority, then lowest pc (R92). -/
def before (a b : Entry) : Bool :=
  a.depth > b.depth || (a.depth == b.depth && (a.prio > b.prio || (a.prio == b.prio && a.pc.toNat < b.pc.toNat)))

/-- The entry that R92 selects. -/
def bestOf : List Entry → Option Entry
  | [] => none
  | e :: r => match bestOf r with
    | none => some e
    | some f => if before f e then some f else some e

def selected (x : Group) : Option Entry := bestOf (x.frontier.filter (selectable x))

/-- Every lane that has not exited. -/
def unexited (x : Group) : BitVec 32 := x.frontier.foldl (fun m e => m ||| e.mask) (active x)

-- ===== atomic buffer (R190) =====

/-- A flush: the entries go to their homes as partials, and the count of flushes rises. The answer is the partials' identities. -/
def flushRedo (s : State) (g : Nat) : List Nat × State :=
  let x := s.grp g
  if x.redo.isEmpty then ([], s.setGrp g { x with flushes := x.flushes + 1 })
  else
    let n := x.redo.length
    let ids := (List.range n).map (fun i => s.nextId + i)
    let ps := (List.range n).map (fun i =>
      ({ id := s.nextId + i, ctx := x.ctx, grid := x.spr.grid, ent := x.redo.getD i default, src := x.srcKey, seq := x.flushes } : Partial))
    (ids, { s.setGrp g { x with redo := [], flushes := x.flushes + 1 } with flights := s.flights ++ ps, nextId := s.nextId + n })

-- ===== the end of a group (R101, R341) =====

/-- Blocks of a core's pool that no group holds (R83). -/
def poolFree (s : State) (core : Nat) : Nat :=
  48 - (s.groups.filter (fun e => coreOf e.1 == core)).foldl (fun n e => n + e.2.blocks) 0

/-- A write to a core's pool line wakes its waiters (R83, R209). -/
def poolWrite (s : State) (core : Nat) : State := { s with poolPos := s.poolPos.upd core (· + 1) }

def updKernel (s : State) (grid : BitVec 64) (f : Kernel → Kernel) : State :=
  { s with kernels := s.kernels.map (fun k => if k.grid == grid then f k else k) }

/-- Clusters of a slice (R343). -/
def sliceClusters (k : Kernel) (i : Nat) : Nat := min ((i + 1) * k.slen) k.nclu - i * k.slen
/-- Groups of a cluster (R339). -/
def clusterGroups (k : Kernel) : Nat := k.crows * k.ccols * k.ngroup
/-- Number of slices (R343). -/
def sliceCount (k : Kernel) : Nat := (k.nclu + k.slen - 1) / k.slen

/-- No group of a slice is left, the stages of its chains included, resident or stopped (R248, R340). -/
def sliceEmpty (s : State) (grid : BitVec 64) (sl : Nat) : Bool :=
  !s.groups.any (fun e => e.2.spr.grid == grid && e.2.slice == sl) && !s.frozen.any (fun f => f.x.spr.grid == grid && f.x.slice == sl)

/-- A group of a kernel has exited, one of those that the launch placed (`n` is 1) or a chain's stage (0): the slice may be DONE and the kernel SETTLING
(R341, R343). -/
def kernelExit (sl n : Nat) (empt : Bool) (k : Kernel) : Kernel :=
  let ex := k.exited.upd sl (· + n)
  let sls := if empt && ex.get sl = sliceClusters k sl * clusterGroups k then k.slices.set sl .done else k.slices
  { k with exited := ex, slices := sls, st := if k.st == .running && (sls.filter (fun e => e.2 == .done)).length = sliceCount k then .settling else k.st }

/-- A copy in flight reads or writes the team's shared store (R177). -/
def teamCopying (s : State) (tid : Nat) : Bool := s.copies.any (fun c => c.tid == tid && (c.skind == 1 || c.dkind == 0))

/-- A team whose groups have all exited ends, and its tiles and shared store with it, once no engine entry of it is left and no copy in flight uses
its shared store. -/
def reapTeam (s : State) (tid : Nat) : State :=
  let t := s.teams.get tid
  if t.exits ≥ t.ngroup && !s.engines.any (fun e => e.2.any (fun n => n.tid == tid)) && (s.reentry.get tid).isEmpty &&
      !s.groups.any (fun e => e.2.tid == tid) && !teamCopying s tid then
    { s with teams := s.teams.del tid, reentry := s.reentry.del tid }
  else s

/-- The end of a group: its queued operations perform, its atomic buffer flushes, its writes reach H (R351), its blocks return to the pool and its
slot is free. A stage of a chain is none of its team's NGROUP groups, but its slice is DONE only when it has exited too. -/
def removeGroup (s : State) (g : Nat) : State :=
  let s1 := passAll (flushRedo (performAll s g) g).2 g
  let x := s1.grp g
  let s2 := { s1 with groups := s1.groups.del g }
  let s3 := if x.blocks = 0 then s2 else poolWrite s2 (coreOf g)
  let n := if x.chain.isSome then 0 else 1
  let s4 := { s3 with teams := s3.teams.upd x.tid (fun t => { t with exits := t.exits + n }) }
  reapTeam (updKernel s4 x.spr.grid (kernelExit x.slice n (sliceEmpty s4 x.spr.grid x.slice))) x.tid

end Sys2Proof.Machine
end

