-- ==== Sys2Proof/Machine/Tx.lean ====
section
/-!
DEFINITION. Transactions (chapter 09): the two sets (R197), the endings of an attempt (R200, R205 to R208), the refused-word path (R198), and the
parking of a group on lines (R209, R211).
-/

namespace Sys2Proof.Machine

/-- What a word's own meaning gives: its effect is done and the run goes on with the next word; it traps; or it has arranged everything itself (the
run ended, the group waits). -/
inductive Eff where
  | done (s : State)
  | trap (s : State) (t : Trap)
  | moved (s : State)
  deriving DecidableEq, Repr

-- CAUSE codes of TX_STATUS (R201)
def txCommit : Nat := 0
def txConflict : Nat := 1
def txCapacity : Nat := 2
def txRetry : Nat := 3
def txAbort : Nat := 4
def txTrap : Nat := 5
def txRefused : Nat := 6
def txDiverged : Nat := 7
def txNesting : Nat := 8
def txEmpty : Nat := 9

/-- Whether no line of the read set has been written since it was read (R199, R203). -/
def txValid (s : State) (x : Group) : Bool := x.tx.reads.all (fun r => hPos s r.line == r.pos)

/-- Recording how an attempt ended (R201). -/
def txNote (x : Group) (cause : Nat) (pc : BitVec 64) : Group := { x with spr := { x.spr with txCause := cause, txWpc := pc } }

/-- The transaction is closed: its writes are discarded and its read set emptied. -/
def closeTx (x : Group) (cause : Nat) (pc : BitVec 64) : Group := { txNote x cause pc with tx := {} }

/-- The lanes' on-chip return-stack entries (R200). -/
def stacksOf (x : Group) (m : BitVec 32) : SMap (List (BitVec 64)) := (lanes m).filterMap (fun l =>
  if (x.rstk.get l).isEmpty then none else some (l, x.rstk.get l))

/-- A recorded place: address, priority, depth, return stacks of the lanes. -/
def placeHere (x : Group) (pc : BitVec 64) (m : BitVec 32) : Restart :=
  { pc := pc, prio := (runEnt x).prio, depth := (runEnt x).depth, rstk := stacksOf x m, nest := x.tx.nest }

/-- The lanes leave the frontier and the run, and their on-chip return stacks are as recorded (R200). -/
def pullLanes (x : Group) (r : Restart) (m : BitVec 32) : Group :=
  { x with frontier := x.frontier.filter (fun e => !within e.mask m), run := none,
           rstk := (lanes m).foldl (fun st l => st.set l (r.rstk.get l)) x.rstk }

/-- The lanes stand at a recorded place as one entry (R200). -/
def standAt (x : Group) (r : Restart) (m : BitVec 32) : Group :=
  insert (pullLanes x r m) { pc := r.pc, prio := r.prio, depth := r.depth, mask := m }

/-- The attempt restarts: the transaction is closed and its lanes stand at the restart point (R195, R200). -/
def restartTx (x : Group) (cause : Nat) (pc : BitVec 64) : Group :=
  { standAt (closeTx x cause pc) x.tx.restart x.tx.lanes with life := .ready }

/-- The attempt passes to the registered successor (R206, R207): a RETRY keeps the read set whole, another ending drops the alternative's own reads. -/
def passSucc (x : Group) (cause : Nat) (pc : BitVec 64) (r : Restart) : Group :=
  let rd := if cause = txRetry then x.tx.reads else x.tx.reads.filter (fun e => e.alt != x.tx.alt)
  let y := { txNote x cause pc with tx := { x.tx with writes := [], reads := rd, alt := x.tx.alt + 1, nest := r.nest, succ := none } }
  { standAt y r x.tx.lanes with life := .ready }

/-- The attempt fails by conflict or capacity (R206). -/
def failTx (x : Group) (cause : Nat) (pc : BitVec 64) : Group :=
  match x.tx.succ with
  | some r => passSucc x cause pc r
  | none => restartTx x cause pc

/-- The run of the entry that R92 selects; a group that stopped within a run goes on with it. -/
def startRun (x : Group) : Option Group :=
  match x.run with
  | some _ => some x
  | none => match selected x with
    | none => none
    | some e => some { x with frontier := x.frontier.erase e, run := some { ent := { e with resume := none }, pc := e.pc, rs := e.resume.getD {} } }

/-- The attempt ends with conflict at the current word. -/
def conflictEnd (s : State) (g : Nat) : State :=
  s.updGrp g (fun x => { failTx x txConflict (runPc x) with capCount := 0 })

/-- The attempt ends with capacity at the current word; a second consecutive one raises TX_CAPACITY at the word (R206). -/
def capacityEnd (s : State) (g : Nat) : Eff :=
  let x := s.grp g
  if x.capCount = 0 then .moved (s.setGrp g { failTx x txCapacity (runPc x) with capCount := 1 })
  else if txValid s x then .trap (s.setGrp g { closeTx x txCapacity (runPc x) with capCount := 0 }) ⟨cTxCapacity, 0⟩
  else .moved (conflictEnd s g)

/-- The refused-word path (R198), after the validation that precedes every trap of a transaction (R199). -/
def refuseTx (s : State) (g cause : Nat) : Eff :=
  let x := s.grp g
  if txValid s x then .trap (s.setGrp g { closeTx x cause (runPc x) with capCount := 0 }) ⟨cIllegal, 0⟩
  else .moved (conflictEnd s g)

/-- A group parks on lines (R209). -/
def parkOn (s : State) (g : Nat) (ls : List WLine) : State := s.updGrp g (fun x => { x with life := .waiting, thaw := ls })

/-- The group's context runs in compatibility mode (R356). -/
def inCompat (s : State) (x : Group) : Bool := (s.ctxs.get x.ctx).compat

/-- A group whose word has ended in an implicit RETRY stands at a quantum boundary until its team's round (R184). -/
def roundFirst (s : State) (g : Nat) : State :=
  if inCompat s (s.grp g) then s.updGrp g (fun x => { x with atBoundary := true, pastWord := true }) else s

/-- The same for what a word has arranged. -/
def roundFirstE (e : Eff) (g : Nat) : Eff := match e with
  | .moved s => .moved (roundFirst s g)
  | e => e

/-- RETRY of the open transaction (R207, R208). -/
def retryTx (s : State) (g : Nat) : Eff :=
  let x := s.grp g
  let pc := runPc x
  match x.tx.succ with
  | some r => .moved (s.setGrp g { passSucc x txRetry pc r with capCount := 0 })
  | none =>
    if x.tx.reads.isEmpty then refuseTx s g txEmpty
    else if txValid s x then
      .moved (s.setGrp g { restartTx x txRetry pc with capCount := 0, life := .waiting, thaw := x.tx.reads.map (fun r => .mem r.line r.pos) })
    else .moved (s.setGrp g { restartTx x txRetry pc with capCount := 0 })

/-- An implicit RETRY of the open transaction: like RETRY it needs an entry that holds all the transaction's lanes (R196, R212, R216). -/
def retryHere (s : State) (g : Nat) : Eff :=
  if active (s.grp g) != (s.grp g).tx.lanes then refuseTx s g txDiverged else roundFirstE (retryTx s g) g

/-- An implicit wait at the word itself (R72, R211); inside a transaction a RETRY of it (R212). Either is a quantum boundary (R184). -/
def waitOn (s : State) (g : Nat) (ls : List WLine) : Eff :=
  if (s.grp g).tx.act then retryHere s g else .moved (roundFirst (parkOn s g ls) g)

/-- The write-set entry of a line. -/
def writeEnt? (x : Group) (line : Nat) : Option WriteEnt := x.tx.writes.find? (fun e => e.line == line)

/-- Whether every byte of a range of one line is buffered. -/
def buffered (x : Group) (line off n : Nat) : Bool :=
  match writeEnt? x line with
  | none => false
  | some e => (List.range n).all (fun i => (e.bytes.get (off + i)).isSome)

/-- Lines enter the read set at the position at which they are read (R197); none when there would be a 33rd. A line is given with its key index. -/
def addReads (s : State) (g : Nat) (ls : List (Nat × Nat)) : Option State :=
  let s1 := ls.foldl (fun s l => settleLine s g l.2 l.1) s
  let x := s1.grp g
  let new := (ls.map (·.1)).eraseDups.filter (fun l => !x.tx.reads.any (fun r => r.line == l))
  if x.tx.reads.length + new.length > 32 then none
  else some (s1.setGrp g { x with tx := { x.tx with reads := x.tx.reads ++ new.map (fun l => ⟨l, hPos s1 l, x.tx.alt⟩) } })

/-- A transactional byte: from the write set where it is buffered, else at H (R197). -/
def txByte (s : State) (x : Group) (key pa : Nat) : Byte × Bool :=
  match writeEnt? x (pa / 64) with
  | none => (hByte s key pa, hPoi s (pa / 64))
  | some e => match e.bytes.get (pa % 64) with
    | some b => (b, e.poi.get (pa % 64))
    | none => (hByte s key pa, hPoi s (pa / 64))

/-- Bytes of a transactional read whose lines have entered the read set. -/
def txBytes (s : State) (x : Group) (key pa n : Nat) : List Byte × Bool :=
  let bs := (List.range n).map (fun i => txByte s x key (pa + i))
  (bs.map (·.1), bs.any (·.2))

/-- One store's bytes join the write-set entry of their line. -/
def mergeWrite (e : WriteEnt) (bs : SMap (Option Byte)) (poi : SMap Bool) : WriteEnt :=
  { e with bytes := bs.foldl (fun m b => m.set b.1 b.2) e.bytes,
           poi := bs.foldl (fun m b => m.set b.1 (poi.get b.1)) e.poi,
           whole := e.whole || (bs.length == 64 && poi.isEmpty) }

/-- A line's bytes enter the write set. -/
def addWrite (x : Group) (line key : Nat) (bs : SMap (Option Byte)) (poi : SMap Bool) : Group :=
  if x.tx.writes.any (fun e => e.line == line) then
    { x with tx := { x.tx with writes := x.tx.writes.map (fun e => if e.line == line then mergeWrite e bs poi else e) } }
  else { x with tx := { x.tx with writes := x.tx.writes ++ [mergeWrite { line := line, key := key, bytes := [] } bs poi] } }

/-- The lines of a write that are not yet in the write set would exceed its 8 (R197). -/
def writesFull (x : Group) (ls : List Nat) : Bool :=
  x.tx.writes.length + (ls.eraseDups.filter (fun l => !x.tx.writes.any (fun e => e.line == l))).length > 8

/-- The append of a write-set entry at H (R203): separate stores never clear a poison mark together (R152). -/
def commitWrite (s : State) (e : WriteEnt) : State :=
  if e.bytes.length = 64 && !e.whole then
    let s1 := hWrite s e.key e.line (e.bytes.take 32) false
    hWrite s1 e.key e.line (e.bytes.drop 32) false
  else hWrite s e.key e.line e.bytes false

/-- An entry put in line order. -/
def insertWrite (e : WriteEnt) : List WriteEnt → List WriteEnt
  | [] => [e]
  | f :: r => if e.line < f.line then e :: f :: r else f :: insertWrite e r
/-- Entries in ascending line order (R203). -/
def sortWrites (l : List WriteEnt) : List WriteEnt := l.foldr insertWrite []

end Sys2Proof.Machine
end

