-- ==== Sys2Proof/Machine/Info.lean ====
section
/-!
DEFINITION. What every word declares before it executes: operand kinds that it refuses (R60 and each instruction's table), the registers that it
reads and writes (R67, R68), its latency class (R66), its privilege, and how an open transaction treats it (R198).
-/

namespace Sys2Proof.Machine

/-- How an open transaction treats a word (R198). -/
inductive TxKind where
  | immediate | inside | refused
  deriving DecidableEq, Repr, Inhabited

/-- What a word declares. -/
structure Info where
  illegal : Bool := false
  priv : Bool := false
  reads : List Opd := []
  writes : List Opd := []
  extra : List Nat := []        -- further registers read, by code (CAS: D + 1)
  names : List Opd := []        -- registers that a trailer names: they must be held, and its wait is for their results (R69, R83, R245)
  tx : TxKind := .immediate
  xfer : Bool := false          -- must stand directly before TRL (R65, R383)
  trl : Bool := false
  deriving DecidableEq, Repr, Inhabited

-- ===== operand kinds =====

def opIsFc : Opd → Bool
  | .fc _ => true
  | _ => false
def opIsIc : Opd → Bool
  | .ic _ => true
  | _ => false
/-- v, k or indirect: refused as a source on the scalar unit (R60). -/
def perLane (o : Opd) : Bool := opIsV o || opIsK o || opIsInd o
/-- A destination that R60 refuses for an instruction that writes v, s, k or indirect registers and nothing else. -/
def dstBad (d : Opd) : Bool := opIsC d || opIsM d
/-- A source of a per-lane or scalar-unit instruction that R60 refuses. -/
def srcBad (d a : Opd) (int : Bool) : Bool := opIsM a || (int && opIsFc a) || (opIsS d && perLane a)
/-- A mask destination m1..m7. -/
def mDst : Opd → Bool
  | .m n => n != 0
  | _ => false
/-- A source of MOP and MMOV.mm: m, s or a constant (R118, R120). -/
def mSrc (o : Opd) : Bool := opIsM o || opIsS o || opIsC o
def sOrConst (o : Opd) : Bool := opIsS o || opIsIc o
def vOrS (o : Opd) : Bool := opIsV o || opIsS o
/-- v, k or indirect destination. -/
def vkn (o : Opd) : Bool := perLane o

-- ===== per family =====

def infoA (f : FmtA) (b c : Bool) (int : Bool) : Info :=
  { illegal := dstBad f.d || srcBad f.d f.a int || (b && srcBad f.d f.b int) || (c && srcBad f.d f.c int),
    reads := [f.a] ++ (if b then [f.b] else []) ++ (if c then [f.c] else []), writes := [f.d] }
def infoI (f : FmtI) (c int : Bool) : Info :=
  { illegal := dstBad f.d || srcBad f.d f.a int, reads := [f.a] ++ (if c then [f.d] else []), writes := [f.d] }
/-- A class-V instruction refuses a k destination (R60). -/
def noK (d : Opd) (i : Info) : Info := { i with illegal := i.illegal || opIsK d }
/-- ICMP and FCMP also accept m1..m7 as destination (R116). -/
def infoCmpA (f : FmtA) (int : Bool) : Info :=
  { illegal := opIsC f.d || (opIsM f.d && !mDst f.d) || srcBad f.d f.a int || srcBad f.d f.b int, reads := [f.a, f.b], writes := [f.d] }
def infoCmpI (f : FmtI) (int : Bool) : Info :=
  { illegal := opIsC f.d || (opIsM f.d && !mDst f.d) || srcBad f.d f.a int, reads := [f.a], writes := [f.d] }
/-- MMOV's pairs of kinds by qualifier (R120). -/
def mmovBad (d a : Opd) (q : Nat) : Bool :=
  match q with
  | 0 => !(mDst d && mSrc a)
  | 1 => !(vkn d && opIsM a)
  | 2 => !(mDst d && vkn a)
  | _ => !(vkn d && opIsM a)
/-- The conversion family: sources are in the source shape, B of QNT and DQNT holds a scale (R121 to R125). -/
def infoC (f : FmtC) (b : Bool) (bInt : Bool) : Info :=
  let aInt := match f.srcShape? with
    | some s => s.isInt
    | none => false
  { illegal := dstBad f.d || srcBad f.d f.a aInt || (b && srcBad f.d f.b (bInt || aInt)),
    reads := [f.a] ++ (if b then [f.b] else []), writes := [f.d] }
/-- Memory words: a v or s base, s only in D's scalar form with an s base (R151). -/
def infoLd (f : FmtM) (t : TxKind) : Info :=
  { illegal := !vOrS f.a || dstBad f.d || opIsK f.d || (opIsS f.d && !opIsS f.a), reads := [f.a], writes := [f.d], tx := t }
def infoSt (f : FmtM) (t : TxKind) : Info :=
  { illegal := !vOrS f.a || dstBad f.d || (opIsS f.d && !opIsS f.a), reads := [f.a, f.d], tx := t }
def infoAt (f : FmtAt) (bad : Bool) (ws : List Opd) (ex : List Nat) : Info :=
  { illegal := !vOrS f.a || bad || (opIsS f.d && !opIsS f.a), reads := [f.a, f.d], writes := ws, extra := ex, tx := .refused }
/-- A format-X word with a scalar destination and scalar sources. -/
def infoX (ok : Bool) (rs ws : List Opd) (t : TxKind) : Info := { illegal := !ok, reads := rs, writes := ws, tx := t }

/-- CAS refuses v255, s63 and any kind but v and s (R189). -/
def casBad (d : Opd) : Bool :=
  match d with
  | .v n => n == 255
  | .s n => n == 63
  | _ => true

/-- The writable special registers (R87). -/
def srWritable (n : Nat) : Bool := n == 0x0B || n == 0x0C || (0x11 ≤ n && n ≤ 0x14) || n == 0x1C || n == 0x1D || (0x20 ≤ n && n ≤ 0x22)
/-- SRD of the live counters is class V (R66). -/
def srLive (n : Nat) : Bool := n == 0x0D || n == 0x0E || n == 0x10

/-- A name of a trailer other than a v or s register is ILLEGAL (R68). -/
def nameBad : Option Opd → Bool
  | none => false
  | some o => !vOrS o

/-- What every instruction word declares; `stage` says that the group is a stage of a chain (R245). -/
def info (stage : Bool) (i : Instr) : Info :=
  match i with
  | .iadd f | .isub f | .imul f | .imulh f | .imin f | .imax f | .and f | .or f | .xor f | .andn f | .shl f | .shr f | .sar f | .bfx f
  | .lea f => infoA f true false true
  | .imad f | .bfi f => infoA f true true true
  | .iabs f | .popc f | .clz f => infoA f false false true
  | .iaddI f | .isubI f | .imulI f | .imulhI f | .iminI f | .imaxI f | .iabsI f | .andI f | .orI f | .xorI f | .andnI f | .shlI f | .shrI f
  | .sarI f | .popcI f | .clzI f | .bfxI f | .leaI f => infoI f false true
  | .imadI f | .bfiI f => infoI f true true
  | .fadd f | .fsub f | .fmul f | .fmin f | .fmax f => infoA f true false false
  | .ffma f => infoA f true true false
  | .fabs f | .fneg f | .frnd f => infoA f false false false
  | .frcp f | .frsq f | .fsqrt f | .fexp2 f | .flog2 f | .ftanh f => noK f.d (infoA f false false false)
  | .faddI f | .fsubI f | .fmulI f | .fminI f | .fmaxI f | .fabsI f | .fnegI f | .frndI f => infoI f false false
  | .ffmaI f => infoI f true false
  | .frcpI f | .frsqI f | .fsqrtI f | .fexp2I f | .flog2I f | .ftanhI f => noK f.d (infoI f false false)
  | .icmp f => infoCmpA f true
  | .fcmp f => infoCmpA f false
  | .icmpI f => infoCmpI f true
  | .fcmpI f => infoCmpI f false
  | .sel f => infoA f true false f.shp.isInt
  | .selI f => infoI f false f.shp.isInt
  | .mop f => { illegal := !mDst f.d || !mSrc f.a || (f.fam != 4 && !mSrc f.b), reads := if f.fam = 4 then [f.a] else [f.a, f.b], writes := [f.d] }
  | .mopI f => { illegal := !mDst f.d || !mSrc f.a, reads := [f.a], writes := [f.d] }
  | .mcnt f => { illegal := !vkn f.d || !opIsM f.a, reads := [f.a], writes := [f.d] }
  | .mcntI f => { illegal := !vkn f.d || !opIsM f.a, reads := [f.a], writes := [f.d] }
  | .mmov f => { illegal := mmovBad f.d f.a f.fam.toNat, reads := [f.a], writes := [f.d] }
  | .mmovI f => { illegal := mmovBad f.d f.a (f.imm.extractLsb' 24 3).toNat, reads := [f.a], writes := [f.d] }
  | .cvt f => infoC f false false
  | .pack f => infoC f true false
  | .qnt f | .dqnt f => infoC f true true
  | .qntScl f => infoC f false false
  | .xperm f =>
    let b := f.fam.toNat < 4
    { illegal := stage || dstBad f.d || opIsK f.d || srcBad f.d f.a f.shp.isInt || (b && srcBad f.d f.b f.shp.isInt),
      reads := [f.a] ++ (if b then [f.b] else []), writes := [f.d] }
  | .ptld f => { illegal := stage || !opIsS f.a, reads := [f.a], tx := .refused }
  | .shfl f => { illegal := dstBad f.d || srcBad f.d f.a f.shp.isInt || srcBad f.d f.b f.shp.isInt, reads := [f.a, f.b], writes := [f.d] }
  | .red f | .scan f => { illegal := !vkn f.d || srcBad f.d f.a f.shp.isInt, reads := [f.a], writes := [f.d] }
  | .rxa _ | .rxr _ => { illegal := stage, tx := .refused }
  | .srd d sr => { illegal := dstBad d || (opIsS d && sr == 0) || (opIsK d && srLive sr.toNat), writes := [d] }
  | .swr a sr => { illegal := !sOrConst a || !srWritable sr.toNat, reads := [a] }
  | .ld f => infoLd f .inside
  | .ldsh f => infoLd f .immediate
  | .ldc f => { infoLd f .immediate with illegal := (infoLd f .immediate).illegal || !opIsS f.a }
  | .st f => infoSt f .inside
  | .stsh f => infoSt f .immediate
  | .prf f => { illegal := !vOrS f.a, reads := [f.a] }
  | .cpy a => infoX (opIsS a) [a] [] .refused
  | .drain d _ => infoX (opIsS d) [] [d] .refused
  | .amo f => infoAt f (dstBad f.d || opIsK f.d) [f.d] []
  | .cas f => infoAt f (casBad f.d) [f.d] [f.d.code.toNat + 1]
  | .redo f => infoAt f (opIsM f.d || (opIsFc f.d && f.shp.toNat < 5)) [] []
  | .fence _ _ => { tx := .refused }
  | .rflush d => infoX (opIsS d) [] [d] .refused
  | .tbegin | .tend | .retry | .otherwise _ | .tabort => { tx := .inside }
  | .qbind a _ => infoX (opIsS a) [a] [] .refused
  | .qbindFree _ => { tx := .refused }
  | .put d a _ => infoX (opIsS d && vOrS a) [a] [d] .inside
  | .get d _ => infoX (vOrS d) [] [d] .inside
  | .qcnt d _ => infoX (opIsS d) [] [d] .inside
  | .chload d a => infoX (opIsS d && opIsS a) [a] [d] .refused
  | .chfold d | .chspread d => infoX (opIsS d) [] [d] .refused
  | .binit a _ => infoX (opIsS a) [a] [] .refused
  | .barv r _ d a _ => infoX (opIsS a && (!r || opIsS d)) [a] (if r then [d] else []) .refused
  | .bwait _ d a => infoX (opIsS d && opIsS a) [a, d] [d] .inside
  | .btest d a => infoX (opIsS d && opIsS a) [a] [d] .inside
  | .mxacq d _ => infoX (opIsS d) [] [d] .refused
  | .mxrel _ _ => { tx := .refused }
  | .mxiss d a => infoX (opIsS d && opIsS a) [a] [d] .refused
  | .mxrank d _ => infoX (opIsS d) [] [d] .refused
  | .mxrankSet d a _ => infoX (opIsS d && sOrConst a) [a] [d] .refused
  | .mxrd _ d a _ => infoX ((opIsV d || opIsInd d) && sOrConst a) [a] [d] .refused
  | .mxwr _ d a _ => infoX ((opIsV d || opIsInd d) && sOrConst a) [d, a] [] .refused
  | .fconst d a _ _ => infoX (opIsS d && sOrConst a) [a] [d] .refused
  | .fcfg _ d a _ | .fcfgRestore _ d a _ | .fstopSave d a _ => infoX (opIsS d && opIsS a) [a] [d] .refused
  | .frun d a => infoX (opIsS d && opIsS a) [d, a] [] .refused
  | .fstopKill d _ | .fstopUnload d _ | .fstat d _ => infoX (opIsS d) [] [d] .refused
  | .launch d a r => infoX (opIsS d && opIsS a && opIsS r) [a, r] [d] .refused
  | .coll d a => infoX (opIsS d && opIsS a) [a] [d] .refused
  | .eret _ => { tx := .refused, xfer := true }
  | .tlbiPage d a _ => { infoX (opIsS d && opIsS a) [a] [d] .refused with priv := true }
  | .tlbiCtx d _ | .tlbiAll d => { infoX (opIsS d) [] [d] .refused with priv := true }
  | .bra _ _ _ | .brm _ _ _ _ | .call _ _ _ | .ret _ | .trap _ _ | .brk _ _ => { xfer := true }
  | .calli _ r => { illegal := !vOrS r, reads := [r], xfer := true }
  | .exit _ | .yield _ => { xfer := true, tx := .refused }
  | .trl _ _ _ _ n0 n1 n2 n3 => { illegal := nameBad n0 || nameBad n1 || nameBad n2 || nameBad n3, names := [n0, n1, n2, n3].filterMap id, trl := true }
  | _ => {}

end Sys2Proof.Machine
end

