-- ==== Sys2Proof/Machine/Ops.lean ====
section
/-!
DEFINITION. The shared operations of every word: fetching (R51, R52), the checks of R75 in their order, taking a trap (R377 to R381, R205) and
returning from one (R382, R383), fault records (R389), and the driver `issue` that every meaning goes through.
-/

namespace Sys2Proof.Machine

abbrev Out := Host.Outcome State Fault Refusal

-- ===== fetching =====

/-- A word's content at the launch of the group's kernel (R52, R350). -/
def snapWord (s : State) (x : Group) (key pa : Nat) : BitVec 64 :=
  match s.kernels.find? (fun k => k.grid == x.spr.grid) with
  | some k => hWord { s with h := { s.h with bytes := k.snap } } key pa
  | none => hWord s key pa

/-- A fetch through the group's translation under X permission. A word stored after the launch returns its old or its new content (R52, log 9). -/
def fetchWord (s : State) (x : Group) (pc : BitVec 64) : Except Trap (BitVec 64) :=
  match checkAddr s x.ctx x.sup .exec false pc 8 with
  | .error t => .error t
  | .ok a =>
    if hPoi s (a.pa / 64) then .error ⟨cPoison, pc⟩
    else
      let new := hWord s a.key a.pa
      let old := snapWord s x a.key a.pa
      .ok (if new = old then new else if Config.fetchOld (s.tick * 2 ^ 64 + pc.toNat) then old else new)

/-- The word at an address decodes to a trailer. -/
def isTrl : Instr → Bool
  | .trl .. => true
  | _ => false

-- ===== the checks of R75 =====

/-- What the checks before execution find. -/
inductive Pre where
  | ok
  | trap (t : Trap)
  | unassigned
  | refused
  deriving DecidableEq, Repr

/-- A shape of TS8 in a word, as destination or as source shape (R416). -/
def usesTs8 : Instr → Bool
  | .sel f => f.shp == .ts8x8
  | .selI f => f.shp == .ts8x8
  | .cvt f | .pack f | .qnt f | .qntScl f | .dqnt f => f.shp == .ts8x8 || f.srcShape? == some .ts8x8
  | .xperm f | .shfl f => f.shp == .ts8x8
  | _ => false

/-- Whether the capability list holds an ID (R415): the walk from CAP_HEAD over at most 64 entries. -/
def capWalk (s : State) (id : Nat) : Nat → Nat → Bool
  | 0, _ => false
  | n + 1, off =>
    if off = 0 then false
    else
      let w := s.regs.caps.get ((off - 0x5000) / 8)
      field w 0 16 == id || capWalk s id n (field w 32 32)
def hasCap (s : State) (id : Nat) : Bool := capWalk s id 64 (field s.regs.capHead 0 32)

/-- The stage of a chain that the group runs, if it is one (R245). -/
def stageOf (s : State) (x : Group) : Option Stage :=
  match x.chain with
  | none => none
  | some (c, i) => (s.chains.get c).stages[i]?

/-- A v or s register outside the stage's window (R245). -/
def outsideV (s : State) (x : Group) (n : Nat) : Bool := match stageOf s x with
  | none => false
  | some t => n < t.vbase || t.vbase + t.vlen ≤ n
def outsideS (s : State) (x : Group) (n : Nat) : Bool := match stageOf s x with
  | none => false
  | some t => n < t.sbase || t.sbase + t.slen ≤ n

/-- A v register of a block that the group does not hold (R83). -/
def unheldV (x : Group) (n : Nat) : Bool := 32 * (x.blocks + 1) ≤ n

/-- Step 6 of R75 for one operand. -/
def regBad (s : State) (x : Group) (o : Opd) : Option Trap :=
  match o with
  | .v n => if unheldV x n.toNat || outsideV s x n.toNat then some ⟨cRegBlock, n.setWidth 64⟩ else none
  | .s n => if outsideS s x n.toNat then some ⟨cRegBlock, n.setWidth 64⟩ else none
  | .ind n =>
    if outsideS s x n.toNat then some ⟨cRegBlock, n.setWidth 64⟩
    else
      let p := x.s.get n.toNat
      if p.poi then some ⟨cPoison, 0⟩
      else if 255 < p.val.toNat || unheldV x p.val.toNat || outsideV s x p.val.toNat then some ⟨cRegBlock, p.val⟩ else none
  | _ => none

/-- Step 6 of R75 for a further register of a block, by code. -/
def codeBad (s : State) (x : Group) (c : Nat) : Option Trap :=
  if c < 0x100 then (if unheldV x c || outsideV s x c then some ⟨cRegBlock, BitVec.ofNat 64 c⟩ else none)
  else if outsideS s x (c - 0x100) then some ⟨cRegBlock, BitVec.ofNat 64 (c - 0x100)⟩ else none

/-- Step 7 of R75 for one source (R68). -/
def tempBad (x : Group) (o : Opd) : Option Trap :=
  match o with
  | .k n => if (runState x).tdef.getLsbD n.toNat then none else some ⟨cTempUndef, o.code.setWidth 64⟩
  | _ => none

/-- Codes that the hazard check looks at for an operand: an indirect one reads its s register too (R67). -/
def hazardCodes (x : Group) (o : Opd) : List Nat :=
  match o with
  | .v _ | .s _ => [opCode x o]
  | .ind n => [0x100 + n.toNat, opCode x o]
  | _ => []

/-- Step 8 of R75 for one register code (R67). -/
def hazardBad (x : Group) (c : Nat) : Option Trap :=
  if (runState x).hazard.contains c || pending x c then some ⟨cRunHazard, BitVec.ofNat 64 c⟩ else none

/-- Steps 6 to 8 of R75. -/
def regChecks (s : State) (x : Group) (n : Info) : Option Trap :=
  let ops := n.reads ++ n.writes
  match ((ops ++ n.names).findSome? (regBad s x)).orElse (fun _ => n.extra.findSome? (codeBad s x)) with
  | some t => some t
  | none => match n.reads.findSome? (tempBad x) with
    | some t => some t
    | none => (ops.flatMap (hazardCodes x) ++ n.extra).findSome? (hazardBad x)

/-- Steps 2 to 8 of R75 for a word that is an instruction, with the refusal of an open transaction at its ILLEGAL (R198). -/
def checkInfo (s : State) (x : Group) (n : Info) : Pre :=
  if n.illegal then .trap ⟨cIllegal, 0⟩
  else if x.tx.act && n.tx == .refused then .refused
  else if n.priv && !x.sup then .trap ⟨cPriv, 0⟩
  else match regChecks s x n with
    | some t => .trap t
    | none => .ok

/-- The run-position checks (R64, R65): the 24th word of a run is a trailer; a transfer stands directly before one. Any word of MAJ 0x7F counts as the
trailer here, one that is then UNASSIGNED too (log 31). -/
def posBad (s : State) (x : Group) (n : Info) : Option Trap :=
  if n.trl then none
  else if 23 ≤ (runState x).pos then some ⟨cIllegal, 0⟩
  else if n.xfer then
    match fetchWord s x (runPc x + 8) with
    | .error t => some ⟨t.cause, runPc x + 8⟩
    | .ok w => if w.extractLsb' 57 7 = 0x7F then none else some ⟨cIllegal, 0⟩
  else none

/-- The MAJ 0x7E words that are UNASSIGNED are transfers too (R65): the position check precedes it (R75). -/
def majXfer (w : BitVec 64) : Bool := w.extractLsb' 57 7 = 0x7E

/-- All checks of a word before its own execution, in the order of R75. -/
def precheck (s : State) (g : Nat) (i : Instr) : Pre :=
  let x := s.grp g
  match i with
  | .illegalWord _ => .trap ⟨cIllegal, 0⟩
  | .unassignedWord w =>
    match posBad s x { xfer := majXfer w, trl := w.extractLsb' 57 7 = 0x7F } with
    | some t => .trap t
    | none => .unassigned
  | i =>
    let n := info x.chain.isSome i
    match posBad s x n with
    | some t => .trap t
    | none => if usesTs8 i && !hasCap s 4 then .unassigned else checkInfo s x n

-- ===== the EMU registers (R76) =====

/-- EMU_D, EMU_A, EMU_B, EMU_C, EMU_IMM, EMU_SHP of a word: the fields of its MAJ's format. -/
def emuFields (w : BitVec 64) : List (BitVec 64) :=
  let maj := (w.extractLsb' 57 7).toNat
  let u (lo n : Nat) : BitVec 64 := (w >>> lo) &&& BitVec.ofNat 64 (2 ^ n - 1)
  let sx (n : Nat) : BitVec 64 := BitVec.ofInt 64 (toInt n false (w.toNat % 2 ^ n))
  if maj = 0x7E then [u 33 12, u 45 3, 0, 0, sx 33, u 48 4]
  else if maj = 0x7F then [u 4 9, u 31 9, u 22 9, u 13 9, u 40 12, u 52 5]
  else if maj = 0x20 || maj = 0x22 then [u 36 9, u 27 9, u 20 7, 0, sx 20, u 48 4]
  else if maj = 0x02 || maj = 0x09 || maj = 0x11 then [u 36 9, u 27 9, 0, 0, sx 27, u 48 4]
  else if maj ≤ 0x13 then [u 36 9, u 27 9, u 18 9, u 9 9, u 0 9, u 48 4]
  else [u 36 9, u 27 9, 0, 0, sx 27, u 45 7]

/-- Writing the EMU registers for an UNASSIGNED word (R76). -/
def writeEmu (x : Group) (w : BitVec 64) : Group :=
  match emuFields w with
  | [d, a, b, c, imm, shp] =>
    { x with spr := { x.spr with emuWord := w, emuD := d, emuA := a, emuB := b, emuC := c, emuImm := imm, emuShp := shp } }
  | _ => x

-- ===== fault records (R329, R374, R389) =====

/-- The nanosecond stamp (R342, log 23). -/
def timen (s : State) : BitVec 64 := BitVec.ofNat 64 (s.clock * 10 / 36)

/-- A 32-byte record. -/
def recordBytes (w0 va pos time : BitVec 64) : List Byte :=
  toBytes 8 w0.toNat ++ toBytes 8 va.toNat ++ toBytes 8 pos.toNat ++ toBytes 8 time.toNat

/-- A record arises: it waits for its push in its context's order; kinds 1 and 2 halt an ACTIVE context (R359, R374). -/
def pushRecord (s : State) (ctx : Nat) (w0 va pos : BitVec 64) : State :=
  let kind := field w0 0 8
  { s with ctxs := s.ctxs.upd ctx (fun c =>
      let c1 := { c with frecs := c.frecs ++ [recordBytes w0 va pos (timen s)] }
      if (kind == 1 || kind == 2) && c1.st == .active then { c1 with st := .halted, hcause := kind } else c1) }

/-- Word 0 of a record of kind 5 (R389). -/
def trapRecord (g cause : Nat) (esc : Bool) : BitVec 64 :=
  BitVec.ofNat 64 (5 + 2 ^ 8 * cause + (if esc then 2 ^ 16 else 0) + 2 ^ 17 * coreOf g + 2 ^ 26 * (g % 48 / 12) + 2 ^ 28 * (g % 12))

-- ===== taking a trap =====

/-- Causes that go to the supervisor level (R377). -/
def causeToS (cause : Nat) : Bool := cause == cPriv || cause == cPageFault || cause == cProt

/-- Whether a trap goes to S (R377, R379). -/
def toS (x : Group) (cause : Nat) : Bool := cause == cBudget || (causeToS cause && !x.sup) || inHandler x || x.spr.uvec == 0

/-- The trapping word's state (R378). -/
def trapStateOf (x : Group) (trl : Bool) : TrapState :=
  { pc := runPc x, prio := (runEnt x).prio, depth := (runEnt x).depth, lanes := active x, rs := runState x, trl := trl }

/-- TRAP_CAUSE (R380). -/
def trapCauseOf (ih esc : Bool) (code : Nat) : BitVec 64 := BitVec.ofNat 64 ((if ih then 512 else 0) + (if esc then 256 else 0) + code % 256)

/-- The trap registers of a first trap (R378 step 1, R381 step 2). -/
def writeTrapRegs (x : Group) (ih esc : Bool) (t : Trap) (pc : BitVec 64) : Group :=
  { x with spr := { x.spr with trapCause := trapCauseOf ih esc t.cause, trapPc := pc, trapAddr := t.addr } }

/-- The U handler is entered (R378): IH is set, the trap state is kept, and the run of the handler's entry issues. -/
def enterU (x : Group) (t : Trap) (ts : TrapState) : Group :=
  let y := writeTrapRegs x true (flag x.spr.trapCause 8) t ts.pc
  let e : Entry := { pc := x.spr.uvec, prio := 0xFFF, depth := ts.depth, mask := ts.lanes }
  { y with trapS := some ts, run := some { ent := e, pc := e.pc, rs := {} }, life := .issuing }

/-- A trap at the supervisor level (R379, R381): outside a handler the registers and the trap state are the trap's; inside one they keep the first
trap's and the second is the escalation state. -/
def enterS (x : Group) (t : Trap) (ts : TrapState) : Group :=
  if inHandler x then
    { x with spr := { x.spr with trapCause := trapCauseOf true true (field x.spr.trapCause 0 8) }, escS := some ts, run := none, life := .trapped }
  else { writeTrapRegs x false false t ts.pc with trapS := some ts, run := none, life := .trapped }

/-- A trap of a group with the state that it leaves, at the level that R377 gives; one at S leaves a record of kind 5, after a release of the
group's writes (R381, R392). -/
def enterTrap (s : State) (g : Nat) (t : Trap) (ts : TrapState) : State :=
  let x := s.grp g
  if toS x t.cause then
    let s1 := releaseAt (s.setGrp g (enterS x t ts)) g .dev
    pushRecord s1 x.ctx (trapRecord g t.cause (inHandler x)) t.addr ts.pc
  else s.setGrp g (enterU x t ts)

/-- The trap state of a trap inside a transaction: a run that begins at the TBEGIN (R205). -/
def txTrapState (x : Group) : TrapState :=
  { pc := x.tx.restart.pc, prio := x.tx.restart.prio, depth := x.tx.restart.depth, lanes := x.tx.lanes, rs := {} }

/-- Taking a trap precisely at the current word (R70): every result in flight returns first; while one cannot, the word waits (log 7). Inside a
transaction the read set is validated first, and the trap is taken at the restart point (R199, R205). -/
def takeTrap (s : State) (g : Nat) (t : Trap) (trl : Bool) : State :=
  let s1 := performAll s g
  if !allReady s1 g then s
  else
    let s2 := returnAll s1 g
    let x := s2.grp g
    if x.tx.act then
      if txValid s2 x then
        let ts := txTrapState x
        let y := { pullLanes (closeTx x txTrap (runPc x)) x.tx.restart x.tx.lanes with capCount := 0 }
        enterTrap (s2.setGrp g y) g t ts
      else conflictEnd s2 g
    else enterTrap s2 g t (trapStateOf x trl)

-- ===== returning from a trap (R382, R383) =====

/-- The trailer part of ERET on a saved state: the lanes return to `pc`; there the saved run goes on when `pc` is the trapping word or its
successor, else a new run starts. -/
def returnTo (x : Group) (ts : TrapState) (pc : BitVec 64) (m : BitVec 32) : Group :=
  let res : Option RunState :=
    if pc = ts.pc then some ts.rs
    else if pc = ts.pc + 8 && !ts.trl then some { ts.rs with pos := ts.rs.pos + 1 }
    else none
  insert x { pc := pc, prio := ts.prio, depth := ts.depth, mask := m, resume := res }

/-- IH ends clear and POISON_INFO is cleared. -/
def endHandler (x : Group) : Group :=
  { x with spr := { x.spr with trapCause := trapCauseOf false (flag x.spr.trapCause 8) (field x.spr.trapCause 0 8), poisonInfo := 0 }, trapS := none }

/-- The return of ERET for the handler's remaining lanes (R383). -/
def eretReturn (x : Group) (next : Bool) (m : BitVec 32) : Group :=
  match x.trapS with
  | none => x
  | some ts => returnTo (endHandler x) ts (x.spr.trapPc + (if next then 8 else 0)) m

/-- RESUME and SKIP on a trapped group (R382): on the escalation state when ESC is set, else on the trap state. Both perform the steps of ERET's
trailer, POISON_INFO's clearing among them; with ESC set the handler goes on. -/
def resumeTrapped (x : Group) (next : Bool) : Group :=
  match flag x.spr.trapCause 8 && inHandler x, x.escS with
  | true, some ts =>
    let y := { x with spr := { x.spr with trapCause := trapCauseOf true false (field x.spr.trapCause 0 8), poisonInfo := 0 }, escS := none, life := .ready }
    returnTo y ts (ts.pc + (if next then 8 else 0)) ts.lanes
  | _, _ =>
    match x.trapS with
    | none => { x with life := .ready }
    | some ts => { returnTo (endHandler x) ts (x.spr.trapPc + (if next then 8 else 0)) ts.lanes with life := .ready }

-- ===== the driver =====

/-- The group whose word `exec` runs: the current agent, while it issues. -/
def issuer (s : State) : Option Nat :=
  match s.cur with
  | .group g => if (s.grp g).life == .issuing && (s.grp g).run.isSome then some g else none
  | _ => none

/-- The run goes on with the next word (R65). -/
def advance (s : State) (g : Nat) : State :=
  s.updGrp g (fun x => updRun x (fun r => { r with pc := r.pc + 8, rs := { r.rs with pos := r.rs.pos + 1 } }))

/-- A trap at the current word, once every result in flight can return; until then the word waits as it stood in `s0` (R70, log 7). -/
def trapOr (s0 s : State) (g : Nat) (t : Trap) (trl : Bool) : State := if allReady (performAll s g) g then takeTrap s g t trl else s0

/-- The end of a word whose own meaning has been worked out; `s0` is the state in which it issued. -/
def finish (s0 : State) (e : Eff) (g : Nat) (trl : Bool) : State :=
  match e with
  | .done s => advance s g
  | .trap s t => trapOr s0 s g t trl
  | .moved s => s

/-- The EMU registers of an UNASSIGNED word whose trap has entered the U handler (R76): none at a trap that goes to S, and none where an open
transaction turned out invalid before the trap (R199). -/
def withEmu (s0 s : State) (g : Nat) (w : BitVec 64) : State :=
  if inHandler (s.grp g) && !inHandler (s0.grp g) then s.updGrp g (fun x => writeEmu x w) else s

/-- One word of a group: its checks, then its own meaning. -/
def issueAt (i : Instr) (body : State → Nat → Eff) (s : State) (g : Nat) : State :=
  match precheck s g i with
  | .ok => finish s (body s g) g (isTrl i)
  | .trap t => trapOr s s g t (isTrl i)
  | .unassigned =>
    let w := (encodeWord i).getD 0
    withEmu s (trapOr s s g ⟨cUnassigned, 0⟩ (w.extractLsb' 57 7 == 0x7F)) g w
  | .refused => finish s (refuseTx s g txRefused) g (isTrl i)

/-- Every word of the cores goes through here. -/
def issue (i : Instr) (body : State → Nat → Eff) (s : State) : Out :=
  match issuer s with
  | none => .fault .noIssuer
  | some g => .next (issueAt i body s g)

-- ===== lanes with traps =====

/-- The lanes that a masked word acts in; on the scalar unit the lowest live lane stands for the group (R62). -/
def workLanes (x : Group) (msk : Msk) (d : Opd) : List Nat :=
  let l := lanes (liveOf x msk)
  if opIsS d then l.take 1 else l

/-- An s register's value. -/
def sval (x : Group) (o : Opd) : PV := opVal x .i64 o 0

/-- A poisoned operand that decides something. -/
def poisonAt (a : BitVec 64) : Trap := ⟨cPoison, a⟩

/-- Values of one shared reading: the result of an `Except`, or its trap as an effect. -/
def orTrap (s : State) (r : Except Trap α) (k : α → Eff) : Eff :=
  match r with
  | .ok a => k a
  | .error t => .trap s t

end Sys2Proof.Machine
end

