-- ==== Sys2Proof/Machine/Lanes.lean ====
section
/-!
DEFINITION. The element-wise words: for each live lane and each computed sub-element, operands are read by the routing (R108), the function is
applied with the lane's stochastic state (R38), and the lane's result is written with its poison and flags (R44, R109).
-/

namespace Sys2Proof.Machine

/-- Three operands of a lane and whether any that is read is poisoned. -/
structure Ops3 where
  a : BitVec 64
  b : BitVec 64
  c : BitVec 64
  poi : Bool
  deriving DecidableEq, Repr

/-- Operands of a format-A word. -/
def opsA (x : Group) (f : FmtA) (b c : Bool) (l : Nat) : Ops3 :=
  let pa := opVal x f.shp f.a l
  let pb := if b then opVal x f.shp f.b l else ⟨0, false⟩
  let pc := if c then opVal x f.shp f.c l else ⟨0, false⟩
  ⟨pa.val, pb.val, pc.val, pa.poi || pb.poi || pc.poi⟩

/-- Operands of a format-I word: B is the immediate, C the contents of D (R54). -/
def opsI (x : Group) (f : FmtI) (imm : BitVec 64) (c : Bool) (l : Nat) : Ops3 :=
  let pa := opVal x f.shp f.a l
  let pc := if c then opVal x f.shp f.d l else ⟨0, false⟩
  ⟨pa.val, imm, pc.val, pa.poi || pc.poi⟩

/-- What one sub-element gives: its bits, its flags, the stochastic state after it. -/
structure SubRes where
  bits : Nat
  flags : BitVec 5 := 0
  rng : BitVec 32 := 0
  deriving DecidableEq, Repr

/-- What a lane gives: its sub-elements, its flags, the stochastic state after it. -/
structure LaneRes where
  subs : List (Nat × Nat) := []
  flags : BitVec 5 := 0
  rng : BitVec 32 := 0
  deriving DecidableEq, Repr

/-- The sub-elements of one lane, in ascending order (R38). -/
def laneSubs (f : BitVec 32 → Nat → SubRes) (is : List Nat) (r0 : BitVec 32) : LaneRes :=
  is.foldl (fun acc i => let r := f acc.rng i
    ⟨acc.subs ++ [(i, r.bits)], acc.flags ||| r.flags, r.rng⟩) ⟨[], 0, r0⟩

/-- A lane's write with the flags and the stochastic state that it leaves. -/
structure LaneOut where
  w : LaneW
  flags : BitVec 5
  rng : Option (BitVec 32) := none
  deriving DecidableEq, Repr

/-- The lane's result in a shape: the sub-elements written, the poison of its sources. -/
def laneOut (shp : Shape) (l : Nat) (poi : Bool) (r0 : BitVec 32) (r : LaneRes) : LaneOut :=
  { w := { lane := l, val := placeSubs shp.width r.subs, care := careBits shp.width (r.subs.map (·.1)), poi := poi },
    flags := laneFlags poi r.flags, rng := if r.rng = r0 then none else some r.rng }

/-- The stochastic states after a word (R38). -/
def setRngs (x : Group) (os : List LaneOut) : Group :=
  os.foldl (fun x o => match o.rng with
    | some r => { x with rng := x.rng.set o.w.lane r }
    | none => x) x

/-- All lanes' flags together (R44). -/
def outFlags (os : List LaneOut) : BitVec 5 := os.foldl (fun f o => f ||| o.flags) 0

/-- A class-F element-wise word completes: lanes written, flags ORed, states advanced. -/
def commitF (s : State) (g : Nat) (d : Opd) (os : List LaneOut) : State :=
  orFlags ((writeLanes s g d (os.map (·.w))).updGrp g (fun x => setRngs x os)) g (outFlags os)

/-- A class-V element-wise word issues: its values go in flight, its flags with them (R44, R66). A lane keeps the content that it does not write. -/
def commitV (s : State) (g : Nat) (d : Opd) (os : List LaneOut) : State :=
  let x := s.grp g
  let c := opCode x d
  let ws := os.map (fun o =>
    let old := rget x c o.w.lane
    (o.w.lane, (⟨(old.val &&& ~~~o.w.care) ||| (o.w.val &&& o.w.care), o.w.poi || (old.poi && o.w.care != 0xFFFFFFFFFFFFFFFF#64)⟩ : PV)))
  flightNow (s.updGrp g (fun x => setRngs x os)) g d ws (outFlags os) []

/-- One lane of an element-wise word in a shape with a routing. -/
def elemLane (x : Group) (shp : Shape) (rt : Route) (f : BitVec 32 → Nat → Nat → Nat → SubRes) (o : Nat → Ops3) (l : Nat) : LaneOut :=
  let v := o l
  let w := shp.width
  let one (r : BitVec 32) (i : Nat) : SubRes :=
    f r (subOf w (routeA rt i) v.a.toNat) (subOf w (routeB rt i) v.b.toNat) (subOf w i v.c.toNat)
  laneOut shp l v.poi (rngOf x l) (laneSubs one (written shp rt) (rngOf x l))

/-- The lanes of an element-wise word. -/
def elemLanes (x : Group) (shp : Shape) (msk : Msk) (d : Opd) (rt : Route) (f : BitVec 32 → Nat → Nat → Nat → SubRes) (o : Nat → Ops3) :
    List LaneOut := (workLanes x msk d).map (elemLane x shp rt f o)

/-- A class-F element-wise word. -/
def elemF (shp : Shape) (msk : Msk) (d : Opd) (rt : Route) (f : Group → BitVec 32 → Nat → Nat → Nat → SubRes) (o : Group → Nat → Ops3)
    (s : State) (g : Nat) : Eff :=
  let x := s.grp g
  .done (commitF s g d (elemLanes x shp msk d rt (f x) (o x)))

/-- A class-V element-wise word. -/
def elemV (shp : Shape) (msk : Msk) (d : Opd) (rt : Route) (f : Group → BitVec 32 → Nat → Nat → Nat → SubRes) (o : Group → Nat → Ops3)
    (s : State) (g : Nat) : Eff :=
  let x := s.grp g
  .done (commitV s g d (elemLanes x shp msk d rt (f x) (o x)))

end Sys2Proof.Machine
end

