-- ==== Sys2Proof/Machine/Compat.lean ====
section
/-!
DEFINITION. Forerunner compatibility mode (R183 to R185): lane buffers, quantum boundaries and the commit of a round.
-/

namespace Sys2Proof.Machine

/-- At a quantum boundary the group waits for its team's round; after the round it goes on (R184). -/
def atQuantum (s : State) (g : Nat) (k : State → Eff) : Eff :=
  let x := s.grp g
  if !inCompat s x then k s
  else if x.roundDone then k (s.setGrp g { x with roundDone := false, atBoundary := false })
  else .moved (s.setGrp g { x with atBoundary := true })

/-- The lane's buffered word; each stage of a chain has its own buffers in both forms (R255). -/
def cword? (x : Group) (l : Nat) (sh : Bool) (w : Nat) : Option CWord :=
  x.cbuf.find? (fun c => c.stage == stageIx x && c.lane == l && c.shared == sh && c.addr == w)

/-- The lane's buffered byte at an address, with its poison (R183). -/
def cbyte (x : Group) (l : Nat) (sh : Bool) (a : Nat) : Option (Byte × Bool) :=
  match cword? x l sh (a / 8) with
  | none => none
  | some c => (c.bytes.get (a % 8)).map (fun b => (b, c.poi))

/-- A lane's store of `n` bytes enters its buffer. Poison stays with a word of memory, whose mark is its line's; a word of the shared store loses it
to a clean store of all 8 bytes (R149, R152). -/
def cput (x : Group) (l : Nat) (sh : Bool) (key cp a n v rel : Nat) (poi : Bool) : Group :=
  let bs : SMap (Option Byte) := (List.range n).map (fun i => (a % 8 + i, some (BitVec.ofNat 8 (v / 256 ^ i))))
  let join (c : CWord) : CWord :=
    { c with key := key, cp := cp, bytes := bs.foldl (fun m b => m.set b.1 b.2) c.bytes, poi := poi || (c.poi && !(sh && n == 8)), rel := max c.rel rel }
  match cword? x l sh (a / 8) with
  | some c => { x with cbuf := x.cbuf.map (fun d => if d == c then join c else d) }
  | none => { x with cbuf := x.cbuf ++ [join { stage := stageIx x, lane := l, shared := sh, addr := a / 8, key := key, bytes := [], poi := false, rel := 0 }] }

/-- A lane's buffer has no room for another word (R183). -/
def cfull (x : Group) (l : Nat) (sh : Bool) (a : Nat) : Bool :=
  (cword? x l sh (a / 8)).isNone && 16 ≤ (x.cbuf.filter (fun c => c.stage == stageIx x && c.lane == l)).length

/-- The commit of one buffered word: a write at CV, or in the shared store. Through a page with CP 1 or 2 it passes on at once (R150). -/
def commitWord (s : State) (g : Nat) (c : CWord) : State :=
  let bs : SMap (Option Byte) := c.bytes.map (fun b => (8 * c.addr % 64 + b.1, b.2))
  if c.shared then shWord s (s.grp g).tid c.addr c.bytes c.poi
  else
    let s1 := enterCv s (coreOf g) { line := 8 * c.addr / 64, bytes := bs, dirty := true, poi := c.poi, key := c.key, writer := g }
    if c.cp = 0 then s1
    else
      let own (y : MEnt) : Bool := y.holds (8 * c.addr) 8
      dropClean (passOwn s1 g (c.cp + 1) own) g (c.cp + 1) own

/-- A word put in the order of commits: by stage, then by lane, words of one lane as they were stored. -/
def insertWord (c : CWord) : List CWord → List CWord
  | [] => [c]
  | d :: r => if c.stage < d.stage || (c.stage == d.stage && c.lane ≤ d.lane) then c :: d :: r else d :: insertWord c r

/-- The commit of a group's buffers, lanes ascending. Where a release store is among them, all of them pass to its level in the same step. -/
def commitGroup (s : State) (g : Nat) : State :=
  let ws := (s.grp g).cbuf.foldr insertWord []
  let s1 := ws.foldl (fun s c => commitWord s g c) s
  passOwn (s1.updGrp g (fun x => { x with cbuf := [] })) g (ws.foldl (fun n c => max n c.rel) 0) (fun _ => true)

end Sys2Proof.Machine
end

