-- ==== Sys2Proof/Machine/Arrive.lean ====
section
/-!
DEFINITION. The state of a barrier (R219 to R227): arrivals and breaks, each one step at the home of its line.
-/

namespace Sys2Proof.Machine

/-- STATE (R220). -/
def barExpected (v : Nat) : Nat := v % 2 ^ 24
def barArrived (v : Nat) : Nat := v / 2 ^ 24 % 2 ^ 24
def barPhase (v : Nat) : Nat := v / 2 ^ 48 % 2 ^ 8
def barBroken (v : Nat) : Bool := v / 2 ^ 63 % 2 == 1
def barOvr (v : Nat) : Nat := v / 2 ^ 62 % 2
/-- Malformed (R223). -/
def barMalformed (v : Nat) : Bool := !barBroken v && (barExpected v == 0 || barExpected v ≤ barArrived v || v / 2 ^ 56 % 64 != 0)

/-- STATE after an arrival of weight `n` on a well-formed one (R224). -/
def barNext (v n : Nat) : Nat :=
  let a := barArrived v + n
  let e := barExpected v
  if e ≤ a then
    let ovr := if e < a then 1 else barOvr v
    e + 2 ^ 48 * ((barPhase v + 1) % 256) + 2 ^ 62 * ovr
  else v + 2 ^ 24 * n

/-- The sticky bit and the phase word of a broken barrier, with its BRKINFO whose reserved bits stay (R219). -/
def barBreak (s : State) (key pa v reason src : Nat) : State :=
  let info := hNat s key (pa + 8) 8
  hWrite s key (pa / 64) (entBytes pa 8 (v % 2 ^ 63 + 2 ^ 63) ++ entBytes (pa + 8) 8 (info / 2 ^ 16 * 2 ^ 16 + src % 256 * 2 ^ 8 + reason % 256)) false

/-- What an arrival found. -/
structure Arrival where
  old : Nat
  poi : Bool
  st : State

/-- One arrival of weight `n` by the agent `src`, one step at the home (R224). -/
def arrive (s : State) (key pa n src : Nat) : Arrival :=
  let v := hNat s key pa 8
  if hPoi s (pa / 64) then ⟨v, true, s⟩
  else if barBroken v then ⟨v, false, s⟩
  else if barMalformed v then ⟨v, false, barBreak s key pa v 3 src⟩
  else ⟨v, false, hWrite s key (pa / 64) (entBytes pa 8 (barNext v n)) false⟩

/-- An arrival whose loss on a poisoned STATE sets BAL (R227). -/
def arriveBal (s : State) (key pa n src : Nat) : State :=
  let r := arrive s key pa n src
  if r.poi then hbSet r.st (stackOf pa) hbBAL else r.st

/-- A break (R222): only on a STATE that is neither broken nor poisoned; one lost on a poisoned STATE sets BAL. -/
def breakBar (s : State) (key pa reason src : Nat) : State :=
  let v := hNat s key pa 8
  if hPoi s (pa / 64) then hbSet s (stackOf pa) hbBAL
  else if barBroken v then s
  else barBreak s key pa v reason src

end Sys2Proof.Machine
end

