-- ==== Sys2Proof/Machine/NumFn.lean ====
section
/-!
DEFINITION. The functions whose results are correctly rounded (R115, R273): quotient, square root, 2^a, log2 a, tanh a. Each gives a value of
`Val` whose interval is narrow enough for one rounding; a wider working precision is tried when it is not (log 11).
-/

namespace Sys2Proof.Machine

/-- The quotient of two positive magnitudes with at least `p` significant bits and a sticky bit. -/
def divVal (neg : Bool) (m1 : Nat) (e1 : Int) (m2 : Nat) (e2 : Int) (p : Nat) : Val :=
  let k := p + Nat.log2 m2 + 1
  .fin neg (m1 * 2 ^ k / m2) (e1 - e2 - k) (m1 * 2 ^ k % m2 != 0)

/-- The quotient of two values (R24). -/
def Val.div (x y : Val) : Val × BitVec 5 :=
  match x, y with
  | .nan a, .nan b => (.nan false, flagIf (a || b) fNV)
  | .nan a, _ => (.nan false, flagIf a fNV)
  | _, .nan b => (.nan false, flagIf b fNV)
  | .inf _, .inf _ => (.nan false, fNV)
  | .inf a, .fin n _ _ _ => (.inf (a != n), 0)
  | .fin n _ _ _, .inf b => (.zero (n != b), 0)
  | .fin n1 m1 e1 _, .fin n2 m2 e2 _ =>
    if m2 = 0 then if m1 = 0 then (.nan false, fNV) else (.inf (n1 != n2), fDZ)
    else if m1 = 0 then (.zero (n1 != n2), 0)
    else (divVal (n1 != n2) m1 e1 m2 e2 160, 0)

/-- Integer square root by bits: the greatest r with r² ≤ n, trying `k` bits from bit k-1 down. -/
def isqrtBits (n : Nat) : Nat → Nat → Nat
  | 0, r => r
  | k + 1, r => isqrtBits n k (if (r + 2 ^ k) * (r + 2 ^ k) ≤ n then r + 2 ^ k else r)
def isqrt (n : Nat) : Nat := isqrtBits n (Nat.log2 n / 2 + 1) 0

/-- The square root of a positive magnitude with about `p` bits. -/
def sqrtVal (m : Nat) (e : Int) (p : Nat) : Val :=
  let k : Nat := 2 * p + (if (e - 2 * p) % 2 = 0 then 0 else 1)
  let n := m * 2 ^ k
  .fin false (isqrt n) ((e - k) / 2) (isqrt n * isqrt n != n)

/-- The square root (R24, R115). -/
def Val.sqrt (x : Val) : Val × BitVec 5 :=
  match x with
  | .nan a => (.nan false, flagIf a fNV)
  | .inf n => if n then (.nan false, fNV) else (.inf false, 0)
  | .fin n m e _ => if m = 0 then (.zero n, 0) else if n then (.nan false, fNV) else (sqrtVal m e 100, 0)

/-- FRCP (R115). -/
def Val.rcp (x : Val) : Val × BitVec 5 :=
  match x with
  | .fin n m e _ => if m = 0 then (.inf n, fDZ) else (divVal n 1 0 m e 160, 0)
  | .inf n => (.zero n, 0)
  | .nan a => (.nan false, flagIf a fNV)

/-- FRSQ (R115): the square root of 1/a, with the sticky bit of the quotient kept in the root's. -/
def Val.rsq (x : Val) : Val × BitVec 5 :=
  match x with
  | .nan a => (.nan false, flagIf a fNV)
  | .inf n => if n then (.nan false, fNV) else (.zero false, 0)
  | .fin n m e _ =>
    if m = 0 then (.inf n, fDZ)
    else if n then (.nan false, fNV)
    else
      -- 1/√(m·2^e) = √(2^k/m)·2^(-(e+k)/2) with e + k even
      let k : Nat := 2 * 160 + 2 * Nat.log2 m + (if e % 2 = 0 then 0 else 1)
      let q := 2 ^ k / m
      let r := isqrt q
      (.fin false r (-(e + k) / 2) (r * r * m != 2 ^ k), 0)

-- ===== fixed-point intervals: lower bounds with p fractional bits; each result lies in [lo, lo + err] =====

/-- Σ z^(2i+1)/(2i+1) for i from `i` on, with z² and the running power given: `n` terms, floors throughout. -/
def atanhSum (p z2 : Nat) : Nat → Nat → Nat → Nat
  | 0, _, _ => 0
  | n + 1, i, pw => pw / (2 * i + 1) + atanhSum p z2 n (i + 1) (pw * z2 / 2 ^ p)

/-- ln 2 with p fractional bits: 2·atanh(1/3). -/
def ln2Fix (p : Nat) : Nat := 2 * atanhSum p (2 ^ p / 9) (p / 3 + 2) 0 (2 ^ p / 3)

/-- Σ t^i/i! for i from `i` on: `n` terms, floors throughout; `tm` is the running term. -/
def expSum (p t : Nat) : Nat → Nat → Nat → Nat
  | 0, _, _ => 0
  | n + 1, i, tm => tm + expSum p t n (i + 1) (tm * t / 2 ^ p / (i + 1))

/-- An interval [lo, lo + err] of p fractional bits, reduced to `keep` significant bits when both ends agree there; `none` asks for more
precision. The value is known not to be a number of that many bits. -/
def settle (neg : Bool) (lo err p keep : Nat) (sc : Int) : Option Val :=
  let drop := Nat.log2 lo - keep
  if lo / 2 ^ drop = (lo + err) / 2 ^ drop then some (.fin neg (lo / 2 ^ drop) ((drop : Int) - p + sc) true) else none

/-- Trying working precisions in turn. -/
def tryPrec (f : Nat → Option Val) : List Nat → Val
  | [] => .zero false
  | p :: r => match f p with
    | some v => v
    | none => tryPrec f r

def precs : List Nat := [224, 320, 512, 1024, 2048]

/-- Error of the sums above, in units of the last place, with room to spare. -/
def fixErr (p : Nat) : Nat := 64 * (p + 8)

/-- 2^f for 0 ≤ f < 1 given as lower bound `f` with p bits: a lower bound with p bits, within `fixErr`. -/
def exp2Frac (p f : Nat) : Nat := expSum p (f * ln2Fix p / 2 ^ p) (p / 2 + 8) 0 (2 ^ p)

/-- FEXP2 of a finite value that is no integer. -/
def exp2Val (neg : Bool) (m : Nat) (e : Int) : Val :=
  -- far outside every format's range the value needs no digits: 2^±(2^20) overflows or underflows alike
  if (Nat.log2 m : Int) + e > 20 then .fin false 1 (if neg then -(2 ^ 20 : Nat) else (2 ^ 20 : Nat)) true
  else if neg && (Nat.log2 m : Int) + e < -202 then .fin false (2 ^ 200 - 1) (-200) true
  else tryPrec (fun p =>
    let a := shiftDown m (e + p)
    -- floor of x·2^p
    let x : Int := if neg then (if a.2.1 = 0 then -(a.1 : Int) else -(a.1 : Int) - 1) else a.1
    let n := x / (2 ^ p : Nat)
    let f := (x % (2 ^ p : Nat)).toNat
    settle false (exp2Frac p f) (fixErr p) p 96 n) precs

/-- FEXP2 (R115). -/
def Val.exp2 (x : Val) : Val × BitVec 5 :=
  match x with
  | .nan a => (.nan false, flagIf a fNV)
  | .inf n => (if n then .zero false else .inf false, 0)
  | .fin n m e _ =>
    if m = 0 then (.fin false 1 0 false, 0)
    else
      let r := shiftDown m e
      if r.2.1 = 0 && (Nat.log2 m : Int) + e ≤ 20 then (.fin false 1 (if n then -(r.1 : Int) else r.1) false, 0)
      else (exp2Val n m e, 0)

/-- log2 of m·2^e, m no power of two: k + ln y / ln 2 with y in [3/4, 3/2). -/
def log2Val (m : Nat) (e : Int) : Val :=
  let b := Nat.log2 m
  let up := 2 * m ≥ 3 * 2 ^ b
  let den := if up then 2 ^ (b + 1) else 2 ^ b
  let k : Int := (b : Int) + e + (if up then 1 else 0)
  tryPrec (fun p =>
    -- z = (y-1)/(y+1), |z| ≤ 1/5; floors give a lower bound of the magnitude
    let num := if up then den - m else m - den
    let z := num * 2 ^ p / (m + den)
    let l := 2 * atanhSum p (z * z / 2 ^ p) (p / 4 + 8) 0 z      -- |ln y|
    let q := l * 2 ^ p / ln2Fix p                                -- |log2 y|, error below fixErr
    let er := fixErr p
    let lo : Int := k * (2 ^ p : Nat) + (if up then -(q : Int) - er else (q : Int) - er)
    -- the magnitude of an interval that does not contain zero
    if lo > 0 then settle false lo.toNat (2 * er) p 96 0
    else if lo + 2 * er < 0 then settle true (-(lo + 2 * er)).toNat (2 * er) p 96 0
    else none) precs

/-- FLOG2 (R115). -/
def Val.logTwo (x : Val) : Val × BitVec 5 :=
  match x with
  | .nan a => (.nan false, flagIf a fNV)
  | .inf n => if n then (.nan false, fNV) else (.inf false, 0)
  | .fin n m e _ =>
    if m = 0 then (.inf true, fDZ)
    else if n then (.nan false, fNV)
    else if m = 2 ^ Nat.log2 m then (.ofInt ((Nat.log2 m : Int) + e), 0)
    else (log2Val m e, 0)

/-- tanh of a positive magnitude m·2^e. -/
def tanhVal (neg : Bool) (m : Nat) (e : Int) : Val :=
  let top := (Nat.log2 m : Int) + e
  if top ≥ 8 then .fin neg (2 ^ 200 - 1) (-200) true
  else if top < -160 then .fin neg (m * 2 ^ 200 - 1) (e - 200) true
  else tryPrec (fun p0 =>
    let p := p0 + 2 * (-top).toNat + 16
    let t := (shiftDown m (e + 1 + p)).1          -- 2x with p bits, error below one unit
    let er := fixErr p
    if top < -2 then
      -- u = e^(2x) - 1; tanh = u/(u+2)
      let u := expSum p t (p / 2 + 8) 1 t
      let lo := u * 2 ^ p / (u + 2 * 2 ^ p)
      settle neg lo (2 * er) p 96 0
    else
      -- e^(2x) = 2^n·2^f, tanh = 1 - 2/(E+1)
      let y := t * 2 ^ p / ln2Fix p
      let n := y / 2 ^ p
      let ex := exp2Frac p (y % 2 ^ p) * 2 ^ n    -- E with p bits, relative error below 256·er/2^p
      let q := 2 * 2 ^ p * 2 ^ p / (ex + 2 ^ p)   -- 2/(E+1), an upper bound within the error
      settle neg (2 ^ p - q - 1024 * er) (2048 * er) p 96 0) precs

/-- FTANH (R115). -/
def Val.tanh (x : Val) : Val × BitVec 5 :=
  match x with
  | .nan a => (.nan false, flagIf a fNV)
  | .inf n => (.fin n 1 0 false, 0)
  | .fin n m e _ => if m = 0 then (.zero n, 0) else (tanhVal n m e, 0)

end Sys2Proof.Machine
end

