-- ==== Sys2Proof/Machine/Float.lean ====
section
/-!
DEFINITION. The floating-point family (R113 to R115): an exact result for each sub-element, rounded once into the shape's format.
-/

namespace Sys2Proof.Machine

/-- One rounding under a mode: under rs the lane's state advances first and gives the draw (R38). -/
def roundSub (ff : FF) (mode : Rnd) (sat : Bool) (r : BitVec 32) (v : Val × BitVec 5) : SubRes :=
  let r1 := if mode = .rs then xorshift32 r else r
  let b := ff.round mode sat (drawOf r1) v.1
  ⟨b.1, b.2 ||| v.2, r1⟩

/-- An exact function of decoded operands, rounded (R113). -/
def fpFn (shp : Shape) (rnd : Rnd) (sat : Bool) (f : Rnd → Val → Val → Val → Val × BitVec 5) (x : Group) (r : BitVec 32) (a b c : Nat) : SubRes :=
  let ff := shapeFF shp
  let m := modeOf x rnd
  roundSub ff m sat r (f m (ff.decode a) (ff.decode b) (ff.decode c))

/-- FMIN and FMAX: one of the inputs, −0 below +0, a NaN gives way to the other operand; they never round, and no flag but NV is set (R114); the
saturate bit leaves an infinity (log 33). -/
def fpMinMax (shp : Shape) (wantMax : Bool) (_x : Group) (r : BitVec 32) (a b _c : Nat) : SubRes :=
  let ff := shapeFF shp
  let va := ff.decode a
  let vb := ff.decode b
  let fl := flagIf (va.isSig || vb.isSig) fNV
  let less := if va.isZero && vb.isZero then va.neg? && !vb.neg? else va.cmp vb == .lt
  let eq := if va.isZero && vb.isZero then va.neg? == vb.neg? else va.cmp vb == .eq
  let bits :=
    if va.isNan && vb.isNan then ff.canonNan else if va.isNan then b else if vb.isNan then a
    else if eq then a else if less != wantMax then a else b
  ⟨bits, fl, r⟩

/-- FABS and FNEG: the sign bit of a non-NaN value, infinities included, with no flag but NV (R114, log 33); a `.rs` rounding advances the lane's
state (R113). -/
def fpSign (shp : Shape) (rnd : Rnd) (neg : Bool) (x : Group) (r0 : BitVec 32) (a _b _c : Nat) : SubRes :=
  let ff := shapeFF shp
  let r := if modeOf x rnd = .rs then xorshift32 r0 else r0
  let v := ff.decode a
  let top := 2 ^ (ff.width - 1)
  if v.isNan then ⟨ff.canonNan, flagIf v.isSig fNV, r⟩
  else ⟨if neg then (if a / top % 2 = 1 then a - top else a + top) else a % top, 0, r⟩

/-- FRND: an integral value under the mode, in the same format; it sets no NX, and infinities pass unchanged whatever the saturate bit (R114). -/
def fpRound (shp : Shape) (rnd : Rnd) (x : Group) (r : BitVec 32) (a _b _c : Nat) : SubRes :=
  let ff := shapeFF shp
  let m := modeOf x rnd
  let r1 := if m = .rs then xorshift32 r else r
  let v := ff.decode a
  match v with
  | .fin neg mant e st =>
    let n := roundInt m (drawOf r1) (.fin neg mant e st)
    ⟨ff.pack neg ((ff.round .rz false 0 (.fin false n.1.natAbs 0 false)).1), 0, r1⟩
  | .inf _ => ⟨a, 0, r1⟩
  | .nan sig => ⟨ff.canonNan, flagIf sig fNV, r1⟩

/-- An exact function of one operand. -/
def un (f : Val → Val × BitVec 5) (_ : Rnd) (a _b _c : Val) : Val × BitVec 5 := f a

/-- A format-A floating-point word. -/
def fpA (f : FmtA) (b c : Bool) (fn : Group → BitVec 32 → Nat → Nat → Nat → SubRes) : State → Nat → Eff :=
  elemF f.shp f.msk f.d f.rt fn (fun x => opsA x f b c)
/-- A format-A function word, class V (R115). -/
def fpAV (f : FmtA) (fn : Group → BitVec 32 → Nat → Nat → Nat → SubRes) : State → Nat → Eff :=
  elemV f.shp f.msk f.d f.rt fn (fun x => opsA x f false false)
/-- A format-I floating-point word: the immediate is an FP32 value (R54). -/
def fpI (f : FmtI) (c : Bool) (fn : Group → BitVec 32 → Nat → Nat → Nat → SubRes) : State → Nat → Eff :=
  elemF f.shp f.msk f.d .elem fn (fun x => opsI x f (immFp f.shp 27 f.imm.toNat) c)
def fpIV (f : FmtI) (fn : Group → BitVec 32 → Nat → Nat → Nat → SubRes) : State → Nat → Eff :=
  elemV f.shp f.msk f.d .elem fn (fun x => opsI x f 0 false)

def faddV (m : Rnd) (a b _c : Val) : Val × BitVec 5 := a.add m b
def fsubV (m : Rnd) (a b _c : Val) : Val × BitVec 5 := a.add m b.negate
def fmulV (_m : Rnd) (a b _c : Val) : Val × BitVec 5 := a.mul b
def ffmaV (m : Rnd) (a b c : Val) : Val × BitVec 5 := Val.fma m a b c

def execFadd (f : FmtA) (s : State) : Out := issue (.fadd f) (fpA f true false (fpFn f.shp f.rnd f.sat faddV)) s
def execFaddI (f : FmtI) (s : State) : Out := issue (.faddI f) (fpI f false (fpFn f.shp .rne false faddV)) s
def execFsub (f : FmtA) (s : State) : Out := issue (.fsub f) (fpA f true false (fpFn f.shp f.rnd f.sat fsubV)) s
def execFsubI (f : FmtI) (s : State) : Out := issue (.fsubI f) (fpI f false (fpFn f.shp .rne false fsubV)) s
def execFmul (f : FmtA) (s : State) : Out := issue (.fmul f) (fpA f true false (fpFn f.shp f.rnd f.sat fmulV)) s
def execFmulI (f : FmtI) (s : State) : Out := issue (.fmulI f) (fpI f false (fpFn f.shp .rne false fmulV)) s
def execFfma (f : FmtA) (s : State) : Out := issue (.ffma f) (fpA f true true (fpFn f.shp f.rnd f.sat ffmaV)) s
def execFfmaI (f : FmtI) (s : State) : Out := issue (.ffmaI f) (fpI f true (fpFn f.shp .rne false ffmaV)) s
def execFmin (f : FmtA) (s : State) : Out := issue (.fmin f) (fpA f true false (fpMinMax f.shp false)) s
def execFminI (f : FmtI) (s : State) : Out := issue (.fminI f) (fpI f false (fpMinMax f.shp false)) s
def execFmax (f : FmtA) (s : State) : Out := issue (.fmax f) (fpA f true false (fpMinMax f.shp true)) s
def execFmaxI (f : FmtI) (s : State) : Out := issue (.fmaxI f) (fpI f false (fpMinMax f.shp true)) s
def execFabs (f : FmtA) (s : State) : Out := issue (.fabs f) (fpA f false false (fpSign f.shp f.rnd false)) s
def execFabsI (f : FmtI) (s : State) : Out := issue (.fabsI f) (fpI f false (fpSign f.shp .rne false)) s
def execFneg (f : FmtA) (s : State) : Out := issue (.fneg f) (fpA f false false (fpSign f.shp f.rnd true)) s
def execFnegI (f : FmtI) (s : State) : Out := issue (.fnegI f) (fpI f false (fpSign f.shp .rne true)) s
def execFrnd (f : FmtA) (s : State) : Out := issue (.frnd f) (fpA f false false (fpRound f.shp f.rnd)) s
def execFrndI (f : FmtI) (s : State) : Out := issue (.frndI f) (fpI f false (fpRound f.shp .rne)) s
def execFrcp (f : FmtA) (s : State) : Out := issue (.frcp f) (fpAV f (fpFn f.shp f.rnd f.sat (un Val.rcp))) s
def execFrcpI (f : FmtI) (s : State) : Out := issue (.frcpI f) (fpIV f (fpFn f.shp .rne false (un Val.rcp))) s
def execFrsq (f : FmtA) (s : State) : Out := issue (.frsq f) (fpAV f (fpFn f.shp f.rnd f.sat (un Val.rsq))) s
def execFrsqI (f : FmtI) (s : State) : Out := issue (.frsqI f) (fpIV f (fpFn f.shp .rne false (un Val.rsq))) s
def execFsqrt (f : FmtA) (s : State) : Out := issue (.fsqrt f) (fpAV f (fpFn f.shp f.rnd f.sat (un Val.sqrt))) s
def execFsqrtI (f : FmtI) (s : State) : Out := issue (.fsqrtI f) (fpIV f (fpFn f.shp .rne false (un Val.sqrt))) s
def execFexp2 (f : FmtA) (s : State) : Out := issue (.fexp2 f) (fpAV f (fpFn f.shp f.rnd f.sat (un Val.exp2))) s
def execFexp2I (f : FmtI) (s : State) : Out := issue (.fexp2I f) (fpIV f (fpFn f.shp .rne false (un Val.exp2))) s
def execFlog2 (f : FmtA) (s : State) : Out := issue (.flog2 f) (fpAV f (fpFn f.shp f.rnd f.sat (un Val.logTwo))) s
def execFlog2I (f : FmtI) (s : State) : Out := issue (.flog2I f) (fpIV f (fpFn f.shp .rne false (un Val.logTwo))) s
def execFtanh (f : FmtA) (s : State) : Out := issue (.ftanh f) (fpAV f (fpFn f.shp f.rnd f.sat (un Val.tanh))) s
def execFtanhI (f : FmtI) (s : State) : Out := issue (.ftanhI f) (fpIV f (fpFn f.shp .rne false (un Val.tanh))) s

end Sys2Proof.Machine
end

