-- ==== Sys2Proof/Machine/Coll.lean ====
section
/-!
DEFINITION. Links as their registers and transfers see them (R394, R396), the contributions and results of collectives (R401, R403, R404), and the
failure of transfers (R226, R397, R405).
-/

namespace Sys2Proof.Machine

-- ===== link states (R394, R395) =====

def lkDown : Nat := 0
def lkTraining : Nat := 1
def lkUp : Nat := 2
def lkDegraded : Nat := 3
def lkRetraining : Nat := 4
def lkFailed : Nat := 5

def updLink (s : State) (n : Nat) (f : Link → Link) : State := { s with links := s.links.upd n f }
/-- A link that carries flits. -/
def linkUp (l : Link) : Bool := l.st == lkUp || l.st == lkDegraded

/-- A link that is taken DOWN, or trained anew, forgets its flits (R396). -/
def linkReset (l : Link) : Link := { l with txSeq := 0, rxSeq := 0, unacked := [], crcFails := 0, naked := false }
/-- EN written 1: a link that is DOWN begins TRAINING (R394). -/
def linkOn (l : Link) : Link := if l.st = 0 then { linkReset l with en := true, st := 1 } else { l with en := true }
/-- EN written 0: the link is DOWN (R394). -/
def linkOff (l : Link) : Link := { linkReset l with en := false, st := 0 }

/-- The link to a neighbour. -/
def linkTo (s : State) (id : BitVec 16) : Option Nat := (List.range 32).find? (fun n => linkUp (s.links.get n) && (s.links.get n).peer == id)

/-- The `i`-th of `n` parts of a range, split as evenly as possible, earlier parts one longer: first element and length. -/
def splitPart (first len n i : Nat) : Nat × Nat := (first + i * (len / n) + min i (len % n), len / n + (if i < len % n then 1 else 0))

-- ===== collectives: elements (R401, R403, R404) =====

/-- Bytes of an element. -/
def dtSize (dt : Nat) : Nat := match dt with | 0 => 4 | 1 => 2 | 2 => 4 | _ => 1
def dtFF (dt : Nat) : FF := if dt = 1 then .bf16 else .fp32
/-- Little-endian elements of a byte list. -/
def elemsOf (sz : Nat) (bs : List Byte) : List Nat := (List.range (bs.length / sz)).map (fun i => ofBytes ((bs.drop (sz * i)).take sz))
def elemsBytes (sz : Nat) (es : List Nat) : List Byte := es.flatMap (toBytes sz)

/-- op(acc, own) of R403. -/
def collOp (dt rop acc own : Nat) : Nat :=
  let ff := dtFF dt
  let pick (f : Group → BitVec 32 → Nat → Nat → Nat → SubRes) : Nat := (f default 0 acc own 0).bits
  let shp : Shape := if dt = 1 then .bf16x4 else .f32x2
  if dt = 2 then
    let a := toInt 32 false acc
    let b := toInt 32 false own
    match rop with
    | 0 => (acc + own) % 2 ^ 32
    | 1 => if a ≤ b then acc else own
    | _ => if b ≤ a then acc else own
  else match rop with
    | 0 => (ff.round .rne false 0 ((ff.decode acc).add .rne (ff.decode own)).1).1
    | 1 => pick (fpMinMax shp false)
    | _ => pick (fpMinMax shp true)

/-- One block of the top-k transform: contribution and residual (R404). The magnitude of an encoding is its value without the sign bit. -/
def topKBlock (k : Nat) (vs : List Nat) : List Nat × List Nat :=
  let mag (i : Nat) : Nat := vs.getD i 0 % 2 ^ 31
  let kept (i : Nat) : Bool := ((List.range vs.length).filter (fun j => mag i < mag j || (mag i == mag j && j < i))).length < k
  ((List.range vs.length).map (fun i => if kept i then vs.getD i 0 else 0), (List.range vs.length).map (fun i => if kept i then 0 else vs.getD i 0))

/-- The transform of a vector, block by block. -/
def topK (k : Nat) : Nat → List Nat → List Nat × List Nat
  | 0, _ => ([], [])
  | n + 1, vs =>
    if vs.isEmpty then ([], [])
    else
      let b := topKBlock k (vs.take 256)
      let r := topK k n (vs.drop 256)
      (b.1 ++ r.1, b.2 ++ r.2)

/-- First element and length of chunk `j`. -/
def chunkOf (count p j : Nat) : Nat × Nat := splitPart 0 count p j

/-- What one rank contributes: elements, and which of them lie on poisoned lines. -/
structure Contrib where
  els : List Nat
  poi : SMap Bool
  deriving DecidableEq, Repr, Inhabited

/-- Element `e` of chunk `j`: its sum passes through the ranks from j + 1 to j. -/
def chunkElem (cs : List Contrib) (dt rop p j e : Nat) : Nat :=
  let own (q : Nat) : Nat := (cs.getD (q % p) default).els.getD e 0
  ((List.range (p - 1)).map (fun i => own (j + 2 + i))).foldl (collOp dt rop) (own (j + 1))

/-- The elements that a rank's destination receives, with their poison. -/
def collDst (cs : List Contrib) (r : Rank) : List (Nat × Bool) :=
  let red (j : Nat) : List (Nat × Bool) :=
    let c := chunkOf r.count r.p j
    (List.range c.2).map (fun i => (chunkElem cs r.dt r.rop r.p j (c.1 + i), cs.any (fun x => x.poi.get (c.1 + i))))
  if r.op = 1 then (List.range r.p).flatMap red
  else if r.op = 3 then red r.rank
  else cs.flatMap (fun c => (List.range c.els.length).map (fun i => (c.els.getD i 0, c.poi.get i)))

-- ===== collectives: who takes part =====

/-- The contribution of an accepted rank. -/
def contribOf (r : Rank) : Contrib := ⟨elemsOf (dtSize r.dt) r.data, r.poi⟩

/-- The oldest rank of this device with a collective's TAG and P at an index. -/
def localRank (s : State) (tag : BitVec 64) (p q : Nat) : Option Rank := s.ranks.find? (fun r => r.op != 0 && r.tag == tag && r.p == p && r.rank == q)
def remoteRank (s : State) (tag : BitVec 64) (p q : Nat) : Option RemoteVec := s.remotes.find? (fun r => r.tag == tag && r.p == p && r.rank == q)

/-- The contribution of rank `q` of a rank's collective, once it is there and of the same form. -/
def contribAt (s : State) (r : Rank) (q : Nat) : Option Contrib :=
  if r.ids.getD q 0 = s.regs.devId then
    match localRank s r.tag r.p q with
    | some x => if x.op == r.op && x.dt == r.dt && x.rop == r.rop && x.count == r.count then some (contribOf x) else none
    | none => none
  else match remoteRank s r.tag r.p q with
    | some x => if x.data.length = r.count * dtSize r.dt then some ⟨elemsOf (dtSize r.dt) x.data, x.poi⟩ else none
    | none => none

/-- Every contribution, in rank order. -/
def contribs (s : State) (r : Rank) : Option (List Contrib) := (List.range r.p).mapM (contribAt s r)

/-- The die from which a rank's writes go out and to which its source comes: its issuing core's (log 13). -/
def rankDie (r : Rank) : Nat := dieOfCore (coreOf r.gid)

/-- Writing a rank's range line by line, each line with its own poison; only the lines that `keep` admits. -/
def writeLines (s : State) (r : Rank) (va : BitVec 64) (sz : Nat) (els : List (Nat × Bool)) (keep : Nat → Bool) : State :=
  let bs := elemsBytes sz (els.map (·.1))
  let a := va.toNat
  (lineParts a bs.length).foldl (fun s p =>
    let part := (bs.drop (p.1 - a)).take p.2
    let poi := (List.range part.length).any (fun i => (els.getD ((p.1 - a + i) / sz) default).2)
    if part.isEmpty || !keep (p.1 / 64) then s else sendIn s (rankDie r) r.xl p.1 part poi) s

/-- The destination of a rank of a collective takes its values, as far as `keep` admits its lines. -/
def writeDst (s : State) (r : Rank) (cs : List Contrib) (keep : Nat → Bool) : State := writeLines s r r.dst (dtSize r.dt) (collDst cs r) keep
/-- The residual of a rank takes its values (R404). -/
def writeRes (s : State) (r : Rank) : State :=
  if r.k = 0 then s
  else
    let res := elemsOf 4 r.resid
    writeLines s r r.res 4 ((List.range res.length).map (fun i => (res.getD i 0, r.poi.get i))) (fun _ => true)

/-- The ranks of this device that belong to a collective now. -/
def instanceRanks (s : State) (r : Rank) : List Rank :=
  ((List.range r.p).filter (fun q => r.ids.getD q 0 == s.regs.devId)).filterMap (localRank s r.tag r.p)

/-- A collective of which every rank of this device is done leaves, with what the others contributed to it. -/
def closeInstance (s : State) (r : Rank) : State :=
  let ms := instanceRanks s r
  if ms.all (·.done) then
    let used := ((List.range r.p).filter (fun q => r.ids.getD q 0 != s.regs.devId)).filterMap (remoteRank s r.tag r.p)
    { s with ranks := s.ranks.filter (fun x => !ms.any (fun m => m.id == x.id)), remotes := used.foldl (fun l u => l.erase u) s.remotes }
  else s

/-- The barrier of a rank: key index and physical address. -/
def rankBar (s : State) (r : Rank) : Nat × Nat := (keyIx s (leafIn r.xl r.bar.toNat).key, paIn r.xl r.bar.toNat)

/-- SOURCE of a rank's arrival: the link to a neighbour on another device (R219). -/
def rankSrc (s : State) (r : Rank) : Nat :=
  match ([r.rank + 1, r.rank + r.p - 1].filterMap (fun q => let id := r.ids.getD (q % r.p) 0; if id = s.regs.devId then none else linkTo s id)) with
  | n :: _ => 128 + n
  | [] => 0xFF

-- ===== failures (R226, R397, R405) =====

/-- A rank fails: its barrier breaks, its transfers end, and of its destination only the lines of `keep` have their new content; `cs` is what its
collective's ranks contribute, where it is all there. -/
def failRank (s : State) (r : Rank) (cs : Option (List Contrib)) (link : Nat) (keep : Nat → Bool) : State :=
  let s1 := match cs with
    | some c => if r.op = 0 || r.written then s else writeDst s r c keep
    | none => s
  let b := rankBar s1 r
  let s2 := breakBar s1 b.1 b.2 (if r.op = 0 then 1 else 2) link
  { s2 with ranks := s2.ranks.filter (fun x => x.id != r.id), transfers := s2.transfers.filter (fun t => t.rank != r.id) }

/-- A transfer fails, and with it its rank; the other unfinished ranks that the collective has on this device fail as well, and the collective leaves.
-/
def failTransfer (s : State) (t : Transfer) (keep : Nat → Bool) : State :=
  match s.ranks.find? (fun r => r.id == t.rank) with
  | none => { s with transfers := s.transfers.filter (fun x => x.id != t.id) }
  | some r =>
    let ms := instanceRanks s r
    if r.op = 0 || !ms.any (fun m => m.id == r.id) then failRank s r none t.link keep
    else
      let s1 := (ms.filter (fun x => !x.done)).foldl (fun u x => failRank u x (contribs s x) t.link keep) s
      let used := ((List.range r.p).filter (fun q => r.ids.getD q 0 != s.regs.devId)).filterMap (remoteRank s r.tag r.p)
      { s1 with ranks := s1.ranks.filter (fun x => !ms.any (fun m => m.id == x.id)), remotes := used.foldl (fun l u => l.erase u) s1.remotes }

/-- Every transfer in flight on a link fails at once (R397): which lines of its destination are new is undefined (R226). -/
def failLink (s : State) (n : Nat) : State :=
  (s.transfers.filter (fun t => t.link == n)).foldl (fun s t =>
    if s.transfers.any (fun x => x.id == t.id) then failTransfer { s with tick := s.tick + 1 } t (Config.freshLine s.tick) else s) s

end Sys2Proof.Machine
end

