-- ==== Sys2Proof/Machine/Regs.lean ====
section
/-!
DEFINITION. The device registers (R409): their reads, their writes by the host, the management port and supervisor mappings (R410, R411), and the
host aperture (R412). A command register's GO reads 1 while a command of it is pending (R360); commands are applied by the events of Commands.lean.
-/

namespace Sys2Proof.Machine

-- ===== computed registers =====

/-- CTX_STAT (R360). -/
def ctxStateCode : CtxState → Nat
  | .free => 0 | .active => 1 | .halted => 2 | .saving => 3 | .saved => 4 | .restoring => 5 | .quarantined => 6 | .ending => 7
def ctxStat (s : State) (n : Nat) : BitVec 64 :=
  let c := s.ctxs.get n
  BitVec.ofNat 64 (c.hcause % 16 * 16 + ctxStateCode c.st)

/-- LK_CTL and LK_STAT (R395); PEER is shown in UP and DEGRADED. -/
def lkCtl (s : State) (n : Nat) : BitVec 64 := if (s.links.get n).en then 0x8000000000000000#64 else 0
def lkStat (s : State) (n : Nat) : BitVec 64 :=
  let l := s.links.get n
  BitVec.ofNat 64 (l.st % 8 * 2 ^ 32 + min l.replay 0xFFFF * 2 ^ 16 + (if l.st = 2 || l.st = 3 then l.peer.toNat else 0))

/-- ERR_SUM (R391). -/
def errSum (s : State) : BitVec 64 :=
  BitVec.ofNat 64 ((List.range 16).foldl (fun a i => if field (s.regs.hbStat.get i) 0 6 = 0 then a else a + 2 ^ i) 0 +
    (List.range 4).foldl (fun a i => if field (s.regs.dbStat.get i) 0 2 = 0 then a else a + 2 ^ (16 + i)) 0)

/-- A command register: GO while commands are pending. -/
def withGo (v : BitVec 64) (pend : Bool) : BitVec 64 := (v &&& 0x7FFFFFFFFFFFFFFF#64) ||| (if pend then 0x8000000000000000#64 else 0)

/-- MC_CPSTAT: the spec gives no rule for the units that a compressed frame leaves unused, 0 to 32 of them (R147, log 22). -/
def cpStat (s : State) (stack : Nat) : BitVec 64 :=
  let fs := s.compressed.filter (fun p => stackOf (65536 * p) == stack)
  if fs.isEmpty then 0 else BitVec.ofNat 64 ((Config.freeCount (fs.foldl (fun a p => a * 2 ^ 36 + p) s.tick)).toNat % (32 * fs.length + 1))

-- ===== reads =====

/-- A register of the control block by offset (R409). -/
def ctlRead (s : State) (o : Nat) : BitVec 64 :=
  let r := s.regs
  if o = 0x00 then r.devId.setWidth 64
  else if o = 0x08 then errSum s
  else if o = 0x10 then withGo r.ctxCmd !r.ctxPend.isEmpty
  else if o = 0x18 then r.ctxDesc
  else if o = 0x20 then withGo r.trapCmd !r.trapPend.isEmpty
  else if o = 0x28 then withGo r.keyCmd !r.keyPend.isEmpty
  else if o = 0x30 then r.alarm
  else if o = 0x38 then BitVec.ofNat 64 r.bootStat
  else if o = 0x40 then r.capHead
  else if 0x100 ≤ o && o < 0x300 then ctxStat s ((o - 0x100) / 8)
  else if 0x400 ≤ o && o < 0x500 then lkCtl s ((o - 0x400) / 8)
  else if 0x500 ≤ o && o < 0x600 then lkStat s ((o - 0x500) / 8)
  else if 0x600 ≤ o && o < 0x800 then r.ncBind.get ((o - 0x600) / 8)
  else if 0x800 ≤ o && o < 0xA00 then r.ncDrop.get ((o - 0x800) / 8)
  else if 0x1000 ≤ o && o < 0x2000 then r.win.get ((o - 0x1000) / 8)
  else if 0x2000 ≤ o && o < 0x2020 then r.dbStat.get ((o - 0x2000) / 8)
  else if 0x3000 ≤ o && o < 0x3040 then (if o % 16 = 0 then r.netRx.get ((o - 0x3000) / 16) else r.netTx.get ((o - 0x3000) / 16))
  else if 0x3100 ≤ o && o < 0x3120 then r.netDrop.get ((o - 0x3100) / 8)
  else if 0x4000 ≤ o && o < 0x4080 then r.haMap.get ((o - 0x4000) / 8)
  else if 0x5000 ≤ o && o < 0x5400 then r.caps.get ((o - 0x5000) / 8)
  else 0

/-- A register of a stack's controller block. -/
def mcRead (s : State) (stack o : Nat) : BitVec 64 :=
  let r := s.regs
  if o = 0x00 then withGo (r.mcCmd.get stack) !(r.mcPend.get stack).isEmpty
  else if o = 0x08 then cpStat s stack
  else if o = 0x10 then withGo (r.slResume.get stack) !(r.slPend.get stack).isEmpty
  else if o = 0x18 then withGo (r.plGrant.get stack) !(r.plPend.get stack).isEmpty
  else if o = 0x20 then r.hbStat.get stack
  else 0

/-- Host address behind an address of the host aperture (R412). -/
def hostAddr (s : State) (pa : Nat) : Nat :=
  field (s.regs.haMap.get ((pa - apertureBase) / 2 ^ 27)) 27 37 * 2 ^ 27 + (pa - apertureBase) % 2 ^ 27

/-- A naturally aligned 8-byte read of the device register range by physical address; outside the range there is no register (R411). -/
def devRead (s : State) (pa : Nat) : BitVec 64 :=
  if !inDevice pa then 0
  else if apertureBase ≤ pa then
    if apertureOk s pa then BitVec.ofNat 64 (ofBytes ((List.range 8).map (fun i => s.hostMem.get (hostAddr s pa + i)))) else 0
  else
    let o := pa - devBase
    if o < 0x100000 then ctlRead s o
    else if o < 0x110000 then mcRead s ((o - 0x100000) / 0x1000) (o % 0x1000)
    else 0

-- ===== writes =====

/-- The writable bits of a register replaced. -/
def maskWrite (old v mask : BitVec 64) : BitVec 64 := (old &&& ~~~mask) ||| (v &&& mask)

/-- A W1C write of HB_STAT: clearing CE clears CECNT (R390). -/
def hbClear (old v : BitVec 64) : BitVec 64 :=
  let x := old &&& ~~~(v &&& 0x3F#64)
  if v.getLsbD 0 then x &&& ~~~0x0000FFFF00000000#64 else x

/-- NC_BIND: writing it resets the binding's last SEQ (R408). -/
def bindWrite (s : State) (b : Nat) (v : BitVec 64) : State :=
  { s with regs := { s.regs with ncBind := s.regs.ncBind.set b (v &&& 0xFFF800000000FFFF#64), ncSeq := s.regs.ncSeq.set b 0 } }

/-- A write of a control-block register (R360, R382, R395, R398, R407, R412, R417). DEV_ID takes the management port's writes alone (R393); EN written 0
fails every transfer in flight on the link at once (R397). -/
def ctlWrite (s : State) (ag : RegAgent) (o : Nat) (v : BitVec 64) : State :=
  let r := s.regs
  let go := flag v 63
  let set (r : Regs) : State := { s with regs := r }
  if o = 0x00 then (if ag = .mgmt then set { r with devId := v.setWidth 16 } else s)
  else if o = 0x10 then
    let op := field v 44 4
    set { r with ctxCmd := maskWrite r.ctxCmd v 0x0000FFC000000000#64, ctxPend := if go && 1 ≤ op && op ≤ 6 then r.ctxPend ++ [v] else r.ctxPend }
  else if o = 0x18 then set { r with ctxDesc := v &&& 0x000FFFFFFFFFFF00#64 }
  else if o = 0x20 then
    let op := field v 60 3
    set { r with trapCmd := maskWrite r.trapCmd v 0x703F01FF0000003F#64,
                 trapPend := if go && 1 ≤ op && op ≤ 4 then r.trapPend ++ [v] else r.trapPend }
  else if o = 0x28 then
    set { r with keyCmd := maskWrite r.keyCmd v 0x600FFFFFFFFFFFFF#64,
                 keyPend := if go && field v 61 2 ≠ 0 then r.keyPend ++ [(v, ag)] else r.keyPend }
  else if 0x400 ≤ o && o < 0x500 then (if go then updLink s ((o - 0x400) / 8) linkOn else failLink (updLink s ((o - 0x400) / 8) linkOff) ((o - 0x400) / 8))
  else if 0x600 ≤ o && o < 0x800 then bindWrite s ((o - 0x600) / 8) v
  else if 0x1000 ≤ o && o < 0x2000 then set { r with win := r.win.set ((o - 0x1000) / 8) (v &&& ~~~0x0080000000000000#64) }
  else if 0x2000 ≤ o && o < 0x2020 then set { r with dbStat := r.dbStat.upd ((o - 0x2000) / 8) (fun x => x &&& ~~~(v &&& 3#64)) }
  else if 0x3000 ≤ o && o < 0x3040 then
    (if o % 16 = 0 then set { r with netRx := r.netRx.set ((o - 0x3000) / 16) v } else set { r with netTx := r.netTx.set ((o - 0x3000) / 16) v })
  else if 0x4000 ≤ o && o < 0x4080 then set { r with haMap := r.haMap.set ((o - 0x4000) / 8) v }
  else s

/-- A write of a controller-block register (R147, R330, R370, R390). -/
def mcWrite (s : State) (stack o : Nat) (v : BitVec 64) : State :=
  let r := s.regs
  let go := flag v 63
  let set (r : Regs) : State := { s with regs := r }
  if o = 0x00 then
    let ok := go && field v 61 2 ≤ 1 && inMemory (65536 * field v 0 36) && stackOf (65536 * field v 0 36) == stack
    set { r with mcCmd := r.mcCmd.set stack (v &&& 0x6000000FFFFFFFFF#64), mcPend := if ok then r.mcPend.upd stack (· ++ [v]) else r.mcPend }
  else if o = 0x10 then
    set { r with slResume := r.slResume.set stack (v &&& 0x0000000FFFFFFFFF#64), slPend := if go then r.slPend.upd stack (· ++ [v]) else r.slPend }
  else if o = 0x18 then
    set { r with plGrant := r.plGrant.upd stack (fun x => maskWrite x v 0x7FFFFF80FFFFFFFF#64),
                 plPend := if go then r.plPend.upd stack (· ++ [v]) else r.plPend }
  else if o = 0x20 then set { r with hbStat := r.hbStat.upd stack (fun x => hbClear x v) }
  else s

/-- A naturally aligned 8-byte write of the device register range by physical address. -/
def devWrite (s : State) (ag : RegAgent) (pa : Nat) (v : BitVec 64) : State :=
  if !inDevice pa then s
  else if apertureBase ≤ pa then
    if apertureOk s pa then { s with hostMem := putBytes s.hostMem (hostAddr s pa) (toBytes 8 v.toNat) } else s
  else
    let o := pa - devBase
    if o < 0x100000 then ctlWrite s ag o v
    else if o < 0x110000 then mcWrite s ((o - 0x100000) / 0x1000) (o % 0x1000) v
    else s

/-- A register access that is not 8 bytes or not aligned reads zero and writes nothing (R409). -/
def devReadN (s : State) (pa n : Nat) : BitVec 64 := if n = 8 && pa % 8 = 0 then devRead s pa else 0
def devWriteN (s : State) (ag : RegAgent) (pa n : Nat) (v : BitVec 64) : State := if n = 8 && pa % 8 = 0 then devWrite s ag pa v else s

end Sys2Proof.Machine
end

