-- ==== Sys2Proof/Machine/Memory.lean ====
section
/-!
DEFINITION. The memory family (R151 to R154): LD, ST, LDSH, STSH, LDC, PRF, with the checks of R140, decoding accesses (R142), accesses to device
registers (R411) and transactional accesses (R197).
-/

namespace Sys2Proof.Machine

-- ===== shapes and addresses =====

/-- Bytes per lane of an access that does not decode (R151). -/
def memBytes (shp : BitVec 4) : Nat :=
  match shp.toNat with
  | 0 => 8 | 1 => 4 | 2 => 2 | 3 => 1 | 4 => 4 | 5 => 2 | 6 => 1 | _ => 8

/-- The destination shape of a decoding access. -/
def decShape? (shp : BitVec 4) : Option Shape :=
  match shp.toNat with
  | 8 => some .f64 | 9 => some .f32x2 | 10 => some .f16x4 | 11 => some .bf16x4 | _ => none

/-- How the bytes of an access that does not decode extend. -/
def memExt (shp : BitVec 4) : Ext := if 4 ≤ shp.toNat && shp.toNat ≤ 6 then .sign else .zero

/-- A lane's address with its base's poison (R151). -/
def laneAddr (x : Group) (a : Opd) (off : BitVec 64) (l : Nat) : PV :=
  let b := opVal x .i64 a l
  ⟨b.val + off, b.poi⟩

-- ===== decoding accesses =====

/-- Data bytes and block count of a block-scaled unit (R30): B, N. -/
def unitOf (w l : Nat) : Nat × Nat := (l * w / 8, 65536 / (l * w / 8 + 1))

/-- A page's element format, with its block length where it is block-scaled; none where decoding is refused (R32, R141, R416). -/
def pageFmt (s : State) (l : Leaf) : Option (EF × Option Nat) :=
  if l.fmt = 12 && !hasCap s 4 then none
  else match fmtOf? l.fmt with
    | none => none
    | some f => if fmtScaled l.fmt then (bgLen? l.bg).map (fun n => (f, some n)) else some (f, none)

/-- Checks 7 to 9 of R140 for a group of `n` elements; the answer is the bytes of the group and the address of its scale. -/
def decCheck (s : State) (shp : Shape) (va : BitVec 64) (x : Xl) : Except Trap (Nat × Nat) :=
  match pageFmt s x.leaf with
  | none => .error ⟨cFormat, va⟩
  | some (f, bl) =>
    let nb := shp.count * f.width
    if nb % 8 ≠ 0 then .error ⟨cFormat, va⟩
    else
      let o := va.toNat % 65536
      if o % (nb / 8) ≠ 0 then .error ⟨cAlign, va⟩
      else match bl with
        | none => .ok (nb / 8, x.leaf.pa)
        | some l =>
          let u := unitOf f.width l
          if u.1 * u.2 < o + nb / 8 then .error ⟨cFormat, va⟩
          else .ok (nb / 8, x.leaf.pa + u.1 * u.2 + 8 * o / f.width / l)

/-- One lane's checked access. -/
structure LaneAcc where
  lane : Nat
  va : BitVec 64
  xl : Xl
  n : Nat
  ext : Ext
  deriving DecidableEq, Repr, Inhabited

/-- All checks of R140 for one lane. -/
def checkLane (s : State) (x : Group) (k : Acc) (dev : Bool) (shp : BitVec 4) (a : Opd) (off : BitVec 64) (l : Nat) : Except Trap LaneAcc :=
  let p := laneAddr x a off l
  if p.poi then .error ⟨cPoison, p.val⟩
  else match decShape? shp with
    | none => match checkAddr s x.ctx x.sup k dev p.val (memBytes shp) with
      | .error t => .error t
      | .ok xl => .ok ⟨l, p.val, xl, memBytes shp, memExt shp⟩
    | some d => match checkAddr s x.ctx x.sup k false p.val 1 with
      | .error t => .error t
      | .ok xl => match decCheck s d p.val xl with
        | .error t => .error t
        | .ok r => .ok ⟨l, p.val, xl, r.1, .dec d xl.leaf.fmt xl.leaf.bg r.2⟩

/-- The checks of every live lane, in lane order. -/
def checkLanes (s : State) (x : Group) (k : Acc) (dev : Bool) (shp : BitVec 4) (a : Opd) (off : BitVec 64) (ls : List Nat) :
    Except Trap (List LaneAcc) := firstTrap (ls.map (checkLane s x k dev shp a off))

-- ===== issuing loads =====

/-- The queued load of a lane. -/
def loadOp (a : LaneAcc) (id word tag reg : Nat) (sc : Scope) (o : MOrder) (ldc : Bool) : MemOp :=
  { id := id, word := word, kind := .load a.ext, ldc := ldc, pa := a.xl.pa, n := a.n, key := a.xl.key, sa := a.xl.leaf.sa, cp := a.xl.leaf.cp,
    scope := sc, order := o, tag := tag, reg := reg, lane := a.lane }

/-- Operations join the issue queue. -/
def enqueue (s : State) (g : Nat) (os : List MemOp) : State := s.updGrp g (fun x => { x with iq := x.iq ++ os })

/-- A class-V word whose result the operations of its tag deliver: `mk` makes the operation of the `i`-th access with its identities. -/
def flightOps (s : State) (g : Nat) (regs : List Nat) (now : List RegWrite) (mk : Nat → Nat → Nat → MemOp) (n : Nat) : State :=
  let tag := s.nextId
  let os := (List.range n).map (fun i => mk i (tag + 1 + i) tag)
  let s1 := { s with nextId := s.nextId + n + 1 }
  launchFlight (enqueue s1 g os) g { tag := tag, regs := regs, writes := now, waits := [.ops] }

/-- A read of a device register by a group: a read of CTX_STAT that returns SAVED or FREE acquires (R361). -/
def devLoad (s : State) (g pa n : Nat) : BitVec 64 × State :=
  let v := devReadN s pa n
  let o := pa - devBase
  let st := field v 0 4
  (v, if 0x100 ≤ o && o < 0x300 && n = 8 && (st = 0 || st = 4) then acquireAt s g .sys else s)

/-- Before an access that performs at issue: earlier operations of the group that it may not pass perform (R162). -/
def beforeDev (s : State) (g : Nat) (as : List LaneAcc) : State :=
  if !as.isEmpty && (s.grp g).iq.any (fun o => o.kind == .fence || (isAcq o.order && o.kind != .store)) then performAll s g else s

/-- Loads of the lanes that reach device registers: they perform at issue. -/
def devLoads (s : State) (g reg : Nat) (as : List LaneAcc) : List RegWrite × State :=
  as.foldl (fun r a =>
    let d := devLoad r.2 g a.xl.pa a.n
    (r.1 ++ [⟨reg, a.lane, ⟨(extend a.ext a.n (toBytes a.n d.1.toNat) 127 0).1, false⟩⟩], d.2)) ([], s)

/-- A load whose bytes are known at issue: its value, poison, flags (none where it is poisoned, R44, log 34) and POISON_INFO records. -/
def knownLoad (a : LaneAcc) (shared : Bool) (bs : List Byte × Bool) (sc : Byte × Bool) : RegWrite × BitVec 5 × List (Nat × BitVec 64) :=
  let sp := match a.ext with
    | .dec _ fmt _ p => if fmtScaled fmt then some p else none
    | _ => none
  let v := extend a.ext a.n bs.1 sc.1.toNat 0
  let pi := (if bs.2 then [(a.lane, pinfoOf shared a.xl.pa)] else []) ++
    (match sp with | some p => if sc.2 then [(a.lane, pinfoOf false p)] else [] | none => [])
  let poi := bs.2 || (sp.isSome && sc.2)
  (⟨0, a.lane, ⟨v.1, poi⟩⟩, if poi then 0 else v.2, pi)

/-- Loads known at issue go in flight, with the writes of lanes that have their values already. -/
def launchKnown (s : State) (g reg : Nat) (now : List RegWrite) (rs : List (RegWrite × BitVec 5 × List (Nat × BitVec 64))) : State :=
  let r := freshId s
  launchFlight r.2 g { tag := r.1, regs := [reg], writes := now ++ rs.map (fun e => { e.1 with reg := reg }),
                         flags := rs.foldl (fun f e => f ||| e.2.1) 0, pinfo := rs.flatMap (·.2.2) }

/-- The scale address of a decoding access of a block-scaled page. -/
def scaleAt (a : LaneAcc) : Option Nat :=
  match a.ext with
  | .dec _ fmt _ p => if fmtScaled fmt then some p else none
  | _ => none

/-- Lines with their keys that a transactional load takes bytes from outside the write set (R197). -/
def txLoadLines (x : Group) (a : LaneAcc) : List (Nat × Nat) :=
  let one (pa n : Nat) : List (Nat × Nat) := if buffered x (pa / 64) (pa % 64) n then [] else [(pa / 64, a.xl.key)]
  one a.xl.pa a.n ++ (match scaleAt a with | some p => one p 1 | none => [])

/-- A transactional load (R197): lines enter the read set, bytes come from the write set or from H. -/
def txLoads (s : State) (g reg : Nat) (as : List LaneAcc) : Eff :=
  match addReads s g (as.flatMap (txLoadLines (s.grp g))) with
  | none => capacityEnd s g
  | some s1 =>
    let x := s1.grp g
    .done (launchKnown s1 g reg [] (as.map (fun a => knownLoad a false (txBytes s1 x a.xl.key a.xl.pa a.n)
      (match scaleAt a with | some p => txByte s1 x a.xl.key p | none => (127, false)))))

/-- Bytes that a lane takes in compatibility mode: from its own buffer, else from memory as one search finds them (R164, R183). -/
def compatBytes (s : State) (g : Nat) (o : MemOp) (pa n : Nat) : List (Byte × Bool) :=
  let fs := findBytes s g o.key pa n 0 (loadIgn o)
  (List.range n).map (fun i => (cbyte (s.grp g) o.lane false (pa + i)).getD ((fs.getD i ⟨3, 0, false, false⟩).byte, (fs.getD i ⟨3, 0, false, false⟩).poi))

/-- A lane's load in compatibility mode. -/
def compatLoad (s : State) (g : Nat) (o : LaneAcc → MemOp) (a : LaneAcc) : RegWrite × BitVec 5 × List (Nat × BitVec 64) :=
  let bs := compatBytes s g (o a) a.xl.pa a.n
  knownLoad a false (bs.map (·.1), bs.any (·.2)) (match scaleAt a with | some p => (compatBytes s g (o a) p 1).getD 0 (127, false) | none => (127, false))

/-- What such a load does to the copies on its path, and to the boundaries that poison crosses. -/
def compatSeen (s : State) (g : Nat) (o : MemOp) : State :=
  let s1 := dropMixed s g o.key o.pa o.n 0 (loadIgn o)
  let s2 := if o.cp = 2 then dropClean s1 g 3 (fun e => e.holds o.pa o.n) else s1
  crossed s2 (homeDie o.pa) (instOf g 2) ((findBytes s g o.key o.pa o.n 0 (loadIgn o)).any (fun f => f.poi && f.lvl == 3))

/-- LD in compatibility mode: lanes `ds` reach device registers, the others read memory. -/
def compatLoads (s : State) (g reg : Nat) (sc : Scope) (o : MOrder) (ds ms : List LaneAcc) : State :=
  let op (a : LaneAcc) : MemOp := loadOp a 0 0 0 0 sc o false
  let r := devLoads (performAll s g) g reg ds
  let s1 := ms.foldl (fun s a => passClash s g a.xl.key (a.xl.pa / 64)) r.2
  let s2 := launchKnown (ms.foldl (fun s a => compatSeen s g (op a)) s1) g reg r.1 (ms.map (compatLoad s1 g op))
  if isAcq o then acquireAt s2 g sc else s2

/-- LD (R152). -/
def ldBody (f : FmtM) (s : State) (g : Nat) : Eff :=
  let x := s.grp g
  let ls := workLanes x f.msk f.d
  let c := opCode x f.d
  orTrap s (checkLanes s x .load (!x.tx.act) f.shp f.a (f.off.signExtend 64) ls) fun as =>
    if x.tx.act then txLoads s g c as
    else
      let ds := as.filter (fun a => inDevice a.xl.pa)
      let ms := as.filter (fun a => !inDevice a.xl.pa)
      if inCompat s x then .done (compatLoads s g c f.scope f.order ds ms)
      else
        let r := devLoads (beforeDev s g ds) g c ds
        let s1 := if isAcq f.order && !ds.isEmpty then acquireAt r.2 g f.scope else r.2
        .done (flightOps s1 g [c] r.1 (fun i id tag => loadOp (ms.getD i default) id tag tag c f.scope f.order false) ms.length)
def execLd (f : FmtM) (s : State) : Out := issue (.ld f) (ldBody f) s

/-- LDC (R153): the uniform address through the constant path. -/
def ldcBody (f : FmtM) (s : State) (g : Nat) : Eff :=
  let x := s.grp g
  let c := opCode x f.d
  orTrap s (checkLanes s x .load false f.shp f.a (f.off.signExtend 64) (workLanes x f.msk f.d)) fun as =>
    .done (flightOps s g [c] [] (fun i id tag => loadOp (as.getD i default) id tag tag c .grp .rlx true) as.length)
def execLdc (f : FmtM) (s : State) : Out := issue (.ldc f) (ldcBody f) s

-- ===== the shared store =====

/-- The checks of a shared-store access (R149, R152). -/
def checkShared (s : State) (x : Group) (shp : BitVec 4) (a : Opd) (off : BitVec 64) (l : Nat) : Except Trap LaneAcc :=
  let p := laneAddr x a off l
  let n := memBytes shp
  if p.poi then .error ⟨cPoison, p.val⟩
  else if p.val.toNat % n ≠ 0 then .error ⟨cAlign, p.val⟩
  else if 4096 * (s.teams.get x.tid).shm ≤ p.val.toNat then .error ⟨cProt, p.val⟩
  else .ok ⟨l, p.val, ⟨p.val.toNat, default, 0⟩, n, memExt shp⟩

/-- A lane's shared load in compatibility mode. -/
def compatLoadSh (s : State) (g : Nat) (a : LaneAcc) : RegWrite × BitVec 5 × List (Nat × BitVec 64) :=
  let x := s.grp g
  let t := s.teams.get x.tid
  let one (o : Nat) : Byte × Bool := match cbyte x a.lane true o with
    | some b => b
    | none => (t.sh.get o, t.shPoi.get (o / 8))
  let bs := (List.range a.n).map (fun i => one (a.xl.pa + i))
  knownLoad a true (bs.map (·.1), bs.any (·.2)) (127, false)

/-- LDSH (R152). -/
def ldshBody (f : FmtM) (s : State) (g : Nat) : Eff :=
  let x := s.grp g
  let c := opCode x f.d
  orTrap s (firstTrap ((workLanes x f.msk f.d).map (checkShared s x f.shp f.a (f.off.signExtend 64)))) fun as =>
    if inCompat s x then
      let s1 := passWhere (performAll s g) 3 g (fun _ => true)
      .done (launchKnown s1 g c [] (as.map (compatLoadSh s1 g)))
    else
      .done (flightOps s g [c] [] (fun i id tag => { loadOp (as.getD i default) id tag tag c f.scope f.order false with shared := true }) as.length)
def execLdsh (f : FmtM) (s : State) : Out := issue (.ldsh f) (ldshBody f) s

-- ===== stores =====

/-- The value that a store takes from a lane. -/
def storeVal (x : Group) (f : FmtM) (l : Nat) : PV := opVal x .i64 f.d l

/-- The lowest lane whose data is poisoned, for a release store (R152). -/
def poisonedData (x : Group) (a : Opd) (off : BitVec 64) (d : Nat → PV) (ls : List Nat) : Option Trap :=
  (ls.find? (fun l => (d l).poi)).map (fun l => ⟨cPoison, (laneAddr x a off l).val⟩)

/-- Bytes given to one line under one key, lanes ascending so that the highest lane's value remains (R152). -/
structure LineW where
  line : Nat
  key : Nat
  cp : Nat
  bytes : SMap (Option Byte)
  poi : SMap Bool
  deriving DecidableEq, Repr, Inhabited

/-- One lane's bytes join the lines of its word. -/
def joinLine (ls : List LineW) (line key cp off n v : Nat) (poi : Bool) : List LineW :=
  let idx := (List.range n).map (off + ·)
  let cut := ls.map (fun (w : LineW) => if w.line == line && w.key != key then
    { w with bytes := w.bytes.filter (fun b => !idx.contains b.1), poi := w.poi.filter (fun b => !idx.contains b.1) } else w)
  let put (w : LineW) : LineW :=
    { w with bytes := (List.range n).foldl (fun m i => m.set (off + i) (some (BitVec.ofNat 8 (v / 256 ^ i)))) w.bytes,
             poi := idx.foldl (fun m i => m.set i poi) w.poi }
  if cut.any (fun w => w.line == line && w.key == key) then cut.map (fun w => if w.line == line && w.key == key then put w else w)
  else cut ++ [put { line := line, key := key, cp := cp, bytes := [], poi := [] }]

/-- The lines (or shared words) of a store, of `u` bytes each. A poisoned lane poisons its line whole. -/
def storeLines (u : Nat) (as : List LaneAcc) (d : Nat → PV) : List LineW :=
  as.foldl (fun ls a => joinLine ls (a.xl.pa / u) a.xl.key a.xl.leaf.cp (a.xl.pa % u) a.n (d a.lane).val.toNat (d a.lane).poi) []

/-- Whether a lane stored poison into a line (or shared word). -/
def linePoisoned (u : Nat) (as : List LaneAcc) (d : Nat → PV) (line : Nat) : Bool :=
  as.any (fun a => a.xl.pa / u == line && (d a.lane).poi)

/-- Lines, or shared words, that the lanes of a store cover whole with clean data under one key: that is one write, which clears a poison mark (R152).
-/
def wholeLines (u : Nat) (as : List LaneAcc) (d : Nat → PV) : List LineW :=
  (storeLines u as d).filter (fun l => l.bytes.length == u && !linePoisoned u as d l.line)

/-- What the lanes give their lines, or shared words, otherwise: each lane its own write (R161), without the bytes that a higher lane writes (R152). -/
def laneWrites (u : Nat) (d : Nat → PV) : List LaneAcc → List LineW
  | [] => []
  | a :: r =>
    let bs : SMap (Option Byte) := (List.range a.n).filterMap (fun i =>
      if r.any (fun b => b.xl.pa ≤ a.xl.pa + i && a.xl.pa + i < b.xl.pa + b.n) then none
      else some (a.xl.pa % u + i, some (BitVec.ofNat 8 ((d a.lane).val.toNat / 256 ^ i))))
    let w : LineW := { line := a.xl.pa / u, key := a.xl.key, cp := a.xl.leaf.cp, bytes := bs, poi := if (d a.lane).poi then [(0, true)] else [] }
    if bs.isEmpty && !(d a.lane).poi then laneWrites u d r else w :: laneWrites u d r

/-- The writes of a store: the lines that it covers whole, and the lanes' writes elsewhere. -/
def storeWrites (u : Nat) (as : List LaneAcc) (d : Nat → PV) : List LineW :=
  let ws := wholeLines u as d
  ws ++ laneWrites u d (as.filter (fun a => !ws.any (fun w => w.line == a.xl.pa / u)))

/-- The queued stores of a word. -/
def enqueueStores (s : State) (g : Nat) (shared : Bool) (sc : Scope) (o : MOrder) (as : List LaneAcc) (d : Nat → PV) : State :=
  let u := storeUnit shared
  let ls := storeWrites u as d
  let w := s.nextId
  let os := (List.range ls.length).map (fun i =>
    let l := ls.getD i default
    ({ id := w + 1 + i, word := w, kind := .store, shared := shared, pa := u * l.line, n := u, bytes := l.bytes,
       poi := l.poi.get 0, key := l.key, cp := l.cp, scope := sc, order := o } : MemOp))
  enqueue { s with nextId := w + 1 + ls.length } g os

/-- A transactional store (R197). -/
def txStores (s : State) (g : Nat) (as : List LaneAcc) (d : Nat → PV) : Eff :=
  let x := s.grp g
  let ls := storeLines 64 as d
  if writesFull x (ls.map (·.line)) then capacityEnd s g
  else .done (s.setGrp g (ls.foldl (fun x l => addWrite x l.line l.key l.bytes l.poi) x))

/-- A store in compatibility mode: a lane without room first brings the group to a quantum boundary (R183). -/
def compatStores (s : State) (g : Nat) (sh : Bool) (sc : Scope) (o : MOrder) (as : List LaneAcc) (d : Nat → PV) (first : State → State) : Eff :=
  let put (s : State) : Eff := .done ((first s).updGrp g (fun x => as.foldl (fun x a =>
    cput x a.lane sh a.xl.key a.xl.leaf.cp a.xl.pa a.n (d a.lane).val.toNat (if isRel o then scopeLevel sc else 0) (d a.lane).poi) x))
  if as.any (fun a => cfull (s.grp g) a.lane sh a.xl.pa) then atQuantum s g put else put s

/-- Stores to device registers perform at issue, after a release where the word is one. -/
def devStores (s : State) (g : Nat) (sc : Scope) (o : MOrder) (as : List LaneAcc) (d : Nat → PV) : State :=
  if as.isEmpty then s
  else as.foldl (fun s a => devWriteN s .super a.xl.pa a.n (d a.lane).val) (if isRel o then releaseAt s g sc else beforeDev s g as)

/-- ST (R152). -/
def stBody (f : FmtM) (s : State) (g : Nat) : Eff :=
  let x := s.grp g
  let ls := workLanes x f.msk f.d
  let off := f.off.signExtend 64
  let d := storeVal x f
  match if isRel f.order && !x.tx.act then poisonedData x f.a off d ls else none with
  | some t => .trap s t
  | none => orTrap s (checkLanes s x .store (!x.tx.act) f.shp f.a off ls) fun as =>
    if x.tx.act then txStores s g as d
    else
      let ds := as.filter (fun a => inDevice a.xl.pa)
      let ms := as.filter (fun a => !inDevice a.xl.pa)
      if inCompat s x then compatStores s g false f.scope f.order ms d (fun s => devStores s g f.scope f.order ds d)
      else .done (enqueueStores (devStores s g f.scope f.order ds d) g false f.scope f.order ms d)
def execSt (f : FmtM) (s : State) : Out := issue (.st f) (stBody f) s

/-- STSH (R152). -/
def stshBody (f : FmtM) (s : State) (g : Nat) : Eff :=
  let x := s.grp g
  let ls := workLanes x f.msk f.d
  let off := f.off.signExtend 64
  let d := storeVal x f
  match if isRel f.order then poisonedData x f.a off d ls else none with
  | some t => .trap s t
  | none => orTrap s (firstTrap (ls.map (checkShared s x f.shp f.a off))) fun as =>
    if inCompat s x then compatStores s g true f.scope f.order as d id else .done (enqueueStores s g true f.scope f.order as d)
def execStsh (f : FmtM) (s : State) : Out := issue (.stsh f) (stshBody f) s

-- ===== prefetch =====

/-- A prefetch of one lane: clean copies of its line, where every check passes (R154). -/
def prefetchLane (s : State) (g : Nat) (ch : BitVec 2) (va : BitVec 64) : State :=
  let x := s.grp g
  match checkAddr s x.ctx x.sup .load false va 1 with
  | .error _ => s
  | .ok xl =>
    let pa := xl.pa / 64 * 64
    if keyClash s g xl.key (pa / 64) then s
    else
      let fs := findBytes s g xl.key pa 64 0 0
      crossed (fillFrom s g xl.key pa (if ch = 1 then max 1 xl.leaf.cp else xl.leaf.cp) fs) (homeDie pa) (instOf g 2)
        (xl.leaf.cp != 2 && fs.any (fun f => f.poi && f.lvl == 3))

/-- PRF (R154): only a poisoned base traps. -/
def prfBody (f : FmtM) (s : State) (g : Nat) : Eff :=
  let x := s.grp g
  let ls := lanes (liveOf x f.msk)
  let at' (l : Nat) : PV := laneAddr x f.a (f.off.signExtend 64) l
  match ls.find? (fun l => (at' l).poi) with
  | some l => .trap s (poisonAt (at' l).val)
  | none => .done (ls.foldl (fun s l => prefetchLane s g f.ch (at' l).val) s)
def execPrf (f : FmtM) (s : State) : Out := issue (.prf f) (prfBody f) s

end Sys2Proof.Machine
end

