-- ==== Sys2Proof/Machine/Access.lean ====
section
/-!
DEFINITION. What words read besides their operands: descriptors, records, maps and argument blocks in global memory, read by the issuing group along
its path (R164), and lines read at H for the one-line transactions (R211).
-/

namespace Sys2Proof.Machine

/-- An address operand: poisoned, it traps with the address that it would give (R140). -/
def addrOf (x : Group) (a : Opd) : Except Trap (BitVec 64) :=
  let p := sval x a
  if p.poi then .error ⟨cPoison, p.val⟩ else .ok p.val

/-- Bytes that a group reads along its path, all in one page, as relaxed loads of words (R164). -/
def gBytes (s : State) (g : Nat) (xl : Xl) (n : Nat) : List Byte × Bool :=
  let fs := findSpan s g xl.key xl.pa n xl.leaf.cp
  (fs.map (·.byte), fs.any (·.poi))

/-- The state once a group has read a range that passes its checks, before it uses what it read: see `seenSpan`. -/
def seenRange (s : State) (g : Nat) (va : BitVec 64) (n : Nat) : State :=
  let x := s.grp g
  match checkSpan s x.ctx x.sup .load va n with
  | .error _ => s
  | .ok xl => (pieces va.toNat n).foldl (fun s p =>
      seenSpan s g (keyIx s (leafIn xl p.1).key) (paIn xl p.1) p.2 (leafIn xl p.1).cp) s

/-- A descriptor: checked by R140, refused when poisoned, else its words (R386). -/
def readDesc (s : State) (g : Nat) (va : BitVec 64) (n align : Nat) : Except Trap (List (BitVec 64)) :=
  let x := s.grp g
  match checkAddr s x.ctx x.sup .load false va align with
  | .error t => .error t
  | .ok xl =>
    let b := gBytes s g xl n
    if b.2 then .error ⟨cPoison, va⟩ else .ok ((List.range (n / 8)).map (fun i => BitVec.ofNat 64 (ofBytes ((b.1.drop (8 * i)).take 8))))

/-- A range that a group reads along its path, over pages: every byte is checked. The answer is the bytes, and the address of the first poisoned
line if there is one. -/
def readRange (s : State) (g : Nat) (va : BitVec 64) (n : Nat) : Except Trap (List Byte × Option (BitVec 64)) :=
  let x := s.grp g
  match checkSpan s x.ctx x.sup .load va n with
  | .error t => .error t
  | .ok xl =>
    let fs := (pieces va.toNat n).flatMap (fun p =>
      ((List.range p.2).map (p.1 + ·)).zip (findSpan s g (keyIx s (leafIn xl p.1).key) (paIn xl p.1) p.2 (leafIn xl p.1).cp))
    .ok (fs.map (·.2.byte), (fs.find? (·.2.poi)).map (fun e => BitVec.ofNat 64 e.1))

/-- A word of a list of words. -/
def wordAt (ws : List (BitVec 64)) (i : Nat) : BitVec 64 := ws.getD i 0

/-- The words of a byte list. -/
def toWords (bs : List Byte) : List (BitVec 64) := (List.range (bs.length / 8)).map (fun i => BitVec.ofNat 64 (ofBytes ((bs.drop (8 * i)).take 8)))

/-- The first failing check among several ranges. -/
def firstErr : List (Except Trap (List (Nat × Leaf))) → Except Trap (List (Nat × Leaf))
  | [] => .ok []
  | .error t :: _ => .error t
  | .ok a :: r => match firstErr r with
    | .ok l => .ok (a ++ l)
    | .error t => .error t

/-- Bits of a list of fields that must be zero. -/
def zeroBits (e : BitVec 64) (lo n : Nat) : Bool := field e lo n == 0

end Sys2Proof.Machine
end

