-- ==== Sys2Proof/Machine/Atomic.lean ====
section
/-!
DEFINITION. Atomics and reductions (R186 to R191), fences and RFLUSH (R192, R193).
-/

namespace Sys2Proof.Machine

/-- Width in bytes, whether floating, and the operand shape of an atomic's SHP (R186). -/
def atWide (shp : BitVec 4) : Bool := shp == 0 || shp == 5
def atFp (shp : BitVec 4) : Bool := shp == 5 || shp == 6
def atBytes (shp : BitVec 4) : Nat := if atWide shp then 8 else 4
def atShape (shp : BitVec 4) : Shape := if shp = 0 then .i64 else if shp = 1 then .i32x2 else if shp = 5 then .f64 else .f32x2

/-- A lane's checks: R140 with write permission (R144). -/
def checkAtom (s : State) (x : Group) (f : FmtAt) (l : Nat) : Except Trap LaneAcc :=
  let p := laneAddr x f.a (f.off.signExtend 64) l
  if p.poi then .error ⟨cPoison, p.val⟩
  else match checkAddr s x.ctx x.sup .store false p.val (atBytes f.shp) with
    | .error t => .error t
    | .ok xl => .ok ⟨l, p.val, xl, atBytes f.shp, .zero⟩

/-- The queued atomic of a lane. -/
def atomOp (f : FmtAt) (r : AtomReq) (a : LaneAcc) (id tag reg : Nat) : MemOp :=
  { id := id, word := tag, kind := .atomic r, pa := a.xl.pa, n := a.n, key := a.xl.key, sa := a.xl.leaf.sa, cp := a.xl.leaf.cp, scope := f.scope,
    order := f.order, tag := tag, reg := reg, lane := a.lane }

/-- The shared part of AMO and CAS: the poison check, the address checks, and one atomic for each lane in lane order. -/
def atomBody (f : FmtAt) (poi : Group → Nat → Bool) (req : Group → Nat → AtomReq) (s : State) (g : Nat) : Eff :=
  let x := s.grp g
  let ls := workLanes x f.msk f.d
  match ls.find? (poi x) with
  | some l => .trap s (poisonAt (laneAddr x f.a (f.off.signExtend 64) l).val)
  | none => orTrap s (firstTrap (ls.map (checkAtom s x f))) fun as =>
    atQuantum s g fun s =>
      let c := opCode x f.d
      .done (flightOps s g [c] [] (fun i id tag => atomOp f (req x (as.getD i default).lane) (as.getD i default) id tag c) as.length)

/-- AMO (R188). -/
def amoBody (f : FmtAt) : State → Nat → Eff :=
  atomBody f (fun x l => (opVal x (atShape f.shp) f.d l).poi)
    (fun x l => { op := f.op, wide := atWide f.shp, fp := atFp f.shp, val := (opVal x (atShape f.shp) f.d l).val })
def execAmo (f : FmtAt) (s : State) : Out := issue (.amo f) (amoBody f) s

/-- CAS (R189): the compare value is in the register whose code is D + 1. -/
def casBody (f : FmtAt) : State → Nat → Eff :=
  let c1 := f.d.code.toNat + 1
  atomBody f (fun x l => (opVal x .i64 f.d l).poi || (rget x c1 l).poi)
    (fun x l => { cas := true, wide := atWide f.shp, val := (opVal x .i64 f.d l).val, cmp := (rget x c1 l).val })
def execCas (f : FmtAt) (s : State) : Out := issue (.cas f) (casBody f) s

-- ===== REDO =====

/-- One lane of REDO (R190). -/
def redoLane (f : FmtAt) (s : State) (g : Nat) (a : LaneAcc) (v : BitVec 64) : State :=
  let x := s.grp g
  let w := 2 ^ (8 * a.n)
  let same (e : RedoEnt) : Bool := e.pa == a.xl.pa && e.wide == atWide f.shp && e.fp == atFp f.shp && e.op == f.op
  let req : AtomReq := { op := f.op, wide := atWide f.shp, fp := atFp f.shp }
  if x.redo.any same then
    s.setGrp g { x with redo := x.redo.map (fun e =>
      if same e then { e with acc := BitVec.ofNat 64 (atomNew req e.acc.toNat (v.toNat % w)) } else e) }
  else
    let s1 := if x.redo.any (fun e => e.pa == a.xl.pa) || 5 ≤ x.redo.length then (flushRedo s g).2 else s
    s1.updGrp g (fun x => { x with redo := x.redo ++
      [{ pa := a.xl.pa, wide := atWide f.shp, fp := atFp f.shp, op := f.op, acc := BitVec.ofNat 64 (v.toNat % w), key := a.xl.key }] })

/-- REDO (R190): address checks, then the poison of the data, then the lanes in order. -/
def redoBody (f : FmtAt) (s : State) (g : Nat) : Eff :=
  let x := s.grp g
  let ls := workLanes x f.msk f.d
  let d (l : Nat) : PV := opVal x (atShape f.shp) f.d l
  orTrap s (firstTrap (ls.map (checkAtom s x f))) fun as =>
    match poisonedData x f.a (f.off.signExtend 64) d ls with
    | some t => .trap s t
    | none => atQuantum s g fun s => .done (as.foldl (fun s a => redoLane f s g a (d a.lane).val) s)
def execRedo (f : FmtAt) (s : State) : Out := issue (.redo f) (redoBody f) s

-- ===== homes: staging and settlement (R191) =====

/-- One partial applied at H: a poisoned word stays as it is. -/
def applyPartial (s : State) (p : Partial) : State :=
  let n := if p.ent.wide then 8 else 4
  if hPoi s (p.ent.pa / 64) then s
  else
    let req : AtomReq := { op := p.ent.op, wide := p.ent.wide, fp := p.ent.fp }
    hWrite s p.ent.key (p.ent.pa / 64) (entBytes p.ent.pa n (atomNew req (hNat s p.ent.key p.ent.pa n) p.ent.acc.toNat)) false

/-- The order of settlement: source, sequence (R191); partials of one flush keep their order. -/
def partialBefore (a b : Partial) : Bool := a.src < b.src || (a.src == b.src && (a.seq < b.seq || (a.seq == b.seq && a.id < b.id)))
def insertPartial (p : Partial) : List Partial → List Partial
  | [] => [p]
  | q :: r => if partialBefore p q then p :: q :: r else q :: insertPartial p r
def sortPartials (l : List Partial) : List Partial := l.foldr insertPartial []

/-- All partials of a list that belong to one word settle in one step: the word is written once (R191). -/
def settleWord (s : State) (l : List Partial) : State :=
  match sortPartials l with
  | [] => s
  | p :: r =>
    let n := if p.ent.wide then 8 else 4
    if hPoi s (p.ent.pa / 64) then s
    else
      let v := (p :: r).foldl (fun acc q => atomNew { op := q.ent.op, wide := q.ent.wide, fp := q.ent.fp } acc q.ent.acc.toNat)
        (hNat s p.ent.key p.ent.pa n)
      hWrite s p.ent.key (p.ent.pa / 64) (entBytes p.ent.pa n v) false

/-- The distinct words of a list of partials: address and width. -/
def wordsOf (l : List Partial) : List (Nat × Bool) := (l.map (fun p => (p.ent.pa, p.ent.wide))).eraseDups

/-- Settling a list of partials, word by word, in the order of each word's first partial (log 17). -/
def settleAll (s : State) (l : List Partial) : State :=
  (wordsOf (sortPartials l)).foldl (fun s w => settleWord s (l.filter (fun p => p.ent.pa == w.1 && p.ent.wide == w.2))) s

/-- Partials that a context stages at the home of a stack. -/
def stagedAt (s : State) (ctx stack : Nat) : Nat := (s.staged.filter (fun p => p.ctx == ctx && stackOf p.ent.pa == stack)).length

/-- PARTIAL_STAGED: a partial on its way arrives at its home. With RDQ 0 it settles alone; above the allowance its word settles early and ROL is
set (R191). -/
def stagePartial (s : State) (ix : Nat) : State :=
  match s.flights[ix]? with
  | none => s
  | some p =>
    let s1 := { s with flights := s.flights.eraseIdx ix }
    let rdq := (s1.ctxs.get p.ctx).rdq
    let stack := stackOf p.ent.pa
    if rdq = 0 then applyPartial s1 p
    else if stagedAt s1 p.ctx stack < rdq * 4096 then { s1 with staged := s1.staged ++ [p] }
    else
      let mine (q : Partial) : Bool := q.ctx == p.ctx && q.ent.pa == p.ent.pa && q.ent.wide == p.ent.wide
      let s2 := settleWord s1 (s1.staged.filter mine ++ [p])
      hbSet { s2 with staged := s2.staged.filter (fun q => !mine q) } stack hbROL
def execPartialStaged (ix : Nat) (s : State) : Out := .next (stagePartial s ix)

-- ===== FENCE and RFLUSH =====

/-- FENCE (R192). -/
def fenceBody (sc : Scope) (o : MOrder) (s : State) (g : Nat) : Eff :=
  atQuantum s g fun s =>
    let r := freshId s
    .done (enqueue r.2 g [{ id := r.1, word := r.1, kind := .fence, scope := sc, order := o }])
def execFence (sc : Scope) (o : MOrder) (s : State) : Out := issue (.fence sc o) (fenceBody sc o) s

/-- RFLUSH (R193): the number of partials returns when every one of them is staged. -/
def rflushBody (d : Opd) (s : State) (g : Nat) : Eff :=
  let r := flushRedo s g
  .done (flightNow r.2 g d [(0, ⟨BitVec.ofNat 64 r.1.length, false⟩)] 0 [.partials r.1])
def execRflush (d : Opd) (s : State) : Out := issue (.rflush d) (rflushBody d) s

end Sys2Proof.Machine
end

