-- ==== Sys2Proof/Machine/Barrier.lean ====
section
/-!
DEFINITION. Barriers (chapter 10): the arrivals that no group carries, and BINIT, BARV, BWAIT, BTEST.
-/

namespace Sys2Proof.Machine

/-- BARRIER_ARRIVAL: the home performs an arrival that no group carries (R225). A barrier lies in memory, in a line of its own (R219). -/
def execBarrierArrival (pa n : Nat) (src : BitVec 8) (s : State) : Out :=
  .next (if inMemory pa && pa % 64 = 0 && 0 < n then arriveBal s 0 pa n src.toNat else s)

-- ===== the words =====

/-- The barrier's address, checked (R230). -/
def barAddr (s : State) (x : Group) (k : Acc) (a : Opd) : Except Trap (BitVec 64 × Xl) :=
  match addrOf x a with
  | .error t => .error t
  | .ok va => match checkAddr s x.ctx x.sup k false va 64 with
    | .error t => .error t
    | .ok xl => .ok (va, xl)

/-- BINIT (R231): one write of the whole line at H, after a release at dev. -/
def binitBody (a : Opd) (n : BitVec 24) (s : State) (g : Nat) : Eff :=
  let x := s.grp g
  orTrap s (barAddr s x .store a) fun b =>
    let s1 := settleLine (releaseAt s g .dev) g b.2.key (b.2.pa / 64)
    let ph := if hPoi s1 (b.2.pa / 64) then 0 else barPhase (hNat s1 b.2.key b.2.pa 8)
    .done (hWrite s1 b.2.key (b.2.pa / 64) (entBytes b.2.pa 64 (n.toNat + 2 ^ 48 * ph)) false)
def execBinit (a : Opd) (n : BitVec 24) (s : State) : Out := issue (.binit a n) (binitBody a n) s

/-- BARV (R231): with R the old STATE returns like an atomic's result. -/
def barvBody (r : Bool) (sc : Scope) (d a : Opd) (n : BitVec 16) (s : State) (g : Nat) : Eff :=
  let x := s.grp g
  orTrap s (barAddr s x .store a) fun b =>
    let s1 := settleLine (releaseAt s g sc) g b.2.key (b.2.pa / 64)
    if r then
      let v := arrive s1 b.2.key b.2.pa n.toNat 0xFF
      .done (flightNow v.st g d [(0, ⟨BitVec.ofNat 64 v.old, v.poi⟩)] 0 [])
    else .done (arriveBal s1 b.2.key b.2.pa n.toNat 0xFF)
def execBarv (r : Bool) (sc : Scope) (d a : Opd) (n : BitVec 16) (s : State) : Out := issue (.barv r sc d a n) (barvBody r sc d a n) s

/-- What a BWAIT does with the STATE that it has read (R232). -/
def bwaitOn (sc : Scope) (d : Opd) (p v : Nat) (poi : Bool) (va : BitVec 64) (line : Nat) (s : State) (g : Nat) : Eff :=
  if poi then .trap s (poisonAt va)
  else if barBroken v then .trap s ⟨cBarrierBroken, va⟩
  else if barPhase v = barPhase p then waitOn s g [.mem line (hPos s line)]
  else .done (flightNow (acquireAt s g sc) g d [(0, ⟨BitVec.ofNat 64 v, false⟩)] 0 [])

/-- BWAIT (R232): the read of the line at H, inside a transaction through its read set (R212). -/
def bwaitBody (sc : Scope) (d a : Opd) (s : State) (g : Nat) : Eff :=
  let x := s.grp g
  let p := sval x d
  if p.poi then .trap s (poisonAt 0)
  else orTrap s (barAddr s x .load a) fun b =>
    let line := b.2.pa / 64
    if x.tx.act then
      match if buffered x line 0 8 then some s else addReads s g [(line, b.2.key)] with
      | none => capacityEnd s g
      | some s1 =>
        let r := txBytes s1 (s1.grp g) b.2.key b.2.pa 8
        bwaitOn sc d p.val.toNat (ofBytes r.1) r.2 b.1 line s1 g
    else
      let s1 := settleLine s g b.2.key line
      bwaitOn sc d p.val.toNat (hNat s1 b.2.key b.2.pa 8) (hPoi s1 line) b.1 line s1 g
def execBwait (sc : Scope) (d a : Opd) (s : State) : Out := issue (.bwait sc d a) (bwaitBody sc d a) s

/-- BTEST (R233): LD.i64.dev.acq of STATE, transactional inside a transaction (R198). -/
def btestBody (d a : Opd) (s : State) (g : Nat) : Eff :=
  let x := s.grp g
  let c := opCode x d
  orTrap s (barAddr s x .load a) fun b =>
    let la : LaneAcc := ⟨0, b.1, b.2, 8, .zero⟩
    if x.tx.act then txLoads s g c [la]
    else .done (flightOps s g [c] [] (fun _ id tag => loadOp la id tag tag c .dev .acq false) 1)
def execBtest (d a : Opd) (s : State) : Out := issue (.btest d a) (btestBody d a) s

end Sys2Proof.Machine
end

