-- ==== Sys2Proof/Machine/GroupFam.lean ====
section
/-!
DEFINITION. The group family (R84 to R89): extended blocks, and the special registers of R87.
-/

namespace Sys2Proof.Machine

-- ===== RXA and RXR =====

/-- Zeroed registers of blocks `lo+1..hi` (R84, R85). -/
def clearBlocks (x : Group) (lo hi : Nat) : Group := { x with v := x.v.clear (32 * (32 * (lo + 1))) (32 * (32 * (hi - lo))) }

/-- RXA (R84): the blocks are taken all or nothing, or the group waits on the pool line at this word. -/
def rxaBody (n : BitVec 3) (s : State) (g : Nat) : Eff :=
  let x := s.grp g
  let core := coreOf g
  if n.toNat ≤ x.blocks then .done s
  else if poolFree s core < n.toNat - x.blocks then waitOn s g [.pool (s.poolPos.get core)]
  else .done (s.setGrp g { clearBlocks x x.blocks n.toNat with blocks := n.toNat })
def execRxa (n : BitVec 3) (s : State) : Out := issue (.rxa n) (rxaBody n) s

/-- RXR (R85). -/
def rxrBody (n : BitVec 3) (s : State) (g : Nat) : Eff :=
  let x := s.grp g
  if x.blocks ≤ n.toNat then .done s
  else match ((List.range (32 * (x.blocks - n.toNat))).map (· + 32 * (n.toNat + 1))).findSome? (hazardBad x) with
    | some t => .trap s t
    | none => .done (poolWrite (s.setGrp g { clearBlocks x n.toNat x.blocks with blocks := n.toNat }) (coreOf g))
def execRxr (n : BitVec 3) (s : State) : Out := issue (.rxr n) (rxrBody n) s

-- ===== special registers =====

/-- TX_STATUS (R201). -/
def txStatus (x : Group) : BitVec 64 :=
  BitVec.ofNat 64 (field x.spr.txWpc 3 52 * 2 ^ 12 + x.spr.txCause % 16 * 2 ^ 8 + (if x.tx.act then 2 ^ 7 + x.tx.alt % 4 * 2 ^ 4 + x.tx.nest % 16 else 0))

/-- CHAIN (R247). -/
def chainReg (s : State) (x : Group) : BitVec 64 :=
  match x.chain with
  | none => 0
  | some (c, i) =>
    let h := s.chains.get c
    BitVec.ofNat 64 (2 ^ 11 + (if h.folded then 2 ^ 10 else 0) + i % 8 * 2 ^ 7 + (h.stages.length - 1) % 8 * 2 ^ 4)

/-- BUDGET: the clocks left, all ones where there is no budget (R345). -/
def budgetReg (x : Group) : BitVec 64 := if x.budgeted then BitVec.ofNat 64 x.budget else 0xFFFFFFFFFFFFFFFF#64

/-- The value of a special register in a lane (R87). -/
def specialVal (s : State) (g : Nat) (n l : Nat) : BitVec 64 :=
  let x := s.grp g
  let p := x.spr
  let t := s.teams.get x.tid
  match n with
  | 0x00 => BitVec.ofNat 64 l
  | 0x01 => p.group | 0x02 => p.team | 0x03 => p.cluster | 0x04 => p.grid | 0x05 => p.ngroup | 0x06 => p.nteam
  | 0x07 => BitVec.ofNat 64 (coreOf g)
  | 0x08 => BitVec.ofNat 64 (dieOfCore (coreOf g))
  | 0x09 => BitVec.ofNat 64 x.ctx
  | 0x0A => p.argp | 0x0B => p.fpmode | 0x0C => p.rseed
  | 0x0D => BitVec.ofNat 64 s.clock
  | 0x0E => timen s
  | 0x0F => p.deadline
  | 0x10 => budgetReg x
  | 0x11 => p.uvec | 0x12 => p.trapCause | 0x13 => p.trapPc | 0x14 => p.trapAddr | 0x15 => p.emuWord | 0x16 => p.emuD | 0x17 => p.emuA
  | 0x18 => p.emuB | 0x19 => p.emuC | 0x1A => p.emuImm | 0x1B => p.emuShp | 0x1C => p.stkBase | 0x1D => p.stkLimit
  | 0x1E => BitVec.ofNat 64 (runEnt x).depth
  | 0x1F => txStatus x
  | 0x20 => t.tol | 0x21 => t.rcap | 0x22 => t.tileMode
  | 0x23 => chainReg s x
  | 0x24 => p.poisonInfo
  | _ => 0

/-- SRD (R88): every active lane, or the s register; class V for the live counters. -/
def srdBody (d : Opd) (sr : BitVec 8) (s : State) (g : Nat) : Eff :=
  let x := s.grp g
  let ls := if opIsS d then [0] else lanes (active x)
  if srLive sr.toNat then .done (flightNow s g d (ls.map (fun l => (l, ⟨specialVal s g sr.toNat l, false⟩))) 0 [])
  else .done (writeLanes s g d (ls.map (fun l => { lane := l, val := specialVal s g sr.toNat l })))
def execSrd (d : Opd) (sr : BitVec 8) (s : State) : Out := issue (.srd d sr) (srdBody d sr) s

/-- The stochastic states of all lanes for a seed (R38). -/
def seedAll (v : BitVec 64) : SMap (BitVec 32) := (List.range 32).map (fun l => (l, seedState v l))

/-- TRAP_CAUSE after an SWR: the IH and ESC fields and the reserved bits stay (R380). -/
def trapCauseWrite (old v : BitVec 64) : BitVec 64 := (old &&& ~~~0xFF#64) ||| (v &&& 0xFF#64)

/-- What an SWR does (R89). -/
def writeSpecial (s : State) (g : Nat) (n : Nat) (v : BitVec 64) : State :=
  let set (f : Specials → Specials) : State := s.updGrp g (fun x => { x with spr := f x.spr })
  let tid := (s.grp g).tid
  let team (f : Team → Team) : State := { s with teams := s.teams.upd tid f }
  match n with
  | 0x0B => set (fun p => { p with fpmode := fpmodeWrite v })
  | 0x0C => (set (fun p => { p with rseed := v })).updGrp g (fun x => { x with rng := seedAll v })
  | 0x11 => set (fun p => { p with uvec := v &&& ~~~7#64 })
  | 0x12 => set (fun p => { p with trapCause := trapCauseWrite p.trapCause v })
  | 0x13 => set (fun p => { p with trapPc := v })
  | 0x14 => set (fun p => { p with trapAddr := v })
  | 0x1C => set (fun p => { p with stkBase := v &&& ~~~0xFF#64 })
  | 0x1D => set (fun p => { p with stkLimit := v &&& ~~~0xFF#64 })
  | 0x20 => team (fun t => { t with tol := v &&& 0xFFFFFFFF#64 })
  | 0x21 => team (fun t => { t with rcap := v &&& 31#64 })
  | 0x22 => team (fun t => { t with tileMode := v &&& 1#64 })
  | _ => s

/-- SWR (R89). -/
def swrBody (a : Opd) (sr : BitVec 8) (s : State) (g : Nat) : Eff :=
  let v := sval (s.grp g) a
  if v.poi then .trap s (poisonAt 0) else .done (writeSpecial s g sr.toNat v.val)
def execSwr (a : Opd) (sr : BitVec 8) (s : State) : Out := issue (.swr a sr) (swrBody a sr) s

end Sys2Proof.Machine
end

