-- ==== Sys2Proof/Machine/Queue.lean ====
section
/-!
DEFINITION. Queues (R234 to R243): descriptors, pushes and pops at the home, the words QBIND, PUT, GET, QCNT, and the link operations of folded
chains (R249, R251).
-/

namespace Sys2Proof.Machine

-- ===== descriptors =====

/-- A queue descriptor as read (R234). -/
structure QDesc where
  va : BitVec 64
  key : Nat
  pa : Nat
  put : BitVec 64
  get : BitVec 64
  ring : BitVec 64
  ctl : BitVec 64
  rest : Bool                       -- a reserved word is nonzero
  deriving DecidableEq, Repr, Inhabited

def QDesc.cap (q : QDesc) : Nat := field q.ctl 0 32
/-- Words of an element: ESZ + 1. -/
def QDesc.words (q : QDesc) : Nat := field q.ctl 32 3 + 1
def QDesc.esize (q : QDesc) : Nat := 8 * q.words
def QDesc.lnch (q : QDesc) : Bool := flag q.ctl 35
def QDesc.pclosed (q : QDesc) : Bool := flag q.ctl 36
def QDesc.cclosed (q : QDesc) : Bool := flag q.ctl 37
def QDesc.count (q : QDesc) : Nat := (q.put - q.get).toNat
/-- Malformed (R235). -/
def QDesc.bad (q : QDesc) : Bool :=
  field q.ctl 38 26 != 0 || q.rest || q.cap < 2 || 2 ^ 24 < q.cap || q.ring.toNat % 64 != 0 || q.cap < q.count ||
  (q.lnch && (q.words != 8 || q.cap % 2 == 1))

/-- A descriptor from the 64 bytes of its line. -/
def qdescOf (va : BitVec 64) (key pa : Nat) (bs : List Byte) : QDesc :=
  let ws := toWords bs
  { va := va, key := key, pa := pa, put := wordAt ws 0, get := wordAt ws 1, ring := wordAt ws 2, ctl := wordAt ws 3,
    rest := (ws.drop 4).any (· != 0) }

/-- The address of element `n`'s slot. -/
def QDesc.slot (q : QDesc) (n : BitVec 64) : BitVec 64 := q.ring + BitVec.ofNat 64 (q.esize * (n.toNat % q.cap))

/-- How a queue's addresses are taken: physically (R374, R413), or through a context at a level. -/
structure QAcc where
  phys : Bool
  ctx : Nat
  sup : Bool
  deriving DecidableEq, Repr

/-- The pieces of a range: key, physical address, length. -/
def qSpan (s : State) (a : QAcc) (k : Acc) (va : BitVec 64) (n : Nat) : Except Trap (List (Nat × Nat × Nat)) :=
  if a.phys then (if inMemory va.toNat && inMemory (va.toNat + n - 1) then .ok [(0, va.toNat, n)] else .error ⟨cProt, va⟩)
  else firstTrap ((pieces va.toNat n).map (fun p =>
    match checkAddr s a.ctx a.sup k false (BitVec.ofNat 64 p.1) 1 with
    | .error t => .error t
    | .ok x => .ok (x.key, x.pa, p.2)))

/-- A descriptor read at its home by an agent that is no group: checks, poison, then R235. -/
def qOpen (s : State) (a : QAcc) (k : Acc) (va : BitVec 64) : Except Trap QDesc :=
  if va.toNat % 64 ≠ 0 then .error ⟨cAlign, va⟩
  else match qSpan s a k va 64 with
    | .error t => .error t
    | .ok [(key, pa, _)] =>
      if hPoi s (pa / 64) then .error ⟨cPoison, va⟩
      else
        let q := qdescOf va key pa (hRead s key pa 64)
        if q.bad then .error ⟨cQueueDesc, va⟩ else .ok q
    | .ok _ => .error ⟨cAlign, va⟩

/-- The slots of `n` elements from a count on. -/
def qSlots (s : State) (a : QAcc) (k : Acc) (q : QDesc) (from' : BitVec 64) (n : Nat) : Except Trap (List (List (Nat × Nat × Nat))) :=
  firstTrap ((List.range n).map (fun i => qSpan s a k (q.slot (from' + BitVec.ofNat 64 i)) q.esize))

/-- Writing one element's bytes at its slot. -/
def putPieces (s : State) : List (Nat × Nat × Nat) → List Byte → State
  | [], _ => s
  | (key, pa, n) :: r, bs => putPieces (hWriteSpan s key pa (bs.take n) false) r (bs.drop n)

/-- Reading one element: bytes, and whether any line is poisoned. -/
def getPieces (s : State) (ps : List (Nat × Nat × Nat)) : List Byte × Bool :=
  (ps.flatMap (fun p => hRead s p.1 p.2.1 p.2.2), ps.any (fun p => hPoiSpan s p.2.1 p.2.2))

/-- The counter writes of a push and of a pop. -/
def qCount (s : State) (q : QDesc) (off : Nat) (v : BitVec 64) : State := hWrite s q.key (q.pa / 64) (entBytes (q.pa + off) 8 v.toNat) false

/-- A push of elements at the home (R237): the slots, then PUTCNT. -/
def qPush (s : State) (q : QDesc) (slots : List (List (Nat × Nat × Nat))) (els : List (List Byte)) : State :=
  qCount ((slots.zip els).foldl (fun s e => putPieces s e.1 e.2) s) q 0 (q.put + BitVec.ofNat 64 els.length)

/-- A pop of elements at the home: GETCNT. -/
def qPop (s : State) (q : QDesc) (n : Nat) : State := qCount s q 8 (q.get + BitVec.ofNat 64 n)

/-- A push by an agent that is no group: none when the queue has no room. -/
def qPushAs (s : State) (a : QAcc) (q : QDesc) (els : List (List Byte)) : Except Trap (Option State) :=
  if q.cap < q.count + els.length then .ok none
  else match qSlots s a .store q q.put els.length with
    | .error t => .error t
    | .ok sl => .ok (some (qPush s q sl els))

-- ===== handles =====

def gAcc (x : Group) : QAcc := ⟨false, x.ctx, x.sup⟩

/-- The bound handle of a word (R240). -/
def handleOf (x : Group) (n : Nat) : Option QHandle := if (x.q.get n).bound then some (x.q.get n) else none

/-- The descriptor of a word's queue: read at H, inside a transaction through its sets (R211, R212). -/
def withQ (s : State) (g : Nat) (k : Acc) (va : BitVec 64) (f : State → QDesc → Eff) : Eff :=
  let x := s.grp g
  orTrap s (checkAddr s x.ctx x.sup k false va 64) fun xl =>
    let line := xl.pa / 64
    let go (s1 : State) (b : List Byte × Bool) : Eff :=
      if b.2 then .trap s1 (poisonAt va)
      else
        let q := qdescOf va xl.key xl.pa b.1
        if q.bad then .trap s1 ⟨cQueueDesc, va⟩ else f s1 q
    if x.tx.act then
      match if buffered x line 0 64 then some s else addReads s g [(line, xl.key)] with
      | none => capacityEnd s g
      | some s1 => go s1 (txBytes s1 (s1.grp g) xl.key xl.pa 64)
    else
      let s1 := settleLine s g xl.key line
      go s1 (hRead s1 xl.key xl.pa 64, hPoi s1 line)

/-- The codes of an element block (R240). -/
def blockCodes (c m : Nat) : List Nat := (List.range m).map (c + ·)

/-- The checks of an element block, after the descriptor (R240). -/
def blockBad (s : State) (x : Group) (va : BitVec 64) (c m : Nat) : Option Trap :=
  if (if c < 0x100 then 0xFF else 0x13F) < c + m - 1 then some ⟨cQueueDesc, va⟩
  else match (blockCodes c m).findSome? (codeBad s x) with
    | some t => some t
    | none => (blockCodes c m).findSome? (hazardBad x)

/-- The lanes of an element batch: one element for an s register, one for each active lane for a v register. -/
def batchLanes (x : Group) (o : Opd) : List Nat := if opIsS o then [0] else lanes (active x)

/-- An element's bytes from its registers. -/
def elemBytes (x : Group) (c m l : Nat) : List Byte := (blockCodes c m).flatMap (fun r => toBytes 8 (rget x r l).val.toNat)

/-- The first lane with a poisoned source register, by its place in the batch. -/
def elemPoison (x : Group) (c m : Nat) (ls : List Nat) : Option Nat :=
  (List.range ls.length).find? (fun i => (blockCodes c m).any (fun r => (rget x r (ls.getD i 0)).poi))

-- ===== chains: which stage, and the switch of the running stage (R251) =====

def setChain (s : State) (c : Nat) (h : Chain) : State := { s with chains := s.chains.set c h }
def updStage (h : Chain) (i : Nat) (f : Stage → Stage) : Chain := { h with stages := h.stages.modify i f }

/-- The per-stage state that a folded chain keeps (R246). -/
def saveStage (x : Group) : StageState :=
  { frontier := x.frontier, run := x.run, m := x.m, q := x.q, fpmode := x.spr.fpmode, rseed := x.spr.rseed, rng := x.rng, rstk := x.rstk }
def loadStage (x : Group) (c j : Nat) (t : StageState) : Group :=
  { x with frontier := t.frontier, run := t.run, m := t.m, q := t.q, rng := t.rng, rstk := t.rstk, chain := some (c, j),
           spr := { x.spr with fpmode := t.fpmode, rseed := t.rseed } }

/-- Control passes to another stage of a folded chain. -/
def switchStage (s : State) (g c j : Nat) : State :=
  let x := s.grp g
  let h := s.chains.get c
  let i := match x.chain with
    | some (_, i) => i
    | none => 0
  let h1 := { updStage h i (fun t => { t with st := saveStage x }) with running := j }
  (setChain s c h1).setGrp g (loadStage { x with life := .ready } c j (h1.stages.getD j default).st)

/-- The run of a link word passes control at its trailer, to the stage that its last such word names (R251, log 36). -/
def passTo (j : Nat) (x : Group) : Group := updRs x (fun r => { r with pass := some j })

/-- The run ends at its word, which executes again when the stage next runs (R200, R251). -/
def suspendAt (x : Group) : Group :=
  { x with run := none, frontier := x.frontier ++ [{ pc := runPc x, prio := (runEnt x).prio, depth := (runEnt x).depth, mask := active x }] }

/-- A run that still holds a CALL, CALLI or RET after the current word (R249). -/
def callAhead (s : State) (x : Group) : Nat → BitVec 64 → Bool
  | 0, _ => false
  | n + 1, pc => match fetchWord s x pc with
    | .error _ => false
    | .ok w =>
      let maj := w.extractLsb' 57 7
      let mn := w.extractLsb' 52 5
      if maj = 0x7F then false else (maj = 0x7E && (mn = 2 || mn = 3 || mn = 4)) || callAhead s x n (pc + 8)

/-- The conditions on a PUT or GET of a link handle (R249). -/
def linkBad (s : State) (x : Group) (o : Opd) (ok : Bool) : Bool :=
  !ok || !opIsS o || active x != unexited x || (runEnt x).depth != 0 || callAhead s x 24 (runPc x + 8)

-- ===== QBIND =====

/-- QBIND (R242). -/
def qbindBody (a : Opd) (n : BitVec 3) (s : State) (g : Nat) : Eff :=
  orTrap s (addrOf (s.grp g) a) fun va =>
    withQ s g .load va fun s1 q =>
      if q.lnch then .trap s1 ⟨cQueueDesc, va⟩
      else .done (s1.updGrp g (fun x => { x with q := x.q.set n.toNat { bound := true, link := false, addr := va } }))
def execQbind (a : Opd) (n : BitVec 3) (s : State) : Out := issue (.qbind a n) (qbindBody a n) s

/-- QBIND.free (R242). -/
def qbindFreeBody (n : BitVec 3) (s : State) (g : Nat) : Eff := .done (s.updGrp g (fun x => { x with q := x.q.set n.toNat {} }))
def execQbindFree (n : BitVec 3) (s : State) : Out := issue (.qbindFree n) (qbindFreeBody n) s

-- ===== PUT =====

/-- A count returned by a PUT. -/
def putDone (s : State) (g : Nat) (d : Opd) (n : Nat) : Eff := .done (flightNow s g d [(0, ⟨BitVec.ofNat 64 n, false⟩)] 0 [])

/-- The pieces of a write by line, for the write set. -/
def txLines (ps : List (Nat × Nat × Nat)) (bs : List Byte) : List (Nat × Nat × SMap (Option Byte)) :=
  match ps with
  | [] => []
  | (key, pa, n) :: r => ((splitLines pa (bs.take n)).filter (fun l => !l.2.isEmpty)).map (fun l => (l.1, key, l.2)) ++ txLines r (bs.drop n)

/-- The writes of a transactional push or pop enter the write set, or the attempt ends with capacity (R197, R212). -/
def txWriteAll (s : State) (g : Nat) (ws : List (Nat × Nat × SMap (Option Byte))) (k : State → Eff) : Eff :=
  let x := s.grp g
  if writesFull x (ws.map (·.1)) then capacityEnd s g
  else k (s.setGrp g (ws.foldl (fun x w => addWrite x w.1 w.2.1 w.2.2 []) x))

/-- PUT through a queue (R241). -/
def putQueue (d a : Opd) (va : BitVec 64) (s : State) (g : Nat) : Eff :=
  withQ s g .store va fun s1 q =>
    let x := s1.grp g
    let c := a.code.toNat
    let ls := batchLanes x a
    match blockBad s1 x va c q.words with
    | some t => .trap s1 t
    | none => match elemPoison x c q.words ls with
      | some i => .trap s1 (poisonAt (q.slot (q.put + BitVec.ofNat 64 i)))
      | none =>
        if q.cclosed then .trap s1 ⟨cQueueDesc, va⟩
        else if q.cap < q.count + ls.length then
          (if x.tx.act then retryHere s1 g else putDone (releaseAt s1 g .dev) g d 0)
        else orTrap s1 (qSlots s1 (gAcc x) .store q q.put ls.length) fun sl =>
          let els := ls.map (elemBytes x c q.words)
          if x.tx.act then
            txWriteAll s1 g ((sl.zip els).flatMap (fun e => txLines e.1 e.2) ++
              [(q.pa / 64, q.key, entBytes q.pa 8 (q.put + BitVec.ofNat 64 ls.length).toNat)]) fun s2 => putDone s2 g d ls.length
          else
            let s2 := releaseAt s1 g .dev
            let s3 := sl.foldl (fun s ps => ps.foldl (fun s p => settleLine s g p.1 (p.2.1 / 64)) s) s2
            putDone (qPush s3 q sl els) g d ls.length

/-- PUT on the link handle of a folded chain (R251). -/
def putLink (d a : Opd) (va : BitVec 64) (c i : Nat) (s : State) (g : Nat) : Eff :=
  withQ s g .store va fun s1 q =>
    let x := s1.grp g
    let h := s1.chains.get c
    let t := h.stages.getD i default
    let r := a.code.toNat
    match blockBad s1 x va r q.words with
    | some e => .trap s1 e
    | none => match elemPoison x r q.words [0] with
      | some _ => .trap s1 (poisonAt (q.slot q.put))
      | none =>
        if q.cclosed || (h.stages.getD (i + 1) default).exited then .trap s1 ⟨cQueueDesc, va⟩
        else
          let s2 := releaseAt s1 g .dev
          if t.link.isSome then .moved (switchStage (s2.updGrp g suspendAt) g c (i + 1))
          else
            let ws := (blockCodes r q.words).map (fun k => (rget x k 0).val)
            putDone ((setChain s2 c (updStage h i (fun t => { t with link := some (ws, false) }))).updGrp g (passTo (i + 1))) g d 1

/-- PUT (R240, R241, R249). -/
def putBody (d a : Opd) (n : BitVec 3) (s : State) (g : Nat) : Eff :=
  let x := s.grp g
  match handleOf x n.toNat with
  | none => .trap s ⟨cQueueDesc, 0⟩
  | some h =>
    if h.link then
      if x.tx.act then refuseTx s g txRefused
      else if linkBad s x a (n == 1) then .trap s ⟨cQueueDesc, h.addr⟩
      else match x.chain with
        | some (c, i) => if (s.chains.get c).folded then putLink d a h.addr c i s g else putQueue d a h.addr s g
        | none => putQueue d a h.addr s g
    else putQueue d a h.addr s g
def execPut (d a : Opd) (n : BitVec 3) (s : State) : Out := issue (.put d a n) (putBody d a n) s

-- ===== GET =====

/-- The poisoned lines of an element's pieces, for POISON_INFO of the lane that receives it; inside a transaction the bytes read decide. -/
def piecePoison (s : State) (x : Group) (lane : Nat) (ps : List (Nat × Nat × Nat)) : List (Nat × BitVec 64) :=
  let bad (p : Nat × Nat × Nat) (l : Nat × SMap (Option Byte)) : Bool :=
    l.2.any (fun b => if x.tx.act then (txByte s x p.1 (64 * l.1 + b.1)).2 else hPoi s l.1)
  (ps.flatMap (fun p => ((splitLines p.2.1 (List.replicate p.2.2 0)).filter (bad p)).map (·.1))).eraseDups.map (fun l => (lane, pinfoOf false (64 * l)))

/-- The elements' registers go in flight together (R240). -/
def getDone (s : State) (g c m : Nat) (ls : List Nat) (els : List (List Byte × Bool)) (pi : List (Nat × BitVec 64)) : Eff :=
  let r := freshId s
  let ws := (ls.zip els).flatMap (fun e => (List.range m).map (fun i =>
    (⟨c + i, e.1, ⟨BitVec.ofNat 64 (ofBytes ((e.2.1.drop (8 * i)).take 8)), e.2.2⟩⟩ : RegWrite)))
  .done (launchFlight r.2 g { tag := r.1, regs := blockCodes c m, writes := ws, pinfo := pi })

/-- GET through a queue (R241). -/
def getQueue (d : Opd) (va : BitVec 64) (s : State) (g : Nat) : Eff :=
  withQ s g .store va fun s1 q =>
    let x := s1.grp g
    let c := d.code.toNat
    let ls := batchLanes x d
    match blockBad s1 x va c q.words with
    | some t => .trap s1 t
    | none =>
      if q.count < ls.length then
        (if q.pclosed then .trap s1 ⟨cQueueDesc, va⟩ else waitOn s1 g [.mem (q.pa / 64) (hPos s1 (q.pa / 64))])
      else orTrap s1 (qSlots s1 (gAcc x) .load q q.get ls.length) fun sl =>
        let cnt := entBytes (q.pa + 8) 8 (q.get + BitVec.ofNat 64 ls.length).toNat
        if x.tx.act then
          let need := sl.flatten.flatMap (fun p =>
            ((splitLines p.2.1 (List.replicate p.2.2 0)).map (fun l => (l.1, p.1, l.2))).filter (fun l =>
              !l.2.2.all (fun b => buffered x l.1 b.1 1)))
          match addReads s1 g (need.map (fun l => (l.1, l.2.1))) with
          | none => capacityEnd s1 g
          | some s2 =>
            let y := s2.grp g
            let els := sl.map (fun ps => ps.foldl (fun (r : List Byte × Bool) p =>
              let b := txBytes s2 y p.1 p.2.1 p.2.2
              (r.1 ++ b.1, r.2 || b.2)) ([], false))
            txWriteAll s2 g [(q.pa / 64, q.key, cnt)] fun s3 => getDone s3 g c q.words ls els ((ls.zip sl).flatMap (fun e => piecePoison s2 y e.1 e.2))
        else
          let s2 := sl.foldl (fun s ps => ps.foldl (fun s p => settleLine s g p.1 (p.2.1 / 64)) s) s1
          let els := sl.map (getPieces s2)
          getDone (acquireAt (qPop s2 q ls.length) g .dev) g c q.words ls els ((ls.zip sl).flatMap (fun e => piecePoison s2 x e.1 e.2))

/-- GET on the link handle of a folded chain (R251). -/
def getLink (d : Opd) (va : BitVec 64) (c i : Nat) (s : State) (g : Nat) : Eff :=
  withQ s g .store va fun s1 q =>
    let x := s1.grp g
    let h := s1.chains.get c
    let p := h.stages.getD (i - 1) default
    let r := d.code.toNat
    match blockBad s1 x va r q.words with
    | some e => .trap s1 e
    | none => match p.link with
      | none =>
        if q.pclosed || p.exited then .trap s1 ⟨cQueueDesc, va⟩
        else .moved (switchStage (s1.updGrp g suspendAt) g c (i - 1))
      | some (ws, poi) =>
        let s2 := setChain s1 c (updStage h (i - 1) (fun t => { t with link := none, linkPoi := [] }))
        let s3 := if p.exited then s2 else s2.updGrp g (passTo (i - 1))
        getDone (acquireAt s3 g .dev) g r q.words [0] [(ws.flatMap (fun w => toBytes 8 w.toNat), poi)] (p.linkPoi.map (fun w => (0, w)))

/-- GET (R240, R241, R249). -/
def getBody (d : Opd) (n : BitVec 3) (s : State) (g : Nat) : Eff :=
  let x := s.grp g
  match handleOf x n.toNat with
  | none => .trap s ⟨cQueueDesc, 0⟩
  | some h =>
    if h.link then
      if x.tx.act then refuseTx s g txRefused
      else if linkBad s x d (n == 0) then .trap s ⟨cQueueDesc, h.addr⟩
      else match x.chain with
        | some (c, i) => if (s.chains.get c).folded then getLink d h.addr c i s g else getQueue d h.addr s g
        | none => getQueue d h.addr s g
    else getQueue d h.addr s g
def execGet (d : Opd) (n : BitVec 3) (s : State) : Out := issue (.get d n) (getBody d n) s

-- ===== QCNT =====

/-- QCNT (R238, R240). -/
def qcntBody (d : Opd) (n : BitVec 3) (s : State) (g : Nat) : Eff :=
  match handleOf (s.grp g) n.toNat with
  | none => .trap s ⟨cQueueDesc, 0⟩
  | some h => withQ s g .load h.addr fun s1 q => .done (flightNow s1 g d [(0, ⟨BitVec.ofNat 64 q.count, false⟩)] 0 [])
def execQcnt (d : Opd) (n : BitVec 3) (s : State) : Out := issue (.qcnt d n) (qcntBody d n) s

end Sys2Proof.Machine
end

