-- ==== Sys2Proof/Machine/Chain.lean ====
section
/-!
DEFINITION. Chains (R244 to R256): CHLOAD, CHFOLD, CHSPREAD, the switches of form, and the exit of a stage.
-/

namespace Sys2Proof.Machine

-- ===== slots and blocks =====

/-- The group slots of a core that hold no group. -/
def freeSlots (s : State) (core : Nat) : List Nat := ((List.range 48).map (48 * core + ·)).filter (fun g => !s.groups.any (fun e => e.1 == g))

/-- Extended blocks that a v window needs: blocks form a prefix (R83). -/
def windowBlocks (base len : Nat) : Nat := if len = 0 then 0 else (base + len - 1) / 32
def stageBlocks (t : Stage) : Nat := windowBlocks t.vbase t.vlen
def maxBlocks (ts : List Stage) : Nat := ts.foldl (fun n t => max n (stageBlocks t)) 0
def sumBlocks (ts : List Stage) : Nat := ts.foldl (fun n t => n + stageBlocks t) 0

/-- The stages that have not exited. -/
def liveStages (h : Chain) : List (Nat × Stage) := ((List.range h.stages.length).zip h.stages).filter (fun e => !e.2.exited)

-- ===== birth of a stage (R248) =====

/-- The link handles of stage `i` (R246). -/
def stageHandles (ts : List Stage) (i : Nat) : SMap QHandle :=
  let link (a : BitVec 64) : QHandle := if a = 0 then {} else { bound := true, link := true, addr := a }
  let q0 : QHandle := if i = 0 then {} else link (ts.getD (i - 1) default).outq
  let q1 : QHandle := link (ts.getD i default).outq
  SMap.set (SMap.set [] 0 q0) 1 q1

/-- The special registers that a stage inherits from the group that issued CHLOAD (R248). -/
def stageSpr (p : Specials) : Specials :=
  { group := p.group, team := p.team, cluster := p.cluster, grid := p.grid, ngroup := p.ngroup, nteam := p.nteam, argp := p.argp,
    uvec := p.uvec, stkBase := p.stkBase, stkLimit := p.stkLimit, deadline := p.deadline }

/-- The slice's budget for a group born now (R345). -/
def sliceBudget (s : State) (x : Group) : Nat := match s.kernels.find? (fun k => k.grid == x.spr.grid) with
  | some k => k.budget
  | none => 0

/-- The per-stage state at birth. -/
def stageBorn (ts : List Stage) (i : Nat) : StageState :=
  { frontier := [{ pc := (ts.getD i default).pc, mask := fullMask }], q := stageHandles ts i, rng := seedAll 0 }

/-- A group of the chain at a slot, with blocks, running stage `i`. -/
def stageGroup (s : State) (x : Group) (g c i blocks : Nat) (t : StageState) : Group :=
  let b := sliceBudget s x
  let y : Group := { life := .ready, ctx := x.ctx, sup := x.sup, tid := x.tid, kern := x.kern, slice := x.slice, clu := x.clu, die := x.die,
                     slotNo := x.slotNo, blocks := blocks, srcKey := 64 * coreOf g + 16 * (g % 48 / 12) + g % 12, spr := stageSpr x.spr,
                     budget := b, budgeted := b != 0 }
  loadStage y c i t

/-- ARG goes to s(SBASE) (R244). -/
def bornArg (x : Group) (t : Stage) : Group := if t.slen = 0 then x else { x with s := x.s.set t.sbase ⟨t.arg, false⟩ }

-- ===== CHLOAD =====

/-- The stages of a chain descriptor (R244). -/
def stagesOf (ws : List (BitVec 64)) (n : Nat) : List Stage :=
  (List.range n).map (fun i =>
    let w (k : Nat) : BitVec 64 := wordAt ws (8 + 4 * i + k)
    { pc := w 0, vbase := field (w 1) 0 8, vlen := field (w 1) 8 8, sbase := field (w 1) 16 8, slen := field (w 1) 24 8, arg := w 2, outq := w 3 })

/-- Two windows meet. -/
def meets (b1 l1 b2 l2 : Nat) : Bool := b1 < b2 + l2 && b2 < b1 + l1 && l1 != 0 && l2 != 0

/-- The conditions of R244 and R245 that the descriptor's own words decide. -/
def stagesBad (ws : List (BitVec 64)) (ts : List Stage) : Bool :=
  field (wordAt ws 0) 6 58 != 0 || ((ws.drop 2).take 6).any (· != 0) ||
  (List.range ts.length).any (fun i =>
    let t := ts.getD i default
    field t.pc 0 3 != 0 || field (wordAt ws (8 + 4 * i + 1)) 32 32 != 0 || 256 < t.vbase + t.vlen || 64 < t.sbase + t.slen ||
    ((t.outq == 0) != (i + 1 == ts.length)) ||
    (List.range i).any (fun j =>
      let u := ts.getD j default
      meets t.vbase t.vlen u.vbase u.vlen || meets t.sbase t.slen u.sbase u.slen || (t.outq == u.outq && t.outq != 0)))

/-- The links' own conditions (R245), given the descriptors of the links before: two addresses of one descriptor share it. -/
def linksFrom (s : State) (x : Group) (seen : List Nat) : List Stage → Except Trap Unit
  | [] => .ok ()
  | t :: r =>
    if t.outq = 0 then linksFrom s x seen r
    else match qOpen s (gAcc x) .load t.outq with
      | .error e => .error e
      | .ok q => if q.lnch || q.count != 0 || q.pclosed || q.cclosed || seen.contains q.pa then .error ⟨cQueueDesc, t.outq⟩ else linksFrom s x (q.pa :: seen) r
def linksCheck (s : State) (x : Group) (ts : List Stage) : Except Trap Unit := linksFrom s x [] ts

/-- The highest-indexed stage is the first to run (R253 step 6: at birth no stage is parked). -/
def chainBuild (s : State) (g : Nat) (va : BitVec 64) (ws : List (BitVec 64)) (ts : List Stage) : Nat × State :=
  let x := s.grp g
  let core := coreOf g
  let n := ts.length
  let folded := flag (wordAt ws 0) 3
  let slots := freeSlots s core
  let c := s.nextChain
  let ok := if folded then 1 ≤ slots.length && maxBlocks ts ≤ poolFree s core else n ≤ slots.length && sumBlocks ts ≤ poolFree s core
  if !ok then (0, s)
  else
    let born := (List.range n).map (fun i => { (ts.getD i default) with st := stageBorn ts i, gid := slots.getD (if folded then 0 else i) 0 })
    let h : Chain := { live := true, core := core, tid := x.tid, ctx := x.ctx, sup := x.sup, desc := va, bar := wordAt ws 1,
                       noSpread := flag (wordAt ws 0) 5, noFold := flag (wordAt ws 0) 4, folded := folded, gid := slots.getD 0 0,
                       running := n - 1, stages := born }
    let s1 := { setChain s c h with nextChain := c + 1 }
    if folded then
      let g0 := slots.getD 0 0
      let y := stageGroup s x g0 c (n - 1) (maxBlocks ts) (stageBorn ts (n - 1))
      (c, s1.setGrp g0 (ts.foldl bornArg y))
    else
      (c, (List.range n).foldl (fun s i =>
        let gi := slots.getD i 0
        let t := ts.getD i default
        s.setGrp gi (bornArg (stageGroup s x gi c i (stageBlocks t) (stageBorn ts i)) t)) s1)

/-- CHLOAD (R256). -/
def chloadBody (d a : Opd) (s : State) (g : Nat) : Eff :=
  orTrap s (addrOf (s.grp g) a) fun va =>
    let s1 := seenRange (releaseAt s g .dev) g va 64
    let x := s1.grp g
    orTrap s1 (readDesc s1 g va 64 64) fun hd =>
      let n := field (wordAt hd 0) 0 3 + 1
      let s2 := seenRange s1 g (va + 64) (32 * n)
      orTrap s2 (readRange s2 g (va + 64) (32 * n)) fun r =>
        if r.2.isSome then .trap s2 (poisonAt va)
        else
          let ws := hd ++ toWords r.1
          let ts := stagesOf ws n
          if stagesBad ws ts then .trap s2 ⟨cQueueDesc, va⟩
          else orTrap s2 (linksCheck s2 x ts) fun _ =>
            let b := chainBuild s2 g va ws ts
            .done (flightNow b.2 g d [(0, ⟨BitVec.ofNat 64 b.1, false⟩)] 0 [])
def execChload (d a : Opd) (s : State) : Out := issue (.chload d a) (chloadBody d a) s

-- ===== CHFOLD and CHSPREAD =====

/-- A request to switch the form: answered at once where nothing is to be switched (R256). -/
def switchBody (fold : Bool) (d : Opd) (s : State) (g : Nat) : Eff :=
  let x := s.grp g
  match x.chain with
  | none => .done (flightNow s g d [(0, ⟨4, false⟩)] 0 [])
  | some (c, i) =>
    let h := s.chains.get c
    if h.folded == fold then .done (flightNow s g d [(0, ⟨1, false⟩)] 0 [])
    else
      let r := freshId s
      let s1 := setChain r.2 c { h with wants := h.wants ++ [⟨fold, i, r.1, false⟩] }
      .done (launchFlight s1 g { tag := r.1, regs := [opCode x d], waits := [.chain c] })
def execChfold (d : Opd) (s : State) : Out := issue (.chfold d) (switchBody true d) s
def execChspread (d : Opd) (s : State) : Out := issue (.chspread d) (switchBody false d) s

/-- The status of a request reaches the result that waits for it. -/
def answerTag (s : State) (tag v : Nat) : State :=
  if tag = 0 then s
  else { s with groups := s.groups.map (fun e => (e.1, { e.2 with inflight := e.2.inflight.map (fun f =>
    if f.tag == tag then { f with writes := f.regs.map (fun c => ⟨c, 0, ⟨BitVec.ofNat 64 v, false⟩⟩) } else f) })) }

/-- A request is answered and leaves its chain. -/
def resolveWant (s : State) (c : Nat) (w : ChainWant) (v : Nat) : State :=
  let h := s.chains.get c
  answerTag (setChain s c { h with wants := h.wants.filter (fun u => u != w) }) w.tag v

/-- A stage at its trailer marks its requests: they act from here on (R256). -/
def markWants (s : State) (g : Nat) : State :=
  match (s.grp g).chain with
  | none => s
  | some (c, i) =>
    let h := s.chains.get c
    if h.wants.any (fun w => w.stage == i && !w.on) then
      setChain s c { h with wants := h.wants.map (fun w => if w.stage == i then { w with on := true } else w) }
    else s

/-- A stage's group that stands at a trailer boundary of a chain whose form is to be switched is held there (R253). -/
def chainHeld (s : State) (x : Group) : Bool :=
  match x.chain with
  | none => false
  | some (c, _) => x.run.isNone && (s.chains.get c).wants.any (·.on)

-- ===== equivalence points (R252) =====

/-- The handle of the GET that a group waits at. -/
def getHandle (s : State) (x : Group) : Option Nat :=
  if x.life != .waiting then none
  else match fetchWord s x (runPc x) with
    | .ok w => match decodeWord w with
      | .get _ n => some n.toNat
      | _ => none
    | .error _ => none
def atGet (s : State) (x : Group) : Bool := (getHandle s x).isSome

/-- No lane of a group stands within a run. -/
def betweenRuns (x : Group) : Bool := x.run.isNone && x.frontier.all (fun e => e.resume.isNone)

/-- The trailer at which a stage is parked waits for nothing but the stage's own switch of form (R256). -/
def onlySwitch (x : Group) (c : Nat) : Bool :=
  x.life == .parked && x.parkNames.all (fun n => x.inflight.all (fun f => !f.regs.contains n || f.waits == [.chain c]))

/-- A stage's group stands at a trailer boundary or is parked at a GET. -/
def stageStands (s : State) (c : Nat) (x : Group) : Bool := (x.life == .ready && betweenRuns x) || onlySwitch x c || atGet s x

/-- No open transaction, no lane at a call depth, no handler running (log 36). -/
def stagePlain (x : Group) : Bool := !x.tx.act && !inHandler x && x.frontier.all (fun e => e.depth == 0) && (runEnt x).depth == 0

/-- The queue of a link, where it can be read. -/
def linkQ (s : State) (h : Chain) (t : Stage) : Option QDesc :=
  match qOpen s ⟨false, h.ctx, h.sup⟩ .store t.outq with
  | .ok q => some q
  | .error _ => none

/-- Every link queue holds at most one element. -/
def linksLight (s : State) (h : Chain) : Bool :=
  h.stages.all (fun t => t.outq == 0 || (match linkQ s h t with | some q => q.count ≤ 1 | none => false))

-- ===== folding (R253) =====

/-- Registers of a stage's window, taken from another group. -/
def takeWindow (y x : Group) (t : Stage) : Group :=
  let vs := (x.v.filter (fun e => 32 * t.vbase ≤ e.1 && e.1 < 32 * (t.vbase + t.vlen)))
  let ss := (x.s.filter (fun e => t.sbase ≤ e.1 && e.1 < t.sbase + t.slen))
  let v0 := y.v.clear (32 * t.vbase) (32 * t.vlen)
  let s0 := y.s.clear t.sbase t.slen
  { y with v := vs.foldl (fun m e => m.set e.1 e.2) v0, s := ss.foldl (fun m e => m.set e.1 e.2) s0 }

/-- A link queue's element becomes its link register, with the poisoned lines that it came from; GETCNT advances. None where its slot cannot be read:
the chain then cannot fold (log 36). -/
def drainLink (s : State) (h : Chain) (i : Nat) : Option (State × Chain) :=
  let t := h.stages.getD i default
  if t.outq = 0 then some (s, h)
  else match linkQ s h t with
    | none => none
    | some q =>
      if q.count = 0 then some (s, h)
      else match qSlots s ⟨false, h.ctx, h.sup⟩ .load q q.get 1 with
        | .ok (ps :: _) =>
          let e := getPieces s ps
          let s1 := ps.foldl (fun s p => arrives s (dieOfCore h.core) p.2.1 p.2.2) s
          some (qPop s1 q 1, updStage h i (fun t => { t with link := some (toWords e.1, e.2), linkPoi := (piecePoison s {} 0 ps).map (·.2) }))
        | _ => none

/-- The same for every link from stage `i` on. -/
def drainLinks (s : State) (h : Chain) : Nat → Option (State × Chain)
  | 0 => some (s, h)
  | n + 1 => match drainLinks s h n with
    | none => none
    | some r => drainLink r.1 r.2 n

/-- The running stage after a fold: the highest that is not parked at a GET on an empty link. -/
def firstRunning (s : State) (h : Chain) (ls : List (Nat × Stage)) : Nat :=
  let can (e : Nat × Stage) : Bool := getHandle s (s.grp e.2.gid) != some 0 || (h.stages.getD (e.1 - 1) default).link.isSome
  match ls.reverse.find? can with
  | some e => e.1
  | none => (ls.reverse.headD (0, default)).1

/-- The fold itself; none where a link cannot be drained. -/
def foldChain (s : State) (c : Nat) : Option State :=
  let h0 := s.chains.get c
  let ls := liveStages h0
  let g0 := ((ls.headD (0, default)).2).gid
  let s1 := ls.foldl (fun s e => performAll s e.2.gid) s
  (drainLinks s1 h0 h0.stages.length).map fun d =>
    let s2 := d.1
    let r := firstRunning s2 d.2 ls
    let keep := ls.foldl (fun h e => updStage h e.1 (fun t => { t with st := saveStage (s2.grp e.2.gid), gid := g0 })) d.2
    let x0 := s2.grp g0
    let merged := (ls.drop 1).foldl (fun y e =>
      let x := s2.grp e.2.gid
      { takeWindow y x e.2 with inflight := y.inflight ++ x.inflight, cbuf := y.cbuf ++ x.cbuf }) x0
    let b := sliceBudget s2 x0
    let host := { merged with blocks := max x0.blocks (maxBlocks (ls.map (·.2))), budget := b, budgeted := b != 0, life := .ready, thaw := [],
                              parkNames := [], atBoundary := false, roundDone := false, pastWord := false }
    let s3 := (ls.drop 1).foldl (fun s e =>
      let t := passAll (flushRedo s e.2.gid).2 e.2.gid
      { t with groups := t.groups.del e.2.gid }) s2
    poolWrite (setChain (s3.setGrp g0 (loadStage host c r (keep.stages.getD r default).st)) c { keep with folded := true, gid := g0, running := r }) h0.core

/-- The blocks for the union of the windows, beyond those that the host group holds. -/
def foldRoom (s : State) (h : Chain) : Bool :=
  let ls := liveStages h
  let x := s.grp ((ls.headD (0, default)).2).gid
  maxBlocks (ls.map (·.2)) ≤ x.blocks + poolFree s h.core

/-- CHAIN_FOLD: a pending request is decided, else the scheduler folds where it may (R253, R255). -/
def chainFoldStep (s : State) (c : Nat) : State :=
  let h := s.chains.get c
  let gs := (liveStages h).map (fun e => s.grp e.2.gid)
  let stands := gs.all (stageStands s c)
  let equiv := gs.all stagePlain && linksLight s h
  match h.wants.find? (fun w => w.on && w.fold) with
  | some w =>
    if h.folded then resolveWant s c w 1
    else if !stands then (if gs.any (fun x => x.life == .trapped) then resolveWant s c w 2 else s)
    else if !equiv then resolveWant s c w 2
    else if !foldRoom s h then resolveWant s c w 3
    else match foldChain s c with
      | none => resolveWant s c w 2
      | some s1 => resolveWant s1 c w 0
  | none => if !h.live || h.folded || h.noFold || gs.isEmpty || !stands || !equiv || !foldRoom s h then s else (foldChain s c).getD s
def execChainFold (c : Nat) (s : State) : Out := .next (chainFoldStep s c)

-- ===== spreading (R254) =====

/-- A full link register becomes the head of its queue. -/
def fillLink (s : State) (h : Chain) (t : Stage) : Option State :=
  match t.link with
  | none => some s
  | some (ws, poi) => match linkQ s h t with
    | none => none
    | some q => match qSlots s ⟨false, h.ctx, h.sup⟩ .store q q.put 1 with
      | .ok (ps :: _) =>
        let s1 := qPush s q [ps] [ws.flatMap (fun w => toBytes 8 w.toNat)]
        some (if poi then ps.foldl (fun s p => (splitLines p.2.1 (List.replicate p.2.2 0)).foldl (fun s l =>
          crossed (hMark s l.1) (dieOfCore h.core) (homeDie (64 * l.1)) true) s) s1 else s1)
      | _ => none

/-- Every full link register becomes its queue's head, or none. -/
def fillLinks (s : State) (h : Chain) : List Stage → Option State
  | [] => some s
  | t :: r => match fillLink s h t with
    | none => none
    | some s1 => fillLinks s1 h r

/-- What the stages of a folded chain have stored, and their queued operations, are out of the group that they shared: a stage in a group of its own
finds its stores in the view of the core, and its loads have their values (R165, R255). -/
def spreadReady (s : State) (g : Nat) : State := passWhere (passOwn (flushRedo (performAll s g) g).2 g 1 (fun _ => true)) 3 g (fun _ => true)

/-- The spread itself; the host group keeps the running stage. -/
def spreadChain (s0 : State) (c : Nat) : State :=
  let h := s0.chains.get c
  let s := spreadReady s0 h.gid
  let x := s.grp h.gid
  let others := (liveStages h).filter (fun e => e.1 != h.running)
  let slots := freeSlots s h.core
  let place := others.zip slots
  let s1 := place.foldl (fun s p =>
    let t := p.1.2
    let y := takeWindow (stageGroup s x p.2 c p.1.1 (stageBlocks t) t.st) x t
    s.setGrp p.2 { y with inflight := x.inflight.filter (fun f => f.stage == p.1.1), cbuf := x.cbuf.filter (fun w => w.stage == p.1.1) }) s
  let away (i : Nat) : Bool := others.any (fun e => e.1 == i)
  let need := stageBlocks (h.stages.getD h.running default)
  let host := { clearBlocks x need x.blocks with
    blocks := min x.blocks need, inflight := x.inflight.filter (fun f => !away f.stage), cbuf := x.cbuf.filter (fun w => !away w.stage) }
  let h1 := place.foldl (fun h p => updStage h p.1.1 (fun t => { t with gid := p.2 })) h
  let h2 := { updStage h1 h.running (fun t => { t with gid := h.gid }) with folded := false }
  let h3 := { h2 with stages := h2.stages.map (fun t => { t with link := none, linkPoi := [] }) }
  poolWrite (setChain (s1.setGrp h.gid host) c h3) h.core

/-- Slots and blocks for every window (R254). -/
def spreadRoom (s : State) (h : Chain) : Bool :=
  h.stages.length - 1 ≤ (freeSlots s h.core).length && sumBlocks h.stages ≤ poolFree s h.core + (s.grp h.gid).blocks

/-- The chain's group stands at a trailer of the running stage, or is parked: at a trailer, or at a word that waits. -/
def spreadStands (x : Group) : Bool := (x.life == .ready && betweenRuns x) || x.life == .parked || x.life == .waiting

/-- CHAIN_SPREAD (R254, R255). -/
def chainSpreadStep (s : State) (c : Nat) : State :=
  let h := s.chains.get c
  let x := s.grp h.gid
  let go (s : State) : Option State := if spreadRoom s h then (fillLinks s h h.stages).map (fun s => spreadChain s c) else none
  match h.wants.find? (fun w => w.on && !w.fold) with
  | some w =>
    if !h.folded then resolveWant s c w 1
    else if !spreadStands x then s
    else if !stagePlain x then resolveWant s c w 2
    else match go s with
      | none => resolveWant s c w 3
      | some s1 => resolveWant s1 c w 0
  | none =>
    if !h.live || !h.folded || h.noSpread || !spreadStands x || !stagePlain x then s
    else (go s).getD s
def execChainSpread (c : Nat) (s : State) : Out := .next (chainSpreadStep s c)

/-- The action of the scheduler that has a chain's groups held at their trailers until the switch is decided (R255). -/
def holdChain (s : State) (c : Nat) (fold : Bool) : State :=
  let h := s.chains.get c
  if h.live && h.folded != fold && !(if fold then h.noFold else h.noSpread) && !h.wants.any (fun w => w.tag == 0) then
    setChain s c { h with wants := h.wants ++ [⟨fold, 0, 0, true⟩] }
  else s

-- ===== the exit of a stage (R248) =====

/-- A record of kind 7: a completion step that could not be made (R389). -/
def lostStep (s : State) (ctx : Nat) (t : Trap) (step : Nat) (pos : BitVec 64) : State :=
  pushRecord s ctx (BitVec.ofNat 64 (7 + 2 ^ 8 * t.cause + 2 ^ 16 * step)) t.addr pos

/-- A close of one side of a link: one write of QCTL. -/
def closeLink (s : State) (h : Chain) (outq : BitVec 64) (bit : BitVec 64) : State :=
  if outq = 0 then s
  else match checkAddr s h.ctx h.sup .store false (outq + 0x18) 8 with
    | .error t => lostStep s h.ctx t 2 h.desc
    | .ok xl => hWrite s xl.key (xl.pa / 64) (entBytes xl.pa 8 (hWord s xl.key xl.pa ||| bit).toNat) false

/-- The arrival of a chain whose stages have all exited. -/
def chainArrive (s : State) (h : Chain) : State :=
  if h.bar = 0 then s
  else match checkAddr s h.ctx h.sup .store false h.bar 64 with
    | .error t => lostStep s h.ctx t 3 h.desc
    | .ok xl => arriveBal s xl.key xl.pa 1 0xFF

/-- Stage `i` of a chain exits, its writes released (R248). -/
def stageEnd (s : State) (g c i : Nat) : State :=
  let h := s.chains.get c
  let s1 := releaseAt s g .dev
  let s2 := closeLink s1 h (if i = 0 then 0 else (h.stages.getD (i - 1) default).outq) 0x2000000000#64
  let s3 := closeLink s2 h (h.stages.getD i default).outq 0x1000000000#64
  let h1 := updStage h i (fun t => { t with exited := true })
  let s4 := setChain s3 c h1
  if h1.stages.all (·.exited) then { chainArrive s4 h1 with chains := s4.chains.del c } else s4

/-- The requests of a stage that exits are refused. -/
def dropWants (s : State) (c i : Nat) : State :=
  ((s.chains.get c).wants.filter (fun w => w.tag != 0 && w.stage == i)).foldl (fun s w => resolveWant s c w 2) s

/-- The end of a group, by exit or by termination: the stages that it carries exit first. A folded chain goes on with its highest remaining stage
when only the running one has exited. -/
def endGroup (s : State) (g : Nat) (whole : Bool) : State :=
  match (s.grp g).chain with
  | none => removeGroup s g
  | some (c, i) =>
    let h := s.chains.get c
    let s1 := if whole then (if h.folded then (liveStages h).foldl (fun s e => stageEnd s g c e.1) s else stageEnd s g c i) else stageEnd s g c i
    let rest := liveStages (s1.chains.get c)
    if h.folded && !whole && !rest.isEmpty then
      let j := (rest.reverse.headD (0, default)).1
      let x := s1.grp g
      (setChain s1 c { (s1.chains.get c) with running := j }).setGrp g
        (loadStage { x with life := .ready, run := none } c j (rest.reverse.headD (0, default)).2.st)
    else removeGroup s1 g

end Sys2Proof.Machine
end

