-- ==== Sys2Proof/Machine/Branch.lean ====
section
/-!
DEFINITION. Control transfers (R95 to R103), the return stacks and their spill area (R104 to R106), and the trailer (R69, R94).
-/

namespace Sys2Proof.Machine

-- ===== decided transfers =====

/-- The address that a word offset names (R96). -/
def branchTo (x : Group) (off : BitVec 33) : BitVec 64 := runPc x + 8 * off.signExtend 64

/-- The transfer of a run is decided at the word and applied at the trailer (R95). -/
def decideXfer (s : State) (g : Nat) (f : Xfer → Xfer) : State :=
  s.updGrp g (fun x => updRs x (fun r => { r with xfer := { f r.xfer with decided := true } }))

/-- Lanes with one target, priority and depth. -/
def jumpAll (m : BitVec 32) (pc : BitVec 64) (prio depth : Nat) : List (Nat × (BitVec 64 × Nat × Nat)) := (lanes m).map (fun l => (l, pc, prio, depth))

def decideJumps (s : State) (g : Nat) (js : List (Nat × (BitVec 64 × Nat × Nat))) : State := decideXfer s g (fun f => { f with jump := js })

/-- BRA (R96). -/
def braBody (msk : Msk) (prio : BitVec 12) (off : BitVec 33) (s : State) (g : Nat) : Eff :=
  let x := s.grp g
  .done (decideJumps s g (jumpAll (liveOf x msk) (branchTo x off) prio.toNat (runEnt x).depth))
def execBra (msk : Msk) (prio : BitVec 12) (off : BitVec 33) (s : State) : Out := issue (.bra msk prio off) (braBody msk prio off) s

/-- The condition of BRM (R97). -/
def brmHolds (x : Group) (cond : BitVec 2) (msk : Msk) : Bool :=
  let live := liveOf x msk
  match cond.toNat with
  | 0 => true
  | 1 => live != 0
  | 2 => live == active x
  | _ => live == 0

/-- BRM (R97): every active lane transfers, or none. -/
def brmBody (cond : BitVec 2) (msk : Msk) (prio : BitVec 12) (off : BitVec 33) (s : State) (g : Nat) : Eff :=
  let x := s.grp g
  .done (decideJumps s g (if brmHolds x cond msk then jumpAll (active x) (branchTo x off) prio.toNat (runEnt x).depth else []))
def execBrm (cond : BitVec 2) (msk : Msk) (prio : BitVec 12) (off : BitVec 33) (s : State) : Out :=
  issue (.brm cond msk prio off) (brmBody cond msk prio off) s

-- ===== return stacks (R104 to R106) =====

/-- A return entry: PRIO and PCW. -/
def retEntry (pc : BitVec 64) (prio : Nat) : BitVec 64 := BitVec.ofNat 64 (prio % 2 ^ 12 * 2 ^ 52 + field pc 3 52)
def retPc (e : BitVec 64) : BitVec 64 := BitVec.ofNat 64 (field e 0 52 * 8)
def retPrio (e : BitVec 64) : Nat := field e 52 12

/-- The spill slot of level `j` of a lane (R105). -/
def spillSlot (x : Group) (j l : Nat) : BitVec 64 := x.spr.stkBase + BitVec.ofNat 64 (256 * (j - 1) + 8 * l)

/-- The checks of one slot (R106). -/
def checkSlot (s : State) (x : Group) (k : Acc) (j l : Nat) : Except Trap LaneAcc :=
  match checkAddr s x.ctx x.sup k false (spillSlot x j l) 8 with
  | .error t => .error t
  | .ok xl => .ok ⟨l, spillSlot x j l, xl, 8, .zero⟩

/-- A call to depth `d` has no room (R106). -/
def stackFull (x : Group) (d : Nat) : Bool := 65536 ≤ d || (5 ≤ d && x.spr.stkLimit.toNat < x.spr.stkBase.toNat + 256 * (d - 4))

/-- The level that leaves a lane's on-chip stack: the oldest of its four. -/
def spilled (x : Group) (l : Nat) : PV := ⟨(x.rstk.get l).getD 3 0, false⟩

/-- The spill stores of a call: relaxed stores at group scope. -/
def spillStores (s : State) (g : Nat) (as : List LaneAcc) (k : State → Eff) : Eff :=
  let d := spilled (s.grp g)
  if as.isEmpty then k s
  else if inCompat s (s.grp g) then
    match compatStores s g false .grp .rlx as d id with
    | .done s1 => k s1
    | e => e
  else k (enqueueStores s g false .grp .rlx as d)

/-- The return entry joins the lanes' stacks. -/
def pushRet (x : Group) (ls : List Nat) (e : BitVec 64) : Group :=
  { x with rstk := ls.foldl (fun st l => st.set l ((e :: st.get l).take 4)) x.rstk }

/-- A call of lanes with their targets (R98, R99): the return entry is the word after the trailer with the trailer's priority. -/
def callLanes (tg : List (Nat × BitVec 64)) (prio : Nat) (s : State) (g : Nat) : Eff :=
  let x := s.grp g
  let d := (runEnt x).depth + 1
  let ls := tg.map (·.1)
  if tg.isEmpty then .done (decideJumps s g [])
  else if stackFull x d then .trap s ⟨cStack, 0⟩
  else orTrap s (fetchWord s x (runPc x + 8)) fun w =>
    orTrap s (if d < 5 then .ok [] else firstTrap (ls.map (checkSlot s x .store (d - 4)))) fun as =>
      spillStores s g as fun s1 =>
        let s2 := s1.updGrp g (fun x => pushRet x ls (retEntry (runPc x + 16) (w.extractLsb' 40 12).toNat))
        .done (decideJumps s2 g (tg.map (fun t => (t.1, t.2, prio, d))))

/-- CALL (R98). -/
def callBody (msk : Msk) (prio : BitVec 12) (off : BitVec 33) (s : State) (g : Nat) : Eff :=
  let x := s.grp g
  callLanes ((lanes (liveOf x msk)).map (fun l => (l, branchTo x off))) prio.toNat s g
def execCall (msk : Msk) (prio : BitVec 12) (off : BitVec 33) (s : State) : Out := issue (.call msk prio off) (callBody msk prio off) s

/-- CALLI (R99): a poisoned target, then a misaligned one. -/
def calliBody (msk : Msk) (r : Opd) (s : State) (g : Nat) : Eff :=
  let x := s.grp g
  let tg := (lanes (liveOf x msk)).map (fun l => (l, opVal x .i64 r l))
  if tg.any (fun t => t.2.poi) then .trap s (poisonAt 0)
  else match tg.find? (fun t => field t.2.val 0 3 != 0) with
    | some t => .trap s ⟨cAlign, t.2.val⟩
    | none => callLanes (tg.map (fun t => (t.1, t.2.val))) 0xFFF s g
def execCalli (msk : Msk) (r : Opd) (s : State) : Out := issue (.calli msk r) (calliBody msk r) s

/-- The refill of a lane as a load: relaxed, at group scope (R105). -/
def slotOp (a : LaneAcc) : MemOp := loadOp a 0 0 0 0 .grp .rlx false

/-- The state once the slots have been read: the earlier operations of the group have performed (R162), and see `compatSeen`. -/
def slotsSeen (s : State) (g : Nat) (as : List LaneAcc) : State :=
  if as.isEmpty then s
  else as.foldl (fun s a => compatSeen s g (slotOp a)) (as.foldl (fun s a => passClash s g a.xl.key (a.xl.pa / 64)) (performAll s g))

/-- The content of a spill slot as its lane reads it (R105, R183). -/
def slotBytes (s : State) (g : Nat) (a : LaneAcc) : List Byte × Bool :=
  let bs := compatBytes s g (slotOp a) a.xl.pa a.n
  (bs.map (·.1), bs.any (·.2))

/-- The first lane whose slot is poisoned (R106). -/
def slotPoison (s : State) (g : Nat) (as : List LaneAcc) : Option Trap :=
  (as.find? (fun a => (slotBytes s g a).2)).map (fun a => poisonAt a.va)

/-- A lane's stack after a pop, with the level that comes back from its slot. -/
def popRet (s : State) (g : Nat) (as : List LaneAcc) (st : List (BitVec 64)) (l : Nat) : List (BitVec 64) :=
  match as.find? (fun a => a.lane == l) with
  | some a => ((st ++ List.replicate 4 0).take 4).drop 1 ++ [BitVec.ofNat 64 (ofBytes (slotBytes s g a).1)]
  | none => st.drop 1

/-- RET (R100, R105): at depth 0 it traps whatever lanes are live (log 32). -/
def retBody (msk : Msk) (s : State) (g : Nat) : Eff :=
  let x := s.grp g
  let d := (runEnt x).depth
  let ls := lanes (liveOf x msk)
  if d = 0 then .trap s ⟨cStack, 0⟩
  else if ls.isEmpty then .done (decideJumps s g [])
  else orTrap s (if d < 5 then .ok [] else firstTrap (ls.map (checkSlot s x .load (d - 4)))) fun as =>
    let s1 := slotsSeen s g as
    match slotPoison s1 g as with
    | some t => .trap s1 t
    | none =>
      let top (l : Nat) : BitVec 64 := (x.rstk.get l).headD 0
      let s2 := s1.updGrp g (fun x => { x with rstk := ls.foldl (fun m l => m.set l (popRet s1 g as (m.get l) l)) x.rstk })
      .done (decideJumps s2 g (ls.map (fun l => (l, retPc (top l), retPrio (top l), d - 1))))
def execRet (msk : Msk) (s : State) : Out := issue (.ret msk) (retBody msk) s

-- ===== EXIT, YIELD, TRAP, BRK =====

/-- EXIT (R101): a quantum boundary (R184). -/
def exitBody (msk : Msk) (s : State) (g : Nat) : Eff :=
  atQuantum s g fun s => .done (decideXfer s g (fun f => { f with exits := liveOf (s.grp g) msk }))
def execExit (msk : Msk) (s : State) : Out := issue (.exit msk) (exitBody msk) s

/-- YIELD (R102). -/
def yieldBody (msk : Msk) (s : State) (g : Nat) : Eff := .done (decideXfer s g (fun f => { f with yield := liveOf (s.grp g) msk != 0 }))
def execYield (msk : Msk) (s : State) : Out := issue (.yield msk) (yieldBody msk) s

/-- TRAP and BRK (R103). -/
def softTrap (cause : Nat) (msk : Msk) (n : BitVec 33) (s : State) (g : Nat) : Eff :=
  if liveOf (s.grp g) msk = 0 then .done s else .trap s ⟨cause, n.signExtend 64⟩
def execTrap (msk : Msk) (n : BitVec 33) (s : State) : Out := issue (.trap msk n) (softTrap cSw msk n) s
def execBrk (msk : Msk) (n : BitVec 33) (s : State) : Out := issue (.brk msk n) (softTrap cBrk msk n) s

-- ===== the trailer (R69, R94) =====

/-- The frontier after the trailer of a run: the transfer's insertions, then the fall-through entry. An ERET takes the place of both (R383). -/
def trailerFrontier (x : Group) (prio : Nat) : Group :=
  let e := runEnt x
  let f := (runState x).xfer
  let y := { x with run := none, yielded := f.yield }
  match f.eret with
  | some next => eretReturn y next e.mask
  | none =>
    let y1 := f.jump.foldl (fun y j => insert y { pc := j.2.1, prio := j.2.2.1, depth := j.2.2.2, mask := bitOf j.1 }) y
    let y2 := insert y1 { pc := runPc x + 8, prio := prio, depth := e.depth, mask := e.mask &&& ~~~f.exits &&& ~~~maskOf (f.jump.map (·.1)) }
    { y2 with rstk := (lanes f.exits).foldl (fun st l => st.set l []) y2.rstk }

/-- The group leaves: its results in flight complete first, then it ends (R101). While one of them cannot, the trailer waits in the state `s0`. -/
def leaveGroup (s0 s : State) (g : Nat) : State :=
  let s1 := match (s.grp g).chain with
    | some (c, i) => dropWants s c i
    | none => s
  let s2 := performAll s1 g
  if allReady s2 g then endGroup (returnAll s2 g) g false else s0

/-- A folded chain whose run has passed control switches its stage (R251). -/
def passControl (s : State) (g : Nat) (to' : Option Nat) : State :=
  match (s.grp g).chain, to' with
  | some (c, _), some j => if (s.chains.get c).folded then switchStage s g c j else s
  | _, _ => s

/-- A YIELD with a live lane loads the budget counter anew; like its other effect this one comes at the trailer (R102, R345, log 32). -/
def reloadBudget (s : State) (x : Group) : Group := if x.yielded && x.budgeted then { x with budget := sliceBudget s x } else x

/-- Steps 3 to 5 of R69; the hint Y marks a safe point (R363). -/
def endRun (s0 : State) (safe : Bool) (prio : Nat) (s : State) (g : Nat) : Eff :=
  let y := trailerFrontier (s.grp g) prio
  if y.frontier.isEmpty then .moved (leaveGroup s0 (s.setGrp g y) g)
  else .moved (passControl (markWants (s.setGrp g { reloadBudget s y with life := .ready, safe := safe }) g) g (runState (s.grp g)).pass)

/-- The codes of a trailer's names. -/
def nameCodes (ns : List (Option Opd)) : List Nat := ns.filterMap (fun n => n.map (fun o => o.code.toNat))

/-- TRL (R69): the wait for the named results, the validation of an open transaction (R199), the flush and the quantum boundary, and the end of the
run. A switch of form that the stage has asked for acts at this trailer, also while it waits for that result (R256). -/
def trlBody (y f q : Bool) (prio : BitVec 12) (ns : List (Option Opd)) (s : State) (g : Nat) : Eff :=
  let x := s.grp g
  let wait := (nameCodes ns).filter (pending x)
  if !wait.isEmpty then .moved (markWants (s.setGrp g { x with life := .parked, parkNames := wait }) g)
  else if x.tx.act && !txValid s x then .moved (conflictEnd s g)
  else
    let s1 := if f && !x.roundDone then (flushRedo s g).2 else s
    if q then atQuantum s1 g (fun t => endRun s y prio.toNat t g) else endRun s y prio.toNat s1 g
def execTrl (y f q : Bool) (prio : BitVec 12) (n0 n1 n2 n3 : Option Opd) (s : State) : Out :=
  issue (.trl y f q prio n0 n1 n2 n3) (trlBody y f q prio [n0, n1, n2, n3]) s

-- ===== ERET (R383) =====

/-- ERET: decided at the word, it takes effect at the trailer. -/
def eretBody (next : Bool) (s : State) (g : Nat) : Eff :=
  let x := s.grp g
  if !inHandler x || active x != (unexited x &&& handlerLanes x) then .trap s ⟨cIllegal, 0⟩
  else .done (decideXfer s g (fun f => { f with eret := some next }))
def execEret (next : Bool) (s : State) : Out := issue (.eret next) (eretBody next) s

-- ===== TLBI (R158) =====

/-- Whether a kept translation is among those that a TLBI names: for one page, those of its 512 MiB region, which hold every page size and set that
can cover the address. -/
def tlbiHits (kind ctx : Nat) (va : BitVec 64) (c vpn : Nat) : Bool :=
  match kind with
  | 0 => c == ctx && vpn / 8192 == va.toNat / 2 ^ 29
  | 1 => c == ctx
  | _ => true

/-- The copies, engine operations, ranks of collectives, and loads and saves of compartments, that have translated pages which a TLBI names. -/
def tlbiWaits (s : State) (kind ctx : Nat) (va : BitVec 64) : List WaitOn :=
  let hit (c : Nat) (xl : List (Nat × Leaf)) : Bool := xl.any (fun e => tlbiHits kind ctx va c e.1)
  let ls := s.comps.filterMap (fun e => match e.2.loading with | some l => if hit l.ctx l.xl then some (.load e.1) else none | none => none)
  let ss := s.comps.filterMap (fun e => match e.2.saving with | some l => if hit e.2.grant l.xl then some (.save e.1) else none | none => none)
  [.copies ((s.copies.filter (fun c => hit c.ctx c.xl)).map (·.id)), .engine ((s.engines.flatMap (fun e => e.2.filter (fun n => hit n.ctx n.xl))).map (·.id)),
   .ranks ((s.ranks.filter (fun r => !r.done && hit r.ctx r.xl)).map (·.id))] ++ ls ++ ss

/-- TLBI: the group's earlier writes, its changes of entries among them, reach home first (log 10); kept translations go; the result returns when what
had translated before has completed; launch queues found unusable are looked at again in every context (R341). -/
def tlbi (kind ctx : Nat) (va : BitVec 64) (d : Opd) (s0 : State) (g : Nat) : State :=
  let s := releaseAt s0 g .dev
  let s1 := { s with tlb := s.tlb.filter (fun e => !tlbiHits kind ctx va e.ctx e.vpn),
                     ctxs := s.ctxs.map (fun e => (e.1, { e.2 with badq := e.2.badq.map (fun b => { b with again := true }) })) }
  flightNow s1 g d [(0, ⟨0, false⟩)] 0 (tlbiWaits s kind ctx va)

def tlbiPageBody (d a : Opd) (c : BitVec 6) (s : State) (g : Nat) : Eff :=
  orTrap s (addrOf (s.grp g) a) fun va => .done (tlbi 0 c.toNat va d s g)
def execTlbiPage (d a : Opd) (c : BitVec 6) (s : State) : Out := issue (.tlbiPage d a c) (tlbiPageBody d a c) s
def execTlbiCtx (d : Opd) (c : BitVec 6) (s : State) : Out := issue (.tlbiCtx d c) (fun s g => .done (tlbi 1 c.toNat 0 d s g)) s
def execTlbiAll (d : Opd) (s : State) : Out := issue (.tlbiAll d) (fun s g => .done (tlbi 2 0 0 d s g)) s

-- ===== words that are not instructions (R74 to R77) =====

/-- A word that is not an instruction: its checks end in UNASSIGNED, so that it has no further effect. -/
def execUnassignedWord (w : BitVec 64) (s : State) : Out := issue (.unassignedWord w) (fun s _ => .trap s ⟨cUnassigned, 0⟩) s

/-- A word of MAJ 0x00: its checks end in ILLEGAL. -/
def execIllegalWord (w : BitVec 64) (s : State) : Out := issue (.illegalWord w) (fun s _ => .trap s ⟨cIllegal, 0⟩) s

end Sys2Proof.Machine
end

