-- ==== Sys2Proof/Machine/Compare.lean ====
section
/-!
DEFINITION. The compare and mask family (R116 to R120).
-/

namespace Sys2Proof.Machine

/-- ICMP's conditions (R116). -/
def icmpCond (w c a b : Nat) : Bool :=
  let x := toInt w false a
  let y := toInt w false b
  match c with
  | 0 => a == b
  | 1 => a != b
  | 2 => x < y
  | 3 => y ≤ x
  | 4 => a < b
  | 5 => b ≤ a
  | 6 => x ≤ y
  | _ => y < x

/-- FCMP's conditions and NV (R116). -/
def fcmpCond (ff : FF) (c a b : Nat) : Bool × BitVec 5 :=
  let x := ff.decode a
  let y := ff.decode b
  let sig := flagIf (x.isSig || y.isSig) fNV
  if x.isNan || y.isNan then
    match c with
    | 0 => (false, sig)
    | 1 => (true, sig)
    | 6 => (true, sig)
    | 7 => (false, sig)
    | _ => (false, fNV)
  else
    let o := x.cmp y
    (match c with
      | 0 => o == .eq
      | 1 => o != .eq
      | 2 => o == .lt
      | 3 => o != .gt
      | 4 => o == .gt
      | 5 => o != .lt
      | 6 => false
      | _ => true, 0)

/-- All ones or zero in a sub-element. -/
def onesIf (w : Nat) (c : Bool) : Nat := if c then 2 ^ w - 1 else 0

def icmpFn (shp : Shape) (c : Nat) (_x : Group) (r : BitVec 32) (a b _c : Nat) : SubRes :=
  ⟨onesIf shp.width (icmpCond shp.width c a b), 0, r⟩
def fcmpFn (shp : Shape) (c : Nat) (_x : Group) (r : BitVec 32) (a b _c : Nat) : SubRes :=
  let v := fcmpCond (shapeFF shp) c a b
  ⟨onesIf shp.width v.1, v.2, r⟩

/-- A compare: into v, s, k or indirect registers element-wise; into a mask one bit for each live lane, set when the condition holds in every
computed sub-element (R116). -/
def compare (shp : Shape) (msk : Msk) (d : Opd) (rt : Route) (f : Group → BitVec 32 → Nat → Nat → Nat → SubRes) (o : Group → Nat → Ops3)
    (s : State) (g : Nat) : Eff :=
  match d with
  | .m n =>
    let x := s.grp g
    let ls := lanes (liveOf x msk)
    if ls.any (fun l => (o x l).poi) then .trap s (poisonAt 0)
    else
      let os := ls.map (elemLane x shp rt (f x) (o x))
      let hit := maskOf ((os.filter (fun p => p.w.val == p.w.care)).map (fun p => p.w.lane))
      let old := mreg x n.toNat
      .done (orFlags (s.setGrp g (setMreg x n.toNat ((old &&& ~~~liveOf x msk) ||| hit))) g (outFlags os))
  | _ => elemF shp msk d rt f o s g

def execIcmp (f : FmtA) (s : State) : Out :=
  issue (.icmp f) (compare f.shp f.msk f.d f.rt (icmpFn f.shp f.fam.toNat) (fun x => opsA x f true false)) s
def execIcmpI (f : FmtI) (s : State) : Out :=
  issue (.icmpI f) (compare f.shp f.msk f.d .elem (icmpFn f.shp (f.imm.extractLsb' 24 3).toNat) (fun x => opsI x f (immInt f.shp 24 f.imm.toNat) false)) s
def execFcmp (f : FmtA) (s : State) : Out :=
  issue (.fcmp f) (compare f.shp f.msk f.d f.rt (fcmpFn f.shp f.fam.toNat) (fun x => opsA x f true false)) s
def execFcmpI (f : FmtI) (s : State) : Out :=
  issue (.fcmpI f) (compare f.shp f.msk f.d .elem (fcmpFn f.shp (f.imm.extractLsb' 24 3).toNat) (fun x => opsI x f (immFp f.shp 24 f.imm.toNat) false)) s

/-- SEL: the selector's bit of the lane chooses A or B whole, its poison with it (R117). -/
def selBody (shp : Shape) (msk : Msk) (d : Opd) (rt : Route) (j : Nat) (a b : Group → Nat → PV) (s : State) (g : Nat) : Eff :=
  let x := s.grp g
  let w := shp.width
  let one (l : Nat) : LaneOut :=
    let takeA := (mreg x j).getLsbD l
    let p := if takeA then a x l else b x l
    let val := (written shp rt).map (fun i => (i, subOf w (if takeA then routeA rt i else routeB rt i) p.val.toNat))
    laneOut shp l p.poi 0 ⟨val, 0, 0⟩
  .done (commitF s g d ((workLanes x msk d).map one))

def execSel (f : FmtA) (s : State) : Out :=
  issue (.sel f) (selBody f.shp f.msk f.d f.rt f.fam.toNat (fun x l => opVal x f.shp f.a l) (fun x l => opVal x f.shp f.b l)) s
def execSelI (f : FmtI) (s : State) : Out :=
  issue (.selI f) (selBody f.shp f.msk f.d .elem (f.imm.extractLsb' 24 3).toNat (fun x l => opVal x f.shp f.a l)
    (fun _ _ => ⟨immInt f.shp 24 f.imm.toNat, false⟩)) s

/-- What a source of MOP or MMOV supplies, of which bits [31:0] are its mask (R118). These words have no shape: an integer constant supplies the
integer, and an FP constant its FP64 value as the table of R61 holds it (log 33). -/
def maskSrc (x : Group) (o : Opd) : PV :=
  match o with
  | .fc c => ⟨BitVec.ofNat 64 (fpConst c.toNat), false⟩
  | o => opVal x .i64 o 0

/-- Writing a mask's bits of live lanes. -/
def putMask (s : State) (g : Nat) (d : Opd) (live v : BitVec 32) : State :=
  match d with
  | .m n => s.updGrp g (fun x => setMreg x n.toNat ((mreg x n.toNat &&& ~~~live) ||| (v &&& live)))
  | _ => s

/-- MOP (R118). -/
def mopBody (msk : Msk) (d : Opd) (q : Nat) (a b : Group → PV) (s : State) (g : Nat) : Eff :=
  let x := s.grp g
  let live := liveOf x msk
  if live = 0 then .done s
  else if (a x).poi || (q != 4 && (b x).poi) then .trap s (poisonAt 0)
  else
    let va := (a x).val.setWidth 32
    let vb := (b x).val.setWidth 32
    let v := match q with
      | 0 => va &&& vb
      | 1 => va ||| vb
      | 2 => va ^^^ vb
      | 3 => va &&& ~~~vb
      | _ => ~~~va
    .done (putMask s g d live v)

def execMop (f : FmtA) (s : State) : Out := issue (.mop f) (mopBody f.msk f.d f.fam.toNat (maskSrc · f.a) (maskSrc · f.b)) s
def execMopI (f : FmtI) (s : State) : Out :=
  issue (.mopI f) (mopBody f.msk f.d (f.imm.extractLsb' 24 3).toNat (maskSrc · f.a) (fun _ => ⟨immInt .i64 24 f.imm.toNat, false⟩)) s

/-- MCNT: a count, the first set bit, or the rank, over the live lanes of a mask (R119). -/
def mcntBody (msk : Msk) (d a : Opd) (q : Nat) (s : State) (g : Nat) : Eff :=
  let x := s.grp g
  let live := liveOf x msk
  let m := (maskSrc x a).val.setWidth 32 &&& live
  let val (l : Nat) : Nat :=
    match q with
    | 0 => popc32 m
    | 1 => match lanes m with
      | [] => 32
      | k :: _ => k
    | _ => ((lanes m).filter (· < l)).length
  .done (writeLanes s g d ((lanes live).map (fun l => { lane := l, val := BitVec.ofNat 64 (val l) })))

def execMcnt (f : FmtA) (s : State) : Out := issue (.mcnt f) (mcntBody f.msk f.d f.a f.fam.toNat) s
def execMcntI (f : FmtI) (s : State) : Out := issue (.mcntI f) (mcntBody f.msk f.d f.a (f.imm.extractLsb' 24 3).toNat) s

/-- MMOV: between masks and registers (R120). -/
def mmovBody (msk : Msk) (d a : Opd) (q : Nat) (s : State) (g : Nat) : Eff :=
  let x := s.grp g
  let live := liveOf x msk
  match q with
  | 0 =>
    let p := maskSrc x a
    if live = 0 then .done s else if p.poi then .trap s (poisonAt 0) else .done (putMask s g d live (p.val.setWidth 32))
  | 1 => .done (writeLanes s g d ((lanes live).map (fun l => { lane := l, val := (maskSrc x a).val })))
  | 2 =>
    let ps := (lanes live).map (fun l => (l, opVal x .i64 a l))
    if ps.any (·.2.poi) then .trap s (poisonAt 0)
    else .done (putMask s g d live (maskOf ((ps.filter (fun p => p.2.val != 0)).map (·.1))))
  | _ => .done (writeLanes s g d ((lanes live).map (fun l => { lane := l, val := if (maskSrc x a).val.getLsbD l then 1 else 0 })))

def execMmov (f : FmtA) (s : State) : Out := issue (.mmov f) (mmovBody f.msk f.d f.a f.fam.toNat) s
def execMmovI (f : FmtI) (s : State) : Out := issue (.mmovI f) (mmovBody f.msk f.d f.a (f.imm.extractLsb' 24 3).toNat) s

end Sys2Proof.Machine
end

