-- ==== Sys2Proof/Machine/Copy.lean ====
section
/-!
DEFINITION. Copies (R155 to R157, R177): CPY, DRAIN, and the steps of a copy in flight.
-/

namespace Sys2Proof.Machine

/-- The fields of a copy descriptor (R155). -/
def copyOf (ws : List (BitVec 64)) : Copy :=
  let c := wordAt ws 2
  { src := wordAt ws 0, dst := wordAt ws 1, dec := flag c 8, dshp := field c 9 4, dkind := field c 2 2, skind := field c 0 2,
    rows := field (wordAt ws 3) 32 32, rowlen := field (wordAt ws 3) 0 32, spitch := wordAt ws 4, dpitch := wordAt ws 5 }

/-- The shape of a decoding copy's destination: codes 5..8. -/
def dshpOf (n : Nat) : Shape := if n = 5 then .f64 else if n = 6 then .f32x2 else if n = 7 then .f16x4 else .bf16x4

/-- Refused descriptors (R156), but for the size limit of a decoding copy, which depends on the page. Values that R155 gives no meaning count as
reserved: a DSHP other than 0 without DEC, and more than 65535 rows (log 34). -/
def copyBad (ws : List (BitVec 64)) (c : Copy) : Bool :=
  field (wordAt ws 2) 13 51 != 0 || field (wordAt ws 2) 4 4 != 0 || wordAt ws 6 != 0 || wordAt ws 7 != 0 || 1 < c.skind || c.dkind == 3 ||
  (c.dec && (c.dshp < 5 || 8 < c.dshp)) || (!c.dec && c.dshp != 0) || c.rows == 0 || 65535 < c.rows || (c.skind == 1 && (c.dkind == 0 || c.dec)) ||
  (!c.dec && 2 ^ 22 < c.rows * c.rowlen)

def srcRow (c : Copy) (r : Nat) : BitVec 64 := c.src + BitVec.ofNat 64 r * c.spitch
def dstRow (c : Copy) (r : Nat) : BitVec 64 := c.dst + BitVec.ofNat 64 r * c.dpitch
/-- Bytes of a destination row. -/
def dstLen (c : Copy) : Nat := if c.dec then c.rowlen * ((dshpOf c.dshp).width / 8) else c.rowlen

/-- A range of a team's shared store (R149). -/
def sharedSpan (s : State) (tid : Nat) (o : BitVec 64) (n : Nat) : Except Trap (List (Nat × Leaf)) :=
  if n ≠ 0 && 4096 * (s.teams.get tid).shm < o.toNat + n then
    .error ⟨cProt, if 4096 * (s.teams.get tid).shm ≤ o.toNat then o else BitVec.ofNat 64 (4096 * (s.teams.get tid).shm)⟩
  else .ok []

-- ===== decoding rows =====

/-- Elements of a unit (R30, R141). -/
def unitElems (w : Nat) : Option Nat → Nat
  | none => 65536 * 8 / w
  | some l => (unitOf w l).2 * l

/-- The first element of a decoding row within its unit; none where the address is not the first byte of an element (R142). -/
def rowElem (w : Nat) (va : BitVec 64) : Option Nat :=
  if 8 * (va.toNat % 65536) % w = 0 then some (8 * (va.toNat % 65536) / w) else none

/-- Units that a row of `n` elements enters from element `j` of its first unit. -/
def rowUnits (ue j n : Nat) : Nat := (j + n + ue - 1) / ue

/-- The check of a decoding row: its units, all with one FMT and BG; INT4 does not decode to `f64` (R142). -/
def decRowCheck (s : State) (x : Group) (va : BitVec 64) (n dshp : Nat) (first : Option (Nat × Nat)) : Except Trap (List (Nat × Leaf)) :=
  if n = 0 then .ok []
  else match checkAddr s x.ctx x.sup .load false va 1 with
  | .error t => .error t
  | .ok xl =>
    match pageFmt s xl.leaf with
    | none => .error ⟨cFormat, va⟩
    | some (f, bl) =>
      if (first.isSome && first != some (xl.leaf.fmt, xl.leaf.bg)) || (dshp = 5 && xl.leaf.fmt = 14) then .error ⟨cFormat, va⟩
      else match rowElem f.width va with
      | none => .error ⟨cAlign, va⟩
      | some j =>
        let ue := unitElems f.width bl
        if ue ≤ j then .error ⟨cFormat, va⟩
        else
          let base := va.toNat / 65536 * 65536
          firstErr ((List.range (rowUnits ue j n)).map (fun k =>
            let a := if k = 0 then va else BitVec.ofNat 64 (base + 65536 * k)
            match checkAddr s x.ctx x.sup .load false a 1 with
            | .error t => .error t
            | .ok y => if y.leaf.fmt = xl.leaf.fmt && y.leaf.bg = xl.leaf.bg then .ok [(a.toNat / 65536, y.leaf)] else .error ⟨cFormat, a⟩))

/-- One decoded element of a row, with the poison of its lines, read at H. -/
def decElem (s : State) (xl : List (Nat × Leaf)) (dshp : Shape) (f : EF) (fmt : Nat) (bl : Option Nat) (base e : Nat) : Nat × Bool :=
  let ue := unitElems f.width bl
  let va := base + 65536 * (e / ue)
  let lf := leafIn xl va
  let key := keyIx s lf.key
  let bit := f.width * (e % ue)
  let pa := lf.pa + bit / 8
  let raw := hNat s key pa ((bit % 8 + f.width + 7) / 8) / 2 ^ (bit % 8) % 2 ^ f.width
  let sp := match bl with
    | some l => some (lf.pa + (unitOf f.width l).1 * (unitOf f.width l).2 + e % ue / l)
    | none => none
  let v : Val := match sp with
    | some p => if fmtScaled fmt then (decScaled f (hByte s key p).toNat raw).1 else f.decode raw
    | none => f.decode raw
  (((shapeFmt dshp false).encode .rne false 0 v).1,
    hPoiSpan s pa ((bit % 8 + f.width + 7) / 8) || (match sp with | some p => hPoi s (p / 64) | none => false))

/-- A decoding row's bytes, each with its poison. -/
def decRow (s : State) (c : Copy) (r : Nat) : List (Byte × Bool) :=
  let va := (srcRow c r).toNat
  let lf := leafIn c.xl va
  match pageFmt s lf with
  | none => []
  | some (f, bl) =>
    let j := 8 * (va % 65536) / f.width
    let n := (dshpOf c.dshp).width / 8
    (List.range c.rowlen).flatMap (fun i =>
      let e := decElem s c.xl (dshpOf c.dshp) f lf.fmt bl (va / 65536 * 65536) (j + i)
      (toBytes n e.1).map (fun b => (b, e.2)))

-- ===== CPY =====

/-- The checks of every row: source, then destination (R156). -/
def copyCheck (s : State) (x : Group) (c : Copy) : Except Trap (List (Nat × Leaf)) :=
  let first : Option (Nat × Nat) := if c.dec then
      match checkAddr s x.ctx x.sup .load false c.src 1 with
      | .ok y => some (y.leaf.fmt, y.leaf.bg)
      | .error _ => none
    else none
  firstErr ((List.range (if c.rowlen = 0 then 0 else c.rows)).flatMap (fun r =>
    [if c.skind = 1 then sharedSpan s x.tid (srcRow c r) c.rowlen
     else if c.dec then decRowCheck s x (srcRow c r) c.rowlen c.dshp first
     else checkSpan s x.ctx x.sup .load (srcRow c r) c.rowlen,
     if c.dkind = 0 then sharedSpan s x.tid (dstRow c r) (dstLen c) else checkSpan s x.ctx x.sup .store (dstRow c r) (dstLen c)]))

/-- The size limit of a decoding copy: its source bytes by its pages' element width. -/
def decTooBig (s : State) (x : Group) (c : Copy) : Bool :=
  c.dec && (match checkAddr s x.ctx x.sup .load false c.src 1 with
    | .ok y => match pageFmt s y.leaf with
      | some (f, _) => 2 ^ 22 * 8 < c.rows * c.rowlen * f.width
      | none => false
    | .error _ => false)

/-- CPY (R156, R177): a release, the checks, and a copy in flight. -/
def cpyBody (a : Opd) (s : State) (g : Nat) : Eff :=
  let s0 := performAll s g
  let x := s0.grp g
  orTrap s (addrOf x a) fun va =>
  let s1 := seenRange s0 g va 64
  orTrap s1 (readDesc s1 g va 64 64) fun ws =>
  let c := copyOf ws
  if copyBad ws c || decTooBig s1 x c then .trap s1 ⟨cQueueDesc, va⟩
  else orTrap s1 (copyCheck s1 x c) fun xl =>
    let s2 := releaseAt s1 g (if c.skind = 1 then .team else .dev)
    let r := freshId s2
    .done { r.2 with copies := r.2.copies ++ [{ c with id := r.1, core := coreOf g, ctx := x.ctx, tid := x.tid, gid := g, xl := xl }] }
def execCpy (a : Opd) (s : State) : Out := issue (.cpy a) (cpyBody a) s

-- ===== a copy in flight =====

/-- A row's bytes, each with its poison: as they stand at H, or in the team's shared store. -/
def copyRowBytes (s : State) (c : Copy) (r : Nat) : List (Byte × Bool) :=
  let a := srcRow c r
  if c.skind = 1 then
    let t := s.teams.get c.tid
    (List.range c.rowlen).map (fun i => (t.sh.get (a.toNat + i), t.shPoi.get ((a.toNat + i) / 8)))
  else if c.dec then decRow s c r
  else (pieces a.toNat c.rowlen).flatMap (fun p =>
    let pa := paIn c.xl p.1
    let key := keyIx s (leafIn c.xl p.1).key
    (List.range p.2).map (fun i => (hByte s key (pa + i), hPoi s ((pa + i) / 64))))

/-- The bits of a line's offsets. -/
def covBits (bs : SMap (Option Byte)) : BitVec 64 := bs.foldl (fun m b => m ||| (1#64 <<< b.1)) 0

/-- Bytes of a destination row in the team's shared store by word: word, bytes by offset, poison (R149). -/
def wordPieces : Nat → Nat → List (Byte × Bool) → List (Nat × SMap (Option Byte) × Bool)
  | 0, _, _ => []
  | _ + 1, _, [] => []
  | n + 1, a, bs =>
    let h := bs.take (8 - a % 8)
    (a / 8, (List.range h.length).map (fun i => (a % 8 + i, some (h.getD i (0, false)).1)), h.any (·.2)) ::
      wordPieces n (a / 8 * 8 + 8) (bs.drop (8 - a % 8))

/-- Pieces of a destination row by line, or by shared word: line, key, bytes by offset, poison. -/
def rowPieces (s : State) (c : Copy) (r : Nat) (bs : List (Byte × Bool)) : List (Nat × Nat × SMap (Option Byte) × Bool) :=
  let a := (dstRow c r).toNat
  if c.dkind = 0 then (wordPieces bs.length a bs).map (fun p => (p.1, 0, p.2.1, p.2.2))
  else
  let spans := pieces a bs.length
  spans.flatMap (fun p =>
    let pa := paIn c.xl p.1
    let key := keyIx s (leafIn c.xl p.1).key
    let part := (bs.drop (p.1 - a)).take p.2
    (splitLines pa (part.map (·.1))).filterMap (fun l =>
      if l.2.isEmpty then none
      else some (l.1, key, l.2, l.2.any (fun b => (part.getD (64 * l.1 + b.1 - pa) (0, false)).2))))

/-- A copy's writes to one line, or shared word, count as one write (R152): the piece that completes its cover with clean bytes clears the mark. A mark
that comes later stays (log 34). -/
def clearCovered (s : State) (c : Copy) (line : Nat) (before now : BitVec 64) (bad : Bool) : State :=
  let full : BitVec 64 := if c.dkind = 0 then 0xFF#64 else 0xFFFFFFFFFFFFFFFF#64
  if now != full || before == full || bad || alarmed s then s
  else if c.dkind = 0 then { s with teams := s.teams.upd c.tid (fun t => { t with shPoi := t.shPoi.set line false }) }
  else { s with h := { s.h with poi := s.h.poi.set line false } }

/-- One piece of a row is written. -/
def copyPiece (s : State) (c : Copy) (p : Nat × Nat × SMap (Option Byte) × Bool) : State × Copy :=
  let (line, key, bs, poi) := p
  let cov := c.cov.get line ||| covBits bs
  let bad := poi || c.bad.get line
  let s1 := if c.dkind = 0 then shWord s c.tid line bs bad else hSend s (dieOfCore c.core) key line bs bad
  (clearCovered s1 c line (c.cov.get line) cov bad, { c with cov := c.cov.set line cov, bad := if bad then c.bad.set line true else c.bad })

/-- Poisoned source lines of a row that come from another die mark the boundaries on their way to the copy's core (R7, R391). -/
def copyCrossed (s : State) (c : Copy) (r : Nat) : State :=
  if c.skind = 1 then s
  else (pieces (srcRow c r).toNat (if c.dec then 0 else c.rowlen)).foldl (fun s p => arrives s (dieOfCore c.core) (paIn c.xl p.1) p.2)
    (if c.dec && (copyRowBytes s c r).any (·.2) then crossed s (homeDie (paIn c.xl (srcRow c r).toNat)) (dieOfCore c.core) true else s)

/-- The next row of a copy. -/
def copyStep (s : State) (c : Copy) : State × Copy :=
  let r := (rowPieces s c c.row (copyRowBytes s c c.row)).foldl (fun r p => copyPiece r.1 r.2 p) (copyCrossed s c c.row, c)
  (r.1, { r.2 with row := c.row + 1 })

def setCopy (s : State) (c : Copy) : State := { s with copies := s.copies.map (fun d => if d.id == c.id then c else d) }

/-- The rows left of a copy. -/
def copyRows : Nat → State → Copy → State × Copy
  | 0, s, c => (s, c)
  | n + 1, s, c => let r := copyStep s c; copyRows n r.1 r.2

/-- The action that copies one row. -/
def copyRowAct (s : State) (id : Nat) : State :=
  match s.copies.find? (fun c => c.id == id) with
  | none => s
  | some c => if c.rowlen = 0 || c.rows ≤ c.row then s else let r := copyStep s c; setCopy r.1 r.2

/-- COPY_COMPLETE: the rest of the copy is written and it completes (R156, R157). -/
def completeCopy (s : State) (id : Nat) : State :=
  match s.copies.find? (fun c => c.id == id) with
  | none => s
  | some c =>
    let r := if c.rowlen = 0 then (s, c) else copyRows (c.rows - c.row) s c
    reapTeam { r.1 with copies := r.1.copies.filter (fun d => d.id != id),
                        poiLines := r.1.poiLines ++ r.2.bad.map (fun e => (c.core, c.dkind, c.id, if c.dkind = 0 then c.tid * 2 ^ 32 + e.1 else e.1)) }
      c.tid
def execCopyComplete (id : Nat) (s : State) : Out := .next (completeCopy s id)

-- ===== DRAIN =====

/-- DRAIN (R157): waits for the copies of its kinds that the core accepted before. -/
def drainBody (d : Opd) (mem : BitVec 3) (s : State) (g : Nat) : Eff :=
  let x := s.grp g
  let ids := (s.copies.filter (fun c => c.core == coreOf g && mem.toNat / 2 ^ c.dkind % 2 == 1)).map (·.id)
  let r := freshId s
  .done (launchFlight r.2 g { tag := r.1, regs := [opCode x d], waits := [.copies ids], drainKinds := mem.toNat })
def execDrain (d : Opd) (mem : BitVec 3) (s : State) : Out := issue (.drain d mem) (drainBody d mem) s

end Sys2Proof.Machine
end

