-- ==== Sys2Proof/Machine/Tile.lean ====
section
/-!
DEFINITION. Tiles (R257 to R264): headers, granules and room, the engine's arithmetic (R273) on FP32 values, parameter blocks (R269, R270) and
operand maps (R265 to R268), and the words MXACQ, MXREL, MXISS, MXRANK, MXRD, MXWR (R280 to R285).
-/

namespace Sys2Proof.Machine

-- ===== arithmetic (R47, R273) =====

/-- A computation that gathers the flags of its roundings. -/
abbrev FM := StateM (BitVec 5)
def noteFl (r : α × BitVec 5) : FM α := do
  modify (fun f => f ||| r.2)
  return r.1

/-- f(x) of R273: one rounding into FP32. -/
def f32 (r : Val × BitVec 5) : FM Val := do
  let x ← noteFl r
  let y ← noteFl (FF.fp32.round .rne false 0 x)
  return FF.fp32.decode y
def one32 : Val := .ofInt 1
def bits32 (x : Val) : BitVec 32 := BitVec.ofNat 32 (FF.fp32.round .rne false 0 x).1
def val32 (b : BitVec 32) : Val := FF.fp32.decode b.toNat

/-- f(a·x + b·y) with exact products. -/
def lin32 (a x b y : Val) : FM Val := do
  let p ← noteFl (a.mul x)
  let q ← noteFl (b.mul y)
  f32 (p.add .rne q)
def mul32 (a b : Val) : FM Val := f32 (a.mul b)
def div32 (a b : Val) : FM Val := f32 (a.div b)
def sqrt32 (a : Val) : FM Val := f32 a.sqrt

/-- The exact sum of one chunk of products (R47): a NaN, or infinities of both signs, give a NaN. -/
def sumChunk (ps : List Val) : Val × BitVec 5 :=
  let up := ps.any (fun p => p.isInf && !p.neg?)
  let dn := ps.any (fun p => p.isInf && p.neg?)
  if ps.any (·.isNan) then (.nan false, flagIf (up && dn) fNV)
  else if up && dn then (.nan false, fNV)
  else if up then (.inf false, 0)
  else if dn then (.inf true, 0)
  else (ps.foldl (fun a p => (a.add .rne p).1) (.zero false), 0)

/-- One chunk of products added to an accumulator, with one rounding (R47). -/
def addChunk (acc : Val) (xs ys : List Val) : FM Val := do
  let ps ← (xs.zip ys).mapM (fun p => noteFl (p.1.mul p.2))
  let c ← noteFl (sumChunk ps)
  f32 (acc.add .rne c)

/-- dot of R273: chunks of 32 from +0. -/
def dotFrom (acc : Val) : Nat → List Val → List Val → FM Val
  | 0, _, _ => return acc
  | n + 1, xs, ys =>
    if xs.isEmpty || ys.isEmpty then return acc
    else do
      let a ← addChunk acc (xs.take 32) (ys.take 32)
      dotFrom a n (xs.drop 32) (ys.drop 32)
def dot (xs ys : List Val) : FM Val := dotFrom (.zero false) (xs.length / 32 + 1) xs ys

-- ===== tiles (R257, R258) =====

/-- Granules occupied. -/
def Tile.gran (t : Tile) : Nat := if t.dense then 8 else (t.rank + 3) / 4

/-- The header of R258. -/
def Tile.header (t : Tile) : BitVec 64 :=
  let b (x : Bool) (n : Nat) : Nat := if x then 2 ^ n else 0
  BitVec.ofNat 64 (t.nextk % 2 ^ 16 * 2 ^ 48 + t.fblk % 2 ^ 15 * 2 ^ 33 + b t.tok 31 + b t.res 30 + b t.poi 29 + b t.int 28 +
    (if t.dense then 1 else 2) * 2 ^ 26 + t.flt % 4 * 2 ^ 24 + t.gran * 2 ^ 16 + (if t.dense then 0 else t.rank % 32))

/-- A list of 32-bit elements as stored. -/
def store32 (xs : List (BitVec 32)) : SMap (BitVec 32) := ((List.range xs.length).zip xs).filter (fun e => e.2 != 0)

/-- Row `i` of a dense tile, column `l` of U, row `l` of V, as bits. -/
def Tile.denseRow (t : Tile) (i : Nat) : List (BitVec 32) := (List.range 64).map (fun j => t.d.get (64 * i + j))
def Tile.uCol (t : Tile) (l : Nat) : List (BitVec 32) := (List.range 64).map (fun i => t.u.get (64 * l + i))
def Tile.vRow (t : Tile) (l : Nat) : List (BitVec 32) := (List.range 64).map (fun j => t.v.get (64 * l + j))
def Tile.uBits (t : Tile) : List (List (BitVec 32)) := (List.range t.rank).map t.uCol
def Tile.vBits (t : Tile) : List (List (BitVec 32)) := (List.range t.rank).map t.vRow
def Tile.uCols (t : Tile) : List (List Val) := t.uBits.map (·.map val32)
def Tile.vRows (t : Tile) : List (List Val) := t.vBits.map (·.map val32)

/-- The transpose of a list of `n`-entry lists. -/
def columns (n : Nat) (m : List (List Val)) : List (List Val) := (List.range n).map (fun j => m.map (fun r => r.getD j default))

/-- Row `i` of a firn tile's value (R257). -/
def Tile.firnRow (t : Tile) (i : Nat) : FM (List (BitVec 32)) := do
  let u := (t.uCols).map (fun c => c.getD i default)
  (columns 64 t.vRows).mapM (fun v => do return bits32 (← dot u v))

/-- All 64 rows of a tile's value as bits; dense bits are as they are. -/
def Tile.rows (t : Tile) : FM (List (List (BitVec 32))) :=
  (List.range 64).mapM (fun i => if t.dense then (return t.denseRow i : FM _) else t.firnRow i)

/-- Contents: a dense one from its rows, a firn one from the columns of U and the rows of V. -/
def denseOf (rows : List (List (BitVec 32))) (int : Bool) : Tile := { dense := true, int := int, d := store32 rows.flatten }
def firnOf (us vs : List (List (BitVec 32))) : Tile := { rank := us.length, u := store32 us.flatten, v := store32 vs.flatten }
def firnVals (us vs : List (List Val)) : Tile := firnOf (us.map (·.map bits32)) (vs.map (·.map bits32))

/-- A tile takes the content of another and keeps its own token and header fields. -/
def Tile.take (t c : Tile) : Tile := { t with dense := c.dense, int := c.int, rank := c.rank, d := c.d, u := c.u, v := c.v }

/-- Room for a new content of tile `z` (R259). -/
def roomFor (t : Team) (z need : Nat) (src : Bool) : Bool :=
  let others := ((List.range 16).filter (· != z)).foldl (fun n i => n + (t.tiles.get i).gran) 0
  others + need + (if src then (t.tiles.get z).gran else 0) ≤ t.quota

/-- A write to a team's tile line (R262). -/
def setTile (s : State) (tid z : Nat) (x : Tile) : State :=
  { s with teams := s.teams.upd tid (fun t => { t with tiles := t.tiles.set z x, tlPos := t.tlPos + 1 }) }

-- ===== parameter blocks (R269, R270) =====

def blkOpc (w : BitVec 64) : Nat := field w 60 4
def blkDz (w : BitVec 64) : Nat := field w 56 4
def blkAz (w : BitVec 64) : Nat := field w 52 4
def blkBz (w : BitVec 64) : Nat := field w 48 4
def blkGlb (w : BitVec 64) : Bool := flag w 35
def blkFirn (w : BitVec 64) : Bool := flag w 34
def blkSub (w : BitVec 64) : Bool := flag w 33
def blkAcc (w : BitVec 64) : Bool := flag w 32
def blkK (w : BitVec 64) : Nat := field w 0 21

/-- Whether an operation has a DZ, an AZ, a BZ (R270). -/
def hasDz (o : Nat) : Bool := o != 7
def hasAz (o : Nat) : Bool := 2 ≤ o && o != 6
def hasBz (o : Nat) : Bool := o == 2 || o == 3

/-- The tiles that an operation names. -/
def namedTiles (w : BitVec 64) : List Nat :=
  let o := blkOpc w
  (if hasDz o then [blkDz w] else []) ++ (if hasAz o then [blkAz w] else []) ++ (if hasBz o then [blkBz w] else [])

/-- The flags of word 0 that an opcode uses. -/
def flagUsed (o i : Nat) : Bool :=
  match i with
  | 35 => o == 6 || o == 7
  | 34 => o == 0 || o == 6 || o == 7
  | 33 => o == 2
  | _ => o == 1

/-- What R269 and R277 refuse in the words of a block. -/
def blockRefused (ws : List (BitVec 64)) : Bool :=
  let w := wordAt ws 0
  let o := blkOpc w
  8 < o || field w 40 8 != 0 || field w 36 4 != 0 || field w 21 11 != 0 ||
  (!hasDz o && blkDz w != 0) || (!hasAz o && blkAz w != 0) || (!hasBz o && blkBz w != 0) ||
  [35, 34, 33, 32].any (fun i => flag w i && !flagUsed o i) ||
  (if o = 1 then blkK w = 0 || 2 ^ 20 < blkK w else blkK w != 0) ||
  (blkGlb w && blkFirn w) || ((o = 6 || o = 7) && blkGlb w && field (wordAt ws 3) 16 48 != 0) ||
  (o = 6 && blkFirn w && field (wordAt ws 4) 5 59 != 0)

/-- The maps that an operation uses: offsets, and their number of places across the fixed 64 (R266); none stands for an extent that only the
execution knows (R267 check 4). -/
def blockMaps (ws : List (BitVec 64)) : List (Nat × Option Nat) :=
  let w := wordAt ws 0
  let a := field (wordAt ws 1) 32 32
  let b := field (wordAt ws 1) 0 32
  match blkOpc w with
  | 1 => [(a, some (blkK w)), (b, some (blkK w))]
  | 6 => if blkGlb w then [] else if blkFirn w then [(a, some (field (wordAt ws 4) 0 5)), (b, some (field (wordAt ws 4) 0 5))] else [(a, some 64)]
  | 7 => if blkGlb w then [] else if blkFirn w then [(a, none), (b, none)] else [(a, some 64)]
  | _ => []

-- ===== operand maps (R265, R266) =====

/-- A map's fields. -/
structure OMap where
  base : Nat
  scale : Nat
  spitch : Nat
  pitch : Nat
  swz : Nat
  sp : Bool
  t : Bool
  bg : Nat
  fmt : Nat
  seed : BitVec 32
  deriving DecidableEq, Repr, Inhabited

def omapOf (ws : List (BitVec 64)) : OMap :=
  let w1 := wordAt ws 1
  let w2 := wordAt ws 2
  { base := field (wordAt ws 0) 0 21, scale := field w1 32 21, spitch := field w1 16 16, pitch := field w1 0 16, swz := field w2 12 4,
    sp := flag w2 11, t := flag w2 10, bg := field w2 5 3, fmt := field w2 0 5, seed := (wordAt ws 3).setWidth 32 }

def OMap.ef (m : OMap) : EF := (fmtOf? m.fmt).getD (.fp .fp32)
def OMap.blk (m : OMap) : Nat := (bgLen? m.bg).getD 32

/-- Shared-store address of byte `o` of a row (R266). -/
def OMap.byteAt (m : OMap) (row o : Nat) : Nat := m.base + row * m.pitch + (o ^^^ (row % 2 ^ m.swz * 16))
def OMap.scaleAt (m : OMap) (row e : Nat) : Nat := m.scale + row * m.spitch + e / m.blk

/-- Byte positions of element `e` of a row. -/
def OMap.elemBytes (m : OMap) (row e : Nat) : List Nat :=
  let w := m.ef.width
  (List.range ((w * e % 8 + w + 7) / 8)).map (fun i => m.byteAt row (w * e / 8 + i))

/-- Rows and elements of a row for a map whose variable side has `n` places. -/
def OMap.shape (m : OMap) (n : Nat) : Nat × Nat := if m.t then (n, 64) else (64, n)

/-- Whether a byte of the rows lies at or beyond a limit: in a row the greatest byte is among the last 256, the swizzle reaching no further. -/
def OMap.beyond (m : OMap) (n limit : Nat) : Bool :=
  let r := m.shape n
  let nb := (r.2 * m.ef.width + 7) / 8
  r.2 != 0 && ((List.range r.1).any (fun row =>
    (List.range (min nb 256)).any (fun i => limit ≤ m.byteAt row (nb - 1 - i)) ||
    (fmtScaled m.fmt && limit ≤ m.scaleAt row (r.2 - 1))))

/-- Check 2 of R267. -/
def OMap.refused (s : State) (ws : List (BitVec 64)) (m : OMap) : Bool :=
  field (wordAt ws 0) 21 43 != 0 || field (wordAt ws 1) 53 11 != 0 || field (wordAt ws 2) 16 48 != 0 || field (wordAt ws 2) 8 2 != 0 ||
  field (wordAt ws 3) 32 32 != 0 || 3 < m.swz || 14 < m.fmt || (fmtScaled m.fmt && 2 < m.bg) || ((m.sp || fmtScaled m.fmt) && m.t) ||
  (m.sp && !hasCap s 3)

/-- The pair of k positions that a group of four keeps (R268). -/
def sparsePair (seed : BitVec 32) (iota g : Nat) : Nat × Nat :=
  let x := seed ^^^ (BitVec.ofNat 32 iota * 0x9E3779B9#32) ^^^ (BitVec.ofNat 32 g * 0x85EBCA6B#32)
  let y := xorshift32 (xorshift32 (if x = 0 then 0x2545F491#32 else x))
  match y.toNat % 6 with
  | 0 => (0, 1) | 1 => (0, 2) | 2 => (0, 3) | 3 => (1, 2) | 4 => (1, 3) | _ => (2, 3)

-- ===== a team's shared store as the engine and MXISS read it =====

/-- A word of the shared store lies in a poisoned 8-byte unit. -/
def shPoisoned (t : Team) (off n : Nat) : Bool := (List.range ((off % 8 + n + 7) / 8)).any (fun i => t.shPoi.get (off / 8 + i))
def shWords (t : Team) (off n : Nat) : List (BitVec 64) :=
  (List.range n).map (fun i => BitVec.ofNat 64 (ofBytes ((List.range 8).map (fun j => t.sh.get (off + 8 * i + j)))))
def shLimit (t : Team) : Nat := 4096 * t.shm

-- ===== global rows (R277) =====

/-- Address of row `r`. -/
def glbRow (ws : List (BitVec 64)) (r : Nat) : BitVec 64 := wordAt ws 2 + BitVec.ofNat 64 r * BitVec.signExtend 64 ((wordAt ws 3).setWidth 16)

/-- A page as GLB takes it: FMT 0 stands for FP32. -/
def glbLeaf (l : Leaf) : Leaf := if l.fmt = 0 then { l with fmt := 1 } else l

/-- A part of a row that lies in one page: virtual address of its start, its leaf, first element in the unit, number of elements. -/
structure GlbPart where
  va : BitVec 64
  leaf : Leaf
  first : Nat
  n : Nat
  deriving DecidableEq, Repr, Inhabited

/-- The part of a row that starts at an address, of at most `n` elements, on a page that passes the checks of formats and places. -/
def glbPart (s : State) (l0 : Leaf) (va : BitVec 64) (n : Nat) : Except Trap GlbPart :=
  let l := glbLeaf l0
  match pageFmt s l with
  | none => .error ⟨cFormat, va⟩
  | some (f, bl) =>
    let bit := 8 * (va.toNat % 65536)
    let j := bit / f.width
    match bl with
    | some b =>
      if bit % f.width != 0 || j % b != 0 || unitElems f.width bl ≤ j then .error ⟨cFormat, va⟩
      else .ok ⟨va, l, j, min n (unitElems f.width bl - j)⟩
    | none => if bit % f.width != 0 then .error ⟨cAlign, va⟩ else .ok ⟨va, l, j, min n (unitElems f.width bl - j)⟩

/-- The parts of a row, with the leaf of each page by `look`. -/
def glbParts (s : State) (look : BitVec 64 → Except Trap Leaf) : Nat → BitVec 64 → Nat → Except Trap (List GlbPart)
  | 0, _, _ => .ok []
  | k + 1, va, n =>
    if n = 0 then .ok []
    else match look va with
      | .error t => .error t
      | .ok l => match glbPart s l va n with
        | .error t => .error t
        | .ok p => match glbParts s look k (BitVec.ofNat 64 (va.toNat / 65536 * 65536 + 65536)) (n - p.n) with
          | .error t => .error t
          | .ok r => .ok (p :: r)

/-- The checks of a row by R140 and R144 at the issuing group's level. -/
def glbCheckRow (s : State) (ctx : Nat) (sup : Bool) (ws : List (BitVec 64)) (r : Nat) : Except Trap (List GlbPart) :=
  let k : Acc := if blkOpc (wordAt ws 0) = 7 then .store else .load
  glbParts s (fun va => match checkAddr s ctx sup k false va 1 with | .error t => .error t | .ok x => .ok x.leaf) 4 (glbRow ws r) 64

/-- The parts of a row under kept translations. -/
def glbRowParts (s : State) (xl : List (Nat × Leaf)) (ws : List (BitVec 64)) (r : Nat) : List GlbPart :=
  match glbParts s (fun va => .ok (leafIn xl va.toNat)) 4 (glbRow ws r) 64 with
  | .ok ps => ps
  | .error _ => []

/-- An LDT whose pages mix FMT 13 with others: the first part that differs from the first (R277). -/
def glbMixed (o : Nat) (ps : List GlbPart) : Option Trap :=
  match ps with
  | [] => none
  | p :: r => if o != 6 then none else (r.find? (fun q => (q.leaf.fmt == 13) != (p.leaf.fmt == 13))).map (fun q => ⟨cFormat, q.va⟩)

/-- The translations of all rows. -/
def glbCheck (s : State) (ctx : Nat) (sup : Bool) (ws : List (BitVec 64)) : Except Trap (List (Nat × Leaf)) :=
  match firstTrap ((List.range 64).map (glbCheckRow s ctx sup ws)) with
  | .error t => .error t
  | .ok rs => match glbMixed (blkOpc (wordAt ws 0)) rs.flatten with
    | some t => .error t
    | none => .ok ((rs.flatten.map (fun p => (p.va.toNat / 65536, p.leaf))).eraseDups)

/-- The first row of a restored entry that fails (R367). -/
def glbFirstBad (s : State) (ctx : Nat) (sup : Bool) (ws : List (BitVec 64)) : Option Nat :=
  (List.range 64).find? (fun r => match glbCheckRow s ctx sup ws r with | .error _ => true | .ok _ => false)

-- ===== tokens (R261) =====

/-- A tile is BUSY: an accepted operation that names it has not completed. -/
def tileBusy (s : State) (tid z : Nat) : Bool :=
  s.engines.any (fun e => e.2.any (fun n => n.tid == tid && (namedTiles (wordAt n.words 0)).contains z)) ||
  (s.reentry.get tid).any (fun n => (namedTiles (wordAt n.words 0)).contains z)

-- ===== MXACQ, MXREL =====

def tidOf (s : State) (g : Nat) : Nat := (s.grp g).tid
def tileOf (s : State) (g z : Nat) : Tile := (s.teams.get (tidOf s g)).tiles.get z

/-- The fault that an MXACQ delivers (R281). -/
def fltCause (c : Nat) : Nat := if c = 1 then cRankOverflow else if c = 2 then cTileSpace else cPageFault

/-- The acquire of an MXACQ: the engine's writes count as the group's own (R178). -/
def mxAcquire (s : State) (g : Nat) : State :=
  let tid := tidOf s g
  let ls := (s.teams.get tid).engLines
  let s1 := dropClean (acquireAt s g .team) g 3 (fun e => ls.contains e.line)
  { s1 with teams := s1.teams.upd tid (fun t => { t with engLines := [] }) }

/-- MXACQ (R281). -/
def mxacqBody (d : Opd) (z : BitVec 4) (s : State) (g : Nat) : Eff :=
  let tid := tidOf s g
  let n := z.toNat
  let t := tileOf s g n
  if !t.tok && tileBusy s tid n then waitOn s g [.tiles (s.teams.get tid).tlPos]
  else
    let s1 := mxAcquire (setTile s tid n { t with tok := true }) g
    if t.flt != 0 then .trap (setTile s1 tid n { t with tok := true, flt := 0 }) ⟨fltCause t.flt, BitVec.ofNat 64 (64 * t.fblk)⟩
    else .done (flightNow s1 g d [(0, ⟨({ t with tok := true } : Tile).header, false⟩)] 0 [])
def execMxacq (d : Opd) (z : BitVec 4) (s : State) : Out := issue (.mxacq d z) (mxacqBody d z) s

/-- MXREL (R282). -/
def mxrelBody (drop : Bool) (z : BitVec 4) (s : State) (g : Nat) : Eff :=
  let t := tileOf s g z.toNat
  if t.tok then
    let u := if drop then { t.take {} with poi := false } else t
    .done (setTile s (tidOf s g) z.toNat { u with tok := false })
  else .done s
def execMxrel (drop : Bool) (z : BitVec 4) (s : State) : Out := issue (.mxrel drop z) (mxrelBody drop z) s

-- ===== MXISS (R267, R283) =====

/-- Check 1 of R267 for one map. -/
def mapCheck1 (t : Team) (off : Nat) : Option Trap :=
  if shLimit t < off + 32 then some ⟨cProt, BitVec.ofNat 64 off⟩
  else if off % 32 != 0 then some ⟨cAlign, BitVec.ofNat 64 off⟩
  else if shPoisoned t (off / 64 * 64) 64 then some ⟨cPoison, BitVec.ofNat 64 off⟩
  else none

/-- Check 3 of R267: the FMT of one map; TS8 needs its capability (R416). -/
def mapFmtBad (s : State) (mma : Bool) (m : OMap) : Bool := m.fmt < (if mma then 2 else 1) || 13 < m.fmt || (m.fmt = 12 && !hasCap s 4)
/-- The refused pairs of an MMA. -/
def mapPairBad (k : Nat) (a b : OMap) : Bool := ((a.fmt == 13) != (b.fmt == 13)) || (a.sp && b.sp) || ((a.sp || b.sp) && k % 4 != 0)

/-- The checks of every map, each check over all maps before the next (R267). Only an MMA reads half the places of a map with SP (R268). -/
def mapChecks (s : State) (t : Team) (ws : List (BitVec 64)) : Option Trap :=
  let mma : Bool := blkOpc (wordAt ws 0) == 1
  let ms : List (Nat × Option Nat) := blockMaps ws
  let at' (off : Nat) : List (BitVec 64) := shWords t off 4
  let bad (c : Nat) (off : Nat) : Trap := ⟨c, BitVec.ofNat 64 off⟩
  let extent (m : OMap) (n : Nat) : Bool := m.beyond (if mma && m.sp then n / 2 else n) (shLimit t)
  match ms.findSome? (fun m => mapCheck1 t m.1) with
  | some e => some e
  | none => match ms.find? (fun m => (omapOf (at' m.1)).refused s (at' m.1)) with
    | some m => some (bad cQueueDesc m.1)
    | none => match ms.find? (fun m => mapFmtBad s mma (omapOf (at' m.1))) with
      | some m => some (bad cFormat m.1)
      | none =>
        let pair : Bool := mma && match ms with
          | [a, b] => mapPairBad (blkK (wordAt ws 0)) (omapOf (at' a.1)) (omapOf (at' b.1))
          | _ => false
        if pair then some (bad cFormat (ms.headD (0, none)).1)
        else (ms.find? (fun m => match m.2 with | some n => extent (omapOf (at' m.1)) n | none => false)).map (fun m => bad cProt m.1)

/-- The entry that an accepted operation occupies (R272). -/
def engEntry (s : State) (g id blk : Nat) (ws : List (BitVec 64)) (xl : List (Nat × Leaf)) : EngEnt :=
  let x := s.grp g
  let t := s.teams.get x.tid
  let ms := blockMaps ws
  { id := id, tid := x.tid, ctx := x.ctx, sup := x.sup, blk := blk, words := ws,
    amap := match ms[0]? with | some m => shWords t m.1 4 | none => [],
    bmap := match ms[1]? with | some m => shWords t m.1 4 | none => [],
    tol := t.tol.setWidth 32, rcap := field t.rcap 0 5, dfall := flag t.tileMode 0, xl := xl }

/-- MXISS (R283). -/
def mxissBody (d a : Opd) (s : State) (g : Nat) : Eff :=
  let p := sval (s.grp g) a
  if p.poi then .trap s (poisonAt 0)
  else
    let s1 := releaseAt s g .team
    let t := s1.teams.get (tidOf s1 g)
    let off := p.val.toNat
    if off % 64 != 0 then .trap s1 ⟨cAlign, p.val⟩
    else if shLimit t < off + 64 then .trap s1 ⟨cProt, p.val⟩
    else if shPoisoned t off 64 then .trap s1 (poisonAt p.val)
    else
      let ws := shWords t off 5
      let x := s1.grp g
      if blockRefused ws then .trap s1 ⟨cQueueDesc, p.val⟩
      else match mapChecks s1 t ws with
        | some e => .trap s1 e
        | none => orTrap s1 (if blkGlb (wordAt ws 0) then glbCheck s1 x.ctx x.sup ws else .ok []) fun xl =>
          match (namedTiles (wordAt ws 0)).find? (fun z => (t.tiles.get z).tok) with
          | some z => .trap s1 ⟨cTileToken, BitVec.ofNat 64 z⟩
          | none =>
            let core := coreOf g
            if 16 ≤ (s1.engines.get core).length || !(s1.reentry.get x.tid).isEmpty then .done (flightNow s1 g d [(0, ⟨0, false⟩)] 0 [])
            else
              let r := freshId s1
              let e := engEntry s1 g r.1 off ws xl
              let s2 := { r.2 with engines := r.2.engines.upd core (· ++ [e]) }
              .done (flightNow s2 g d [(0, ⟨1, false⟩)] 0 [])
def execMxiss (d a : Opd) (s : State) : Out := issue (.mxiss d a) (mxissBody d a) s

-- ===== MXRANK =====

/-- MXRANK without `.set`: the header of a tile in any state (R284). -/
def mxrankBody (d : Opd) (z : BitVec 4) (s : State) (g : Nat) : Eff := .done (flightNow s g d [(0, ⟨(tileOf s g z.toNat).header, false⟩)] 0 [])
def execMxrank (d : Opd) (z : BitVec 4) (s : State) : Out := issue (.mxrank d z) (mxrankBody d z) s

/-- A firn tile of rank `v` that keeps the entries below its old rank (R284). -/
def rankSet (t : Tile) (v : Nat) : Tile :=
  let n := if t.dense then 0 else min t.rank v
  t.take { rank := v, u := t.u.filter (fun e => e.1 < 64 * n), v := t.v.filter (fun e => e.1 < 64 * n) }

/-- A tile as its dense value (R257), without its roundings' flags. -/
def densed (t : Tile) : Tile := if t.dense then t else t.take (denseOf ((t.rows).run 0).1 false)

/-- MXRANK.set (R263, R284). -/
def mxrankSetBody (d a : Opd) (z : BitVec 4) (s : State) (g : Nat) : Eff :=
  let n := z.toNat
  let tm := s.teams.get (tidOf s g)
  let t := tm.tiles.get n
  let p := sval (s.grp g) a
  let v := p.val.toNat
  let set (u : Tile) (need : Nat) : Eff :=
    if !roomFor tm n need false then .trap s ⟨cTileSpace, z.setWidth 64⟩
    else
      let s1 := setTile s (tidOf s g) n { u with poi := false }
      .done (flightNow s1 g d [(0, ⟨({ u with poi := false } : Tile).header, false⟩)] 0 [])
  if !t.tok then .trap s ⟨cTileToken, z.setWidth 64⟩
  else if p.poi then .trap s (poisonAt 0)
  else if 32 < v then .trap s ⟨cIllegal, 0⟩
  else if v = 32 then set (densed t) 8
  else if field tm.rcap 0 5 < v then (if flag tm.tileMode 0 then set (t.take (denseOf [] false)) 8 else .trap s ⟨cRankOverflow, z.setWidth 64⟩)
  else set (rankSet t v) ((v + 3) / 4)
def execMxrankSet (d a : Opd) (z : BitVec 4) (s : State) : Out := issue (.mxrankSet d a z) (mxrankSetBody d a z) s

-- ===== MXRD, MXWR (R285) =====

/-- Whether the part and index name a vector. -/
def vecValid (t : Tile) (p : TilePart) (x : Nat) : Bool :=
  match p with
  | .row => x ≤ 63
  | _ => !t.dense && x < t.rank

/-- The vector's elements as bits. -/
def vecOf (t : Tile) (p : TilePart) (x : Nat) : List (BitVec 32) :=
  match p with
  | .row => if t.dense then t.denseRow x else ((t.firnRow x).run 0).1
  | .u => t.uCol x
  | .v => t.vRow x

/-- POISON_INFO of a tile (R388). -/
def pinfoTile (z : Nat) : BitVec 64 := 0xC000000000000000#64 ||| BitVec.ofNat 64 z

/-- MXRD. -/
def mxrdBody (pt : TilePart) (d a : Opd) (z : BitVec 4) (s : State) (g : Nat) : Eff :=
  let x := s.grp g
  let t := tileOf s g z.toNat
  let p := sval x a
  if !t.tok then .trap s ⟨cTileToken, z.setWidth 64⟩
  else if p.poi then .trap s (poisonAt 0)
  else
    let v := if vecValid t pt p.val.toNat then vecOf t pt p.val.toNat else []
    let c := opCode x d
    let pair (l : Nat) : BitVec 64 := (v.getD (2 * l) 0).setWidth 64 ||| ((v.getD (2 * l + 1) 0).setWidth 64 <<< 32)
    let r := freshId s
    .done (launchFlight r.2 g { tag := r.1, regs := [c], writes := (lanes (active x)).map (fun l => ⟨c, l, ⟨pair l, t.poi⟩⟩),
                                pinfo := if t.poi then [(0, pinfoTile z.toNat)] else [] })
def execMxrd (pt : TilePart) (d a : Opd) (z : BitVec 4) (s : State) : Out := issue (.mxrd pt d a z) (mxrdBody pt d a z) s

/-- Pairs of elements written at a vector's place. -/
def putPairs (m : SMap (BitVec 32)) (base : Nat) (ds : List (Nat × BitVec 64)) : SMap (BitVec 32) :=
  ds.foldl (fun (m : SMap (BitVec 32)) e => SMap.set (SMap.set m (base + 2 * e.1) (e.2.setWidth 32)) (base + 2 * e.1 + 1) (e.2.extractLsb' 32 32)) m

/-- MXWR. -/
def mxwrBody (pt : TilePart) (d a : Opd) (z : BitVec 4) (s : State) (g : Nat) : Eff :=
  let x := s.grp g
  let tm := s.teams.get (tidOf s g)
  let t := tm.tiles.get z.toNat
  let p := sval x a
  let i := p.val.toNat
  let ls := lanes (active x)
  let ds := ls.map (fun l => (l, (opVal x .f32x2 d l).val))
  let poi := t.poi || ls.any (fun l => (opVal x .f32x2 d l).poi)
  if !t.tok then .trap s ⟨cTileToken, z.setWidth 64⟩
  else if p.poi then .trap s (poisonAt 0)
  else if !vecValid t pt i then .done s
  else match pt with
    | .row =>
      if !t.dense && !roomFor tm z.toNat 8 false then .trap s ⟨cTileSpace, z.setWidth 64⟩
      else
        let u := { densed t with int := t.int }
        .done (setTile s (tidOf s g) z.toNat { u with d := putPairs u.d (64 * i) ds, poi := poi })
    | .u => .done (setTile s (tidOf s g) z.toNat { t with u := putPairs t.u (64 * i) ds, poi := poi })
    | .v => .done (setTile s (tidOf s g) z.toNat { t with v := putPairs t.v (64 * i) ds, poi := poi })
def execMxwr (pt : TilePart) (d a : Opd) (z : BitVec 4) (s : State) : Out := issue (.mxwr pt d a z) (mxwrBody pt d a z) s

end Sys2Proof.Machine
end

