-- ==== Sys2Proof/Machine/Engine.lean ====
section
/-!
DEFINITION. The matrix engine (R272 to R279): the operations at the head of a core's queue, recompression, moves between tiles and memory, the
completion of an operation, and the stop and re-entry of a team's entries.
-/

namespace Sys2Proof.Machine

-- ===== operands in the shared store (R266, R268) =====

/-- An element read with its flags and poison. -/
structure ElemRead where
  val : Val
  flags : BitVec 5
  poi : Bool
  deriving DecidableEq, Repr, Inhabited

/-- Element `e` of a row (R28, R266). -/
def readElem (t : Team) (m : OMap) (row e : Nat) : ElemRead :=
  let w := m.ef.width
  let as := m.elemBytes row e
  let raw := ofBytes (as.map (fun a => t.sh.get a)) / 2 ^ (w * e % 8) % 2 ^ w
  let poi := as.any (fun a => t.shPoi.get (a / 8))
  if fmtScaled m.fmt then
    let a := m.scaleAt row e
    let v := decScaled m.ef (t.sh.get a).toNat raw
    ⟨v.1, v.2, poi || t.shPoi.get (a / 8)⟩
  else ⟨m.ef.decode raw, 0, poi⟩

/-- The element at fixed index `i` and variable index `k`: a row runs along the variable side with T clear (R266). -/
def readSide (t : Team) (m : OMap) (i k : Nat) : ElemRead := if m.t then readElem t m k i else readElem t m i k

/-- An operand of 64 by `n` places. -/
def readMat (t : Team) (m : OMap) (n : Nat) : List (List ElemRead) := (List.range 64).map (fun i => (List.range n).map (readSide t m i))

/-- An operand of an MMA by its fixed index and k; positions that seeded sparsity removes hold nothing (R268). -/
def readOperand (t : Team) (m : OMap) (n i : Nat) : List (Option ElemRead) :=
  (List.range n).map (fun k =>
    if m.sp then
      let p := sparsePair m.seed i (k / 4)
      if k % 4 = p.1 then some (readSide t m i (2 * (k / 4))) else if k % 4 = p.2 then some (readSide t m i (2 * (k / 4) + 1)) else none
    else some (readSide t m i k))

def poisoned (m : List (List ElemRead)) : Bool := m.any (fun r => r.any (·.poi))

-- ===== MMA (R275) =====

/-- The kept pairs of a range of k. -/
def keptPairs (xs ys : List (Option ElemRead)) : List (Val × Val) :=
  (xs.zip ys).filterMap (fun p => match p.1, p.2 with | some a, some b => some (a.val, b.val) | _, _ => none)

/-- The integer that a value of an INT8 element is. -/
def intOf : Val → Int
  | .fin neg m _ _ => if neg then -(m : Int) else m
  | _ => 0

/-- Chunks `c` to `c + n - 1` for one output. -/
def mmaCell (int : Bool) : Nat → BitVec 32 → List (Option ElemRead) → List (Option ElemRead) → FM (BitVec 32)
  | 0, acc, _, _ => return acc
  | n + 1, acc, xs, ys => do
    let ps := keptPairs (xs.take 32) (ys.take 32)
    let a ← if int then (return acc + BitVec.ofInt 32 (ps.foldl (fun z p => z + intOf p.1 * intOf p.2) 0) : FM _)
      else bits32 <$> addChunk (val32 acc) (ps.map (·.1)) (ps.map (·.2))
    mmaCell int n a (xs.drop 32) (ys.drop 32)

def mmaChunks (k : Nat) : Nat := (k + 31) / 32

/-- What a stretch of an MMA's chunks makes of DZ, and whether a poisoned byte took part (R275, R279). -/
def mmaRun (t : Team) (e : EngEnt) (dz : Tile) (from' n : Nat) : FM (Tile × Bool) := do
  let w := wordAt e.words 0
  let am := omapOf e.amap
  let bm := omapOf e.bmap
  let int := am.fmt == 13
  let cut (r : List (Option ElemRead)) : List (Option ElemRead) := (r.drop (32 * from')).take (32 * n)
  let as := (List.range 64).map (fun i => cut (readOperand t am (blkK w) i))
  let bs := (List.range 64).map (fun j => cut (readOperand t bm (blkK w) j))
  let all := ((as ++ bs).flatten).filterMap id
  let _ ← noteFl ((), all.foldl (fun f r => f ||| r.flags) 0)
  let start ← if blkAcc w || dz.res then dz.rows else (return List.replicate 64 (List.replicate 64 0) : FM _)
  let rows ← (as.zip start).mapM (fun r => (bs.zip r.2).mapM (fun c => mmaCell int n c.2 r.1 c.1))
  return (denseOf rows int, all.any (·.poi))

-- ===== ADD, MUL, DNS, SCL (R274, R276) =====

def negBits (b : BitVec 32) : BitVec 32 := b ^^^ 0x80000000#32

/-- Dense plus a firn tile: one chunk of products added to each dense element. -/
def addFirn (d : Tile) (us vs : List (List Val)) : FM Tile := do
  let ut := columns 64 us
  let vt := columns 64 vs
  let rows ← (List.range 64).mapM (fun i => do
    let u := ut.getD i []
    (vt.zip (d.denseRow i)).mapM (fun p => do return bits32 (← addChunk (val32 p.2) u p.1)))
  return denseOf rows false

/-- f(a ± b) element by element. -/
def addDense (a b : List (List (BitVec 32))) (sub : Bool) : FM Tile := do
  let rows ← (a.zip b).mapM (fun r => (r.1.zip r.2).mapM (fun p => do
    return bits32 (← lin32 one32 (val32 p.1) (if sub then one32.negate else one32) (val32 p.2))))
  return denseOf rows false

def addTiles (a b : Tile) (sub : Bool) : FM Tile := do
  if !a.dense && !b.dense then
    return firnOf (a.uBits ++ (if sub then b.uBits.map (·.map negBits) else b.uBits)) (a.vBits ++ b.vBits)
  else if b.dense && (a.dense || sub) then addDense (← a.rows) (← b.rows) sub
  else if a.dense then addFirn a (if sub then b.uCols.map (·.map Val.negate) else b.uCols) b.vRows
  else addFirn b a.uCols a.vRows

def dots (xs ys : List (List Val)) : FM (List (List Val)) := xs.mapM (fun x => ys.mapM (fun y => dot x y))

/-- The form that R276 gives a product: a factor taken over keeps its bits, a factor formed by dot is new. -/
def mulTiles (a b : Tile) : FM Tile := do
  let fresh (m : List (List Val)) : List (List (BitVec 32)) := m.map (·.map bits32)
  let dense (t : Tile) : List (List Val) := (List.range 64).map (fun i => (t.denseRow i).map val32)
  if a.dense && b.dense then
    let m ← dots (dense a) (columns 64 (dense b))
    return denseOf (m.map (·.map bits32)) false
  else if a.dense then return firnOf (fresh (← dots b.uCols (dense a))) b.vBits
  else if b.dense then return firnOf a.uBits (fresh (← dots a.vRows (columns 64 (dense b))))
  else do
    let p ← dots a.vRows b.uCols
    if a.rank ≤ b.rank then return firnOf a.uBits (fresh (← dots p (columns 64 b.vRows)))
    else return firnOf (fresh (← dots (columns b.rank p) (columns 64 a.uCols))) b.vBits

def sclTile (a : Tile) (x : Val) : FM Tile := do
  let row (r : List (BitVec 32)) : FM (List (BitVec 32)) := r.mapM (fun b => do return bits32 (← mul32 (val32 b) x))
  if a.dense then return denseOf (← (List.range 64).mapM (fun i => row (a.denseRow i))) false
  else return firnOf (← a.uBits.mapM row) a.vBits

-- ===== recompression (R278) =====

/-- A reflector: none where there is no reflection. -/
abbrev Refl := Option (List Val × Val)

/-- One reflection of a column from its row `j` on. -/
def reflect (h : List Val × Val) (j : Nat) (y : List Val) : FM (List Val) := do
  let w ← mul32 h.2 (← dot h.1 (y.drop j))
  let r ← ((y.drop j).zip h.1).mapM (fun p => lin32 one32 p.1 w.negate p.2)
  return y.take j ++ r

/-- The reflector of column `j`, and the diagonal entry after it. -/
def reflector (x : List Val) (j : Nat) : FM (Refl × Val) := do
  let a := x.getD j default
  let rest := x.drop (j + 1)
  let s ← dot rest rest
  if s.isZero then return (none, a)
  else do
    let mu ← sqrt32 (← lin32 a a one32 s)
    let beta := if !a.neg? || a.isZero then mu.negate else mu
    let v1 ← lin32 one32 a one32.negate beta
    let v ← rest.mapM (fun y => div32 y v1)
    let tau ← f32 ((beta.add .rne a.negate).1.div beta)
    return (some (one32 :: v, tau), beta)

/-- qr of R278 on the columns from `j` on: the rows of R as columns' entries, and the reflectors. -/
def qrFrom : Nat → Nat → List (List Val) → FM (List (List Val) × List Refl)
  | _, _, [] => return ([], [])
  | 0, _, _ => return ([], [])
  | n + 1, j, x :: xs => do
    let h ← reflector x j
    let ys ← match h.1 with
      | none => (return xs : FM _)
      | some r => xs.mapM (reflect r j)
    let row := List.replicate j (Val.zero false) ++ [h.2] ++ ys.map (fun c => c.getD j default)
    let r ← qrFrom n (j + 1) ys
    return (row :: r.1, h.1 :: r.2)
def qr (x : List (List Val)) : FM (List (List Val) × List Refl) := qrFrom x.length 0 x

/-- applyQ of R278: the reflectors in descending order on a vector extended by zeros. -/
def applyFrom : List (Nat × Refl) → List Val → FM (List Val)
  | [], y => return y
  | (j, h) :: r, y => do
    let z ← applyFrom r y
    match h with
    | none => return z
    | some f => reflect f j z
def applyQ (hs : List Refl) (y : List Val) : FM (List Val) :=
  applyFrom ((List.range hs.length).zip hs) (y ++ List.replicate (64 - y.length) (Val.zero false))

/-- The rotation of one pair of columns: c and s, none where their product is zero. -/
def rotation (p q : List Val) : FM (Option (Val × Val)) := do
  let a ← dot p p
  let b ← dot q q
  let g ← dot p q
  if g.isZero then return none
  else do
    let d ← lin32 one32 b one32.negate a
    let z ← div32 d (← mul32 (Val.ofInt 2) g)
    let rt ← sqrt32 (← lin32 one32 one32 z z)
    let t ← div32 (if z.neg? && !z.isZero then one32.negate else one32) (← f32 (z.abs.add .rne rt))
    let c ← div32 one32 (← sqrt32 (← lin32 one32 one32 t t))
    let s ← mul32 c t
    return some (c, s)

/-- A rotation of columns `p` and `q` of a matrix of columns. -/
def rotate (m : List (List Val)) (p q : Nat) (c s : Val) : FM (List (List Val)) := do
  let x := m.getD p []
  let y := m.getD q []
  let x1 ← (x.zip y).mapM (fun e => lin32 c e.1 s.negate e.2)
  let y1 ← (x.zip y).mapM (fun e => lin32 s e.1 c e.2)
  return (m.set p x1).set q y1

/-- The sweeps over pairs of columns of M, with W. -/
def sweepPairs : List (Nat × Nat) → List (List Val) × List (List Val) → FM (List (List Val) × List (List Val))
  | [], mw => return mw
  | (p, q) :: r, mw => do
    match ← rotation (mw.1.getD p []) (mw.1.getD q []) with
    | none => sweepPairs r mw
    | some (c, s) => sweepPairs r (← rotate mw.1 p q c s, ← rotate mw.2 p q c s)
def pairsOf (r : Nat) : List (Nat × Nat) := (List.range r).flatMap (fun p => ((List.range r).filter (p < ·)).map (fun q => (p, q)))

/-- An index placed by descending sigma, ties after those that stand. -/
def placeSigma (sg : List Val) (j : Nat) : List Nat → List Nat
  | [] => [j]
  | i :: r => if (sg.getD i default).cmp (sg.getD j default) = .lt then j :: i :: r else i :: placeSigma sg j r

/-- RCMP (R278): the result and OUT. -/
def rcmpTile (a : Tile) (tol : BitVec 32) : FM (Tile × Nat) := do
  if a.dense || a.rank = 0 then return (a, 0)
  else if (a.uCols ++ a.vRows).any (fun c => c.any (fun x => x.isNan || x.isInf)) then return (a, 4)
  else do
    let u ← qr a.uCols
    let v ← qr a.vRows
    let m ← dots v.1 u.1            -- column j of M: its entries by row i
    let w := (List.range a.rank).map (fun j => (List.range a.rank).map (fun i => if i = j then one32 else Val.zero false))
    let mw ← sweepPairs ((List.replicate 6 (pairsOf a.rank)).flatten) (m, w)
    let sg ← mw.1.mapM (fun c => do sqrt32 (← dot c c))
    if sg.any (fun x => x.isNan || x.isInf) then return (a, 4)
    else do
      let order := (List.range a.rank).foldl (fun l j => placeSigma sg j l) []
      let tau ← mul32 (val32 tol) (sg.getD (order.headD 0) default)
      let keep := order.takeWhile (fun j =>
        let x := sg.getD j default
        !x.isZero && (tau.isNan || x.cmp tau != .lt))
      let us ← keep.mapM (fun j => applyQ u.2 (mw.1.getD j []))
      let vs ← keep.mapM (fun j => applyQ v.2 (mw.2.getD j []))
      return (firnVals us vs, 0)

-- ===== LDT (R277) =====

/-- An element as it enters a tile: its FP32 value in rne, or an INT32. -/
def tileBits (int : Bool) (r : ElemRead) : FM (BitVec 32) := do
  let v ← noteFl (r.val, r.flags)
  if int then return BitVec.ofInt 32 (intOf v) else return BitVec.ofNat 32 (← noteFl ((shapeFmt .f32x2 false).encode .rne false 0 v))

/-- Element `i` of a part of a global row, as it stands at H. -/
def glbElem (s : State) (p : GlbPart) (i : Nat) : ElemRead :=
  match pageFmt s p.leaf with
  | none => ⟨default, 0, false⟩
  | some (f, bl) =>
    let key := keyIx s p.leaf.key
    let bit := f.width * (p.first + i)
    let pa := p.leaf.pa + bit / 8
    let n := (bit % 8 + f.width + 7) / 8
    let raw := hNat s key pa n / 2 ^ (bit % 8) % 2 ^ f.width
    match bl with
    | some l =>
      let sp := p.leaf.pa + (unitOf f.width l).1 * (unitOf f.width l).2 + (p.first + i) / l
      let v := decScaled f (hByte s key sp).toNat raw
      ⟨v.1, v.2, hPoiSpan s pa n || hPoi s (sp / 64)⟩
    | none => ⟨f.decode raw, 0, hPoiSpan s pa n⟩

def glbRowElems (s : State) (e : EngEnt) (r : Nat) : List ElemRead :=
  (glbRowParts s e.xl e.words r).flatMap (fun p => (List.range p.n).map (glbElem s p))

/-- Whether an LDT's pages are of FMT 13: then the tile is INT32. -/
def glbInt (s : State) (e : EngEnt) : Bool := match glbRowParts s e.xl e.words 0 with
  | p :: _ => p.leaf.fmt == 13
  | [] => false

def ldtTile (s : State) (t : Team) (e : EngEnt) : FM (Tile × Bool) := do
  let w := wordAt e.words 0
  if blkGlb w then
    let m := (List.range 64).map (glbRowElems s e)
    let rows ← m.mapM (fun r => r.mapM (tileBits (glbInt s e)))
    return (denseOf rows (glbInt s e), poisoned m)
  else if blkFirn w then
    let r := field (wordAt e.words 4) 0 5
    let um := readMat t (omapOf e.amap) r
    let vm := readMat t (omapOf e.bmap) r
    let cols (m : List (List ElemRead)) : List (List ElemRead) := (List.range r).map (fun l => m.map (fun c => c.getD l default))
    let us ← (cols um).mapM (fun c => c.mapM (tileBits false))
    let vs ← (cols vm).mapM (fun c => c.mapM (tileBits false))
    return (firnOf us vs, poisoned um || poisoned vm)
  else
    let m := omapOf e.amap
    let rd := readMat t m 64
    let rows ← rd.mapM (fun r => r.mapM (tileBits (m.fmt == 13)))
    return (denseOf rows (m.fmt == 13), poisoned rd)

-- ===== STT (R277) =====

/-- One block of values encoded in a block-scaled format: its scale and its elements (R29). -/
def encBlock (f : EF) (xs : List Val) : FM (Nat × List Nat) := do
  let sc ← noteFl (blockScale f xs)
  if sc = 255 then return (255, xs.map (fun _ => 0))
  else return (sc, ← xs.mapM (fun x => noteFl (encScaled f .rne 0 sc x)))

/-- Elements of a row encoded in a format: their bits, and the scales of its blocks. -/
def encBlocks (f : EF) (l : Nat) : Nat → List Val → FM (List Nat × List Nat)
  | 0, _ => return ([], [])
  | n + 1, xs =>
    if xs.isEmpty then return ([], [])
    else do
      let b ← encBlock f (xs.take l)
      let r ← encBlocks f l n (xs.drop l)
      return (b.2 ++ r.1, b.1 :: r.2)
def encRow (fmt : Nat) (f : EF) (bl : Option Nat) (row : List (BitVec 32)) : FM (List Nat × List Nat) :=
  if fmt = 1 then return (row.map (·.toNat), [])
  else match bl with
    | some l => encBlocks f l row.length (row.map val32)
    | none => do return (← row.mapM (fun b => noteFl (f.encode .rne false 0 (val32 b))), [])

/-- One byte that the engine writes: address, the bits it writes, their value. -/
structure ECell where
  addr : Nat
  mask : Byte
  val : Byte
  deriving DecidableEq, Repr, Inhabited

/-- The bytes of element `e` of a row of a map. -/
def elemCells (m : OMap) (row e b : Nat) : List ECell :=
  let w := m.ef.width
  let sh := w * e % 8
  let as := m.elemBytes row e
  (List.range as.length).map (fun k =>
    ⟨as.getD k 0, BitVec.ofNat 8 ((2 ^ w - 1) * 2 ^ sh / 256 ^ k), BitVec.ofNat 8 (b * 2 ^ sh / 256 ^ k)⟩)

/-- The bytes of one row of a map. -/
def rowCells (m : OMap) (row : Nat) (vals : List (BitVec 32)) : FM (List ECell) := do
  let r ← encRow m.fmt m.ef (if fmtScaled m.fmt then some m.blk else none) vals
  return (List.range r.1.length).flatMap (fun e => elemCells m row e (r.1.getD e 0)) ++
    (List.range r.2.length).map (fun b => ⟨m.scaleAt row (b * m.blk), 0xFF, BitVec.ofNat 8 (r.2.getD b 0)⟩)

/-- The bytes of a whole operand of 64 by `n` values given by fixed index. -/
def matCells (m : OMap) (n : Nat) (vals : List (List (BitVec 32))) : FM (List ECell) := do
  let rows := if m.t then (List.range n).map (fun k => vals.map (fun r => r.getD k 0)) else vals.map (fun r => r.take n)
  let cs ← ((List.range rows.length).zip rows).mapM (fun r => rowCells m r.1 r.2)
  return cs.flatten

/-- Writes to a team's shared store by one operation: a word that it covers whole with clean bytes loses its poison (R152). -/
def shCells (s : State) (tid : Nat) (cs : List ECell) (poi : Bool) : State :=
  let cov : SMap (BitVec 64) := cs.foldl (fun (m : SMap (BitVec 64)) c => m.upd (c.addr / 8) (fun b => b ||| BitVec.ofNat 64 (c.mask.toNat * 2 ^ (8 * (c.addr % 8))))) []
  { s with teams := s.teams.upd tid (fun t =>
      { t with sh := cs.foldl (fun (m : SMap Byte) c => m.upd c.addr (fun b => (b &&& ~~~c.mask) ||| (c.val &&& c.mask))) t.sh,
               shPoi := cov.foldl (fun (m : SMap Bool) w => m.set w.1 (poi || (m.get w.1 && w.2 != 0xFFFFFFFFFFFFFFFF#64))) t.shPoi }) }

/-- The die of the core whose engine performs an operation. -/
def engDie (s : State) (e : EngEnt) : Nat := dieOfCore (s.teams.get e.tid).core

/-- One part of a global row is written at H: elements, then the scales of its blocks. The lines written come with the bytes covered. -/
def glbPartWrite (s : State) (die : Nat) (p : GlbPart) (vals : List (BitVec 32)) (poi : Bool) : FM (State × List (Nat × BitVec 64)) := do
  match pageFmt s p.leaf with
  | none => return (s, [])
  | some (f, bl) =>
    let r ← encRow p.leaf.fmt f bl vals
    let key := keyIx s p.leaf.key
    let bits := f.width * vals.length
    let pa := p.leaf.pa + f.width * p.first / 8
    let tail := if bits % 8 = 0 then 0 else (hByte s key (pa + bits / 8)).toNat / 2 ^ (bits % 8) * 2 ^ bits
    let data := toBytes ((bits + 7) / 8) (packSubs f.width r.1 + tail)
    let s1 := hSendSpan s die key pa data poi
    let sp := match bl with
      | some l => p.leaf.pa + (unitOf f.width l).1 * (unitOf f.width l).2 + p.first / l
      | none => 0
    let s2 := if r.2.isEmpty then s1 else hSendSpan s1 die key sp (r.2.map (BitVec.ofNat 8)) poi
    let lines := splitLines pa data ++ (if r.2.isEmpty then [] else splitLines sp (r.2.map (BitVec.ofNat 8)))
    return (s2, lines.map (fun l => (l.1, covBits l.2)))

/-- The parts of one row. -/
def glbRowWrite (die : Nat) (poi : Bool) : State × List (Nat × BitVec 64) → List GlbPart → List (BitVec 32) → FM (State × List (Nat × BitVec 64))
  | r, [], _ => return r
  | r, p :: ps, vals => do
    let w ← glbPartWrite r.1 die p (vals.take p.n) poi
    glbRowWrite die poi (w.1, r.2 ++ w.2) ps (vals.drop p.n)

/-- The rows of a GLB STT, in ascending order. -/
def glbRowsWrite (e : EngEnt) (poi : Bool) : State × List (Nat × BitVec 64) → List (Nat × List (BitVec 32)) → FM (State × List (Nat × BitVec 64))
  | r, [] => return r
  | r, (n, vals) :: rest => do
    let w ← glbRowWrite (engDie r.1 e) poi r (glbRowParts r.1 e.xl e.words n) vals
    glbRowsWrite e poi w rest

/-- The operation's writes to one line count as one write: a line covered whole with clean bytes is clean (R152). -/
def glbClear (s : State) (ls : List (Nat × BitVec 64)) : State :=
  let cov : SMap (BitVec 64) := ls.foldl (fun (m : SMap (BitVec 64)) l => m.upd l.1 (· ||| l.2)) []
  if alarmed s then s
  else { s with h := { s.h with poi := cov.foldl (fun (m : SMap Bool) l => if l.2 = 0xFFFFFFFFFFFFFFFF#64 then m.set l.1 false else m) s.h.poi } }

/-- STT: the state after its writes, and OUT. -/
def sttStep (s : State) (e : EngEnt) (t : Team) (a : Tile) : FM (State × Nat) := do
  let w := wordAt e.words 0
  if blkGlb w then
    let rows ← a.rows
    let r ← glbRowsWrite e a.poi (s, []) ((List.range 64).zip rows)
    let s1 := if a.poi then r.1 else glbClear r.1 r.2
    return ({ s1 with teams := s1.teams.upd e.tid (fun t => { t with engLines := (t.engLines ++ r.2.map (·.1)).eraseDups }) }, 0)
  else if blkFirn w then
    if a.dense then return (s, 0)
    else
      let am := omapOf e.amap
      let bm := omapOf e.bmap
      if am.beyond a.rank (shLimit t) || bm.beyond a.rank (shLimit t) then return (s, 6)
      else do
        let byRow (f : Nat → List (BitVec 32)) : List (List (BitVec 32)) :=
          (List.range 64).map (fun i => (List.range a.rank).map (fun l => (f l).getD i 0))
        let cu ← matCells am a.rank (byRow a.uCol)
        let cv ← matCells bm a.rank (byRow a.vRow)
        return (shCells s e.tid (cu ++ cv) a.poi, 0)
  else do
    let cs ← matCells (omapOf e.amap) 64 (← a.rows)
    return (shCells s e.tid cs a.poi, 0)

-- ===== completion (R271, R272) =====

/-- The status word of an operation, one clean write of its block's word 7 (R271). -/
def writeStatus (s : State) (e : EngEnt) (out row rank : Nat) (fl : BitVec 5) : State :=
  shWord s e.tid (e.blk / 64 * 8 + 7) (entBytes 0 8 (out * 2 ^ 56 + row * 2 ^ 40 + rank * 2 ^ 32 + fl.toNat)) false

/-- The rank that a status word shows for an operation's DZ. -/
def rankOf (s : State) (e : EngEnt) : Nat :=
  let w := wordAt e.words 0
  let t := (s.teams.get e.tid).tiles.get (blkDz w)
  if hasDz (blkOpc w) && !t.dense then t.rank else 0

/-- The entry leaves the queue; its tiles' tokens return to the engine with it, and the tile line is written (R262). -/
def retire (s : State) (core : Nat) (e : EngEnt) : State :=
  let s1 := { s with engines := s.engines.upd core (fun q => q.filter (fun x => x.id != e.id)),
                     teams := s.teams.upd e.tid (fun t => { t with tlPos := t.tlPos + 1 }) }
  reapTeam s1 e.tid

/-- A fault left in a tile (R272). -/
def faultTile (s : State) (e : EngEnt) (z code : Nat) : State :=
  setTile s e.tid z { (s.teams.get e.tid).tiles.get z with flt := code, fblk := e.blk / 64 }

/-- The tile whose fault skips an operation (R272). -/
def skipTile (s : State) (e : EngEnt) : Option Tile :=
  ((namedTiles (wordAt e.words 0)).map (fun z => (s.teams.get e.tid).tiles.get z)).find? (·.flt != 0)

/-- A content for DZ is placed: the rank cap, then the room (R259, R276). The answer is the state and OUT. -/
def placeContent (s : State) (e : EngEnt) (c0 : Tile) (out : Nat) (poi src : Bool) : FM (State × Nat) := do
  let z := blkDz (wordAt e.words 0)
  let tm := s.teams.get e.tid
  let big := !c0.dense && e.rcap < c0.rank
  if big && !e.dfall then return (faultTile s e z 1, 2)
  else do
    let c ← if big then (do return denseOf (← c0.rows) false : FM Tile) else (return c0 : FM Tile)
    if !roomFor tm z c.gran src then return (faultTile s e z 2, 3)
    else return (setTile s e.tid z { (tm.tiles.get z).take c with poi := poi, res := false, nextk := 0 }, out)

/-- The content that an operation gives DZ, OUT, and whether a poisoned operand byte took part. -/
def contentOf (s : State) (e : EngEnt) : FM (Tile × Nat × Bool) := do
  let w := wordAt e.words 0
  let t := s.teams.get e.tid
  let dz := t.tiles.get (blkDz w)
  let a := t.tiles.get (blkAz w)
  let b := t.tiles.get (blkBz w)
  match blkOpc w with
  | 0 => return (if blkFirn w then {} else denseOf [] false, 0, false)
  | 1 =>
    let r ← mmaRun t e dz dz.nextk (mmaChunks (blkK w) - dz.nextk)
    return (r.1, 0, r.2)
  | 2 => return (← addTiles a b (blkSub w), 0, false)
  | 3 => return (← mulTiles a b, 0, false)
  | 4 =>
    let r ← rcmpTile a e.tol
    return (r.1, r.2, false)
  | 5 =>
    if a.dense then return (a, 0, false)
    else return (denseOf (← a.rows) false, 0, false)
  | 6 =>
    let r ← ldtTile s t e
    return (r.1, 0, r.2)
  | _ => return (← sclTile a (val32 ((wordAt e.words 2).setWidth 32)), 0, false)

/-- Tiles that an operation reads (R259, R273). -/
def sourcesOf (w : BitVec 64) (res : Bool) : List Nat :=
  let o := blkOpc w
  (if o == 1 && (blkAcc w || res) then [blkDz w] else []) ++ (if hasAz o then [blkAz w] else []) ++ (if hasBz o then [blkBz w] else [])

/-- DZ is a source of the room test (R259): a resumed MMA has its dense accumulators there and takes no more room than they have (R279). -/
def roomSource (w : BitVec 64) (dz : Tile) : Bool := !dz.res && (sourcesOf w false).contains (blkDz w)

/-- The bytes that an LDT reads at H: a poisoned line on its way to the core marks the boundaries it crosses (R391). -/
def ldtCrossed (s : State) (e : EngEnt) : State :=
  let w := wordAt e.words 0
  if blkOpc w != 6 || !blkGlb w then s
  else (List.range 64).foldl (fun s r => (glbRowParts s e.xl e.words r).foldl (fun s p => match pageFmt s p.leaf with
    | none => s
    | some (f, _) => arrives s (engDie s e) (p.leaf.pa + f.width * p.first / 8) ((f.width * p.n + 7) / 8)) s) s

/-- An operation performs and completes: the state after its effect, OUT and ROW. The flags of a stopped MMA's chunks count with the rest (R271). -/
def engEffect (s : State) (e : EngEnt) : FM (State × Nat × Nat) := do
  let w := wordAt e.words 0
  let o := blkOpc w
  let t := s.teams.get e.tid
  let dz := t.tiles.get (blkDz w)
  match skipTile s e, e.badRow with
  | some f, _ =>
    let s1 := if hasDz o && dz.flt == 0 then setTile s e.tid (blkDz w) { dz with flt := f.flt, fblk := f.fblk } else s
    return (s1, 1, 0)
  | none, some r => return (faultTile s e (if o = 6 then blkDz w else blkAz w) 3, 5, r)
  | none, none =>
    if o = 7 then
      let r ← sttStep s e t (t.tiles.get (blkAz w))
      return (r.1, r.2, 0)
    else do
      let _ ← noteFl ((), e.flg)
      let c ← contentOf s e
      let src := sourcesOf w dz.res
      let a := t.tiles.get (blkAz w)
      -- a tile that RCMP or DNS copies onto itself gets no new content
      if (o == 4 || o == 5) && blkAz w == blkDz w && (a.dense || c.2.1 == 4) then return (s, c.2.1, 0)
      else do
        let keepPoi := 2 ≤ o && o != 6 && dz.poi
        let poi := c.2.2 || keepPoi || src.any (fun z => (t.tiles.get z).poi)
        let r ← placeContent (ldtCrossed s e) e c.1 c.2.1 poi (roomSource w dz)
        return (r.1, r.2, 0)

/-- The head of a core's queue completes. -/
def engComplete (s : State) (core : Nat) (e : EngEnt) : State :=
  let r := (engEffect s e).run 0
  let s1 := r.1.1
  retire (writeStatus s1 e r.1.2.1 r.1.2.2 (rankOf s1 e) r.2) core e

/-- The event of an operation code: the head of the queue, where it is of that code (log 2). -/
def engEvent (s : State) (core opc : Nat) : State :=
  match s.engines.get core with
  | [] => s
  | e :: _ => if blkOpc (wordAt e.words 0) = opc then engComplete s core e else s

def execTileZero (core : Nat) (s : State) : Out := .next (engEvent s core 0)
def execTileMma (core : Nat) (s : State) : Out := .next (engEvent s core 1)
def execTileAdd (core : Nat) (s : State) : Out := .next (engEvent s core 2)
def execTileMul (core : Nat) (s : State) : Out := .next (engEvent s core 3)
def execTileRcmp (core : Nat) (s : State) : Out := .next (engEvent s core 4)
def execTileDns (core : Nat) (s : State) : Out := .next (engEvent s core 5)
def execTileLdt (core : Nat) (s : State) : Out := .next (engEvent s core 6)
def execTileStt (core : Nat) (s : State) : Out := .next (engEvent s core 7)
def execTileScl (core : Nat) (s : State) : Out := .next (engEvent s core 8)

-- ===== stop and re-entry (R279, R367) =====

/-- An MMA that a stop finds in progress after `n` chunks: its accumulators in DZ, NEXTK and RES (R279), and the flags of its chunks in its entry.
Where there is no room, or a fault skips it, it has not begun. -/
def mmaStop (s : State) (e : EngEnt) (n : Nat) : State × BitVec 5 :=
  let w := wordAt e.words 0
  let z := blkDz w
  let t := s.teams.get e.tid
  let dz := t.tiles.get z
  if n = 0 || (skipTile s e).isSome || !roomFor t z 8 (roomSource w dz) then (s, e.flg)
  else
    let r := (mmaRun t e dz dz.nextk n).run e.flg
    (setTile s e.tid z { dz.take r.1.1 with poi := r.1.2 || ((sourcesOf w dz.res).contains z && dz.poi), res := true, nextk := dz.nextk + n }, r.2)

/-- The engine's part in the stop of a team: the head of the queue, where it is the team's, is in progress after a number of chunks that the spec
leaves open, or completes; the others leave the queue with their order. -/
def engStop (s : State) (tid : Nat) : List EngEnt × State :=
  let core := (s.teams.get tid).core
  let r : State × List EngEnt := match s.engines.get core with
    | [] => (s, [])
    | e :: q =>
      if e.tid != tid || blkOpc (wordAt e.words 0) != 1 then (s, e :: q)
      else
        let left := mmaChunks (blkK (wordAt e.words 0)) - ((s.teams.get tid).tiles.get (blkDz (wordAt e.words 0))).nextk
        let m := mmaStop { s with tick := s.tick + 1 } e ((Config.freeCount s.tick).toNat % (left + 1))
        (m.1, { e with flg := m.2 } :: q)
  (r.2.filter (·.tid == tid), { r.1 with engines := r.1.engines.upd core (fun q => q.filter (·.tid != tid)) })

/-- A saved entry as it re-enters: a GLB operation translates its rows again. -/
def reenter (s : State) (e : EngEnt) : EngEnt :=
  if !blkGlb (wordAt e.words 0) then e
  else match glbCheck s e.ctx e.sup e.words with
    | .ok xl => { e with xl := xl, badRow := none }
    | .error _ => { e with badRow := some ((glbFirstBad s e.ctx e.sup e.words).getD 0) }

/-- ENGINE_ENTRY_REENTRY: once enough entries of the team's core are free (R279). -/
def execEngineEntryReentry (tid : Nat) (s : State) : Out :=
  let es := s.reentry.get tid
  let core := (s.teams.get tid).core
  .next (if es.isEmpty || (s.ctxs.get (s.teams.get tid).ctx).st == .saving || 16 < (s.engines.get core).length + es.length then s
    else { s with reentry := s.reentry.del tid, engines := s.engines.upd core (fun q => q ++ es.map (reenter s)) })

end Sys2Proof.Machine
end

