-- ==== Sys2Proof/Machine/Image.lean ====
section
/-!
DEFINITION. Configuration images (R291 to R297): the fields of nodes and edges, the loader's checks in their order, and the save of a frozen
compartment (R306, R336) as bytes.
-/

namespace Sys2Proof.Machine

-- ===== reason codes (R308) =====

def fcOk : Nat := 0
def fcNotown : Nat := 1
def fcState : Nat := 2
def fcImage : Nat := 3
def fcCrc : Nat := 4
def fcShape : Nat := 5
def fcPlane : Nat := 6
def fcRoute : Nat := 7
def fcBuffer : Nat := 8
def fcIsland : Nat := 9
def fcCfgid : Nat := 10
def fcArg : Nat := 11
def fcSave : Nat := 12
def fcConst : Nat := 13
def fcMismatch : Nat := 14
def fcStall : Nat := 15
def fcPoison : Nat := 16
def fcEcc : Nat := 17
def fcKilled : Nat := 18
def fcContext : Nat := 19

-- ===== nodes (R292) =====

def ndOpc (e : BitVec 64) : Nat := field e 59 5
def ndW (e : BitVec 64) : Nat := field e 56 3
def ndFmt (e : BitVec 64) : Nat := field e 52 4
def ndSat (e : BitVec 64) : Bool := flag e 51
def ndSub (e : BitVec 64) : Nat := field e 48 3
def ndRow (e : BitVec 64) : Nat := field e 42 6
def ndCol (e : BitVec 64) : Nat := field e 36 6
def ndCidx (e : BitVec 64) : Nat := field e 24 12
def ndParam (e : BitVec 64) : Nat := field e 16 8
def isIsland (e : BitVec 64) : Bool := ndOpc e == 30

/-- Bits and slices of a width code (R286). -/
def widthBits (w : Nat) : Nat := match w with | 0 => 4 | 1 => 8 | 2 => 16 | 3 => 32 | _ => 64
def widthSlices (w : Nat) : Nat := match w with | 0 => 1 | 1 => 1 | 2 => 2 | 3 => 4 | _ => 8

/-- The width code that a floating FMT code has (R292). -/
def fmtW (f : Nat) : Nat := match f with | 2 => 2 | 3 => 2 | 4 => 3 | 5 => 4 | 8 => 0 | _ => 1
/-- FMT agrees with W. -/
def fmtAgrees (f w : Nat) : Bool := if f ≤ 1 then 1 ≤ w && w ≤ 4 else f ≤ 9 && w == fmtW f

/-- The value format of a FMT code in a width. -/
def ndEF (f w : Nat) : EF :=
  match f with
  | 0 => .int (widthBits w) false | 1 => .int (widthBits w) true | 2 => .fp .fp16 | 3 => .fp .bf16 | 4 => .fp .fp32 | 5 => .fp .fp64
  | 6 => .fp .e4m3 | 7 => .fp .e5m2 | 8 => .fp .e2m1 | _ => .ts8

/-- Input ports of R299, before a constant replaces the last. -/
def opcPorts (o : Nat) : Nat :=
  match o with
  | 3 => 3 | 9 => 3
  | 0 => 2 | 1 => 2 | 2 => 2 | 4 => 2 | 5 => 2 | 8 => 2 | 10 => 2 | 11 => 2 | 12 => 2 | 13 => 2 | 14 => 2 | 18 => 2 | 20 => 2 | 21 => 2 | 22 => 2 | 30 => 2
  | _ => 1
/-- Whether a constant stands for the last input port. -/
def hasConst (e : BitVec 64) : Bool := ndCidx e != 0xFFF && ndOpc e != 24 && ndOpc e != 30
/-- Input ports that edges feed. -/
def fedPorts (e : BitVec 64) : Nat := opcPorts (ndOpc e) - (if hasConst e then 1 else 0)
/-- Output ports. -/
def outPorts (e : BitVec 64) : Nat := if ndOpc e = 19 then ndSub e + 1 else if ndOpc e = 20 || ndOpc e = 21 then 2 else 1

/-- The width code that a port takes; none for a port of any width (R299, R320). -/
def portW (e : BitVec 64) (p : Nat) : Option Nat :=
  match ndOpc e, p with
  | 9, 0 => none | 24, 0 => none | 18, 1 => none | 17, 0 => none | 27, 0 => none
  | 15, _ => some (field e 20 3)
  | 26, _ => some (fmtW (field e 16 4))
  | 30, _ => some 1
  | _, _ => some (ndW e)
/-- The width code of a node's outputs: an island's is FP32 (R302). -/
def outW (e : BitVec 64) : Nat := if isIsland e then 3 else ndW e

/-- SUB, PARAM, FMT, SAT and CIDX of a unit are as R292, R299, R301 and R416 allow; a CONST needs its entry. -/
def unitOk (ts8 : Bool) (ncon : Nat) (e : BitVec 64) : Bool :=
  let o := ndOpc e
  let f := ndFmt e
  let fok (c : Nat) : Bool := c ≤ 9 && (c != 9 || ts8)
  let subOk := if o = 8 then true else if o = 16 || o = 17 then ndSub e ≤ 3 else if o = 19 then 1 ≤ ndSub e && ndSub e ≤ 3 else ndSub e == 0
  let parOk := if o = 15 then !flag e 23 && fok (field e 16 4) && fmtAgrees (field e 16 4) (field e 20 3)
    else if o = 23 then ndParam e ≤ 63
    else if o = 26 then 2 ≤ field e 16 4 && field e 16 4 ≤ 5 && field e 20 4 == 0
    else ndParam e == 0
  let fmtOk := if o = 10 || o = 11 || o = 12 || o = 13 || o = 14 then f ≤ 1
    else if o = 17 then f == 1 else if o = 20 || o = 21 || o = 22 then ndW e == 4 && f == 1
    else if o = 28 || o = 29 then 2 ≤ f
    else if o = 26 then (6 ≤ f && f ≤ 9) || (f == 0 && ndW e == 1)
    else true
  ndW e ≤ 4 && fok f && fmtAgrees f (ndW e) && subOk && parOk && fmtOk && (!ndSat e || o ≤ 3 || o == 6 || o == 7) &&
    (if o = 24 then ndCidx e != 0xFFF && ndCidx e < ncon else ndCidx e == 0xFFF || ndCidx e < ncon)

/-- An island node's fields (R292, R302). -/
def islandOk (e : BitVec 64) : Bool :=
  ndRow e == 0 && ndCol e == 0 && ndW e == 0 && !ndSat e && ndSub e == 0 && ndCidx e == 0xFFF && (ndFmt e == 6 || ndFmt e == 7) && ndParam e ≤ 63

def nodeOk (ts8 : Bool) (ncon : Nat) (e : BitVec 64) : Bool :=
  field e 0 16 == 0 && ndOpc e != 31 && (if isIsland e then islandOk e else unitOk ts8 ncon e)

/-- The slices of a unit, as cells of the shape. -/
def unitCells (e : BitVec 64) : List Nat := (List.range (widthSlices (ndW e))).map (fun i => 64 * ndRow e + ndCol e + i)
/-- A unit stands at a column of its width's multiples, within the shape (R286). -/
def unitPlaced (shr shc : Nat) (e : BitVec 64) : Bool :=
  ndRow e < 8 * shr && ndCol e % widthSlices (ndW e) == 0 && ndCol e + widthSlices (ndW e) ≤ 8 * shc

/-- Keys seen so far and whether one came twice. -/
def seeOnce (r : SMap Bool × Bool) (k : Nat) : SMap Bool × Bool := (r.1.set k true, r.2 && !r.1.get k)
/-- No key of a list comes twice. -/
def allOnce (ks : List Nat) : Bool := (ks.foldl seeOnce ([], true)).2

-- ===== edges (R293) =====

def edSk (e : BitVec 64) : Bool := flag e 63
def edSrc (e : BitVec 64) : Nat := field e 52 11
def edSport (e : BitVec 64) : Nat := field e 50 2
def edDk (e : BitVec 64) : Bool := flag e 49
def edDst (e : BitVec 64) : Nat := field e 38 11
def edDport (e : BitVec 64) : Nat := field e 36 2
def edMx (e : BitVec 64) : Bool := flag e 35
def edBg (e : BitVec 64) : Nat := field e 33 2
/-- Block length of an MX edge. -/
def edLen (e : BitVec 64) : Nat := (bgLen? (edBg e)).getD 32

def nodeAt (p : Planes) (n : Nat) : BitVec 64 := p.nodes.getD n 0
def edgeAt (p : Planes) (i : Nat) : BitVec 64 := p.edges.getD i 0

/-- An end at a sluice: granted to the compartment, port 0 (R293, R316). -/
def sluiceEndOk (mask : BitVec 32) (n port : Nat) : Bool := n < 32 && port == 0 && mask.getLsbD n

/-- Ends, ports and widths of an edge agree, and MX stands where R301 allows it. -/
def edgeOk (p : Planes) (mask : BitVec 32) (e : BitVec 64) : Bool :=
  let nn := p.nodes.length
  let s := nodeAt p (edSrc e)
  let d := nodeAt p (edDst e)
  let srcOk := if edSk e then sluiceEndOk mask (edSrc e) (edSport e) else edSrc e < nn && edSport e < outPorts s
  let dstOk := if edDk e then sluiceEndOk mask (edDst e) (edDport e) else edDst e < nn && edDport e < fedPorts d
  let wOk := edSk e || edDk e || (match portW d (edDport e) with | none => true | some w => w == outW s)
  let mxSrc := edSk e || ndOpc s == 26
  let mxDst := edDk e || ndOpc d == 27 || ndOpc d == 30
  let mxOk := if edMx e then edBg e != 3 && mxSrc && mxDst else edBg e == 0 && (edSk e || ndOpc s != 26) && (edDk e || ndOpc d != 27)
  field e 0 33 == 0 && !(edSk e && edDk e) && srcOk && dstOk && wOk && mxOk

/-- Every fed port has exactly one edge, every output port and sluice at most one (R293, R316). -/
def portsOk (p : Planes) : Bool :=
  let ins := (p.edges.filter (fun e => !edDk e)).map (fun e => 4 * edDst e + edDport e)
  let outs := (p.edges.filter (fun e => !edSk e)).map (fun e => 4 * edSrc e + edSport e)
  let sls := (p.edges.filter edSk).map edSrc ++ (p.edges.filter edDk).map edDst
  allOnce ins && allOnce outs && allOnce sls && ins.length == (p.nodes.map fedPorts).foldl (· + ·) 0

/-- An edge at an island (R295). -/
def islandEdge (p : Planes) (e : BitVec 64) : Bool := (!edSk e && isIsland (nodeAt p (edSrc e))) || (!edDk e && isIsland (nodeAt p (edDst e)))

-- ===== buffer sufficiency (R295) =====

def depEdge (d : BitVec 32) : Nat := d.toNat / 2 ^ 16
def depDepth (d : BitVec 32) : Nat := d.toNat / 2 ^ 8 % 2 ^ 8
def depthOk (p : Planes) (d : BitVec 32) : Bool :=
  d.toNat % 2 ^ 8 == 0 && depEdge d < p.edges.length && 2 ≤ depDepth d && depDepth d ≤ 64 && !islandEdge p (edgeAt p (depEdge d))

/-- Slots of an edge's buffer. -/
def edgeDepth (p : Planes) (i : Nat) : Nat :=
  if islandEdge p (edgeAt p i) then 16
  else match p.depths.find? (fun d => depEdge d == i) with
    | some d => depDepth d
    | none => 2

/-- The charge to the token budget. -/
def budgetCharge (p : Planes) : Nat :=
  p.depths.foldl (fun n d => n + (depDepth d - 2)) 0 + (p.nodes.filter (fun e => ndOpc e == 23)).foldl (fun n e => n + ndParam e + 1) 0

-- ===== routes (R294) =====

/-- Segments between two blocks of a row or a column, each a key of its place and direction. -/
def runSegs (base a b : Nat) : List Nat :=
  if a ≤ b then (List.range (b - a)).map (fun i => base + 4 * (a + i)) else (List.range (a - b)).map (fun i => base + 4 * (b + i) + 1)

/-- The segments of an edge between units: along its producer's row of blocks, then along the consumer's column. -/
def edgeSegs (p : Planes) (e : BitVec 64) : List Nat :=
  if edSk e || edDk e || islandEdge p e then []
  else
    let s := nodeAt p (edSrc e)
    let d := nodeAt p (edDst e)
    runSegs (64 * (ndRow s / 8)) (ndCol s / 8) (ndCol d / 8) ++ runSegs (64 * (ndCol d / 8) + 2) (ndRow s / 8) (ndRow d / 8)

def routeOk (p : Planes) : Bool := ((p.edges.flatMap (edgeSegs p)).foldl (fun (m : SMap Nat) k => m.upd k (· + 1)) []).all (fun e => e.2 ≤ 64)

/-- Check 5 of R297. -/
def planeOk (ts8 : Bool) (mask : BitVec 32) (p : Planes) : Bool :=
  let units := p.nodes.filter (fun e => !isIsland e)
  p.nodes.all (nodeOk ts8 p.consts.length) && units.all (unitPlaced p.shr p.shc) && allOnce (units.flatMap unitCells) &&
    p.edges.all (edgeOk p mask) && portsOk p && p.depths.all (depthOk p) && allOnce (p.depths.map depEdge)

-- ===== the header (R291) =====

def imgLen (h : List (BitVec 64)) : Nat := field (wordAt h 5) 0 32
def imgCrc (h : List (BitVec 64)) : Nat := field (wordAt h 5) 32 32
def imgCfgid (h : List (BitVec 64)) : Nat := field (wordAt h 1) 0 32
/-- LEN lies within its range. -/
def imgLenOk (h : List (BitVec 64)) : Bool := imgLen h % 64 == 0 && 64 ≤ imgLen h && imgLen h ≤ 2 ^ 20

/-- The four areas: offset and length in bytes. -/
def imgAreas (h : List (BitVec 64)) : List (Nat × Nat) :=
  let n (i : Nat) : Nat := field (wordAt h 2) (16 * i) 16
  [(field (wordAt h 3) 0 32, 8 * n 0), (field (wordAt h 3) 32 32, 8 * n 1), (field (wordAt h 4) 0 32, 8 * n 2), (field (wordAt h 4) 32 32, 4 * n 3)]

def overlap (a b : Nat × Nat) : Bool := a.1 < b.1 + b.2 && b.1 < a.1 + a.2 && a.2 != 0 && b.2 != 0
def noOverlap : List (Nat × Nat) → Bool
  | [] => true
  | a :: r => !r.any (overlap a) && noOverlap r

/-- Check 2 of R297, but for NISL against the planes. -/
def headerOk (h : List (BitVec 64)) : Bool :=
  let w (i : Nat) : BitVec 64 := wordAt h i
  let n (i : Nat) : Nat := field (w 2) (16 * i) 16
  field (w 0) 0 32 == 0x50444C31 && field (w 0) 32 16 == 1 && field (w 0) 48 16 == 0 && imgCfgid h != 0 &&
    1 ≤ field (w 1) 32 8 && field (w 1) 32 8 ≤ 8 && 1 ≤ field (w 1) 40 8 && field (w 1) 40 8 ≤ 8 && field (w 1) 48 3 ≤ 4 && field (w 1) 51 13 == 0 &&
    1 ≤ n 0 && n 0 ≤ 1028 && 1 ≤ n 1 && n 1 ≤ 4096 && n 2 ≤ 4096 && n 3 ≤ 4096 && imgLenOk h && w 6 == 0 && w 7 == 0 &&
    (imgAreas h).all (fun a => a.1 % 64 == 0 && 64 ≤ a.1 && a.1 + a.2 ≤ imgLen h) && noOverlap (imgAreas h)

def words32 (bs : List Byte) : List (BitVec 32) := (List.range (bs.length / 4)).map (fun i => BitVec.ofNat 32 (ofBytes ((bs.drop (4 * i)).take 4)))

/-- The planes that an image's bytes hold. -/
def planesOf (h : List (BitVec 64)) (bs : List Byte) : Planes :=
  let area (i : Nat) : List Byte := let a := (imgAreas h).getD i (0, 0); (bs.drop a.1).take a.2
  { cfgid := imgCfgid h, crc := imgCrc h, shr := field (wordAt h 1) 32 8, shc := field (wordAt h 1) 40 8,
    nodes := toWords (area 0), edges := toWords (area 1), consts := toWords (area 2), depths := words32 (area 3) }

def islandCount (p : Planes) : Nat := (p.nodes.filter isIsland).length

/-- The CRC of an image's bytes, with its own field as zero. -/
def imageCrc (bs : List Byte) : Nat := (crc32 (bs.take 0x2C ++ [0, 0, 0, 0] ++ bs.drop 0x30)).toNat

/-- What the loader needs to know of a compartment. -/
structure LoadEnv where
  shape : Nat × Nat
  mask : BitVec 32
  ts8 : Bool
  free : List Nat       -- free islands of the array, ascending

/-- Checks 3 to 8 of R297 and the NISL part of check 2, on planes; `crcOk` is the outcome of check 3. -/
def checkPlanes (v : LoadEnv) (nisl : Nat) (crcOk : Bool) (p : Planes) : Nat :=
  if nisl != islandCount p then fcImage
  else if !crcOk then fcCrc
  else if (p.shr, p.shc) != v.shape then fcShape
  else if !planeOk v.ts8 v.mask p then fcPlane
  else if !routeOk p then fcRoute
  else if 256 * v.shape.1 * v.shape.2 < budgetCharge p then fcBuffer
  else if v.free.length < islandCount p then fcIsland
  else fcOk

-- ===== saves (R306, R336) =====

def saveLen (h : List (BitVec 64)) : Nat := field (wordAt h 4) 0 32
def saveLenOk (h : List (BitVec 64)) : Bool := saveLen h % 64 == 0 && 64 ≤ saveLen h && saveLen h ≤ 2 ^ 19

def align64 (n : Nat) : Nat := (n + 63) / 64 * 64

/-- Slots that a node holds tokens in (log 24): a BUF's, and the tokens that an island or QNT has taken in. -/
def nodeSlots (e : BitVec 64) (held : Nat) : Nat := if ndOpc e = 23 then ndParam e + 1 else if ndOpc e = 30 || ndOpc e = 26 then held else 0

/-- The word after a token's data. -/
def tokenWord (t : Token) : Nat :=
  (if t.valid then 1 else 0) + 2 * t.ends.toNat + (if t.poi then 32 else 0) + (if t.scale then 64 else 0)
def tokenOf (d w : BitVec 64) : Token := { data := d, valid := flag w 0, ends := w.extractLsb' 1 4, poi := flag w 5, scale := flag w 6 }

/-- Word 0 of a node's state: an island or QNT keeps there the number `k` of its tokens that the save holds. -/
def unitWord0 (e : BitVec 64) (u : UnitState) (k : Nat) : Nat := if ndOpc e = 30 || ndOpc e = 26 then k else u.sum.toNat
def unitWord1 (u : UnitState) : Nat :=
  (if u.started then 1 else 0) + 2 * (u.burst % 64) + (if u.closedA then 2 ^ 7 else 0) + (if u.closedB then 2 ^ 8 else 0) +
    2 ^ 9 * u.endsA.toNat + 2 ^ 13 * u.endsB.toNat + (if u.poi then 2 ^ 17 else 0)
def unitOfWords (e : BitVec 64) (w0 w1 : BitVec 64) (q : List Token) : UnitState :=
  { sum := if ndOpc e = 30 || ndOpc e = 26 then 0 else w0, started := flag w1 0, burst := field w1 1 6, closedA := flag w1 7, closedB := flag w1 8,
    endsA := w1.extractLsb' 9 4, endsB := w1.extractLsb' 13 4, poi := flag w1 17, queue := q }

/-- Bytes of a bit list, the first bit lowest. -/
def packBits (bs : List Bool) : List Byte :=
  (List.range ((bs.length + 7) / 8)).map (fun i => BitVec.ofNat 8 (((bs.drop (8 * i)).take 8).foldr (fun b n => 2 * n + (if b then 1 else 0)) 0))

def w64 (n : Nat) : List Byte := toBytes 8 (n % 2 ^ 64)
def padTo (n : Nat) (bs : List Byte) : List Byte := bs ++ List.replicate (n - bs.length) 0
def pad64 (bs : List Byte) : List Byte := padTo (align64 bs.length) bs

/-- The 80 bytes of a record. -/
def recordArea (r : StreamRec) : List Byte := padTo 80 (r.cmds.flatMap (fun w => w64 w.toNat))

/-- Bounds of a walk (R321): the highest dimension with count zero, and the first dimension that is walked. -/
def walkZ (cs : List Nat) : Option Nat := ((List.range cs.length).filter (fun d => cs.getD d 0 == 0)).getLast?
def walkLo (cs : List Nat) : Nat := match walkZ cs with | some z => z + 1 | none => 0
/-- Positions of a walk. -/
def walkLen (cs : List Nat) : Nat := if walkLo cs = cs.length then 1 else (cs.drop (walkLo cs)).foldl (· * ·) 1
/-- Index of dimension `d` at a position. -/
def walkIx (cs : List Nat) (posn d : Nat) : Nat :=
  if d < walkLo cs || cs.length ≤ d then 0 else posn / ((cs.take d).drop (walkLo cs)).foldl (· * ·) 1 % cs.getD d 1
/-- The position of given indices. -/
def walkPosn (cs : List Nat) (ix : List Nat) : Nat :=
  ((List.range cs.length).filter (fun d => walkLo cs ≤ d)).foldl (fun n d => n + ix.getD d 0 * ((cs.take d).drop (walkLo cs)).foldl (· * ·) 1) 0

/-- A sluice's 512 bytes (R336). -/
def sluiceArea (x : Sluice) : List Byte :=
  let ix (d : Nat) : Nat := match x.active with | some r => walkIx r.counts x.posn d | none => 0
  padTo 512 (w64 ((if x.active.isSome then 1 else 0) + (if x.stalled then 2 else 0) + 4 * x.waiting.length) ++ w64 0 ++
    (List.range 4).flatMap (fun d => w64 (ix d)) ++ List.replicate 16 0 ++
    (match x.active with | some r => recordArea r | none => List.replicate 80 0) ++ x.waiting.flatMap recordArea)

/-- The word that a restored sequencer executes next: a CNST has been executed while it waits for the units that read its entry, whereas a REC, a PWAIT
or a faulting word is executed again (R336). -/
def seqResume (q : Seqr) : BitVec 64 := match q.wait with | .consts _ => q.pc + 4 | _ => q.pc

/-- The sequencer and sluice area. -/
def seqArea (c : Compartment) : List Byte :=
  padTo 0x100 (w64 (seqResume c.seq).toNat ++ w64 ((if c.seq.halted then 1 else 0) + (if c.seq.stalled then 2 else 0)) ++
    (List.range 15).flatMap (fun k => w64 (c.seq.d.get (k + 1)).toNat)) ++ (List.range 32).flatMap (fun i => sluiceArea (c.sl.get i))

/-- The nodes that hold tokens, with the slots and the tokens that a save has for each. The tokens that islands and QNT units have taken in share 2048
places, so that every save keeps within 512 KiB (R306, log 24). -/
def nodeBufs (c : Compartment) : List Nat → Nat → List (Nat × Nat × List Token)
  | [], _ => []
  | n :: r, left =>
    let e := nodeAt c.planes n
    let q := (c.units.get n).queue
    let t := if ndOpc e = 23 then q else q.take left
    let k := nodeSlots e t.length
    if k = 0 then nodeBufs c r left else (n, k, t) :: nodeBufs c r (if ndOpc e = 23 then left else left - t.length)
def savedNodes (c : Compartment) : List (Nat × Nat × List Token) := nodeBufs c (List.range c.planes.nodes.length) 2048
/-- How many tokens of a node a save holds. -/
def savedHeld (c : Compartment) (n : Nat) : Nat := match (savedNodes c).find? (fun e => e.1 == n) with | some e => e.2.2.length | none => 0
/-- The tokens that a save has no place for, by node: the machine keeps them beside it (log 26). -/
def heldOver (c : Compartment) : SMap (List Token) :=
  (List.range c.planes.nodes.length).foldl (fun (m : SMap (List Token)) n =>
    if nodeSlots (nodeAt c.planes n) 1 = 0 then m else m.set n ((c.units.get n).queue.drop (savedHeld c n))) []

/-- Every token buffer: slots and tokens, edges first and then the nodes that hold tokens. -/
def saveBufs (c : Compartment) : List (Nat × List Token) :=
  (List.range c.planes.edges.length).map (fun i => (edgeDepth c.planes i, c.bufs.get i)) ++ (savedNodes c).map (·.2)

/-- A compartment's save (R306): the areas follow the header in the order of its offsets. -/
def saveBytes (c : Compartment) : List Byte :=
  let bufs := saveBufs c
  let occ := pad64 (packBits (bufs.flatMap (fun b => List.replicate b.2.length true ++ List.replicate (b.1 - b.2.length) false)))
  let tok := pad64 (bufs.flatMap (fun b => b.2.flatMap (fun t => w64 t.data.toNat ++ w64 (tokenWord t))))
  let st := pad64 ((List.range c.planes.nodes.length).flatMap (fun n =>
    w64 (unitWord0 (nodeAt c.planes n) (c.units.get n) (savedHeld c n)) ++ w64 (unitWord1 (c.units.get n))))
  let sq := seqArea c
  let con := pad64 (c.planes.consts.flatMap (fun w => w64 w.toNat))
  let arg := pad64 (c.args.flatMap (fun w => w64 w.toNat))
  let o1 := 64 + occ.length
  let o2 := o1 + tok.length
  let o3 := o2 + st.length
  let o4 := o3 + sq.length
  let o5 := o4 + con.length
  let len := o5 + arg.length
  w64 (0x50444C53 + 2 ^ 32 * c.planes.cfgid) ++ w64 (c.planes.crc + 2 ^ 32 * c.planes.shr + 2 ^ 40 * c.planes.shc) ++ w64 c.imgva.toNat ++
    w64 c.bar.toNat ++ w64 (len + 2 ^ 32 * c.flg.toNat) ++ w64 (64 + 2 ^ 32 * o1) ++ w64 (o2 + 2 ^ 32 * o3) ++ w64 (o4 + 2 ^ 32 * o5) ++
    occ ++ tok ++ st ++ sq ++ con ++ arg

end Sys2Proof.Machine
end

