-- ==== Sys2Proof/Machine/Integer.lean ====
section
/-!
DEFINITION. The integer family (R111, R112): one exact result for each sub-element, wrapped or clamped, in formats A and I.
-/

namespace Sys2Proof.Machine

/-- Wrapping, or clamping with `.sat`, into `w` bits; clamping sets OF and NX (R40, R110, R111). -/
def fitInt (w : Nat) (uns sat : Bool) (x : Int) : Nat × BitVec 5 :=
  if sat then (wrapBits w (clampInt w uns x), clampFlags (clampInt w uns x != x)) else (wrapBits w x, 0)

/-- Two operands to an exact integer. -/
def int2 (shp : Shape) (uns sat : Bool) (f : Int → Int → Int) (r : BitVec 32) (a b _c : Nat) : SubRes :=
  let w := shp.width
  let v := fitInt w uns sat (f (toInt w uns a) (toInt w uns b))
  ⟨v.1, v.2, r⟩

def addFn (shp : Shape) (uns sat : Bool) : BitVec 32 → Nat → Nat → Nat → SubRes := int2 shp uns sat (· + ·)
def subFn (shp : Shape) (uns sat : Bool) : BitVec 32 → Nat → Nat → Nat → SubRes := int2 shp uns sat (· - ·)
def mulFn (shp : Shape) (uns sat : Bool) : BitVec 32 → Nat → Nat → Nat → SubRes := int2 shp uns sat (· * ·)
/-- The high half of the product, floored (R111). -/
def mulhFn (shp : Shape) (uns : Bool) : BitVec 32 → Nat → Nat → Nat → SubRes :=
  int2 shp uns false (fun a b => Int.fdiv (a * b) (2 ^ shp.width : Nat))
def madFn (shp : Shape) (uns sat : Bool) (r : BitVec 32) (a b c : Nat) : SubRes :=
  let w := shp.width
  let v := fitInt w uns sat (toInt w uns a * toInt w uns b + toInt w uns c)
  ⟨v.1, v.2, r⟩
def minFn (shp : Shape) (uns : Bool) : BitVec 32 → Nat → Nat → Nat → SubRes := int2 shp uns false (fun a b => if a ≤ b then a else b)
def maxFn (shp : Shape) (uns : Bool) : BitVec 32 → Nat → Nat → Nat → SubRes := int2 shp uns false (fun a b => if b ≤ a then a else b)
def absFn (shp : Shape) (sat : Bool) : BitVec 32 → Nat → Nat → Nat → SubRes := int2 shp false sat (fun a _ => a.natAbs)
def andFn (r : BitVec 32) (a b _c : Nat) : SubRes := ⟨a &&& b, 0, r⟩
def orFn (r : BitVec 32) (a b _c : Nat) : SubRes := ⟨a ||| b, 0, r⟩
def xorFn (r : BitVec 32) (a b _c : Nat) : SubRes := ⟨a ^^^ b, 0, r⟩
def andnFn (shp : Shape) (r : BitVec 32) (a b _c : Nat) : SubRes := ⟨a &&& (2 ^ shp.width - 1 - b), 0, r⟩
/-- A shift by the width or more gives 0, or the limit with `.sat` (R111). -/
def shlFn (shp : Shape) (uns sat : Bool) (r : BitVec 32) (a b _c : Nat) : SubRes :=
  let w := shp.width
  let v := fitInt w uns sat (toInt w uns a * (2 ^ min b w : Nat))
  ⟨v.1, v.2, r⟩
def shrFn (shp : Shape) (r : BitVec 32) (a b _c : Nat) : SubRes := ⟨if b ≥ shp.width then 0 else a / 2 ^ b, 0, r⟩
def sarFn (shp : Shape) (r : BitVec 32) (a b _c : Nat) : SubRes :=
  let w := shp.width
  ⟨wrapBits w (Int.fdiv (toInt w false a) (2 ^ min b w : Nat)), 0, r⟩
def popcFn (shp : Shape) (r : BitVec 32) (a _b _c : Nat) : SubRes := ⟨((List.range shp.width).filter (fun i => a.testBit i)).length, 0, r⟩
def clzFn (shp : Shape) (r : BitVec 32) (a _b _c : Nat) : SubRes := ⟨if a = 0 then shp.width else shp.width - 1 - Nat.log2 a, 0, r⟩

/-- Position and clipped length of a bit field (R112). -/
def bfPos (shp : Shape) (b : Nat) : Nat := if shp = .i64 then b % 64 else b % 32
def bfLen (shp : Shape) (b : Nat) : Nat := min (if shp = .i64 then b / 256 % 128 else b / 256 % 64) (shp.width - bfPos shp b)
def bfxFn (shp : Shape) (uns : Bool) (r : BitVec 32) (a b _c : Nat) : SubRes :=
  let n := bfLen shp b
  let fld := a / 2 ^ bfPos shp b % 2 ^ n
  ⟨if n = 0 then 0 else wrapBits shp.width (toInt n uns fld), 0, r⟩
def bfiFn (shp : Shape) (r : BitVec 32) (a b c : Nat) : SubRes :=
  let n := bfLen shp b
  let p := bfPos shp b
  ⟨c - (c / 2 ^ p % 2 ^ n) * 2 ^ p + (a % 2 ^ n) * 2 ^ p, 0, r⟩
def leaFn (shp : Shape) (sat : Bool) (k : Nat) : BitVec 32 → Nat → Nat → Nat → SubRes := int2 shp false sat (fun a b => a + b * (2 ^ k : Nat))

/-- `.uns` of a format-A word. -/
def FmtAuns (f : FmtA) : Bool := f.fam.getLsbD 0

/-- A format-A integer word of two operands (R111). -/
def intA (f : FmtA) (b c : Bool) (fn : BitVec 32 → Nat → Nat → Nat → SubRes) : State → Nat → Eff :=
  elemF f.shp f.msk f.d f.rt (fun _ => fn) (fun x => opsA x f b c)
/-- A format-I integer word (R54). -/
def intI (f : FmtI) (c : Bool) (fn : BitVec 32 → Nat → Nat → Nat → SubRes) : State → Nat → Eff :=
  elemF f.shp f.msk f.d .elem (fun _ => fn) (fun x => opsI x f (immInt f.shp 27 f.imm.toNat) c)

def execIadd (f : FmtA) (s : State) : Out := issue (.iadd f) (intA f true false (addFn f.shp (FmtAuns f) f.sat)) s
def execIaddI (f : FmtI) (s : State) : Out := issue (.iaddI f) (intI f false (addFn f.shp false false)) s
def execIsub (f : FmtA) (s : State) : Out := issue (.isub f) (intA f true false (subFn f.shp (FmtAuns f) f.sat)) s
def execIsubI (f : FmtI) (s : State) : Out := issue (.isubI f) (intI f false (subFn f.shp false false)) s
def execImul (f : FmtA) (s : State) : Out := issue (.imul f) (intA f true false (mulFn f.shp (FmtAuns f) f.sat)) s
def execImulI (f : FmtI) (s : State) : Out := issue (.imulI f) (intI f false (mulFn f.shp false false)) s
def execImulh (f : FmtA) (s : State) : Out := issue (.imulh f) (intA f true false (mulhFn f.shp (FmtAuns f))) s
def execImulhI (f : FmtI) (s : State) : Out := issue (.imulhI f) (intI f false (mulhFn f.shp false)) s
def execImad (f : FmtA) (s : State) : Out := issue (.imad f) (intA f true true (madFn f.shp (FmtAuns f) f.sat)) s
def execImadI (f : FmtI) (s : State) : Out := issue (.imadI f) (intI f true (madFn f.shp false false)) s
def execImin (f : FmtA) (s : State) : Out := issue (.imin f) (intA f true false (minFn f.shp (FmtAuns f))) s
def execIminI (f : FmtI) (s : State) : Out := issue (.iminI f) (intI f false (minFn f.shp false)) s
def execImax (f : FmtA) (s : State) : Out := issue (.imax f) (intA f true false (maxFn f.shp (FmtAuns f))) s
def execImaxI (f : FmtI) (s : State) : Out := issue (.imaxI f) (intI f false (maxFn f.shp false)) s
def execIabs (f : FmtA) (s : State) : Out := issue (.iabs f) (intA f false false (absFn f.shp f.sat)) s
def execIabsI (f : FmtI) (s : State) : Out := issue (.iabsI f) (intI f false (absFn f.shp false)) s
def execAnd (f : FmtA) (s : State) : Out := issue (.and f) (intA f true false andFn) s
def execAndI (f : FmtI) (s : State) : Out := issue (.andI f) (intI f false andFn) s
def execOr (f : FmtA) (s : State) : Out := issue (.or f) (intA f true false orFn) s
def execOrI (f : FmtI) (s : State) : Out := issue (.orI f) (intI f false orFn) s
def execXor (f : FmtA) (s : State) : Out := issue (.xor f) (intA f true false xorFn) s
def execXorI (f : FmtI) (s : State) : Out := issue (.xorI f) (intI f false xorFn) s
def execAndn (f : FmtA) (s : State) : Out := issue (.andn f) (intA f true false (andnFn f.shp)) s
def execAndnI (f : FmtI) (s : State) : Out := issue (.andnI f) (intI f false (andnFn f.shp)) s
def execShl (f : FmtA) (s : State) : Out := issue (.shl f) (intA f true false (shlFn f.shp (FmtAuns f) f.sat)) s
def execShlI (f : FmtI) (s : State) : Out := issue (.shlI f) (intI f false (shlFn f.shp false false)) s
def execShr (f : FmtA) (s : State) : Out := issue (.shr f) (intA f true false (shrFn f.shp)) s
def execShrI (f : FmtI) (s : State) : Out := issue (.shrI f) (intI f false (shrFn f.shp)) s
def execSar (f : FmtA) (s : State) : Out := issue (.sar f) (intA f true false (sarFn f.shp)) s
def execSarI (f : FmtI) (s : State) : Out := issue (.sarI f) (intI f false (sarFn f.shp)) s
def execPopc (f : FmtA) (s : State) : Out := issue (.popc f) (intA f false false (popcFn f.shp)) s
def execPopcI (f : FmtI) (s : State) : Out := issue (.popcI f) (intI f false (popcFn f.shp)) s
def execClz (f : FmtA) (s : State) : Out := issue (.clz f) (intA f false false (clzFn f.shp)) s
def execClzI (f : FmtI) (s : State) : Out := issue (.clzI f) (intI f false (clzFn f.shp)) s
def execBfx (f : FmtA) (s : State) : Out := issue (.bfx f) (intA f true false (bfxFn f.shp (FmtAuns f))) s
def execBfxI (f : FmtI) (s : State) : Out := issue (.bfxI f) (intI f false (bfxFn f.shp false)) s
def execBfi (f : FmtA) (s : State) : Out := issue (.bfi f) (intA f true true (bfiFn f.shp)) s
def execBfiI (f : FmtI) (s : State) : Out := issue (.bfiI f) (intI f true (bfiFn f.shp)) s
def execLea (f : FmtA) (s : State) : Out := issue (.lea f) (intA f true false (leaFn f.shp f.sat f.fam.toNat)) s
def execLeaI (f : FmtI) (s : State) : Out := issue (.leaI f) (intI f false (leaFn f.shp false 0)) s

end Sys2Proof.Machine
end

