-- ==== Sys2Proof/Machine/Units.lean ====
section
/-!
DEFINITION. Units and islands of a running graph: firing (R299 to R301), dot products (R302), constants while running (R303), and abandonment
(R304).
-/

namespace Sys2Proof.Machine

-- ===== compartments =====

def cmpOf (s : State) (n : Nat) : Compartment := s.comps.get n
def setCmp (s : State) (n : Nat) (c : Compartment) : State := { s with comps := s.comps.set n c }
def updCmp (s : State) (n : Nat) (f : Compartment → Compartment) : State := setCmp s n (f (cmpOf s n))

/-- A configuration without its run: buffers, unit states, sluices and sequencer empty (R304, R335). -/
def stopped (c : Compartment) : Compartment :=
  { c with bufs := [], units := [], switching := [], seq := {}, sl := [], args := [], quiet := 0 }

/-- EMPTY: the configuration and its islands go (R290). -/
def unloaded (c : Compartment) : Compartment := { stopped c with st := .empty, planes := {}, imgva := 0, islands := [] }

/-- A running graph is abandoned with a code (R304): the break at the barrier's home, ERR, a record of kind 6, LOADED, or EMPTY for ECC. -/
def abandon (s : State) (n code : Nat) : State :=
  let c := cmpOf s n
  let s1 := breakBar s c.barAt.2 c.barAt.1 4 n
  let s2 := pushRecord s1 c.grant (BitVec.ofNat 64 (6 + 2 ^ 8 * code + 2 ^ 16 * n)) c.bar c.seq.pc
  let d := { stopped c with err := code, st := .loaded }
  setCmp s2 n (if code = fcEcc then unloaded d else d)

-- ===== edges at run time =====

/-- The edge that feeds an input port. -/
def inEdge (p : Planes) (n port : Nat) : Option Nat := p.edges.findIdx? (fun e => !edDk e && edDst e == n && edDport e == port)
/-- The edge that an output port feeds. -/
def outEdge (p : Planes) (n port : Nat) : Option Nat := p.edges.findIdx? (fun e => !edSk e && edSrc e == n && edSport e == port)

def headTok (c : Compartment) (i : Nat) : Option Token := (c.bufs.get i).head?
def popTok (c : Compartment) (i : Nat) : Compartment := { c with bufs := c.bufs.upd i (fun q => q.drop 1) }
def pushTok (c : Compartment) (i : Nat) (t : Token) : Compartment := { c with bufs := c.bufs.upd i (fun q => q ++ [t]) }
/-- Room for tokens in an edge's buffer. -/
def hasRoom (c : Compartment) (i n : Nat) : Bool := (c.bufs.get i).length + n ≤ edgeDepth c.planes i

/-- Room for one token at every output of a node. -/
def outsFree (c : Compartment) (n : Nat) : Bool :=
  (List.range (outPorts (nodeAt c.planes n))).all (fun p => match outEdge c.planes n p with | some i => hasRoom c i 1 | none => true)
/-- A token on an output port; one that no edge takes is discarded (R293). -/
def emitAt (c : Compartment) (n p : Nat) (t : Token) : Compartment :=
  match outEdge c.planes n p with
  | some i => pushTok c i t
  | none => c
/-- A token on every output port. -/
def emitAll (c : Compartment) (n : Nat) (t : Token) : Compartment :=
  (List.range (outPorts (nodeAt c.planes n))).foldl (fun c p => emitAt c n p t) c

/-- What a firing does. -/
inductive Fired where
  | idle
  | stop (code : Nat)
  | ok (c : Compartment)
  deriving DecidableEq, Repr

/-- The entry that a node reads as its constant: the old value until the node has switched (R303). -/
def constOf (c : Compartment) (n : Nat) : Nat :=
  let e := nodeAt c.planes n
  let i := ndCidx e
  let v := match c.switching.find? (fun w => w.entry == i && w.nodes.contains n) with
    | some w => w.old
    | none => c.planes.consts.getD i 0
  v.toNat % 2 ^ widthBits (ndW e)

-- ===== element values =====

/-- One rounding into a unit's format (R299). -/
def unitRound (f : EF) (sat : Bool) (r : Val × BitVec 5) : Nat × BitVec 5 :=
  let b := f.encode .rne sat 0 r.1
  (b.1, b.2 ||| r.2)

/-- ADD, SUB, MUL, FMA, ABS, NEG on integers. -/
def unitInt (o w : Nat) (uns sat : Bool) (a b c : Int) : Nat × BitVec 5 :=
  fitInt w uns sat (match o with
    | 0 => a + b
    | 1 => a - b
    | 2 => a * b
    | 3 => a * b + c
    | 6 => a.natAbs
    | _ => -a)

/-- ADD, SUB, MUL, FMA, EXP2, RCP on values. -/
def unitVal (o : Nat) (a b c : Val) : Val × BitVec 5 :=
  match o with
  | 0 => a.add .rne b
  | 1 => a.add .rne b.negate
  | 2 => a.mul b
  | 3 => Val.fma .rne a b c
  | 28 => a.exp2
  | _ => a.rcp

/-- MIN and MAX (R299): IMIN and IMAX, or FMIN and FMAX; TS8 has neither NaN nor −0. -/
def unitMinMax (f : EF) (wantMax : Bool) (a b : Nat) : Nat × BitVec 5 :=
  match f with
  | .int w uns => (if (if wantMax then toInt w uns b ≤ toInt w uns a else toInt w uns a ≤ toInt w uns b) then a else b, 0)
  | .fp g =>
    let r := fpMinMax (match g with | .fp64 => .f64 | .fp32 => .f32x2 | .fp16 => .f16x4 | .bf16 => .bf16x4 | .e4m3 => .e4m3x8 | .e5m2 => .e5m2x8 | _ => .e2m1x16)
      wantMax default 0 a b 0
    (r.bits, r.flags)
  | _ => (if (if wantMax then ts8Int b ≤ ts8Int a else ts8Int a ≤ ts8Int b) then a else b, 0)

/-- ABS and NEG on floating formats: the sign of a value that is not NaN (R114). -/
def unitSign (f : EF) (neg : Bool) (a : Nat) : Nat × BitVec 5 :=
  match f with
  | .fp g =>
    let v := g.decode a
    let top := 2 ^ (g.width - 1)
    if v.isNan then (g.canonNan, flagIf v.isSig fNV)
    else (if neg then (if a / top % 2 = 1 then a - top else a + top) else a % top, 0)
  | _ => (f.encode .rne false 0 (if neg then (f.decode a).negate else (f.decode a).abs))

/-- CMP's condition (R116). -/
def unitCond (f : EF) (w c a b : Nat) : Bool × BitVec 5 :=
  match f with
  | .int _ _ => (icmpCond w c a b, 0)
  | .fp g => fcmpCond g c a b
  | _ =>
    let x := ts8Int a
    let y := ts8Int b
    (match c with | 0 => x == y | 1 => x != y | 2 => x < y | 3 => x ≤ y | 4 => y < x | 5 => y ≤ x | 6 => false | _ => true, 0)

/-- CVT (R122, R299). -/
def unitCvt (src dst : EF) (a : Nat) : Nat × BitVec 5 :=
  match src, dst with
  | .int w u, .int w2 u2 => fitInt w2 u2 false (toInt w u (a % 2 ^ w))
  | _, _ => dst.encode .rne false 0 (src.decode (a % 2 ^ src.width))

/-- The element effect of an element-wise unit on its operands (R299). -/
def unitEffect (e : BitVec 64) (vs : List Nat) : Nat × BitVec 5 :=
  let o := ndOpc e
  let w := widthBits (ndW e)
  let f := ndEF (ndFmt e) (ndW e)
  let v (i : Nat) : Nat := vs.getD i 0 % 2 ^ w
  let uns := ndFmt e == 1
  match o with
  | 4 => unitMinMax f false (v 0) (v 1)
  | 5 => unitMinMax f true (v 0) (v 1)
  | 8 => let r := unitCond f w (ndSub e) (v 0) (v 1); (onesIf w r.1, r.2)
  | 9 => (if vs.getD 0 0 ≠ 0 then v 1 else v 2, 0)
  | 10 => (v 0 &&& v 1, 0)
  | 11 => (v 0 ||| v 1, 0)
  | 12 => (v 0 ^^^ v 1, 0)
  | 13 => (if w ≤ v 1 then 0 else v 0 * 2 ^ v 1 % 2 ^ w, 0)
  | 14 => (if uns then (if w ≤ v 1 then 0 else v 0 / 2 ^ v 1) else wrapBits w (Int.fdiv (toInt w false (v 0)) (2 ^ min (v 1) w : Nat)), 0)
  | 15 => unitCvt (ndEF (field e 16 4) (field e 20 3)) f (vs.getD 0 0)
  | 19 => (vs.getD 0 0, 0)
  | 25 => (vs.getD 0 0, 0)
  | _ =>
    match f with
    | .int w2 u => unitInt o w2 u (ndSat e) (toInt w2 u (v 0)) (toInt w2 u (v 1)) (toInt w2 u (v 2))
    | _ =>
      if o = 6 || o = 7 then unitSign f (o == 7) (v 0)
      else unitRound f (ndSat e) (unitVal o (f.decode (v 0)) (f.decode (v 1)) (f.decode (v 2)))

-- ===== element-wise units =====

def elemTok (d : Nat) (ends : BitVec 4) (poi : Bool) : Token := { data := BitVec.ofNat 64 d, valid := true, ends := ends, poi := poi }
def bareTok (ends : BitVec 4) (poi : Bool) : Token := { ends := ends, poi := poi }

/-- Tokens of one firing agree (R299). -/
def tokensAgree : List Token → Bool
  | [] => true
  | t :: r => r.all (fun u => u.valid == t.valid && u.ends == t.ends && !u.scale) && !t.scale

/-- The tokens at the heads of a node's fed ports; none while one is missing or the node has none. -/
def headsOf (c : Compartment) (n : Nat) : Option (List Token) :=
  if fedPorts (nodeAt c.planes n) = 0 then none
  else (List.range (fedPorts (nodeAt c.planes n))).mapM (fun p => match inEdge c.planes n p with | some i => headTok c i | none => none)

/-- One token consumed from each fed port. -/
def popAll (c : Compartment) (n : Nat) : Compartment :=
  (List.range (fedPorts (nodeAt c.planes n))).foldl (fun c p => match inEdge c.planes n p with | some i => popTok c i | none => c) c

def addFlg (c : Compartment) (f : BitVec 5) : Compartment := { c with flg := c.flg ||| f }

/-- A firing of an element-wise unit. -/
def fireElem (c : Compartment) (n : Nat) (ts : List Token) : Fired :=
  let e := nodeAt c.planes n
  let t := ts.headD default
  let poi := ts.any (·.poi)
  if !tokensAgree ts then .stop fcMismatch
  else if !t.valid then .ok (emitAll (popAll c n) n (bareTok t.ends poi))
  else
    let vs := ts.map (fun u => u.data.toNat) ++ (if hasConst e then [constOf c n] else [])
    let r := if ndOpc e = 24 then (constOf c n, 0) else unitEffect e vs
    .ok (emitAll (addFlg (popAll c n) r.2) n (elemTok r.1 t.ends poi))

-- ===== ACC, CNT, FLT (R300) =====

def fireAcc (c : Compartment) (n : Nat) (t : Token) : Fired :=
  let e := nodeAt c.planes n
  let u := c.units.get n
  let w := widthBits (ndW e)
  let f := ndEF (ndFmt e) (ndW e)
  let a := u.sum.toNat
  let b := t.data.toNat % 2 ^ w
  let r : Nat × BitVec 5 :=
    if ndOpc e = 17 then ((a + 1) % 2 ^ w, 0)
    else if !u.started then (b, 0)
    else match f with
      | .int _ _ => ((a + b) % 2 ^ w, 0)
      | _ => unitRound f false ((f.decode a).add .rne (f.decode b))
  let u1 : UnitState := if t.valid then { u with sum := BitVec.ofNat 64 r.1, started := true, poi := u.poi || t.poi } else u
  let c1 := addFlg (popAll c n) (if t.valid then r.2 else 0)
  if t.scale then .stop fcMismatch
  else if t.ends.getLsbD (ndSub e % 4) then
    .ok (emitAll { c1 with units := c1.units.set n {} } n (elemTok (if u1.started then u1.sum.toNat else f.plusZero) t.ends u1.poi))
  else .ok { c1 with units := c1.units.set n u1 }

def fireFlt (c : Compartment) (n : Nat) (ts : List Token) : Fired :=
  let e := nodeAt c.planes n
  let t := ts.headD default
  let c1 := popAll c n
  let poiP := (ts.drop 1).any (·.poi)
  let pred := if hasConst e then constOf c n else ((ts.drop 1).headD default).data.toNat
  if !tokensAgree ts then .stop fcMismatch
  else if poiP then .stop fcPoison
  else if !t.valid then .ok (emitAll c1 n (bareTok t.ends t.poi))
  else if pred ≠ 0 then .ok (emitAll c1 n t)
  else if t.ends = 0 then .ok c1
  else .ok (emitAll c1 n (bareTok t.ends false))

-- ===== BUF =====

def fireBuf (c : Compartment) (n : Nat) : Fired :=
  let e := nodeAt c.planes n
  let q := (c.units.get n).queue
  let c1 := match q with
    | t :: r => if outsFree c n then emitAll { c with units := c.units.upd n (fun u => { u with queue := r }) } n t else c
    | [] => c
  let c2 := match inEdge c1.planes n 0 with
    | some i => match headTok c1 i with
      | some t => if (c1.units.get n).queue.length ≤ ndParam e then popTok { c1 with units := c1.units.upd n (fun u => { u with queue := u.queue ++ [t] }) } i else c1
      | none => c1
    | none => c1
  if c2 = c then .idle else .ok c2

-- ===== JOIN, UNION, MERGE (R300) =====

/-- What a unit emits when it consumes the left, the right, or both heads: port and data. -/
def segEmit (o : Nat) (a b : Option Token) : List (Nat × Nat) :=
  let v (t : Token) : Nat := t.data.toNat % 2 ^ 32
  let k (t : Token) : Nat := t.data.toNat / 2 ^ 32
  match a, b with
  | some x, some y => if o = 22 then [(0, x.data.toNat), (0, y.data.toNat)] else [(0, v y * 2 ^ 32 + v x), (1, k x)]
  | some x, none => if o = 22 then [(0, x.data.toNat)] else if o = 21 then [(0, v x), (1, k x)] else []
  | none, some y => if o = 22 then [(0, y.data.toNat)] else if o = 21 then [(0, v y * 2 ^ 32), (1, k y)] else []
  | none, none => []

/-- Room for a list of emissions. -/
def segRoom (c : Compartment) (n : Nat) (em : List (Nat × Nat)) : Bool :=
  (List.range 2).all (fun p => match outEdge c.planes n p with
    | some i => hasRoom c i (em.filter (fun e => e.1 == p)).length
    | none => true)

def closeA (u : UnitState) (e : BitVec 4) : UnitState := { u with closedA := true, endsA := e }
def closeB (u : UnitState) (e : BitVec 4) : UnitState := { u with closedB := true, endsB := e }

/-- A firing that consumes heads. -/
def segTake (c : Compartment) (n : Nat) (a b : Option Token) : Fired :=
  let em := segEmit (ndOpc (nodeAt c.planes n)) a b
  let pop (c : Compartment) (p : Nat) (t : Option Token) : Compartment := match t, inEdge c.planes n p with
    | some _, some i => popTok c i
    | _, _ => c
  let u := c.units.get n
  let u1 := match a with | some t => if t.ends = 0 then u else closeA u t.ends | none => u
  let u2 := match b with | some t => if t.ends = 0 then u1 else closeB u1 t.ends | none => u1
  if (match a with | some t => t.poi | none => false) || (match b with | some t => t.poi | none => false) then .stop fcPoison
  else if !segRoom c n em then .idle
  else .ok (em.foldl (fun c e => emitAt c n e.1 (elemTok e.2 0 false)) { pop (pop c 0 a) 1 b with units := c.units.set n u2 })

/-- A bare head closes its side. -/
def segBare (c : Compartment) (n port : Nat) (t : Token) : Fired :=
  if t.poi then .stop fcPoison
  else
    let c1 := match inEdge c.planes n port with | some i => popTok c i | none => c
    .ok { c1 with units := c1.units.upd n (fun u => if port = 0 then closeA u t.ends else closeB u t.ends) }

def fireSeg (c : Compartment) (n : Nat) : Fired :=
  let u := c.units.get n
  let hd (closed : Bool) (p : Nat) : Option Token := if closed then none else match inEdge c.planes n p with | some i => headTok c i | none => none
  let a := hd u.closedA 0
  let b := hd u.closedB 1
  if u.closedA && u.closedB then
    if u.endsA != u.endsB then .stop fcMismatch
    else if !outsFree c n then .idle
    else .ok (emitAll { c with units := c.units.set n {} } n (bareTok u.endsA false))
  else match a, b with
    | some x, some y =>
      if !x.valid then segBare c n 0 x
      else if !y.valid then segBare c n 1 y
      else
        let kx := x.data.toNat / 2 ^ 32
        let ky := y.data.toNat / 2 ^ 32
        if kx < ky then segTake c n (some x) none else if ky < kx then segTake c n none (some y) else segTake c n (some x) (some y)
    | some x, none => if !x.valid then segBare c n 0 x else if u.closedB then segTake c n (some x) none else .idle
    | none, some y => if !y.valid then segBare c n 1 y else if u.closedA then segTake c n none (some y) else .idle
    | none, none => .idle

-- ===== MX bursts (R301) =====

/-- The PTE code of the element format that a QNT unit produces. -/
def qntCode (e : BitVec 64) : Nat := match ndFmt e with | 6 => 6 | 7 => 7 | 8 => 10 | 9 => 12 | _ => 11
/-- A scale token: E8M0 in [7:0], and the element format's code above it (log 25). -/
def scaleToken (code sc : Nat) (poi : Bool) : Token := { data := BitVec.ofNat 64 (sc % 256 + 256 * code), valid := true, poi := poi, scale := true }

/-- The length of the bursts on a node's output or input edge. -/
def burstLen (c : Compartment) (i : Option Nat) : Nat := match i with | some i => edLen (edgeAt c.planes i) | none => 32

/-- A gathered burst becomes its scale token and its encoded elements. -/
def encodeBurst (c : Compartment) (n : Nat) (q : List Token) : Compartment :=
  let e := nodeAt c.planes n
  let src := ndEF (field e 16 4) (fmtW (field e 16 4))
  let dst := (fmtOf? (qntCode e)).getD .mxint8
  let r := (encBlock dst (q.map (fun t => src.decode (t.data.toNat % 2 ^ src.width)))).run 0
  let poi := q.any (·.poi)
  let out := scaleToken (qntCode e) r.1.1 poi :: (q.zip r.1.2).map (fun p => { p.1 with data := BitVec.ofNat 64 p.2, poi := poi })
  addFlg { c with units := c.units.set n { closedA := true, queue := out } } r.2

def fireQnt (c : Compartment) (n : Nat) : Fired :=
  let u := c.units.get n
  if u.closedA then
    match u.queue with
    | [] => .ok { c with units := c.units.set n {} }
    | t :: r => if !outsFree c n then .idle else .ok (emitAll { c with units := c.units.set n (if r.isEmpty then {} else { u with queue := r }) } n t)
  else match inEdge c.planes n 0 with
    | none => .idle
    | some i => match headTok c i with
      | none => .idle
      | some t =>
        if t.scale then .stop fcMismatch
        else if !t.valid then
          if !u.queue.isEmpty then .ok (encodeBurst c n u.queue) else if !outsFree c n then .idle else .ok (emitAll (popTok c i) n t)
        else
          let q := u.queue ++ [t]
          let c1 := popTok c i
          if t.ends ≠ 0 || burstLen c (outEdge c.planes n 0) ≤ q.length then .ok (encodeBurst c1 n q)
          else .ok { c1 with units := c1.units.set n { u with queue := q, burst := q.length } }

def fireDqnt (c : Compartment) (n : Nat) : Fired :=
  let e := nodeAt c.planes n
  let u := c.units.get n
  match inEdge c.planes n 0 with
  | none => .idle
  | some i => match headTok c i with
    | none => .idle
    | some t =>
      let c1 := popTok c i
      if t.scale then
        if u.started then .stop fcMismatch else .ok { c1 with units := c1.units.set n { sum := t.data, started := true, poi := t.poi } }
      else if !t.valid then
        if u.started && u.burst = 0 then .stop fcMismatch
        else if !outsFree c n then .idle
        else .ok (emitAll { c1 with units := c1.units.set n {} } n t)
      else if !u.started then .stop fcMismatch
      else if !outsFree c n then .idle
      else
        let src := (fmtOf? (field u.sum 8 4)).getD .mxint8
        let dst := ndEF (ndFmt e) (ndW e)
        let r := unitRound dst false (decScaled src (field u.sum 0 8) (t.data.toNat % 2 ^ src.width))
        let u1 : UnitState := if t.ends ≠ 0 || burstLen c (some i) ≤ u.burst + 1 then {} else { u with burst := u.burst + 1 }
        .ok (emitAll (addFlg { c1 with units := c1.units.set n u1 } r.2) n (elemTok r.1 t.ends (t.poi || u.poi)))

-- ===== one firing =====

/-- A unit fires (R299). -/
def fireUnit (c : Compartment) (n : Nat) : Fired :=
  let o := ndOpc (nodeAt c.planes n)
  if c.planes.nodes.length ≤ n || o = 30 then .idle
  else if o = 20 || o = 21 || o = 22 then fireSeg c n
  else if o = 23 then fireBuf c n
  else if o = 26 then fireQnt c n
  else if o = 27 then fireDqnt c n
  else match headsOf c n with
    | none => .idle
    | some ts =>
      if !outsFree c n then .idle
      else if o = 16 || o = 17 then fireAcc c n (ts.headD default)
      else if o = 18 then fireFlt c n ts
      else fireElem c n ts

/-- What a firing makes of the state: nothing while it cannot take place or the graph does not run. -/
def applyFired (s : State) (n : Nat) (r : Fired) : State :=
  match r with
  | .idle => s
  | .stop code => abandon s n code
  | .ok c => setCmp s n { c with quiet := 0 }

/-- A graph whose steps may take place: it runs and its context is not quarantined (R376). -/
def graphLive (s : State) (n : Nat) : Bool := (cmpOf s n).st == .running && (s.ctxs.get (cmpOf s n).grant).st != .quarantined

/-- UNIT_FIRE. -/
def execUnitFire (cmp node : Nat) (s : State) : Out :=
  .next (if graphLive s cmp then applyFired s cmp (fireUnit (cmpOf s cmp) node) else s)

-- ===== islands (R302) =====

/-- The tokens of a segment: those up to and with the first that carries end bits; none while it is not complete. -/
def segmentOf : List Token → Option (List Token × List Token)
  | [] => none
  | t :: r => if t.ends ≠ 0 && !t.scale then some ([t], r) else match segmentOf r with
    | some p => some (t :: p.1, p.2)
    | none => none

/-- A scale token that no element has followed yet. -/
def bareScale (len : Nat) : Option (Nat × Nat) → Bool
  | some p => p.2 == len
  | none => false

/-- Values of a segment's elements and their flags; none where scale tokens stand wrong. `sc` is the scale in force with the elements left to it. -/
def segValues (f : EF) (mx : Bool) (len : Nat) : Option (Nat × Nat) → List Token → Option (List Val × BitVec 5)
  | sc, [] => if bareScale len sc then none else some ([], 0)
  | sc, t :: r =>
    if t.scale then
      if !mx || sc.isSome then none else segValues f mx len (some (t.data.toNat % 256, len)) r
    else if !t.valid then
      if bareScale len sc then none else segValues f mx len none r
    else
      let raw := t.data.toNat % 256
      match mx, sc with
      | true, none => none
      | true, some (x, left) =>
        let v := decScaled f x raw
        match segValues f mx len (if left ≤ 1 then none else some (x, left - 1)) r with
        | some q => some (v.1 :: q.1, v.2 ||| q.2)
        | none => none
      | false, _ => match segValues f mx len none r with
        | some q => some (f.decode raw :: q.1, q.2)
        | none => none

def segCount (ts : List Token) : Nat := (ts.filter (fun t => t.valid && !t.scale)).length
def segEnds (ts : List Token) : BitVec 4 := match ts.getLast? with | some t => t.ends | none => 0

/-- One row's dot product with `b`: none where the two segments do not match. -/
def islandRow (c : Compartment) (n : Nat) (a b : List Token) : Option (Nat × Bool × BitVec 5) :=
  let f := ndEF (ndFmt (nodeAt c.planes n)) 1
  let mx (p : Nat) : Bool := match inEdge c.planes n p with | some i => edMx (edgeAt c.planes i) | none => false
  let len (p : Nat) : Nat := burstLen c (inEdge c.planes n p)
  if segCount a != segCount b || segEnds a != segEnds b then none
  else match segValues f (mx 0) (len 0) none a, segValues f (mx 1) (len 1) none b with
    | some x, some y =>
      let r := (dot x.1 y.1).run (x.2 ||| y.2)
      some ((bits32 r.1).toNat, (a ++ b).any (·.poi), r.2)
    | _, _ => none

/-- An island takes one token, of `b` until its segment is complete and then of A; a row that it completes gives its product. -/
def islandTake (c : Compartment) (n : Nat) : Fired :=
  let u := c.units.get n
  let tk (port : Nat) (k : Compartment → Token → Fired) : Fired := match inEdge c.planes n port with
    | some i => match headTok c i with
      | some t => k (popTok c i) t
      | none => .idle
    | none => .idle
  match segmentOf u.queue with
  | none => tk 1 (fun c t => .ok { c with units := c.units.set n { u with queue := u.queue ++ [t] } })
  | some (b, part) => tk 0 (fun c1 t =>
    let a := part ++ [t]
    if segCount b < segCount a then .stop fcMismatch
    else if t.ends = 0 || t.scale then .ok { c1 with units := c1.units.set n { u with queue := b ++ a } }
    else if !outsFree c n then .idle
    else match islandRow c n a b with
      | none => .stop fcMismatch
      | some r =>
        let last := ndParam (nodeAt c.planes n) ≤ u.burst
        let u1 : UnitState := if last then {} else { u with queue := b, burst := u.burst + 1 }
        .ok (emitAt (addFlg { c1 with units := c1.units.set n u1 } r.2.2) n 0 (elemTok r.1 (if last then segEnds b else 0) r.2.1)))

/-- An island goes on until it waits, at most `k` tokens. -/
def islandRun (n : Nat) : Nat → Compartment → Fired → Fired
  | 0, _, r => r
  | k + 1, c, r => match islandTake c n with
    | .idle => r
    | .stop code => .stop code
    | .ok c1 => islandRun n k c1 (.ok c1)

/-- ISLAND_DOT: an island takes the tokens that it can and emits the products that they complete. -/
def islandDot (c : Compartment) (n : Nat) : Fired :=
  if c.planes.nodes.length ≤ n || !isIsland (nodeAt c.planes n) then .idle
  else
    let held (p : Nat) : Nat := match inEdge c.planes n p with | some i => (c.bufs.get i).length | none => 0
    islandRun n (held 0 + held 1) c .idle
def execIslandDot (cmp node : Nat) (s : State) : Out :=
  .next (if graphLive s cmp then applyFired s cmp (islandDot (cmpOf s cmp) node) else s)

-- ===== constants (R303) =====

/-- Rewriting an entry: every unit that reads it switches at a clock of its own. -/
def putConst (c : Compartment) (i : Nat) (v : BitVec 64) : Compartment :=
  let ns := (List.range c.planes.nodes.length).filter (fun n => ndCidx (nodeAt c.planes n) == i && !isIsland (nodeAt c.planes n))
  let c1 := { c with planes := { c.planes with consts := c.planes.consts.set i v } }
  if c.st = .running && !ns.isEmpty then { c1 with switching := c1.switching ++ [⟨i, c.planes.consts.getD i 0, ns⟩] } else c1

/-- A node switches to the next value of the entry that it reads. -/
def switchNode (n : Nat) : List ConstSwitch → List ConstSwitch
  | [] => []
  | w :: r => if w.nodes.contains n then (let ns := w.nodes.filter (· != n); if ns.isEmpty then r else { w with nodes := ns } :: r) else w :: switchNode n r
def switchConst (s : State) (cmp n : Nat) : State := updCmp s cmp (fun c => { c with switching := switchNode n c.switching })

-- ===== STALL (R304) =====

/-- A sequencer that is not executing (R331): halted, or waiting at REC or PWAIT. -/
def seqIdle (q : Seqr) : Bool := q.halted || (match q.wait with | .room _ => true | .done _ => true | _ => false)

/-- 2^20 quiet fabric clocks abandon a graph that waits for nothing else. -/
def stallDue (c : Compartment) : Bool :=
  c.st == .running && 2 ^ 20 ≤ c.quiet && !c.sl.any (fun e => e.2.stalled) && !c.seq.stalled && seqIdle c.seq
def execStallTimeout (cmp : Nat) (s : State) : Out := .next (if stallDue (cmpOf s cmp) then abandon s cmp fcStall else s)

end Sys2Proof.Machine
end

