-- ==== Sys2Proof/Machine/Sluice.lean ====
section
/-!
DEFINITION. Sluices (chapter 14): stream records (R318 to R320), the walk (R321), elements and their values (R322 to R325), write streams (R326), and
stream faults (R328 to R330).
-/

namespace Sys2Proof.Machine

-- ===== records (R318, R319) =====

def rcSlc (hi : BitVec 64) : Nat := field hi 55 5
/-- A head command's own fields are as R318 allows. -/
def headOk (lo hi : BitVec 64) : Bool :=
  let dm := field hi 50 2
  let ew := field hi 47 3
  let tf := field hi 43 4
  field hi 60 4 == 1 && field hi 0 43 == 0 && field lo 55 9 == 0 && dm != 3 && ew ≤ 4 &&
    (if dm = 1 then 2 ≤ tf && tf ≤ 5 && fmtW tf == ew else tf == 0)
/-- A dimension command stands in order. -/
def dimOk (d : Nat) (hi : BitVec 64) : Bool := field hi 60 4 == 2 && field hi 58 2 == d && field hi 32 26 == 0

/-- The record of a head command and its dimension commands (word pairs); `base` is the BASE as accepted, of which bits [63:55] must be zero
(R334). -/
def recOf (base hi : BitVec 64) (dims : List (BitVec 64 × BitVec 64)) : StreamRec :=
  { write := flag hi 54, dmode := field hi 50 2, ew := field hi 47 3, tfmt := field hi 43 4, base := field base 0 55, badBase := field base 55 9 != 0,
    counts := dims.map (fun d => field d.2 0 32), strides := dims.map (·.1), cmds := base :: hi :: dims.flatMap (fun d => [d.1, d.2]) }

/-- The edge that names a sluice. -/
def sluiceEdge (p : Planes) (i : Nat) : Option Nat := p.edges.findIdx? (fun e => (edSk e && edSrc e == i) || (edDk e && edDst e == i))

/-- The width code that the node port of a sluice's edge takes; none for any width (R320). -/
def sluiceW (p : Planes) (e : BitVec 64) : Option Nat := if edSk e then portW (nodeAt p (edDst e)) (edDport e) else some (outW (nodeAt p (edSrc e)))

-- ===== the walk (R321) =====

/-- The end bits of a position. -/
def walkEnds (cs : List Nat) (posn : Nat) : BitVec 4 :=
  let n := cs.length
  match walkZ cs with
  | some z => if z + 1 = n then BitVec.ofNat 4 (2 ^ n - 1) else
    BitVec.ofNat 4 (2 ^ (z + 1) - 1) ||| ((List.range n).filter (fun d => z < d && ((List.range (d + 1)).all (fun c => c ≤ z || walkIx cs posn c + 1 == cs.getD c 0)))).foldl
      (fun m d => m ||| (1#4 <<< d)) 0
  | none => ((List.range n).filter (fun d => (List.range (d + 1)).all (fun c => walkIx cs posn c + 1 == cs.getD c 0))).foldl (fun m d => m ||| (1#4 <<< d)) 0

/-- Whether the walk's positions are bare. -/
def walkBare (cs : List Nat) : Bool := (walkZ cs).isSome

/-- The element of a position. -/
def walkElem (r : StreamRec) (posn : Nat) : Int :=
  ((List.range r.counts.length).map (fun d => (walkIx r.counts posn d : Int) * (r.strides.getD d 0).toInt)).foldl (· + ·) 0

-- ===== places of elements (R317, R322, R323, R324) =====

/-- A check of a sluice's access: the granted context's root, the level of the FRUN, its own stack (R317). The SRAM of its own stack's base die counts
as the stack's own (log 29). -/
def slAddr (s : State) (n : Nat) (k : Acc) (va : BitVec 64) : Except Trap Xl :=
  let c := cmpOf s n
  match checkAddr s c.grant c.sup k false va 1 with
  | .error t => .error t
  | .ok x => if stackOf x.pa = n / 8 then .ok x else .error ⟨cProt, va⟩

/-- Where an element lies: its bits, its scale byte, and its page's format. -/
structure Place where
  pa : Nat
  key : Nat
  sh : Nat              -- first bit within the byte at `pa`
  w : Nat
  scale : Option Nat := none
  blk : Nat × Nat := (0, 0)   -- the unit's address and the block in it
  fmt : Nat := 0
  ef : EF := .mxint8
  bl : Option Nat := none
  bg : Nat := 0

/-- An outcome of an element: its place, a stream fault, or a code that abandons the graph. -/
inductive Spot where
  | found (p : Place)
  | fault (t : Trap)
  | stop (code : Nat)

def vaOf (x : Int) : BitVec 64 := BitVec.ofInt 64 x

/-- A raw element (R322). -/
def rawPlace (s : State) (n : Nat) (k : Acc) (r : StreamRec) (e : Int) : Spot :=
  let w := widthBits r.ew
  let bit : Int := 8 * (r.base : Int) + w * e
  let va := vaOf (bit.fdiv 8)
  if 16 ≤ w && r.base % (w / 8) ≠ 0 then .fault ⟨cAlign, va⟩
  else match slAddr s n k va with
    | .error t => .fault t
    | .ok x => .found { pa := x.pa, key := x.key, sh := (bit.fmod 8).toNat, w := w }

/-- An element of a page's format (R323): `e` places after BASE. -/
def valuePlace (s : State) (n : Nat) (k : Acc) (r : StreamRec) (e : Int) : Spot :=
  let b := BitVec.ofNat 64 r.base
  match slAddr s n k b with
  | .error t => .fault t
  | .ok x =>
    match pageFmt s x.leaf with
    | none => .fault ⟨cFormat, b⟩
    | some (f, bl) =>
      let w := f.width
      let ue := unitElems w bl
      let bits := 8 * (r.base % 65536)
      if bl.isSome && w * ue ≤ bits then .fault ⟨cFormat, b⟩
      else if bits % w ≠ 0 then .fault ⟨cAlign, b⟩
      else
        let i : Int := (bits / w : Nat) + e
        let u := i.fdiv ue
        let j := (i.fmod ue).toNat
        let va := vaOf ((r.base / 65536 * 65536 : Nat) + 65536 * u + (w * j / 8 : Nat))
        match slAddr s n k va with
        | .error t => .fault t
        | .ok y =>
          if y.leaf.fmt ≠ x.leaf.fmt || y.leaf.bg ≠ x.leaf.bg then .fault ⟨cFormat, va⟩
          else
            let up := y.pa - w * j / 8
            .found { pa := y.pa, key := y.key, sh := w * j % 8, w := w, fmt := x.leaf.fmt, ef := f, bl := bl, bg := x.leaf.bg,
                      scale := bl.map (fun l => up + (unitOf w l).1 * (unitOf w l).2 + j / l), blk := (up, match bl with | some l => j / l | none => 0) }

/-- The block length of a burst-mode edge that agrees with a page (R324). -/
def burstPlace (s : State) (n : Nat) (k : Acc) (r : StreamRec) (edge : BitVec 64) (posn : Nat) : Spot :=
  match valuePlace s n k r (walkElem r posn) with
  | .found p =>
    let ok := p.fmt == 6 || p.fmt == 7 || p.fmt == 10 || p.fmt == 11 || p.fmt == 12
    if !ok || p.w ≠ widthBits r.ew then .fault ⟨cFormat, vaOf (r.base : Int)⟩
    else if !edMx edge || edBg edge ≠ p.bg then .stop fcMismatch
    else
      let l := edLen edge
      let k0 := walkIx r.counts posn 0 % l
      match if k0 = 0 then Spot.found p else valuePlace s n k r (walkElem r posn - k0 * (r.strides.getD 0 0).toInt) with
      | .found q => if q.blk ≠ p.blk then .stop fcMismatch else .found p
      | other => other
  | other => other

/-- Where a position's element lies, by the record's mode; a BASE with nonzero bits [63:55] faults with PROT (R334). -/
def placeOf (s : State) (n : Nat) (k : Acc) (r : StreamRec) (edge : BitVec 64) (posn : Nat) : Spot :=
  if r.badBase then .fault ⟨cProt, r.cmds.headD 0⟩
  else if r.dmode = 0 then rawPlace s n k r (walkElem r posn)
  else if r.dmode = 1 then
    match valuePlace s n k r (walkElem r posn) with
    | .found p => if k = .store && fmtScaled p.fmt then .fault ⟨cFormat, vaOf (r.base : Int)⟩ else .found p
    | other => other
  else burstPlace s n k r edge posn

/-- The bits of a place as they stand at H, and their poison. -/
def readPlace (s : State) (p : Place) : Nat × Bool :=
  let m := (p.sh + p.w + 7) / 8
  (hNat s p.key p.pa m / 2 ^ p.sh % 2 ^ p.w, hPoiSpan s p.pa m)

/-- The scale byte of a place and its poison. -/
def readScale (s : State) (p : Place) : Nat × Bool :=
  match p.scale with
  | some a => ((hByte s p.key a).toNat, hPoi s (a / 64))
  | none => (127, false)

-- ===== faults (R328, R329) =====

/-- A sluice stalls: a record of kind 1, which halts the context. -/
def slFault (s : State) (n i : Nat) (write : Bool) (t : Trap) (posn : Nat) : State :=
  let s1 := updCmp s n (fun c => { c with sl := c.sl.upd i (fun x => { x with stalled := true }), quiet := 0 })
  pushRecord s1 (cmpOf s n).grant (BitVec.ofNat 64 (1 + 2 ^ 8 * t.cause + 2 ^ 16 * n + 2 ^ 23 * i + (if write then 2 ^ 28 else 0))) t.addr
    (BitVec.ofNat 64 posn)

-- ===== records in turn (R326, R327) =====

/-- The walk goes on; after its last position the record completes and the next one runs. -/
def slAdvance (s : State) (n i : Nat) : State :=
  let x := (cmpOf s n).sl.get i
  match x.active with
  | none => s
  | some r =>
    if x.posn + 1 < walkLen r.counts then updCmp s n (fun c => { c with sl := c.sl.set i { x with posn := x.posn + 1 }, quiet := 0 })
    else updCmp s n (fun c => { c with sl := c.sl.set i { active := x.waiting.head?, waiting := x.waiting.drop 1 }, quiet := 0 })

/-- A record is accepted: active, or behind the active one (R334). -/
def slAccept (x : Sluice) (r : StreamRec) : Sluice := if x.active.isNone then { active := some r } else { x with waiting := x.waiting ++ [r] }
/-- The records of a sluice fill its five places. -/
def slFull (x : Sluice) : Bool := x.active.isSome && 4 ≤ x.waiting.length

-- ===== reading (R321 to R325) =====

/-- The tokens of an element that a read sluice emits, with their flags; a burst's first element follows its scale token. -/
def readTokens (s : State) (r : StreamRec) (edge : BitVec 64) (posn : Nat) (p : Place) : List Token × BitVec 5 :=
  let ends := walkEnds r.counts posn
  let b := readPlace s p
  if r.dmode = 1 then
    let sc := readScale s p
    let v : Val × BitVec 5 := if fmtScaled p.fmt then decScaled p.ef sc.1 b.1 else (p.ef.decode b.1, 0)
    let q := unitRound (ndEF r.tfmt r.ew) false v
    ([elemTok q.1 ends (b.2 || (fmtScaled p.fmt && sc.2))], q.2)
  else if r.dmode = 2 && walkIx r.counts posn 0 % edLen edge = 0 then
    let sc := readScale s p
    ([scaleToken p.fmt sc.1 sc.2, elemTok b.1 ends b.2], 0)
  else ([elemTok b.1 ends b.2], 0)

/-- Tokens that a position needs room for. -/
def readNeed (r : StreamRec) (edge : BitVec 64) (posn : Nat) : Nat :=
  if r.dmode = 2 && !walkBare r.counts && walkIx r.counts posn 0 % edLen edge = 0 then 2 else 1

/-- SLUICE_READ_ELEMENT: the next position of a read sluice's walk. -/
def sluiceRead (s : State) (n i : Nat) : State :=
  let c := cmpOf s n
  let x := c.sl.get i
  match x.active, sluiceEdge c.planes i with
  | some r, some ei =>
    let edge := edgeAt c.planes ei
    if r.write || x.stalled || !hasRoom c ei (readNeed r edge x.posn) then s
    else if walkBare r.counts then slAdvance (setCmp s n (pushTok c ei (bareTok (walkEnds r.counts x.posn) false))) n i
    else match placeOf s n .load r edge x.posn with
      | .fault t => slFault s n i false t x.posn
      | .stop code => abandon s n code
      | .found p =>
        let ts := readTokens s r edge x.posn p
        slAdvance (setCmp s n (addFlg (ts.1.foldl (fun c t => pushTok c ei t) c) ts.2)) n i
  | _, _ => s
def execSluiceReadElement (cmp slc : Nat) (s : State) : Out := .next (if graphLive s cmp then sluiceRead s cmp slc else s)

-- ===== writing (R323 to R326) =====

/-- A sluice's write of bytes in one line: writes of one record to a line count as one, which clears the line's mark once it has covered the line with
clean bytes (R152, R325). -/
def slWrite (s : State) (n i key pa : Nat) (data : List Byte) (poi : Bool) : State :=
  let line := pa / 64
  let bs : SMap (Option Byte) := (List.range data.length).map (fun j => (pa % 64 + j, some (data.getD j 0)))
  let x := (cmpOf s n).sl.get i
  let bad := poi || x.bad.get line
  let was := x.cov.get line
  let s1 := hWrite s key line bs bad
  let s2 := if !bad && !alarmed s && was != 0xFFFFFFFFFFFFFFFF#64 && (was ||| covBits bs) == 0xFFFFFFFFFFFFFFFF#64
    then { s1 with h := { s1.h with poi := s1.h.poi.set line false } } else s1
  updCmp s2 n (fun c => { c with sl := c.sl.set i { x with cov := x.cov.set line (was ||| covBits bs), bad := if bad then x.bad.set line true else x.bad } })

/-- The bits of a place replaced; the other bits of its bytes stay (R327). -/
def writePlace (s : State) (n i : Nat) (p : Place) (v : Nat) (poi : Bool) : State :=
  let m := (p.sh + p.w + 7) / 8
  let old := hNat s p.key p.pa m
  let new := old - old / 2 ^ p.sh % 2 ^ p.w * 2 ^ p.sh + v % 2 ^ p.w * 2 ^ p.sh
  if p.pa % 64 + m ≤ 64 then slWrite s n i p.key p.pa (toBytes m new) poi
  else
    let k := 64 - p.pa % 64
    slWrite (slWrite s n i p.key p.pa ((toBytes m new).take k) poi) n i p.key (p.pa + k) ((toBytes m new).drop k) poi

/-- The element token that stands for a position at the head of a write sluice's edge, and the scale token before it. -/
inductive Paired where
  | wait
  | stop
  | ok (scale : Option Token) (t : Token)

def slPair (r : StreamRec) (edge : BitVec 64) (posn : Nat) (q : List Token) : Paired :=
  let bare := walkBare r.counts
  let ends := walkEnds r.counts posn
  let fits (t : Token) : Bool := t.valid == !bare && t.ends == ends && !t.scale
  let starts := r.dmode == 2 && !bare && walkIx r.counts posn 0 % edLen edge == 0
  match q with
  | [] => .wait
  | t :: rest =>
    if t.scale then
      if r.dmode = 2 && !starts then .stop
      else match rest with
        | [] => .wait
        | u :: _ => if fits u then .ok (some t) u else .stop
    else if starts || !fits t then .stop
    else .ok none t

/-- The bits that a write stores for a token, with its flags (R322 to R324). -/
def storeBits (r : StreamRec) (p : Place) (t : Token) : Nat × BitVec 5 :=
  if r.dmode = 1 then
    let src := ndEF r.tfmt r.ew
    p.ef.encode .rne false 0 (src.decode (t.data.toNat % 2 ^ src.width))
  else (t.data.toNat % 2 ^ p.w, 0)

/-- SLUICE_WRITE_TOKEN: a write sluice pairs a token with the next position of its walk. -/
def sluiceWrite (s : State) (n i : Nat) : State :=
  let c := cmpOf s n
  let x := c.sl.get i
  match x.active, sluiceEdge c.planes i with
  | some r, some ei =>
    let edge := edgeAt c.planes ei
    if !r.write || x.stalled then s
    else match slPair r edge x.posn (c.bufs.get ei) with
      | .wait => s
      | .stop => abandon s n fcMismatch
      | .ok sc t =>
        let c1 := if sc.isSome then popTok (popTok c ei) ei else popTok c ei
        if walkBare r.counts then slAdvance (setCmp s n c1) n i
        else match placeOf s n .store r edge x.posn with
          | .fault f => slFault s n i true f x.posn
          | .stop code => abandon s n code
          | .found p =>
            let b := storeBits r p t
            let s1 := writePlace (setCmp s n (addFlg c1 b.2)) n i p b.1 t.poi
            let s2 := match sc, p.scale with
              | some u, some a => if r.dmode = 2 then slWrite s1 n i p.key a [BitVec.ofNat 8 (u.data.toNat % 256)] u.poi else s1
              | _, _ => s1
            slAdvance s2 n i
  | _, _ => s
def execSluiceWriteToken (cmp slc : Nat) (s : State) : Out := .next (if graphLive s cmp then sluiceWrite s cmp slc else s)

-- ===== SL_RESUME (R330) =====

/-- The named sluices and sequencer of a compartment stop being stalled: each repeats its failed access. -/
def resumeStreams (c : Compartment) (v : BitVec 64) : Compartment :=
  { c with sl := (List.range 32).foldl (fun (m : SMap Sluice) i => if flag v i then m.upd i (fun x => { x with stalled := false }) else m) c.sl,
           seq := if flag v 35 then { c.seq with stalled := false } else c.seq }

/-- SL_RESUME: the oldest pending command of a stack is applied. -/
def execSlResume (stack : Nat) (s : State) : Out :=
  match s.regs.slPend.get stack with
  | [] => .next s
  | v :: r =>
    let s1 := { s with regs := { s.regs with slPend := s.regs.slPend.set stack r } }
    .next (updCmp s1 (8 * stack + field v 32 3) (fun c => resumeStreams c v))

end Sys2Proof.Machine
end

