-- ==== Sys2Proof/Machine/Sequencer.lean ====
section
/-!
DEFINITION. The sequencer of a compartment (R331 to R334): its words, its faults, its waits, and the graph's completion (R335).
-/

namespace Sys2Proof.Machine

/-- A register of the sequencer; `d0` reads zero. -/
def seqReg (q : Seqr) (r : BitVec 4) : BitVec 64 := if r = 0 then 0 else q.d.get r.toNat
/-- Writing a register; writes to `d0` are discarded. -/
def setSeqReg (q : Seqr) (r : BitVec 4) (v : BitVec 64) : Seqr := if r = 0 then q else { q with d := q.d.set r.toNat v }

/-- A sequencer that may execute its next word. -/
def seqReady (s : State) (n : Nat) : Bool :=
  let q := (cmpOf s n).seq
  graphLive s n && q.on && !q.halted && !q.stalled && q.wait == .none

/-- A change of the sequencer. -/
def updSeq (s : State) (n : Nat) (f : Seqr → Seqr) : State := updCmp s n (fun c => { c with seq := f c.seq, quiet := 0 })

/-- The next word in order. -/
def seqNext (s : State) (n : Nat) : State := updSeq s n (fun q => { q with pc := q.pc + 4 })
/-- A result and the next word. -/
def seqPut (s : State) (n : Nat) (rd : BitVec 4) (v : BitVec 64) : State := updSeq s n (fun q => { setSeqReg q rd v with pc := q.pc + 4 })
/-- A branch by words. -/
def seqGo (s : State) (n : Nat) (off : BitVec 64) : State := updSeq s n (fun q => { q with pc := q.pc + 4 * off })

/-- The sequencer stalls at its word: a record of kind 2, which halts the context (R328, R329). -/
def seqFault (s : State) (n : Nat) (write : Bool) (t : Trap) : State :=
  let s1 := updSeq s n (fun q => { q with stalled := true })
  pushRecord s1 (cmpOf s n).grant (BitVec.ofNat 64 (2 + 2 ^ 8 * t.cause + 2 ^ 16 * n + (if write then 2 ^ 28 else 0))) t.addr (cmpOf s n).seq.pc

/-- Bytes that the sequencer reads at H: fetches and records (R317, R331). -/
def seqRead (s : State) (n : Nat) (va : BitVec 64) (len : Nat) : Except Trap (List Byte × Bool) :=
  let c := cmpOf s n
  match checkSpan s c.grant c.sup .load va len with
  | .error t => .error t
  | .ok xl => .ok (readIn s xl va.toNat len)

/-- The same bytes on their way to the base die of the compartment's stack (R391). -/
def seqCrossed (s : State) (n : Nat) (va : BitVec 64) (len : Nat) : State :=
  let c := cmpOf s n
  match checkSpan s c.grant c.sup .load va len with
  | .error _ => s
  | .ok xl => arrivesIn s (dieOfStack (n / 8)) xl va.toNat len

/-- The words of a sequencer: `exec` runs them for the current agent. -/
def seqIssue (body : State → Nat → State) (s : State) : Out :=
  match s.cur with
  | .seqr n => if seqReady s n then .next (body s n) else .fault .noIssuer
  | _ => .fault .noIssuer

/-- The two source registers. -/
def seqAlu (f : BitVec 64 → BitVec 64 → BitVec 64) (rd ra rb : BitVec 4) (s : State) (n : Nat) : State :=
  let q := (cmpOf s n).seq
  seqPut s n rd (f (seqReg q ra) (seqReg q rb))

def execSeqLi (rd : BitVec 4) (imm : BitVec 22) (s : State) : Out := seqIssue (fun s n => seqPut s n rd (imm.signExtend 64)) s
def execSeqAdd (rd ra rb : BitVec 4) (s : State) : Out := seqIssue (seqAlu (· + ·) rd ra rb) s
def execSeqAddi (rd ra : BitVec 4) (imm : BitVec 18) (s : State) : Out :=
  seqIssue (fun s n => seqPut s n rd (seqReg (cmpOf s n).seq ra + imm.signExtend 64)) s
def execSeqSub (rd ra rb : BitVec 4) (s : State) : Out := seqIssue (seqAlu (· - ·) rd ra rb) s
def execSeqShl (rd ra rb : BitVec 4) (s : State) : Out := seqIssue (seqAlu (fun a b => a <<< (b.toNat % 64)) rd ra rb) s
def execSeqShr (rd ra rb : BitVec 4) (s : State) : Out := seqIssue (seqAlu (fun a b => a >>> (b.toNat % 64)) rd ra rb) s
def execSeqAnd (rd ra rb : BitVec 4) (s : State) : Out := seqIssue (seqAlu (· &&& ·) rd ra rb) s
def execSeqOr (rd ra rb : BitVec 4) (s : State) : Out := seqIssue (seqAlu (· ||| ·) rd ra rb) s

/-- A conditional branch. -/
def seqBranch (p : BitVec 64 → BitVec 64 → Bool) (ra rb : BitVec 4) (off : BitVec 18) (s : State) (n : Nat) : State :=
  let q := (cmpOf s n).seq
  if p (seqReg q ra) (seqReg q rb) then seqGo s n (off.signExtend 64) else seqNext s n
def execSeqBeq (ra rb : BitVec 4) (off : BitVec 18) (s : State) : Out := seqIssue (seqBranch (· == ·) ra rb off) s
def execSeqBne (ra rb : BitVec 4) (off : BitVec 18) (s : State) : Out := seqIssue (seqBranch (· != ·) ra rb off) s
def execSeqBlt (ra rb : BitVec 4) (off : BitVec 18) (s : State) : Out := seqIssue (seqBranch (fun a b => a.slt b) ra rb off) s
def execSeqJ (off : BitVec 26) (s : State) : Out := seqIssue (fun s n => seqGo s n (off.signExtend 64)) s

/-- Argument words of the snapshot (R313). -/
def snapArgs (args : List (BitVec 64)) : Nat := field (wordAt args 2) 0 6
def execSeqArg (rd : BitVec 4) (i : BitVec 6) (s : State) : Out :=
  seqIssue (fun s n =>
    let c := cmpOf s n
    if snapArgs c.args ≤ i.toNat then abandon s n fcArg else seqPut s n rd (wordAt c.args (8 + i.toNat))) s

/-- The word pairs of a byte list. -/
def wordPairs (bs : List Byte) : List (BitVec 64 × BitVec 64) := (List.range (bs.length / 16)).map (fun i => (wordAt (toWords bs) (2 * i), wordAt (toWords bs) (2 * i + 1)))

/-- REC accepts a record whose commands have been read (R320, R334). -/
def recAccept (s : State) (n : Nat) (base hi : BitVec 64) (dims : List (BitVec 64 × BitVec 64)) : State :=
  let c := cmpOf s n
  let slc := rcSlc hi
  match sluiceEdge c.planes slc with
  | none => abandon s n fcArg
  | some ei =>
    let e := edgeAt c.planes ei
    let r := recOf base hi dims
    if !(List.range dims.length).all (fun d => dimOk d (dims.getD d default).2) then abandon s n fcArg
    else if (match sluiceW c.planes e with | some w => w != r.ew | none => false) then abandon s n fcMismatch
    else if slFull (c.sl.get slc) then updSeq s n (fun q => { q with wait := .room slc })
    else seqNext (updCmp s n (fun c => { c with sl := c.sl.upd slc (fun x => slAccept x r) })) n

/-- The head command's checks against the configuration (R316, R320). -/
def headFits (c : Compartment) (lo hi : BitVec 64) : Bool :=
  headOk lo hi && c.slmask.getLsbD (rcSlc hi) &&
    (match sluiceEdge c.planes (rcSlc hi) with | some ei => edDk (edgeAt c.planes ei) == flag hi 54 | none => false)

def recBody (ra rb : BitVec 4) (ovr : Bool) (s : State) (n : Nat) : State :=
  let c := cmpOf s n
  let va := seqReg c.seq ra
  if va.toNat % 16 ≠ 0 then abandon s n fcArg
  else match seqRead s n va 16 with
    | .error t => seqFault s n false t
    | .ok h =>
      let lo := wordAt (toWords h.1) 0
      let hi := wordAt (toWords h.1) 1
      if h.2 then abandon (seqCrossed s n va 16) n fcPoison
      else match seqRead s n (va + 16) (16 * (field hi 52 2 + 1)) with
        | .error t => seqFault s n false t
        | .ok d =>
          if d.2 then abandon (seqCrossed s n (va + 16) (16 * (field hi 52 2 + 1))) n fcPoison
          else if !headFits c lo hi then abandon s n fcArg
          else recAccept s n (if ovr then seqReg c.seq rb else lo) hi (wordPairs d.1)
def execSeqRec (ra rb : BitVec 4) (ovr : Bool) (s : State) : Out := seqIssue (recBody ra rb ovr) s

/-- Every record of the named sluices has completed. -/
def recordsDone (c : Compartment) (mask : BitVec 32) : Bool :=
  (List.range 32).all (fun i => !(mask.getLsbD i && c.slmask.getLsbD i) || (c.sl.get i).active.isNone)

/-- PWAIT (R333). -/
def pwaitBody (ra : BitVec 4) (s : State) (n : Nat) : State :=
  let c := cmpOf s n
  let m := (seqReg c.seq ra).setWidth 32
  if recordsDone c m then seqNext s n else updSeq s n (fun q => { q with wait := .done m })
def execSeqPwait (ra : BitVec 4) (s : State) : Out := seqIssue (pwaitBody ra) s

/-- CNST (R303, R333). -/
def cnstBody (ra : BitVec 4) (i : BitVec 12) (s : State) (n : Nat) : State :=
  let c := cmpOf s n
  if c.planes.consts.length ≤ i.toNat then abandon s n fcConst
  else
    let c1 := putConst c i.toNat (seqReg c.seq ra)
    if c1.switching.any (fun w => w.entry == i.toNat) then updSeq (setCmp s n c1) n (fun q => { q with wait := .consts i.toNat }) else seqNext (setCmp s n c1) n
def execSeqCnst (ra : BitVec 4) (i : BitVec 12) (s : State) : Out := seqIssue (cnstBody ra i) s

/-- ARRV (R333): one arrival at the barrier's home. -/
def arrvBody (ra : BitVec 4) (w : BitVec 16) (s : State) (n : Nat) : State :=
  let c := cmpOf s n
  if w = 0 then abandon s n fcArg
  else match checkAddr s c.grant c.sup .store false (seqReg c.seq ra) 64 with
    | .error t => seqFault s n true t
    | .ok x => seqNext (arriveBal s x.key x.pa w.toNat n) n
def execSeqArrv (ra : BitVec 4) (w : BitVec 16) (s : State) : Out := seqIssue (arrvBody ra w) s

/-- EVT (R333): a record of kind 3. -/
def evtBody (ra : BitVec 4) (s : State) (n : Nat) : State :=
  let c := cmpOf s n
  seqNext (pushRecord s c.grant (BitVec.ofNat 64 (3 + 2 ^ 16 * n)) (seqReg c.seq ra) c.seq.pc) n
def execSeqEvt (ra : BitVec 4) (s : State) : Out := seqIssue (evtBody ra) s
def execSeqHalt (s : State) : Out := seqIssue (fun s n => updSeq s n (fun q => { q with halted := true })) s

-- ===== the end of a wait (R333, R334) =====

def waitOver (c : Compartment) : Bool :=
  match c.seq.wait with
  | .none => false
  | .room i => !slFull (c.sl.get i)
  | .done m => recordsDone c m
  | .consts i => !c.switching.any (fun w => w.entry == i)

/-- SEQ_WAIT_END: a REC or PWAIT executes again, a CNST is done. -/
def execSeqWaitEnd (cmp : Nat) (s : State) : Out :=
  let c := cmpOf s cmp
  .next (if graphLive s cmp && waitOver c then
    updSeq s cmp (fun q => { q with wait := .none, pc := match q.wait with | .consts _ => q.pc + 4 | _ => q.pc })
  else s)

-- ===== completion (R335) =====

/-- The sequencer has halted and every record has completed; a sluice's write is at H once its position is passed. -/
def graphDone (c : Compartment) : Bool := c.st == .running && c.seq.halted && c.sl.all (fun e => e.2.active.isNone)

/-- GRAPH_COMPLETION: LOADED, and the arrival of R225 on the run's barrier. -/
def execGraphCompletion (cmp : Nat) (s : State) : Out :=
  let c := cmpOf s cmp
  .next (if graphLive s cmp && graphDone c then arriveBal (setCmp s cmp { stopped c with st := .loaded }) c.barAt.2 c.barAt.1 1 cmp else s)

end Sys2Proof.Machine
end

