-- ==== Sys2Proof/Machine/Fabric.lean ====
section
/-!
DEFINITION. The fabric instructions (R309 to R315), the loader (R290, R297, R298), restores and saves of a compartment (R305 to R307), and grants
(R370).
-/

namespace Sys2Proof.Machine

/-- FABRIC with a reason code (R309). -/
def fabTrap (code : Nat) (a : BitVec 64) : Trap := ⟨cFabric, BitVec.ofNat 64 (code * 2 ^ 56) ||| (a &&& 0x00FFFFFFFFFFFFFF#64)⟩

/-- A compartment that the issuing context may not use (R309). -/
def notOwned (s : State) (x : Group) (n : Nat) : Bool := !x.sup && !((cmpOf s n).rect.isSome && (cmpOf s n).grant == x.ctx)

/-- A status word returned for a fabric word. -/
def fabAnswer (s : State) (g : Nat) (d : Opd) (v : Nat) : Eff := .done (flightNow s g d [(0, ⟨BitVec.ofNat 64 v, false⟩)] 0 [])

-- ===== FCFG (R311) =====

/-- A 64-byte header read at H: its words, its translation, its poison. -/
def readHeader (s : State) (x : Group) (va : BitVec 64) : Except Trap (List (BitVec 64) × Bool) :=
  match checkAddr s x.ctx x.sup .load false va 64 with
  | .error t => .error t
  | .ok a => .ok (toWords (hRead s a.key a.pa 64), hPoiSpan s a.pa 64)

/-- What the checks of an FCFG find: the header, and for a restore the image's header with its poison; the translations of both. -/
structure LoadRead where
  hdr : List (BitVec 64)
  img : List (BitVec 64) := []
  imgPoi : Bool := false
  xl : List (Nat × Leaf)

def loadChecks (s : State) (x : Group) (va : BitVec 64) (restore : Bool) : Except Trap LoadRead :=
  match readHeader s x va with
  | .error t => .error t
  | .ok h =>
    if h.2 then .error ⟨cPoison, va⟩
    else
      let len := if restore then (if saveLenOk h.1 then saveLen h.1 else 64) else if imgLenOk h.1 then imgLen h.1 else 64
      match checkSpan s x.ctx x.sup .load va len with
      | .error t => .error t
      | .ok xl =>
        if !restore then .ok { hdr := h.1, xl := xl }
        else
          let iva := wordAt h.1 2
          match readHeader s x iva with
          | .error t => .error t
          | .ok ih => match checkSpan s x.ctx x.sup .load iva (if !ih.2 && imgLenOk ih.1 then imgLen ih.1 else 64) with
            | .error t => .error t
            | .ok xl2 => .ok { hdr := h.1, img := ih.1, imgPoi := ih.2, xl := xl ++ xl2 }

/-- The header that an FCFG reads, on its way to the core's die (R391). -/
def headSeen (s : State) (g : Nat) (va : BitVec 64) : State :=
  let x := s.grp g
  match checkAddr s x.ctx x.sup .load false va 64 with
  | .error _ => s
  | .ok a => arrives s (dieOfCore (coreOf g)) a.pa 64

/-- A compartment that the loader may take. -/
def loadable (c : Compartment) : Bool := c.rect.isSome && (c.st == .empty || c.st == .loaded)

def fcfgBody (restore nocache : Bool) (d a : Opd) (n : BitVec 7) (s : State) (g : Nat) : Eff :=
  let x := s.grp g
  if notOwned s x n.toNat then .trap s (fabTrap fcNotown (n.setWidth 64))
  else orTrap s (addrOf x a) fun va =>
    let s1 := headSeen (releaseAt s g .dev) g va
    orTrap s1 (loadChecks s1 x va restore) fun l =>
      let c := cmpOf s1 n.toNat
      if !loadable c then fabAnswer s1 g d fcState
      else
        let r := freshId s1
        let ld : Loading := { prev := c.st, tag := r.1, hdr := l.hdr, va := va, xl := l.xl, imgHdr := l.img, imgPoi := l.imgPoi, restore := restore,
                              nocache := nocache, sup := x.sup, ctx := x.ctx }
        .done (launchFlight (setCmp r.2 n.toNat { c with st := .loading, loading := some ld }) g
          { tag := r.1, regs := [opCode x d], waits := [.load n.toNat] })
def execFcfg (nocache : Bool) (d a : Opd) (n : BitVec 7) (s : State) : Out := issue (.fcfg nocache d a n) (fcfgBody false nocache d a n) s
def execFcfgRestore (nocache : Bool) (d a : Opd) (n : BitVec 7) (s : State) : Out :=
  issue (.fcfgRestore nocache d a n) (fcfgBody true nocache d a n) s

-- ===== the loader (R290, R297, R298) =====

/-- Islands of the array that no other compartment holds. -/
def freeIslands (s : State) (n : Nat) : List Nat :=
  (List.range 4).filter (fun i => !s.comps.any (fun e => e.1 != n && e.1 / 8 == n / 8 && e.2.islands.contains i))

def loadEnv (s : State) (n : Nat) : LoadEnv :=
  let c := cmpOf s n
  { shape := match c.rect with | some r => (r.2.2.1, r.2.2.2) | none => (0, 0), mask := c.slmask, ts8 := hasCap s 4, free := freeIslands s n }

/-- A cached configuration of the array (R298). -/
def cached (s : State) (n ctx cfgid crc : Nat) : Option Planes :=
  (s.cache.find? (fun e => e.1 == n / 8 && e.2.1 == ctx && e.2.2.cfgid == cfgid && e.2.2.crc == crc)).map (·.2.2)

/-- A configuration enters the array's cache of 64. -/
def cachePut (s : State) (n ctx : Nat) (p : Planes) : State :=
  let rest := s.cache.filter (fun e => !(e.1 == n / 8 && e.2.1 == ctx && e.2.2.cfgid == p.cfgid && e.2.2.crc == p.crc))
  let mine := rest.filter (fun e => e.1 == n / 8)
  let keep := if 64 ≤ mine.length then (match mine with | e :: _ => rest.filter (fun f => f != e) | [] => rest) else rest
  { s with cache := keep ++ [(n / 8, ctx, p)] }

/-- The outcome of the loader's checks: a code and the planes. -/
structure LoadResult where
  code : Nat
  planes : Planes := {}

/-- The checks of R297 for an image whose header is given; its bytes are read unless the planes are cached. -/
def loadImage (s : State) (n : Nat) (nocache : Bool) (hdr : List (BitVec 64)) (va : BitVec 64) (xl : List (Nat × Leaf)) (poi : Bool) : LoadResult :=
  let hit := if nocache then none else cached s n (cmpOf s n).grant (imgCfgid hdr) (imgCrc hdr)
  let bs := readIn s xl va.toNat (if imgLenOk hdr then imgLen hdr else 64)
  if poi || (hit.isNone && bs.2) then ⟨fcPoison, {}⟩
  else if !headerOk hdr then ⟨fcImage, {}⟩
  else
    let q := planesOf hdr bs.1
    let p := match hit with | some h => { h with shr := q.shr, shc := q.shc } | none => q
    ⟨checkPlanes (loadEnv s n) (field (wordAt hdr 1) 48 3) (hit.isSome || imageCrc bs.1 == imgCrc hdr) p, p⟩

/-- A load that its checks pass: the configuration is placed with empty buffers and the lowest free islands. -/
def placed (s : State) (n : Nat) (p : Planes) (imgva : BitVec 64) : Compartment :=
  { stopped (cmpOf s n) with st := .loaded, planes := p, imgva := imgva, islands := (freeIslands s n).take (islandCount p), loading := none }

/-- A load that is refused: the state before it, and ERR. -/
def refusedLoad (c : Compartment) (prev : CState) (code : Nat) : Compartment := { c with st := prev, err := code, loading := none }

/-- What the loader reads on its way to the base die of the compartment's stack (R391). -/
def loadCrossed (s : State) (n : Nat) (ld : Loading) : State :=
  match ld.phys with
  | some pa => arrives s (dieOfStack (n / 8)) pa (if saveLenOk ld.hdr then saveLen ld.hdr else 64)
  | none => arrivesIn s (dieOfStack (n / 8)) ld.xl ld.va.toNat
      (if ld.restore then (if saveLenOk ld.hdr then saveLen ld.hdr else 64) else if imgLenOk ld.hdr then imgLen ld.hdr else 64)

/-- CONFIG_LOAD_COMPLETE. -/
def execConfigLoadComplete (cmp : Nat) (s : State) : Out :=
  match (cmpOf s cmp).loading with
  | none => .next s
  | some ld =>
    if ld.restore || (cmpOf s cmp).st ≠ .loading then .next s
    else
      let r := loadImage s cmp ld.nocache ld.hdr ld.va ld.xl false
      if r.code = fcPoison then .next (answerTag (updCmp (loadCrossed s cmp ld) cmp (fun c => refusedLoad c ld.prev r.code)) ld.tag r.code)
      else if r.code = fcOk then .next (answerTag (cachePut (setCmp s cmp (placed s cmp r.planes ld.va)) cmp (cmpOf s cmp).grant r.planes) ld.tag fcOk)
      else .next (answerTag (updCmp s cmp (fun c => refusedLoad c ld.prev r.code)) ld.tag r.code)

-- ===== restores (R307) =====

def saveHdrOk (h : List (BitVec 64)) : Bool :=
  field (wordAt h 0) 0 32 == 0x50444C53 && field (wordAt h 0) 32 32 != 0 && field (wordAt h 1) 48 16 == 0 && saveLenOk h && field (wordAt h 4) 37 27 == 0 &&
    1 ≤ field (wordAt h 1) 32 8 && field (wordAt h 1) 32 8 ≤ 8 && 1 ≤ field (wordAt h 1) 40 8 && field (wordAt h 1) 40 8 ≤ 8

/-- A word of a byte list at a byte offset. -/
def wordIn (bs : List Byte) (o : Nat) : BitVec 64 := BitVec.ofNat 64 (ofBytes ((bs.drop o).take 8))
def bitIn (bs : List Byte) (o i : Nat) : Bool := (bs.getD (o + i / 8) 0).getLsbD (i % 8)

/-- Tokens of one buffer: its slots' bits, and the tokens from a place in the token area on. -/
def bufTokens (bs : List Byte) (occ tok : Nat) (bit first slots : Nat) : List Token :=
  let k := ((List.range slots).filter (fun i => bitIn bs occ (bit + i))).length
  (List.range k).map (fun i => tokenOf (wordIn bs (tok + 16 * (first + i))) (wordIn bs (tok + 16 * (first + i) + 8)))

/-- Every buffer in order. -/
def readBufs (bs : List Byte) (occ tok : Nat) : Nat → Nat → List Nat → List (List Token)
  | _, _, [] => []
  | bit, first, k :: r =>
    let q := bufTokens bs occ tok bit first k
    q :: readBufs bs occ tok (bit + k) (first + q.length) r

/-- A record of a save's sluice block; none where it is malformed. -/
def recIn (bs : List Byte) (o : Nat) : Option StreamRec :=
  let hi := wordIn bs (o + 8)
  let n := field hi 52 2 + 1
  let dims := (List.range n).map (fun d => (wordIn bs (o + 16 + 16 * d), wordIn bs (o + 24 + 16 * d)))
  if headOk 0 hi && (List.range n).all (fun d => dimOk d (dims.getD d default).2) then some (recOf (wordIn bs o) hi dims) else none

/-- A sluice block; a stalled sluice repeats its access by itself (R336). -/
def sluiceIn (bs : List Byte) (o : Nat) : Option Sluice :=
  let w := wordIn bs o
  let nw := field w 2 3
  let ws := (List.range nw).filterMap (fun q => recIn bs (o + 0x90 + 0x50 * q))
  if field w 5 59 ≠ 0 || 4 < nw || ws.length ≠ nw || (!flag w 0 && nw ≠ 0) then none
  else if !flag w 0 then some {}
  else match recIn bs (o + 0x40) with
    | none => none
    | some r =>
      let posn := walkPosn r.counts ((List.range 4).map (fun d => (wordIn bs (o + 0x10 + 8 * d)).toNat))
      if walkLen r.counts ≤ posn then none else some { active := some r, posn := posn, waiting := ws }

/-- The state of a save, over planes that have passed the loader's checks. -/
def restoreInto (c : Compartment) (p : Planes) (h : List (BitVec 64)) (bs : List Byte) : Option Compartment :=
  let off (i : Nat) : Nat := field (wordAt h (5 + i / 2)) (32 * (i % 2)) 32
  let nn := p.nodes.length
  let st (n k : Nat) : BitVec 64 := wordIn bs (off 2 + 16 * n + 8 * k)
  let held := (List.range nn).filter (fun n => nodeSlots (nodeAt p n) (st n 0).toNat != 0)
  let slots := (List.range p.edges.length).map (edgeDepth p) ++ held.map (fun n => min (nodeSlots (nodeAt p n) (st n 0).toNat) (2 ^ 19))
  let qs := readBufs bs (off 0) (off 1) 0 0 slots
  let narg := field (wordIn bs (off 5 + 16)) 0 6
  let nout := field (wordIn bs (off 5 + 16)) 8 5
  let argLen := 64 + 8 * narg + 16 * nout
  let bits := slots.foldl (· + ·) 0
  let toks := (qs.map (·.length)).foldl (· + ·) 0
  let fits := off 0 + (bits + 7) / 8 ≤ bs.length && off 1 + 16 * toks ≤ bs.length && off 2 + 16 * nn ≤ bs.length && off 3 + 0x4100 ≤ bs.length &&
    off 4 + 8 * p.consts.length ≤ bs.length && off 5 + argLen ≤ bs.length
  let sls := (List.range 32).filterMap (fun i => (sluiceIn bs (off 3 + 0x100 + 512 * i)).map (fun x => (i, x)))
  if !fits || sls.length ≠ 32 then none
  else some { stopped c with
    st := .running, planes := { p with consts := (List.range p.consts.length).map (fun i => wordIn bs (off 4 + 8 * i)) }, imgva := wordAt h 2, bar := wordAt h 3,
    flg := (wordAt h 4).extractLsb' 32 5,
    bufs := (List.range p.edges.length).foldl (fun (m : SMap (List Token)) i => SMap.set m i (qs.getD i [])) [],
    units := (List.range nn).foldl (fun (m : SMap UnitState) n =>
      let q := match held.findIdx? (· == n) with | some j => qs.getD (p.edges.length + j) [] | none => []
      SMap.set m n (unitOfWords (nodeAt p n) (st n 0) (st n 1) q)) [],
    seq := { pc := wordIn bs (off 3), on := true, halted := flag (wordIn bs (off 3 + 8)) 0,
             d := (List.range 15).foldl (fun (m : SMap (BitVec 64)) k => SMap.set m (k + 1) (wordIn bs (off 3 + 0x10 + 8 * k))) [] },
    sl := sls.foldl (fun (m : SMap Sluice) e => SMap.set m e.1 e.2) [],
    args := (List.range (argLen / 8)).map (fun i => wordIn bs (off 5 + 8 * i)), loading := none }

/-- A restore's outcome: a code, or the running compartment. -/
inductive Restored where
  | code (n : Nat)
  | ok (c : Compartment) (p : Planes)

/-- What the machine has kept beside the save that a restore reads; a save that it does not know runs at the level of the restore (log 26). -/
def keptRun (s : State) (n : Nat) (ld : Loading) : KeptRun :=
  let pa := ld.phys.getD (paIn ld.xl ld.va.toNat)
  (s.keptRuns.find? (fun k => k.ctx == (cmpOf s n).grant && k.pa == pa)).getD { sup := ld.sup }

/-- Tokens that the machine has kept go behind those that the save holds. -/
def withHeld (c : Compartment) (m : SMap (List Token)) : Compartment :=
  { c with units := m.foldl (fun (u : SMap UnitState) e => u.upd e.1 (fun x => { x with queue := x.queue ++ e.2 })) c.units }

/-- The checks of R307 on a save's bytes. -/
def restoreFrom (s : State) (n : Nat) (ld : Loading) (h : List (BitVec 64)) (bs : List Byte) (poi : Bool) : Restored :=
  let c := cmpOf s n
  let icrc := field (wordAt h 1) 0 32
  let kr := keptRun s n ld
  let hit := if ld.nocache then none else cached s n c.grant (field (wordAt h 0) 32 32) icrc
  if poi then .code fcPoison
  else if !saveHdrOk h then .code fcSave
  else if hit.isNone && ld.imgPoi then .code fcPoison
  else if hit.isNone && imgCrc ld.imgHdr != icrc then .code fcSave
  else
    let r : LoadResult := match hit with
      | some p => ⟨checkPlanes (loadEnv s n) (islandCount p) true p, p⟩
      | none => loadImage s n true ld.imgHdr (wordAt h 2) ld.xl false
    let shape : Nat × Nat := (field (wordAt h 1) 32 8, field (wordAt h 1) 40 8)
    if r.code ≠ fcOk then .code r.code
    else if shape != (loadEnv s n).shape then .code fcShape
    else match checkAddr s ld.ctx kr.sup .store false (wordAt h 3) 64, restoreInto c r.planes h bs with
      | .ok b, some d => .ok { withHeld d kr.held with barAt := (b.pa, b.key), sup := kr.sup, islands := (freeIslands s n).take (islandCount r.planes) } r.planes
      | _, _ => .code fcSave

/-- The save's bytes as they stand at H. -/
def savedBytes (s : State) (ld : Loading) : List Byte × Bool :=
  let len := if saveLenOk ld.hdr then saveLen ld.hdr else 64
  match ld.phys with
  | some pa => (hRead s (recKey s ld.ctx) pa len, hPoiSpan s pa len)
  | none => readIn s ld.xl ld.va.toNat len

/-- COMPARTMENT_RESTORE_DONE. -/
def execCompartmentRestoreDone (cmp : Nat) (s : State) : Out :=
  match (cmpOf s cmp).loading with
  | none => .next s
  | some ld =>
    if !ld.restore || (cmpOf s cmp).st ≠ .loading then .next s
    else
      let b := savedBytes s ld
      match restoreFrom s cmp ld ld.hdr b.1 b.2 with
      | .code k => .next (answerTag (updCmp (if b.2 then loadCrossed s cmp ld else s) cmp (fun c => refusedLoad c ld.prev k)) ld.tag k)
      | .ok c p => .next (answerTag (cachePut (setCmp s cmp c) cmp c.grant p) ld.tag fcOk)

-- ===== FRUN (R313, R314) =====

/-- The fixed part of an argument block is as R313 allows. -/
def blockOk (w : List (BitVec 64)) : Bool :=
  field (wordAt w 0) 39 25 == 0 && (wordAt w 1).toNat % 4 == 0 && field (wordAt w 2) 6 2 == 0 && field (wordAt w 2) 13 51 == 0 &&
    wordAt w 3 == 0 && wordAt w 4 == 0 && wordAt w 5 == 0 && wordAt w 6 == 0 && wordAt w 7 == 0
def blockCounts (w : List (BitVec 64)) : Nat × Nat := (field (wordAt w 2) 0 6, field (wordAt w 2) 8 5)

/-- The OUT entries of a block: base and length. -/
def blockOuts (w : List (BitVec 64)) : List (BitVec 64 × BitVec 64) :=
  let k := blockCounts w
  (List.range k.2).map (fun i => (wordAt w (8 + k.1 + 2 * i), wordAt w (9 + k.1 + 2 * i)))

/-- The whole block, read along the group's path; a poisoned line gives the block's address. -/
def readBlock (s : State) (g : Nat) (a : BitVec 64) : Except Trap (List (BitVec 64)) :=
  match readDesc s g a 64 64 with
  | .error t => .error t
  | .ok w =>
    let k := blockCounts w
    if 32 < k.1 || 16 < k.2 then .error (fabTrap fcArg a)
    else match readRange (seenRange s g (a + 64) (8 * k.1 + 16 * k.2)) g (a + 64) (8 * k.1 + 16 * k.2) with
      | .error t => .error t
      | .ok r =>
        if r.2.isSome then .error ⟨cPoison, a⟩
        else
          let all := w ++ toWords r.1
          if blockOk w && (blockOuts all).all (fun o => field o.2 32 32 == 0) then .ok all else .error (fabTrap fcArg a)

/-- The state once the rest of a block has been read. -/
def blockSeen (s : State) (g : Nat) (a : BitVec 64) : State :=
  match readDesc s g a 64 64 with
  | .error _ => s
  | .ok w =>
    let k := blockCounts w
    if 32 < k.1 || 16 < k.2 then s else seenRange s g (a + 64) (8 * k.1 + 16 * k.2)

def frunBody (d a : Opd) (s : State) (g : Nat) : Eff :=
  let s0 := performAll s g
  let x := s0.grp g
  orTrap s (addrOf x d) fun b =>
  orTrap s (addrOf x a) fun va =>
  let u := seenRange s0 g va 64
  let s1 := blockSeen u g va
  orTrap s1 (readBlock u g va) fun w =>
    let n := field (wordAt w 0) 32 7
    if notOwned s1 x n then .trap s1 (fabTrap fcNotown va)
    else orTrap s1 (checkAddr s1 x.ctx x.sup .store false b 64) fun bx =>
      orTrap s1 (firstErr ((blockOuts w).map (fun o => checkSpan s1 x.ctx x.sup .store o.1 o.2.toNat))) fun _ =>
        let s2 := releaseAt s1 g .dev
        let c := cmpOf s2 n
        if c.rect.isNone || c.st ≠ .loaded then .trap s2 (fabTrap fcState va)
        else if field (wordAt w 0) 0 32 ≠ c.planes.cfgid then .trap s2 (fabTrap fcCfgid va)
        else .done (setCmp s2 n { stopped c with st := .running, args := w, flg := 0, err := 0, bar := b, barAt := (bx.pa, bx.key), sup := x.sup,
                                                 seq := { pc := wordAt w 1, on := true } })
def execFrun (d a : Opd) (s : State) : Out := issue (.frun d a) (frunBody d a) s

-- ===== FCONST (R312) =====

def fconstBody (d a : Opd) (n : BitVec 7) (i : BitVec 12) (s : State) (g : Nat) : Eff :=
  let x := s.grp g
  let c := cmpOf s n.toNat
  let v := sval x a
  if notOwned s x n.toNat then .trap s (fabTrap fcNotown (n.setWidth 64))
  else if v.poi then .trap s (poisonAt 0)
  else if c.rect.isNone || c.st = .empty || c.st = .loading || c.st = .freezing then fabAnswer s g d fcState
  else if c.planes.consts.length ≤ i.toNat then fabAnswer s g d fcConst
  else .done (flightNow (setCmp s n.toNat (putConst c i.toNat v.val)) g d [(0, ⟨0, false⟩)] 0 [.consts n.toNat i.toNat])
def execFconst (d a : Opd) (n : BitVec 7) (i : BitVec 12) (s : State) : Out := issue (.fconst d a n i) (fconstBody d a n i) s

-- ===== FSTOP and FSTAT (R311, R315) =====

def fstopKillBody (d : Opd) (n : BitVec 7) (s : State) (g : Nat) : Eff :=
  if notOwned s (s.grp g) n.toNat then .trap s (fabTrap fcNotown (n.setWidth 64))
  else if (cmpOf s n.toNat).st = .running then fabAnswer (abandon s n.toNat fcKilled) g d fcOk
  else fabAnswer s g d fcState
def execFstopKill (d : Opd) (n : BitVec 7) (s : State) : Out := issue (.fstopKill d n) (fstopKillBody d n) s

def fstopSaveBody (d a : Opd) (n : BitVec 7) (s : State) (g : Nat) : Eff :=
  let x := s.grp g
  if notOwned s x n.toNat then .trap s (fabTrap fcNotown (n.setWidth 64))
  else orTrap s (addrOf x a) fun va =>
    orTrap s (checkAddr s x.ctx x.sup .store false va 64) fun _ =>
    orTrap s (checkSpan s x.ctx x.sup .store va (2 ^ 19)) fun xl =>
      let c := cmpOf s n.toNat
      if c.st ≠ .running then fabAnswer s g d fcState
      else
        let r := freshId s
        .done (launchFlight (setCmp r.2 n.toNat { c with st := .freezing, saving := some { tag := r.1, va := va, xl := xl } }) g
          { tag := r.1, regs := [opCode x d], waits := [.save n.toNat], acquire := true })
def execFstopSave (d a : Opd) (n : BitVec 7) (s : State) : Out := issue (.fstopSave d a n) (fstopSaveBody d a n) s

def fstopUnloadBody (d : Opd) (n : BitVec 7) (s : State) (g : Nat) : Eff :=
  if notOwned s (s.grp g) n.toNat then .trap s (fabTrap fcNotown (n.setWidth 64))
  else if (cmpOf s n.toNat).st = .loaded then fabAnswer (updCmp s n.toNat unloaded) g d fcOk
  else fabAnswer s g d fcState
def execFstopUnload (d : Opd) (n : BitVec 7) (s : State) : Out := issue (.fstopUnload d n) (fstopUnloadBody d n) s

/-- State codes of R289. -/
def cstateCode : CState → Nat
  | .empty => 0 | .loading => 1 | .loaded => 2 | .running => 3 | .freezing => 4

/-- The status word of R315 for an issuing context. -/
def fstatWord (c : Compartment) (ctx : Nat) : Nat :=
  if c.rect.isNone then 0
  else c.planes.cfgid % 2 ^ 32 * 2 ^ 32 + c.err % 256 * 2 ^ 24 + c.flg.toNat * 2 ^ 16 + (c.sl.filter (fun e => e.2.stalled)).length * 2 ^ 8 +
    (if c.grant = ctx then 2 ^ 7 else 0) + cstateCode c.st

def fstatBody (d : Opd) (n : BitVec 7) (s : State) (g : Nat) : Eff :=
  if notOwned s (s.grp g) n.toNat then .trap s (fabTrap fcNotown (n.setWidth 64))
  else fabAnswer s g d (fstatWord (cmpOf s n.toNat) (s.grp g).ctx)
def execFstat (d : Opd) (n : BitVec 7) (s : State) : Out := issue (.fstat d n) (fstatBody d n) s

-- ===== SAVE_COMPLETE (R305, R306, R311, R368) =====

/-- The machine keeps what a save has no place for. -/
def keepRun (s : State) (pa : Nat) (c : Compartment) : State :=
  { s with keptRuns := { ctx := c.grant, pa := pa, sup := c.sup, held := heldOver c } :: s.keptRuns.filter (fun k => !(k.ctx == c.grant && k.pa == pa)) }

/-- The frozen compartment's save is written at H and the compartment becomes EMPTY; a context's save has its prefix before it. -/
def saveComplete (s : State) (n : Nat) : State :=
  let c := cmpOf s n
  match c.saving with
  | none => s
  | some sv =>
    if c.st ≠ .freezing then s
    else
      let bs := saveBytes c
      let s1 := match sv.phys with
        | some pa =>
          let k := recKey s c.grant
          keepRun (hWriteSpan (hWriteSpan s k pa (w64 (2 ^ 63) ++ w64 n ++ List.replicate 48 0) false) k (pa + 0x10000) bs false) (pa + 0x10000) c
        | none => keepRun (writeIn s sv.xl sv.va.toNat bs false) (paIn sv.xl sv.va.toNat) c
      answerTag (setCmp s1 n { unloaded c with saving := none }) sv.tag fcOk
def execSaveComplete (cmp : Nat) (s : State) : Out := .next (saveComplete s cmp)

-- ===== grants (R370) =====

/-- Two rectangles of blocks that share a block. -/
def rectsMeet (a b : Nat × Nat × Nat × Nat) : Bool :=
  a.1 < b.1 + b.2.2.1 && b.1 < a.1 + a.2.2.1 && a.2.1 < b.2.1 + b.2.2.2 && b.2.1 < a.2.1 + a.2.2.2

/-- Whether a grant is refused. -/
def grantRefused (s : State) (stack : Nat) (v : BitVec 64) : Bool :=
  let n := 8 * stack + field v 53 3
  let r := (field v 50 3, field v 47 3, field v 43 4, field v 39 4)
  let others := s.comps.filter (fun e => e.1 / 8 == stack && e.1 != n && e.2.rect.isSome)
  (cmpOf s n).st != .empty || r.2.2.1 == 0 || r.2.2.2 == 0 || 8 < r.1 + r.2.2.1 || 8 < r.2.1 + r.2.2.2 ||
    others.any (fun e => rectsMeet r (e.2.rect.getD (0, 0, 0, 0)) || (e.2.slmask &&& v.setWidth 32) != 0) || (s.ctxs.get (field v 56 6)).st == .free

def setRef (s : State) (stack : Nat) (r : Bool) : State :=
  { s with regs := { s.regs with plGrant := s.regs.plGrant.upd stack (fun x => (x &&& ~~~0x4000000000#64) ||| (if r then 0x4000000000#64 else 0)) } }

/-- The oldest pending grant command of a stack when it is a grant (`val`) or a withdrawal. -/
def plHead (s : State) (stack : Nat) (val : Bool) : Option (BitVec 64 × State) :=
  match s.regs.plPend.get stack with
  | [] => none
  | v :: r => if flag v 62 = val then some (v, { s with regs := { s.regs with plPend := s.regs.plPend.set stack r } }) else none

/-- GRANT. -/
def execGrant (stack : Nat) (s : State) : Out :=
  match plHead s stack true with
  | none => .next s
  | some (v, s1) =>
    if grantRefused s1 stack v then .next (setRef s1 stack true)
    else .next (setRef (setCmp s1 (8 * stack + field v 53 3)
      { rect := some (field v 50 3, field v 47 3, field v 43 4, field v 39 4), grant := field v 56 6, slmask := v.setWidth 32 }) stack false)

/-- WITHDRAW. -/
def execWithdraw (stack : Nat) (s : State) : Out :=
  match plHead s stack false with
  | none => .next s
  | some (v, s1) =>
    let n := 8 * stack + field v 53 3
    let st := (cmpOf s1 n).st
    if st = .empty || st = .loaded then .next (setRef (setCmp s1 n {}) stack false) else .next (setRef s1 stack true)

end Sys2Proof.Machine
end

