-- ==== Sys2Proof/Machine/Kernel.lean ====
section
/-!
DEFINITION. Kernels (chapter 15): launch records (R337, R338), the dispatcher's pop (R341), slices and the distributors (R343, R344, R347 to R349), the
placement of clusters and groups (R339, R80), LAUNCH (R353, R354), and a kernel's completion (R351).
-/

namespace Sys2Proof.Machine

-- ===== launch records (R337) =====

/-- The kernel that a record describes. -/
def kernelOf (ctx : Nat) (grid : BitVec 64) (w : List (BitVec 64)) : Kernel :=
  let a (i : Nat) : BitVec 64 := wordAt w i
  { ctx := ctx, grid := grid, rep := flag (a 0) 8, entry := a 1, argp := a 2, uvec := a 3 &&& ~~~7#64,
    crows := field (a 4) 48 4, ccols := field (a 4) 44 4, ngroup := field (a 4) 38 6, xblk := field (a 4) 35 3, nclu := field (a 4) 0 32,
    quota := field (a 5) 32 10, shm := field (a 5) 0 10, stkbase := a 6, stkper := BitVec.ofNat 64 (field (a 7) 0 32),
    deadline := (a 8).toNat, dstep := (a 9).toNat, budget := field (a 10) 32 32, slen := field (a 10) 0 32, bar := a 11,
    dmask := if field (a 12) 0 4 = 0 then 15 else field (a 12) 0 4 }

/-- A record whose fields R338 refuses, but for the slots. -/
def recordBad (w : List (BitVec 64)) (k : Kernel) : Bool :=
  let a (i : Nat) : BitVec 64 := wordAt w i
  field (a 0) 0 8 != 1 || field (a 0) 9 55 != 0 || field (a 4) 52 12 != 0 || field (a 4) 32 3 != 0 || field (a 5) 42 22 != 0 || field (a 5) 10 22 != 0 ||
    field (a 7) 32 32 != 0 || field (a 12) 4 60 != 0 || a 13 != 0 || a 14 != 0 ||
    k.entry.toNat % 8 != 0 || k.stkbase.toNat % 256 != 0 || k.stkper.toNat % 256 != 0 || k.bar.toNat % 64 != 0 ||
    k.crows == 0 || 8 < k.crows || k.ccols == 0 || 12 < k.ccols || 12 < k.crows * k.ccols || k.ngroup == 0 || 48 < k.ngroup ||
    k.nclu == 0 || 512 < k.quota || 512 < k.shm || k.slen == 0 || 48 < k.ngroup * k.xblk

-- ===== slots (R347, R349) =====

/-- The core at row `r` and column `c` of a die (R8). -/
def coreAt (die r c : Nat) : Nat := 96 * die + 12 * r + c
/-- The cores of a cluster's rectangle, team by team (R339). -/
def rectCores (k : Kernel) (die r c : Nat) : List Nat := (List.range (k.crows * k.ccols)).map (fun t => coreAt die (r + t / k.ccols) (c + t % k.ccols))

/-- A die's slots: origins of rectangles that lie wholly within the context's placement, row-major. -/
def dieSlots (s : State) (k : Kernel) (die : Nat) : List (Nat × Nat) :=
  ((List.range (8 / k.crows)).flatMap (fun i => (List.range (12 / k.ccols)).map (fun j => (k.crows * i, k.ccols * j)))).filter
    (fun o => (rectCores k die o.1 o.2).all (fun c => (s.ctxs.get k.ctx).cores.getLsbD c))

/-- The dies of DMASK, and those of them that have a slot. -/
def maskDies (k : Kernel) : List Nat := (List.range 4).filter (fun d => k.dmask / 2 ^ d % 2 == 1)
def eligibleDies (s : State) (k : Kernel) : List Nat := (maskDies k).filter (fun d => !(dieSlots s k d).isEmpty)

/-- No slot where one is needed (R338). -/
def noSlots (s : State) (k : Kernel) : Bool := if k.rep then eligibleDies s k != maskDies k else (eligibleDies s k).isEmpty

-- ===== the pop (R341) =====

def dispAcc (s : State) (ctx : Nat) : QAcc := ⟨false, ctx, (s.ctxs.get ctx).sup⟩

/-- A descriptor that the dispatcher may use: read and write checks, and LNCH set. -/
def openLq (s : State) (ctx : Nat) (va : BitVec 64) : Option QDesc :=
  match qOpen s (dispAcc s ctx) .load va, qOpen s (dispAcc s ctx) .store va with
  | .ok q, .ok _ => if q.lnch then some q else none
  | _, _ => none

/-- The line of a descriptor, where it translates. -/
def lqLine (s : State) (ctx : Nat) (va : BitVec 64) : Option (Nat × Nat) :=
  (xlate s ctx va).map (fun l => ((l.pa + va.toNat % 65536) / 64, hPos s ((l.pa + va.toNat % 65536) / 64)))

def updCtx (s : State) (n : Nat) (f : Ctx → Ctx) : State := { s with ctxs := s.ctxs.upd n f }

/-- Whether the dispatcher looks at a queue: one found unusable, only after a write to its line, a TLBI, a RESUME or a RESTORE. -/
def lqLook (s : State) (c : Ctx) (lq : Nat) : Bool :=
  match c.badq.find? (fun b => b.lq == lq) with
  | none => true
  | some b => b.again || (match b.line with | some (l, p) => hPos s l != p | none => false)

/-- A queue is noted as unusable; the first time leaves a record of kind 4 (R341, R389). -/
def noteBad (s : State) (ctx lq : Nat) (va : BitVec 64) : State :=
  let c := s.ctxs.get ctx
  let s1 := updCtx s ctx (fun c => { c with badq := c.badq.filter (fun b => b.lq != lq) ++ [{ lq := lq, line := lqLine s ctx va }] })
  if c.badq.any (fun b => b.lq == lq) then s1 else pushRecord s1 ctx 4 0 va

/-- GRID (R339). -/
def gridOf (ctx popped : Nat) : BitVec 64 := BitVec.ofNat 64 (ctx * 2 ^ 58 + popped % 2 ^ 58)

/-- A record popped: its kernel runs, or is refused with a record of kind 4 (R338). -/
def acceptRecord (s : State) (ctx : Nat) (va slot : BitVec 64) (bs : List Byte) (poi : Bool) : State :=
  let w := toWords bs
  let c := s.ctxs.get ctx
  let k := kernelOf ctx (gridOf ctx c.popped) w
  let s1 := updCtx s ctx (fun c => { c with popped := c.popped + 1 })
  if poi || recordBad w k || noSlots s k then
    pushRecord { s1 with kernels := s1.kernels ++ [{ k with st := .refused }] } ctx 4 slot va
  else { s1 with kernels := s1.kernels ++ [{ k with snap := s1.h.bytes }] }

/-- DISPATCHER_POP: one record of a launch queue, two slots at a time. -/
def dispatcherPop (s : State) (ctx lq : Nat) : State :=
  let c := s.ctxs.get ctx
  let va := c.lqs.getD lq 0
  if c.st ≠ .active || va = 0 || !lqLook s c lq then s
  else match openLq s ctx va with
    | none => noteBad s ctx lq va
    | some q =>
      let s1 := updCtx s ctx (fun c => { c with badq := c.badq.filter (fun b => b.lq != lq) })
      if q.count < 2 then s1
      else match qSlots s1 (dispAcc s ctx) .load q q.get 2 with
        | .error _ => noteBad s ctx lq va
        | .ok sl =>
          let b := getPieces s1 sl.flatten
          acceptRecord (qPop s1 q 2) ctx va (q.slot q.get) b.1 b.2
def execDispatcherPop (ctx : Nat) (lq : BitVec 2) (s : State) : Out := .next (dispatcherPop s ctx lq.toNat)

-- ===== slices and ranges (R343, R344, R347) =====

/-- Deadline of a slice. -/
def sliceDeadline (k : Kernel) (i : Nat) : Nat := min (k.deadline + i * k.dstep) (2 ^ 64 - 1)


/-- A die's part divided among its slots. -/
def dieRanges (s : State) (k : Kernel) (sl die first len : Nat) : List Range :=
  let ns := (dieSlots s k die).length
  ((List.range ns).map (fun j => let p := splitPart first len ns j; ({ slice := sl, die := die, slot := some j, first := p.1, n := p.2 } : Range))).filter (fun r => r.n != 0)

/-- Where the unstarted clusters of a slice stand: as they have been handed out, else as the distributors would divide them. Under REP every cluster
has its own place (R349). -/
def sliceRanges (s : State) (k : Kernel) (sl : Nat) : List Range :=
  if k.handed.contains sl then k.ranges.filter (fun r => r.slice == sl)
  else
    let first := sl * k.slen
    let len := sliceClusters k sl
    let ds := eligibleDies s k
    if k.rep then (List.range len).map (fun i =>
      let c := first + i
      let d := ds.getD (c % ds.length) 0
      { slice := sl, die := d, slot := some (c / ds.length % (dieSlots s k d).length), first := c, n := 1 })
    else (List.range ds.length).flatMap (fun i => let p := splitPart first len ds.length i; dieRanges s k sl (ds.getD i 0) p.1 p.2)

/-- A slice is handed out. -/
def handOut (s : State) (k : Kernel) (sl : Nat) : Kernel :=
  if k.handed.contains sl then k else { k with ranges := k.ranges ++ sliceRanges s k sl, handed := k.handed ++ [sl] }

/-- A slice whose unstarted clusters are runnable. -/
def runnable (k : Kernel) (sl : Nat) : Bool := k.st == .running && (k.slices.get sl == .unstarted || k.slices.get sl == .active)

-- ===== room on a core (R339) =====

/-- Group slots of a core that are free, ascending. -/
def freeSlotsOf (s : State) (core : Nat) : List Nat := (List.range 48).filter (fun i => !s.groups.any (fun e => e.1 == 48 * core + i))
/-- Quadrant and slot of group `g` of a team under REP, as a number within the core. -/
def repSlot (g : Nat) : Nat := 12 * (g % 4) + g / 4

/-- The slots that a team's groups take on a core; none where they are not free (R9, R349). -/
def teamSlots (s : State) (k : Kernel) (core : Nat) : Option (List Nat) :=
  let free := freeSlotsOf s core
  if k.rep then
    let want := (List.range k.ngroup).map repSlot
    if want.all free.contains then some want else none
  else if k.ngroup ≤ free.length then some (free.take k.ngroup) else none

/-- Shared store and tile granules of a core that teams hold. -/
def coreShm (s : State) (core : Nat) : Nat := (s.teams.filter (fun e => e.2.core == core)).foldl (fun n e => n + e.2.shm) 0
def coreQuota (s : State) (core : Nat) : Nat := (s.teams.filter (fun e => e.2.core == core)).foldl (fun n e => n + e.2.quota) 0
/-- Blocks that groups assigned to a core and not yet placed will take. -/
def dueBlocks (s : State) (core : Nat) : Nat :=
  (s.groups.filter (fun e => coreOf e.1 == core && e.2.life == .unborn)).foldl (fun n e => n + e.2.xblk) 0

/-- A core has every resource of a team free. -/
def coreFits (s : State) (k : Kernel) (core : Nat) : Bool :=
  (teamSlots s k core).isSome && coreShm s core + k.shm ≤ 512 && coreQuota s core + k.quota ≤ 512 && k.ngroup * k.xblk + dueBlocks s core ≤ poolFree s core

/-- A slot has room for a cluster. -/
def slotFits (s : State) (k : Kernel) (die slot : Nat) : Bool :=
  match (dieSlots s k die)[slot]? with
  | none => false
  | some o => (rectCores k die o.1 o.2).all (coreFits s k)

-- ===== placing a cluster =====

/-- Initial values of a group (R339, R80, R38). -/
def newGroup (k : Kernel) (sl clu team gi tid core die slot place : Nat) (sup : Bool) : Group :=
  let stk := k.stkbase + BitVec.ofNat 64 (team * k.ngroup + gi) * k.stkper
  { life := .unborn, ctx := k.ctx, sup := sup, tid := tid, kern := k.grid.toNat, slice := sl, clu := clu, die := die, slotNo := slot, xblk := k.xblk,
    rng := (List.range 32).foldl (fun (m : SMap (BitVec 32)) l => m.set l (seedState 0 l)) [],
    srcKey := core * 64 + place / 12 * 16 + place % 12, budget := k.budget, budgeted := k.budget != 0,
    spr := { group := BitVec.ofNat 64 gi, team := BitVec.ofNat 64 team, cluster := BitVec.ofNat 64 clu, grid := k.grid, ngroup := BitVec.ofNat 64 k.ngroup,
             nteam := BitVec.ofNat 64 (k.nclu * k.crows * k.ccols), argp := k.argp, uvec := k.uvec, stkBase := stk, stkLimit := stk + k.stkper,
             deadline := BitVec.ofNat 64 (sliceDeadline k sl) } }

/-- One team of a cluster is placed on its core: the team, and its groups UNBORN in their slots. -/
def placeTeam (s : State) (k : Kernel) (sl clu t core die slot : Nat) : State :=
  let tid := s.nextTeam
  let team := clu * (k.crows * k.ccols) + t
  let ps := (teamSlots s k core).getD []
  let tm : Team := { live := true, ctx := k.ctx, grid := k.grid, index := team, clu := clu, core := core, ngroup := k.ngroup, shm := k.shm, quota := k.quota }
  let gs := (List.range k.ngroup).foldl (fun (m : SMap Group) gi =>
    let p := ps.getD gi 0
    SMap.set m (48 * core + p) (newGroup k sl clu team gi tid core die slot p (s.ctxs.get k.ctx).sup)) s.groups
  { s with teams := s.teams.set tid tm, nextTeam := tid + 1, groups := gs }

/-- A cluster is placed whole on a slot. -/
def placeCluster (s : State) (k : Kernel) (sl clu die slot : Nat) : State :=
  let o := (dieSlots s k die).getD slot (0, 0)
  (List.range (k.crows * k.ccols)).foldl (fun s t => placeTeam s k sl clu t (coreAt die (o.1 + t / k.ccols) (o.2 + t % k.ccols)) die slot) s

/-- The first range of a slot in a slice. -/
def rangeAt (rs : List Range) (die slot : Nat) : Option Range := bestRange (rs.filter (fun r => r.die == die && r.slot == some slot))
where
  /-- The range with the lowest first cluster. -/
  bestRange : List Range → Option Range
  | [] => none
  | r :: rest => match bestRange rest with
    | some q => some (if r.first ≤ q.first then r else q)
    | none => some r

/-- The earliest slice of a kernel that has an unstarted cluster for a slot. -/
def sliceFor (s : State) (k : Kernel) (die slot : Nat) : Option Nat :=
  (List.range (sliceCount k)).find? (fun sl => runnable k sl && (rangeAt (sliceRanges s k sl) die slot).isSome)

/-- Whether a slice has a cluster that could be placed now. -/
def placeable (s : State) (k : Kernel) (sl : Nat) : Bool :=
  runnable k sl && (sliceRanges s k sl).any (fun r => match r.slot with | some j => slotFits s k r.die j | none => false)

/-- Rank of a slice before another (R344). -/
def ranksBefore (k : Kernel) (i : Nat) (k2 : Kernel) (j : Nat) : Bool :=
  sliceDeadline k i < sliceDeadline k2 j || (sliceDeadline k i == sliceDeadline k2 j && (k.grid.toNat < k2.grid.toNat || (k.grid == k2.grid && i < j)))

/-- A group stopped at a YIELD could come back now: it is runnable again, ranked by its slice (R346). -/
def yielderFits (s : State) (f : Frozen) : Bool :=
  let core := (s.teams.get f.x.tid).core
  f.why == .yield && f.due && !(freeSlotsOf s core).isEmpty && f.x.blocks ≤ poolFree s core

/-- No slice of the context that ranks earlier could be placed instead, and no group of one that yielded could come back. -/
def nothingEarlier (s : State) (k : Kernel) (sl : Nat) : Bool :=
  s.kernels.all (fun k2 => k2.ctx != k.ctx || ((List.range (sliceCount k2)).all (fun j => !(ranksBefore k2 j k sl && placeable s k2 j)) &&
    s.frozen.all (fun f => !(f.x.spr.grid == k2.grid && ranksBefore k2 f.x.slice k sl && yielderFits s f))))

/-- The cluster at the head of a range is started. -/
def startCluster (k : Kernel) (sl : Nat) (r : Range) : Kernel :=
  { k with ranges := k.ranges.flatMap (fun q => if q == r then (if q.n ≤ 1 then [] else [{ q with first := q.first + 1, n := q.n - 1 }]) else [q]),
           placed := k.placed + 1, slices := k.slices.set sl .active }

/-- CLUSTER_PLACEMENT: the next cluster of a slot, when the slot has room and no earlier slice could be placed (R344, R347, R349). -/
def clusterPlacement (s : State) (grid : BitVec 64) (die slot : Nat) : State :=
  match s.kernels.find? (fun k => k.grid == grid && k.st == .running) with
  | none => s
  | some k0 =>
    if (s.ctxs.get k0.ctx).st ≠ .active || !slotFits s k0 die slot then s
    else match sliceFor s k0 die slot with
      | none => s
      | some sl =>
        if !nothingEarlier s k0 sl then s
        else
          let k := handOut s k0 sl
          match rangeAt (k.ranges.filter (fun r => r.slice == sl)) die slot with
          | none => s
          | some r => placeCluster (updKernel s grid (fun _ => startCluster k sl r)) k sl r.first die slot
def execClusterPlacement (grid : BitVec 64) (die : BitVec 2) (slot : Nat) (s : State) : Out := .next (clusterPlacement s grid die.toNat slot)

-- ===== stealing (R348) =====

/-- Unstarted clusters of a distributor: of a die, or of a slot of it. -/
def unstarted (rs : List Range) (die : Nat) (slot : Option Nat) : Nat :=
  (rs.filter (fun r => r.die == die && (slot.isNone || r.slot == slot))).foldl (fun n r => n + r.n) 0

/-- The sibling with the most unstarted clusters, the lowest number among equals. -/
def richest (u : Nat → Nat) : List Nat → Option Nat
  | [] => none
  | d :: r => match richest u r with
    | some e => some (if u e ≤ u d then d else e)
    | none => some d

/-- The clusters of some ranges, ascending. -/
def clustersOf (rs : List Range) : List Nat :=
  (rs.flatMap (fun r => (List.range r.n).map (r.first + ·))).foldl (fun l c => ins c l) []
where
  /-- Insertion into an ascending list. -/
  ins (c : Nat) : List Nat → List Nat
  | [] => [c]
  | d :: r => if c ≤ d then c :: d :: r else d :: ins c r

/-- A range without the clusters of a list: what is left of it, in pieces of one cluster where it is cut. -/
def withoutClusters (cs : List Nat) (r : Range) : List Range :=
  if !(List.range r.n).any (fun i => cs.contains (r.first + i)) then [r]
  else
    let keep := (List.range r.n).filter (fun i => !cs.contains (r.first + i))
    keep.map (fun i => { r with first := r.first + i, n := 1 })

/-- A distributor with nothing unstarted, in any runnable slice, takes the higher half of its richest sibling's clusters; a die's distributor divides
them among its slots. A cluster's slice is that of its number (R343). -/
def stealFor (s : State) (k : Kernel) (die : Nat) (slot : Option Nat) : Option Kernel :=
  let rs := k.ranges.filter (fun r => runnable k r.slice)
  let sibs : List Nat := match slot with
    | none => (eligibleDies s k).filter (· != die)
    | some j => (List.range (dieSlots s k die).length).filter (· != j)
  let u (d : Nat) : Nat := match slot with
    | none => unstarted rs d none
    | some _ => unstarted rs die (some d)
  if unstarted rs die slot ≠ 0 then none
  else match richest u sibs with
    | none => none
    | some d =>
      if u d < 2 then none
      else
        let one (j c : Nat) : Range := { slice := c / k.slen, die := die, slot := some j, first := c, n := 1 }
        let mine (r : Range) : Bool := runnable k r.slice && (match slot with | none => r.die == d | some _ => r.die == die && r.slot == some d)
        let cs := (clustersOf (k.ranges.filter mine)).drop (u d - u d / 2)
        let ns := (dieSlots s k die).length
        let got : List Range := match slot with
          | some j => cs.map (one j)
          | none => (List.range ns).flatMap (fun j => let p := splitPart 0 cs.length ns j
              ((cs.drop p.1).take p.2).map (one j))
        some { k with ranges := k.ranges.flatMap (fun r => if mine r then withoutClusters cs r else [r]) ++ got }

/-- STEAL (R348). -/
def steal (s : State) (grid : BitVec 64) (die : Nat) (slot : Option Nat) : State :=
  match s.kernels.find? (fun k => k.grid == grid && k.st == .running) with
  | none => s
  | some k =>
    let known := (eligibleDies s k).contains die && (match slot with | some j => j < (dieSlots s k die).length | none => true)
    if k.rep || (s.ctxs.get k.ctx).st ≠ .active || !known then s
    else match stealFor s k die slot with
      | none => s
      | some k2 => updKernel s grid (fun _ => k2)
def execSteal (grid : BitVec 64) (die : BitVec 2) (slot : Option Nat) (s : State) : Out := .next (steal s grid die.toNat slot)

-- ===== the birth of a group (R79, R80) =====

/-- A group with its blocks and its first entry. -/
def bornGroup (entry : BitVec 64) (x : Group) : Group :=
  { x with life := .ready, blocks := x.xblk, frontier := [{ pc := entry, prio := 0, depth := 0, mask := fullMask }] }

/-- PLACEMENT: an UNBORN group receives its blocks when they are free, also while its context is being saved, which it must be born for (R79). Its birth
acquires what was written before its kernel's record was pushed (R350). -/
def placement (s : State) (g : Nat) : State :=
  let x := s.grp g
  let st := (s.ctxs.get x.ctx).st
  match s.kernels.find? (fun k => k.grid == x.spr.grid) with
  | none => s
  | some k => if x.life ≠ .unborn || (st ≠ .active && st ≠ .saving) || poolFree s (coreOf g) < x.xblk then s else acquireAt (s.setGrp g (bornGroup k.entry x)) g .sys
def execPlacement (g : Nat) (s : State) : Out := .next (if s.groups.any (fun e => e.1 == g) then placement s g else s)

-- ===== LAUNCH (R353, R354) =====

def launchBody (d a r : Opd) (s : State) (g : Nat) : Eff :=
  let s0 := performAll s g
  let x := s0.grp g
  orTrap s (addrOf x a) fun va =>
  orTrap s (addrOf x r) fun rv =>
  if rv.toNat % 64 ≠ 0 then .trap s ⟨cAlign, rv⟩
  else
    let s1' := seenRange s0 g rv 128
    orTrap s1' (readRange s1' g rv 128) fun b =>
    if b.2.isSome then .trap s1' (poisonAt rv)
    else
      let s1 := releaseAt s1' g .dev
      withQ s1 g .store va fun s2 q =>
        if !q.lnch || q.cclosed then .trap s2 ⟨cQueueDesc, va⟩
        else if q.cap < q.count + 2 then fabDone s2 g d 0
        else orTrap s2 (qSlots s2 (gAcc x) .store q q.put 2) fun sl =>
          let s3 := sl.foldl (fun s ps => ps.foldl (fun s p => settleLine s g p.1 (p.2.1 / 64)) s) s2
          fabDone (qPush s3 q sl [b.1.take 64, b.1.drop 64]) g d 1
where
  /-- The status returned. -/
  fabDone (s : State) (g : Nat) (d : Opd) (n : Nat) : Eff := .done (flightNow s g d [(0, ⟨BitVec.ofNat 64 n, false⟩)] 0 [])
def execLaunch (d a r : Opd) (s : State) : Out := issue (.launch d a r) (launchBody d a r) s

-- ===== completion (R351) =====

/-- A completion arrival on a barrier by virtual address, translated now; a failed check leaves a record of kind 7 (R351, R389). -/
def arriveLate (s : State) (ctx : Nat) (sup : Bool) (va pos : BitVec 64) (step src : Nat) : State :=
  match checkAddr s ctx sup .store false va 64 with
  | .error t => pushRecord s ctx (BitVec.ofNat 64 (7 + 2 ^ 8 * t.cause + 2 ^ 16 * step)) t.addr pos
  | .ok x => arriveBal s x.key x.pa 1 src

/-- KERNEL_SETTLED: once every partial of the grid has reached its home, the rest settles, the kernel is COMPLETE, and it arrives on BAR. -/
def kernelSettled (s : State) (grid : BitVec 64) : State :=
  match s.kernels.find? (fun k => k.grid == grid && k.st == .settling) with
  | none => s
  | some k =>
    if s.flights.any (fun p => p.grid == grid) then s
    else
      let s1 := settleAll s (s.staged.filter (fun p => p.grid == grid))
      let s2 := updKernel { s1 with staged := s1.staged.filter (fun p => p.grid != grid) } grid (fun k => { k with st := .complete, snap := [], ranges := [] })
      if k.bar = 0 then s2 else arriveLate s2 k.ctx (s.ctxs.get k.ctx).sup k.bar grid 1 0xFF
def execKernelSettled (grid : BitVec 64) (s : State) : Out := .next (kernelSettled s grid)

end Sys2Proof.Machine
end

