-- ==== Sys2Proof/Machine/Save.lean ====
section
/-!
DEFINITION. The save area: its header (R365), group records (R366) and team records (R367), as a stop writes them and a restore reads them. Save
records lie under the context's key slot KEYBASE (R146).
-/

namespace Sys2Proof.Machine

-- ===== images =====

/-- A word put into an image of a record by offset. -/
def wr (m : SMap Byte) (o : Nat) (v : BitVec 64) : SMap Byte := putBytes m o (toBytes 8 v.toNat)
def wrN (m : SMap Byte) (o n v : Nat) : SMap Byte := putBytes m o (toBytes n v)
/-- Items at a constant step. -/
def wrEach (m : SMap Byte) (o step : Nat) (vs : List (BitVec 64)) : SMap Byte :=
  (List.range vs.length).foldl (fun m i => wr m (o + step * i) (vs.getD i 0)) m

/-- The number whose bit `i` is `f i`. -/
def bitsNat (n : Nat) (f : Nat → Bool) : Nat := (List.range n).foldl (fun a i => if f i then a + 2 ^ i else a) 0

/-- A reader of a record's bytes by offset. -/
abbrev Rd := Nat → Byte
def rdN (r : Rd) (o n : Nat) : Nat := ofBytes ((List.range n).map (fun i => r (o + i)))
def rd64 (r : Rd) (o : Nat) : BitVec 64 := BitVec.ofNat 64 (rdN r o 8)

/-- A record's bytes at H. -/
def recRd (s : State) (ctx pa : Nat) : Rd := fun o => hByte s (recKey s ctx) (pa + o)

/-- Writing a whole record: every line of it, bytes that the image does not name zero; the lines of `bad` poisoned. -/
def putRecord (s : State) (ctx pa len : Nat) (m : SMap Byte) (bad : List Nat) : State :=
  (List.range (len / 64)).foldl (fun s i =>
    hWrite s (recKey s ctx) (pa / 64 + i) ((List.range 64).map (fun o => (o, some (m.get (64 * i + o))))) (bad.contains i)) s

-- ===== the header (R365) =====

structure SaveHdr where
  ng : Nat := 0
  nt : Nat := 0
  nc : Nat := 0
  goff : Nat := 0
  toff : Nat := 0
  coff : Nat := 0
  deriving DecidableEq, Repr, Inhabited

def grpLen : Nat := 0x20000
def teamLen : Nat := 0x280000
def compLen : Nat := 0x90000

/-- Ranges that do not overlap. -/
def apart (a n b m : Nat) : Bool := a + n ≤ b || b + m ≤ a || n = 0 || m = 0

/-- The header of a save area of a length; none where it is malformed, poisoned, or lies with its records outside memory. -/
def saveHdr (s : State) (pa len : Nat) : Option SaveHdr :=
  let w (i : Nat) : BitVec 64 := hWord s 0 (pa + 8 * i)
  let h : SaveHdr := { ng := field (w 1) 0 32, nt := field (w 1) 32 32, nc := field (w 2) 0 32, goff := (w 3).toNat, toff := (w 4).toNat, coff := (w 5).toNat }
  let gl := grpLen * h.ng
  let tl := teamLen * h.nt
  let cl := compLen * h.nc
  if pa + len ≤ memTop && 64 ≤ len && !hPoi s (pa / 64) && field (w 0) 0 32 == 0x43585341 && field (w 0) 32 32 == 0 && field (w 2) 32 32 == 0 && w 6 == 0 &&
      w 7 == 0 && h.goff % 65536 == 0 && h.toff % 65536 == 0 && h.coff % 65536 == 0 && (h.ng == 0 || h.goff + gl ≤ len) && (h.nt == 0 || h.toff + tl ≤ len) &&
      (h.nc == 0 || h.coff + cl ≤ len) && apart h.goff gl h.toff tl && apart h.goff gl h.coff cl && apart h.toff tl h.coff cl && apart 0 64 h.goff gl &&
      apart 0 64 h.toff tl && apart 0 64 h.coff cl
  then some h else none

/-- The records of each kind of a context, by address. -/
def ctxHdr (s : State) (ctx : Nat) : SaveHdr := let c := s.ctxs.get ctx; (saveHdr s c.savepa c.savelen).getD {}
def grpRecs (s : State) (ctx : Nat) : List Nat := let h := ctxHdr s ctx; (List.range h.ng).map (fun i => (s.ctxs.get ctx).savepa + h.goff + grpLen * i)
def teamRecs (s : State) (ctx : Nat) : List Nat := let h := ctxHdr s ctx; (List.range h.nt).map (fun i => (s.ctxs.get ctx).savepa + h.toff + teamLen * i)
def compRecs (s : State) (ctx : Nat) : List Nat := let h := ctxHdr s ctx; (List.range h.nc).map (fun i => (s.ctxs.get ctx).savepa + h.coff + compLen * i)

/-- USED of a record. -/
def recUsed (s : State) (ctx pa : Nat) : Bool := flag (hWord s (recKey s ctx) pa) 63
/-- The records of a list that are free, lowest first. -/
def freeRecs (s : State) (ctx : Nat) (l : List Nat) : List Nat := l.filter (fun pa => !recUsed s ctx pa)
/-- Clearing or setting USED: a write of the record's first word. -/
def setUsed (s : State) (ctx pa : Nat) (on : Bool) : State :=
  let k := recKey s ctx
  let v := hWord s k pa
  hWrite s k (pa / 64) (entBytes pa 8 (v.toNat % 2 ^ 63 + (if on then 2 ^ 63 else 0))) false

-- ===== group records (R366) =====

/-- The priority, depth and mask of an entry as one word. -/
def entWord (prio depth : Nat) (mask : BitVec 32) : BitVec 64 := BitVec.ofNat 64 (prio % 4096 * 2 ^ 52 + depth % 65536 * 2 ^ 36 + mask.toNat)

/-- The decided transfer as one word: decided, ERET and its next, YIELD, EXIT, and the lanes concerned. What it has no place for stays with the
machine (log 26). -/
def xferWord (f : Xfer) : BitVec 64 :=
  BitVec.ofNat 64 ((if f.decided then 2 ^ 63 else 0) + (if f.eret.isSome then 2 ^ 62 else 0) + (if f.eret == some true then 2 ^ 61 else 0) +
    (if f.yield then 2 ^ 60 else 0) + (if f.exits != 0 then 2 ^ 59 else 0) + (if f.exits != 0 then f.exits.toNat else (maskOf (f.jump.map (·.1))).toNat))

/-- Temporaries and their poison bits: 1040 bytes. -/
def wrTemps (m : SMap Byte) (o : Nat) (t : SMap PV) : SMap Byte :=
  wrN (wrEach m o 8 ((List.range 128).map (fun i => (t.get i).val))) (o + 1024) 16 (bitsNat 128 (fun i => (t.get i).poi))

/-- The hazard set as a bitmap over codes 0x000 to 0x13F. -/
def wrHazard (m : SMap Byte) (o : Nat) (hz : List Nat) : SMap Byte := wrN m o 40 (bitsNat 320 hz.contains)

/-- Return entries by lane, newest first. -/
def wrStacks (m : SMap Byte) (o : Nat) (st : SMap (List (BitVec 64))) : SMap Byte :=
  (List.range 32).foldl (fun m l => wrEach m (o + 32 * l) 8 ((st.get l).take 4)) m

/-- A trap or escalation state. -/
def wrTrap (m : SMap Byte) (o ok : Nat) : Option TrapState → SMap Byte
  | none => m
  | some t => wrTemps (wrHazard (wrEach m o 8 [t.pc, entWord t.prio t.depth t.lanes, BitVec.ofNat 64 (2 ^ 63 + t.rs.pos % 32), xferWord t.rs.xfer])
      (o + 32) t.rs.hazard) ok t.rs.temps

/-- The open transaction: 896 bytes of status, the read set, the write set. -/
def wrTx (m : SMap Byte) (x : Group) : SMap Byte :=
  let t := x.tx
  let sc := t.succ.getD {}
  let m1 := wrEach m 0xEA0 8 [txStatus x, t.lanes.setWidth 64, t.restart.pc, entWord t.restart.prio t.restart.depth 0, sc.pc, entWord sc.prio sc.depth 0,
    BitVec.ofNat 64 ((if t.succ.isSome then 2 ^ 63 else 0) + sc.nest), BitVec.ofNat 64 x.capCount]
  let m2 := (List.range t.reads.length).foldl (fun m i => match t.reads[i]? with
    | some e => wrEach m (0x1220 + 16 * i) 8 [BitVec.ofNat 64 (2 ^ 63 + 64 * e.line + e.alt), BitVec.ofNat 64 e.pos]
    | none => m) m1
  (List.range t.writes.length).foldl (fun m i => match t.writes[i]? with
    | some e =>
      let o := 0x1420 + 80 * i
      let w0 := 2 ^ 63 + (if e.whole then 2 ^ 62 else 0) + (if e.poi.any (·.2) then 2 ^ 61 else 0) + e.key * 2 ^ 51 + 64 * e.line
      putOffsets (wrEach m o 8 [BitVec.ofNat 64 w0, BitVec.ofNat 64 (bitsNat 64 (fun b => (e.bytes.get b).isSome))]) (o + 16) e.bytes
    | none => m) m2

def thawWord : WLine → List (BitVec 64)
  | .mem l p => [BitVec.ofNat 64 (2 ^ 63 + 64 * l), BitVec.ofNat 64 p]
  | .pool p => [BitVec.ofNat 64 (2 ^ 62), BitVec.ofNat 64 p]
  | .tiles p => [BitVec.ofNat 64 (2 ^ 61), BitVec.ofNat 64 p]

def redoWords (x : Group) (e : RedoEnt) : List (BitVec 64) :=
  [BitVec.ofNat 64 (2 ^ 63 + (if e.wide then 2 ^ 62 else 0) + (if e.fp then 2 ^ 61 else 0) + e.op.toNat * 2 ^ 57 + e.pa), e.acc, BitVec.ofNat 64 e.key,
   BitVec.ofNat 64 x.flushes]

/-- A word of a lane's compatibility buffer: address with its byte mask and marks, then its bytes. -/
def cwordWords (c : CWord) : List (BitVec 64) :=
  let mask := bitsNat 8 (fun i => (c.bytes.get i).isSome)
  [BitVec.ofNat 64 (2 ^ 63 + (if c.shared then 2 ^ 62 else 0) + (if c.poi then 2 ^ 61 else 0) + c.rel % 4 * 2 ^ 59 + c.key * 2 ^ 49 + mask / 8 * 2 ^ 42 +
     8 * c.addr + mask % 8),
   BitVec.ofNat 64 (ofBytes ((List.range 8).map (fun i => (c.bytes.get i).getD 0)))]

/-- The state code of a record. -/
def lifeCode : Life → Nat
  | .parked => 2
  | .waiting => 3
  | .trapped => 4
  | _ => 1

/-- The frontier of a record: the run's entry at its next word, then the others. -/
def recEntries (x : Group) : List Entry :=
  (match x.run with | some r => [{ r.ent with pc := r.pc, resume := none }] | none => []) ++ x.frontier

/-- The image of a group record. -/
def groupImage (s : State) (g code : Nat) : SMap Byte :=
  let x := s.grp g
  let es := recEntries x
  let w3 := field x.spr.group 0 6 + x.srcKey / 64 * 2 ^ 8 + x.srcKey / 16 % 4 * 2 ^ 17 + x.srcKey % 16 * 2 ^ 19
  let m := wrEach [] 0 8 [BitVec.ofNat 64 (2 ^ 63 + code * 2 ^ 60 + x.blocks * 2 ^ 57), x.spr.grid, x.spr.team, BitVec.ofNat 64 w3]
  let m := wrEach m 0x40 8 (es.flatMap (fun e => [e.pc, entWord e.prio e.depth e.mask]))
  let m := wrStacks m 0x240 x.rstk
  let m := wrN (wrEach m 0x640 8 ((List.range 64).map (fun n => (x.s.get n).val))) 0x840 8 (bitsNat 64 (fun n => (x.s.get n).poi))
  let m := (List.range 8).foldl (fun m n => wrN m (0x848 + 4 * n) 4 (mreg x n).toNat) m
  let m := wrEach m 0x868 8 ((List.range 8).map (fun n => let q := x.q.get n
    (q.addr &&& ~~~3#64) ||| (if q.bound then 1 else 0) ||| (if q.link then 2 else 0)))
  let m := wrEach m 0x8A8 8 ((List.range 37).map (fun n => specialVal s g n 0))
  let m := (List.range 32).foldl (fun m l => wrN m (0x9D0 + 4 * l) 4 (rngOf x l).toNat) m
  let m := match x.run with
    | none => m
    | some r => wrTemps (wrHazard (wrEach m 0xA50 8 [BitVec.ofNat 64 (2 ^ 63 + r.rs.tdef.toNat * 2 ^ 8 + r.rs.pos % 32), xferWord r.rs.xfer]) 0xA60 r.rs.hazard)
        0xA90 r.rs.temps
  let m := if x.tx.act || x.capCount != 0 then wrTx m x else m
  let m := wrEach m 0x16A0 8 ((x.thaw.take 32).flatMap thawWord)
  let m := wrEach m 0x18A0 8 ((x.redo.take 5).flatMap (redoWords x))
  let m := wrTrap (wrTrap m 0x1940 0x3100 x.trapS) 0x19C0 0x3600 x.escS
  let m := if x.tx.act then wrStacks (wrStacks m 0x1A40 x.tx.restart.rstk) 0x3A10 (x.tx.succ.getD {}).rstk else m
  let m := (List.range 2048).foldl (fun m i => wrN m (0x2000 + 2 * i) 2 (x.ptab.get i).toNat) m
  let m := wrN m 0x3000 8 (bitsNat 64 (fun i => x.ptabPoi.get i))
  let m := (List.range 32).foldl (fun m l => wrEach m (0x4000 + 256 * l) 8 (((x.cbuf.filter (fun c => c.lane == l)).take 16).flatMap cwordWords)) m
  let m := (List.range (32 * (x.blocks + 1))).foldl (fun m n => wrN m (0x6000 + 4 * n) 4 (bitsNat 32 (fun l => (x.v.get (32 * n + l)).poi))) m
  (List.range (32 * (32 * (x.blocks + 1)))).foldl (fun m i => wr m (0x8000 + 8 * i) (x.v.get i).val) m

-- ===== reading a group record =====

def rdMap (n : Nat) (f : Nat → α) [Inhabited α] [DecidableEq α] : SMap α := (List.range n).foldl (fun (m : SMap α) i => SMap.set m i (f i)) []

def rdEntry (r : Rd) (o : Nat) : Entry :=
  let w := rd64 r (o + 8)
  { pc := rd64 r o, prio := field w 52 12, depth := field w 36 16, mask := w.setWidth 32 }

def rdTemps (r : Rd) (o : Nat) : SMap PV := rdMap 128 (fun i => ⟨rd64 r (o + 8 * i), (r (o + 1024 + i / 8)).getLsbD (i % 8)⟩)
def rdHazard (r : Rd) (o : Nat) : List Nat := (List.range 320).filter (fun i => (r (o + i / 8)).getLsbD (i % 8))
def rdStacks (r : Rd) (o : Nat) : SMap (List (BitVec 64)) :=
  rdMap 32 (fun l =>
    let e := (List.range 4).map (fun j => rd64 r (o + 32 * l + 8 * j))
    if e.all (· == 0) then [] else e)

/-- The decided transfer that a word stands for: the one that the machine has kept, where the word is still its own. -/
def rdXfer (w : BitVec 64) (kept : Xfer) : Xfer :=
  if w = xferWord kept then kept
  else
    { decided := flag w 63, eret := if flag w 62 then some (flag w 61) else none, yield := flag w 60, exits := if flag w 59 then w.setWidth 32 else 0 }

def rdTrap (r : Rd) (o ok : Nat) (kept : Option TrapState) : Option TrapState :=
  let w2 := rd64 r (o + 16)
  if !flag w2 63 then none
  else
    let e := rdEntry r o
    let k := kept.getD {}
    let same := k.pc == e.pc
    some { pc := e.pc, prio := e.prio, depth := e.depth, lanes := e.mask, trl := same && k.trl,
           rs := { pos := field w2 0 5, temps := rdTemps r ok, tdef := if same then k.rs.tdef else 15, hazard := rdHazard r (o + 32),
                   xfer := rdXfer (rd64 r (o + 24)) k.rs.xfer } }

def rdTx (r : Rd) (kept : Tx) : Tx :=
  let w (i : Nat) : BitVec 64 := rd64 r (0xEA0 + 8 * i)
  if !flag (w 0) 7 then {}
  else
    let place (i o nest : Nat) : Restart := { pc := w i, prio := field (w (i + 1)) 52 12, depth := field (w (i + 1)) 36 16, rstk := rdStacks r o, nest := nest }
    { act := true, lanes := (w 1).setWidth 32, restart := place 2 0x1A40 kept.restart.nest, nest := field (w 0) 0 4, alt := field (w 0) 4 2,
      succ := if flag (w 6) 63 then some (place 4 0x3A10 (field (w 6) 0 4)) else none,
      reads := (List.range 32).filterMap (fun i =>
        let e := rd64 r (0x1220 + 16 * i)
        if flag e 63 then some ⟨field e 6 36, (rd64 r (0x1228 + 16 * i)).toNat, field e 0 2⟩ else none),
      writes := (List.range 8).filterMap (fun i =>
        let o := 0x1420 + 80 * i
        let e := rd64 r o
        let bs : SMap (Option Byte) := (List.range 64).filterMap (fun b => if flag (rd64 r (o + 8)) b then some (b, some (r (o + 16 + b))) else none)
        let old := kept.writes.find? (fun k => k.line == field e 6 36)
        if flag e 63 then some
          { line := field e 6 36, key := field e 51 10, whole := flag e 62, bytes := bs,
            poi := if !flag e 61 then [] else match old with
              | some k => if k.bytes.length = bs.length then k.poi else bs.map (fun b => (b.1, true))
              | none => bs.map (fun b => (b.1, true)) }
        else none) }

def rdCbuf (r : Rd) : List CWord :=
  (List.range 512).filterMap (fun i =>
    let w := rd64 r (0x4000 + 16 * i)
    let d := rd64 r (0x4008 + 16 * i)
    let mask := field w 42 5 * 8 + field w 0 3
    if flag w 63 then some
      { lane := i / 16, shared := flag w 62, addr := field w 3 39, key := field w 49 10, poi := flag w 61, rel := field w 59 2,
        bytes := (List.range 8).filterMap (fun b => if mask / 2 ^ b % 2 = 1 then some (b, some (d.extractLsb' (8 * b) 8)) else none) }
    else none)

def rdRedo (r : Rd) : List RedoEnt :=
  (List.range 5).filterMap (fun i =>
    let w (k : Nat) : BitVec 64 := rd64 r (0x18A0 + 32 * i + 8 * k)
    if flag (w 0) 63 then some
      { pa := field (w 0) 0 42, wide := flag (w 0) 62, fp := flag (w 0) 61, op := (w 0).extractLsb' 57 4, acc := w 1, key := field (w 2) 0 10 }
    else none)

/-- The special registers of group scope that a record gives back; those that are computed read afresh. Bits that R3 reserves in them come back as the
record has them (log 27). -/
def rdSpecials (r : Rd) (x : Group) : Specials :=
  let w (n : Nat) : BitVec 64 := rd64 r (0x8A8 + 8 * n)
  { group := BitVec.ofNat 64 (rdN r 0x18 8 % 64), team := rd64 r 0x10, cluster := w 3, grid := rd64 r 8, ngroup := w 5, nteam := w 6, argp := w 0x0A,
    fpmode := w 0x0B, rseed := w 0x0C, deadline := w 0x0F, uvec := w 0x11, trapCause := w 0x12, trapPc := w 0x13, trapAddr := w 0x14, emuWord := w 0x15,
    emuD := w 0x16, emuA := w 0x17, emuB := w 0x18, emuC := w 0x19, emuImm := w 0x1A, emuShp := w 0x1B, stkBase := w 0x1C, stkLimit := w 0x1D,
    txCause := field (w 0x1F) 8 4, txWpc := if field (w 0x1F) 12 52 = field x.spr.txWpc 3 52 then x.spr.txWpc else BitVec.ofNat 64 (8 * field (w 0x1F) 12 52),
    poisonInfo := w 0x24 }

/-- A frontier entry as a restore reads it: a run that the machine has kept for it goes on where the entry is still its own. -/
def keptEntry (kept : List Entry) (e : Entry) : Entry := { e with resume := (kept.find? (fun k => { k with resume := none } == e)).bind (·.resume) }

/-- A group as its record reads, over what the machine has kept. A saved PARKED group repeats its wait, a WAITING one is woken once (R79). -/
def groupOfRecord (r : Rd) (k : Group) : Group :=
  let es := ((List.range 32).map (fun i => rdEntry r (0x40 + 16 * i))).filter (fun e => e.mask != 0)
  let rw := rd64 r 0xA50
  let held := flag rw 63
  let code := field (rd64 r 0) 60 3
  let w3 := rd64 r 0x18
  let rs : RunState :=
    { pos := field rw 0 5, tdef := rw.extractLsb' 8 4, temps := rdTemps r 0xA90, hazard := rdHazard r 0xA60,
      xfer := rdXfer (rd64 r 0xA58) (runState k).xfer }
  let run : Option Issue := if held then es.head?.map (fun e => { ent := { e with resume := none }, pc := e.pc, rs := rs }) else none
  let bud := rd64 r (0x8A8 + 0x80)
  { k with
    life := if code = 2 then .parked else if code = 4 then .trapped else .ready, thaw := [], parkNames := [], inflight := [], iq := [], sb := [], shsb := [],
    frontier := (if held then es.drop 1 else es).map (keptEntry k.frontier), run := run, blocks := field (rd64 r 0) 57 3,
    srcKey := field w3 8 9 * 64 + field w3 17 2 * 16 + field w3 19 4,
    v := rdMap (32 * (32 * (field (rd64 r 0) 57 3 + 1))) (fun i => ⟨rd64 r (0x8000 + 8 * i), (r (0x6000 + i / 8)).getLsbD (i % 8)⟩),
    s := rdMap 64 (fun n => ⟨rd64 r (0x640 + 8 * n), (r (0x840 + n / 8)).getLsbD (n % 8)⟩),
    m := (rdMap 8 (fun n => BitVec.ofNat 32 (rdN r (0x848 + 4 * n) 4))).del 0,
    q := rdMap 8 (fun n => let w := rd64 r (0x868 + 8 * n); ({ bound := flag w 0, link := flag w 1, addr := w &&& ~~~3#64 } : QHandle)),
    rstk := rdStacks r 0x240, rng := rdMap 32 (fun l => BitVec.ofNat 32 (rdN r (0x9D0 + 4 * l) 4)),
    ptab := rdMap 2048 (fun i => BitVec.ofNat 16 (rdN r (0x2000 + 2 * i) 2)), ptabPoi := rdMap 64 (fun i => (r (0x3000 + i / 8)).getLsbD (i % 8)),
    redo := rdRedo r, spr := rdSpecials r k, budgeted := bud != 0xFFFFFFFFFFFFFFFF#64, budget := if bud = 0xFFFFFFFFFFFFFFFF#64 then 0 else bud.toNat,
    tx := rdTx r k.tx, capCount := rdN r 0xED8 8, trapS := rdTrap r 0x1940 0x3100 k.trapS, escS := rdTrap r 0x19C0 0x3600 k.escS, cbuf := rdCbuf r }

/-- A group record that RESTORE refuses: its codes, its reserved bits, the lanes of its frontier, or a poisoned line. -/
def groupRecBad (s : State) (ctx pa : Nat) : Bool :=
  let r := recRd s ctx pa
  let w0 := rd64 r 0
  let w3 := rd64 r 0x18
  let es := (List.range 32).map (fun i => rdEntry r (0x40 + 16 * i))
  let masks := es.map (·.mask)
  hPoiSpan s pa grpLen || field w0 60 3 == 0 || 4 < field w0 60 3 || field w0 0 57 != 0 || field (rd64 r 8) 58 6 != ctx || 48 ≤ field w3 0 6 ||
    field w3 6 2 != 0 || field w3 23 41 != 0 || 384 ≤ field w3 8 9 || 12 ≤ field w3 19 4 || rdN r 0x20 32 != 0 ||
    (List.range 32).any (fun i => (List.range i).any (fun j => (masks.getD i 0) &&& (masks.getD j 0) != 0))

-- ===== team records (R367) =====

/-- One engine entry of a record: 1 KiB, with the flags of a stopped MMA beside its level (log 26). -/
def entryWords (e : EngEnt) : List (BitVec 64) :=
  let pad (n : Nat) (l : List (BitVec 64)) : List (BitVec 64) := (List.range n).map (wordAt l)
  pad 5 e.words ++ pad 4 e.amap ++ pad 4 e.bmap ++ [e.tol.setWidth 64, BitVec.ofNat 64 e.rcap, if e.dfall then 1 else 0,
    BitVec.ofNat 64 (2 ^ 63 + e.flg.toNat * 2 ^ 8 + (if e.amap.isEmpty then 0 else 2) + (if e.bmap.isEmpty then 0 else 4) + (if e.sup then 1 else 0)),
    BitVec.ofNat 64 e.blk]

def entryOfRecord (r : Rd) (tid ctx i : Nat) : Option EngEnt :=
  let w (k : Nat) : BitVec 64 := rd64 r (0x1000 + 1024 * i + 8 * k)
  let f := w 16
  let ws (lo n : Nat) : List (BitVec 64) := (List.range n).map (fun k => w (lo + k))
  if !flag f 63 then none
  else some { tid := tid, ctx := ctx, sup := flag f 0, blk := (w 17).toNat, words := ws 0 5, amap := if flag f 1 then ws 5 4 else [],
              bmap := if flag f 2 then ws 9 4 else [], tol := (w 13).setWidth 32, rcap := field (w 14) 0 5, dfall := flag (w 15) 0, flg := f.extractLsb' 8 5 }

/-- The cells of a tile. -/
def tileCells (m : SMap Byte) (o : Nat) (t : Tile) : SMap Byte :=
  let put (m : SMap Byte) (o : Nat) (d : SMap (BitVec 32)) : SMap Byte := d.foldl (fun m e => wrN m (o + 4 * e.1) 4 e.2.toNat) m
  if t.dense then put m o t.d else put (put m o t.u) (o + 0x2000) t.v

/-- The image of a team record with its engine entries. -/
def teamImage (t : Team) (es : List EngEnt) : SMap Byte :=
  let m := wrEach [] 0 8 [BitVec.ofNat 64 (2 ^ 63 + t.quota * 2 ^ 16 + t.shm), t.grid, BitVec.ofNat 64 t.index]
  let m := wrEach m 0x40 8 [t.tol, t.rcap, t.tileMode]
  let m := wrEach m 0x100 8 ((List.range 16).map (fun z => (t.tiles.get z).header))
  let m := (List.range (min 16 es.length)).foldl (fun m i => wrEach m (0x1000 + 1024 * i) 8 (entryWords (es.getD i default))) m
  let m := (List.range 16).foldl (fun m z => tileCells m (0x8000 + 0x4000 * z) (t.tiles.get z)) m
  t.sh.foldl (fun m b => m.set (0x80000 + b.1) b.2) m

/-- Lines of a team record that hold poisoned words of the shared store. -/
def teamBadLines (t : Team) : List Nat := ((t.shPoi.filter (·.2)).map (fun e => (0x80000 + 8 * e.1) / 64)).eraseDups

def tileOfRecord (r : Rd) (z : Nat) : Tile :=
  let h := rd64 r (0x100 + 8 * z)
  let o := 0x8000 + 0x4000 * z
  let cells (o n : Nat) : SMap (BitVec 32) := rdMap n (fun i => BitVec.ofNat 32 (rdN r (o + 4 * i) 4))
  let dense := field h 26 2 == 1
  { dense := dense, int := flag h 28, rank := field h 0 5, poi := flag h 29, flt := field h 24 2, fblk := field h 33 15, nextk := field h 48 16,
    res := flag h 30, tok := flag h 31, d := if dense then cells o 4096 else [], u := if dense then [] else cells o 2048,
    v := if dense then [] else cells (o + 0x2000) 2048 }

/-- A team as its record reads, reserved bits of TOL, RCAP and TILE_MODE as they stand there (log 27); `n` is the number of its kernel's groups per
team, `gone` how many of them have exited. -/
def teamOfRecord (s : State) (ctx pa core clu n gone : Nat) : Team :=
  let r := recRd s ctx pa
  let w0 := rd64 r 0
  let shm := field w0 0 10
  let bad (i : Nat) : Bool := hPoi s ((pa + 0x80000 + 64 * i) / 64)
  { live := true, ctx := ctx, grid := rd64 r 8, index := rdN r 0x10 8, clu := clu, core := core, ngroup := n, exits := gone, shm := shm, quota := field w0 16 10,
    tol := rd64 r 0x40, rcap := rd64 r 0x48, tileMode := rd64 r 0x50, tiles := rdMap 16 (tileOfRecord r), sh := rdMap (4096 * shm) (fun o => r (0x80000 + o)),
    shPoi := ((List.range (64 * shm)).filter bad).foldl (fun (m : SMap Bool) i => (List.range 8).foldl (fun m j => SMap.set m (8 * i + j) true) m) [] }

/-- A team record that RESTORE refuses. -/
def teamRecBad (s : State) (ctx pa : Nat) : Bool :=
  let r := recRd s ctx pa
  let w0 := rd64 r 0
  let hs := (List.range 16).map (fun z => rd64 r (0x100 + 8 * z))
  hPoiSpan s pa 0x80000 || field w0 10 6 != 0 || field w0 26 37 != 0 || 512 < field w0 0 10 || 512 < field w0 16 10 || field (rd64 r 8) 58 6 != ctx ||
    hs.any (fun h => field h 26 2 == 0 || field h 26 2 == 3) || 512 < (hs.foldl (fun n h => n + field h 16 4) 0)

end Sys2Proof.Machine
end

