-- ==== Sys2Proof/Machine/Context.lean ====
section
/-!
DEFINITION. Contexts (chapter 16): descriptors and the commands of CTX_CMD (R355 to R362), stops of groups (R71, R363), saves and restores (R364 to
R369), the end of a context (R375), and the pushes of fault records (R374).
-/

namespace Sys2Proof.Machine

-- ===== the fault queue (R374) =====

def faultAcc (ctx : Nat) : QAcc := ⟨true, ctx, true⟩

/-- The fault queue of a context; none where it is unusable. -/
def faultQueue (s : State) (ctx : Nat) : Option QDesc :=
  match qOpen s (faultAcc ctx) .store (BitVec.ofNat 64 (s.ctxs.get ctx).fq) with
  | .ok q => if q.lnch || q.words != 4 || q.cclosed || !inMemory q.ring.toNat || !inMemory (q.ring.toNat + q.esize * q.cap - 1) then none else some q
  | .error _ => none

/-- An MSI-X vector is signalled (R412). -/
def signal (s : State) (v : Nat) : State :=
  { s with hostOut := match s.hostOut with
    | (w, n) :: r => if w = v then (w, n + 1) :: r else (v, 1) :: (w, n) :: r
    | [] => [(v, 1)] }

/-- The oldest waiting record leaves the list. -/
def dropRecord (s : State) (ctx : Nat) : State := updCtx s ctx (fun c => { c with frecs := c.frecs.drop 1 })

/-- FAULT_RECORD_PUSH: the oldest waiting record enters the queue; only a full queue makes it wait; an unusable one loses it. The push of an EVT's
record, of kind 3, interrupts no one (R333). -/
def faultPush (s : State) (ctx : Nat) : State :=
  match (s.ctxs.get ctx).frecs with
  | [] => s
  | r :: _ => match faultQueue s ctx with
    | none =>
      let fq := (s.ctxs.get ctx).fq
      hbSet (dropRecord s ctx) (if inMemory fq then stackOf fq else 0) hbFRL
    | some q => match qPushAs s (faultAcc ctx) q [r] with
      | .ok (some s1) => if r.headD 0 = 3 then dropRecord s1 ctx else signal (dropRecord s1 ctx) 0
      | _ => s
def execFaultRecordPush (ctx : Nat) (s : State) : Out := .next (faultPush s ctx)

-- ===== descriptors (R356, R357) =====

/-- Codes of CTX_CMD.STATUS (R360). -/
def csOk : Nat := 0
def csState : Nat := 1
def csDesc : Nat := 2
def csShare : Nat := 3
def csNospace : Nat := 4
def csPlace : Nat := 5
def csSave : Nat := 6
def csStage : Nat := 7

/-- The context that a descriptor's words describe. -/
def ctxOf (w : Nat → BitVec 64) (c : Ctx) : Ctx :=
  { c with root := (w 0).toNat, sup := flag (w 1) 0, compat := flag (w 1) 1, share := field (w 2) 0 8, latb := field (w 2) 32 32, ywait := field (w 3) 0 32,
           rdq := field (w 3) 32 9, keybase := field (w 4) 0 9, keycnt := field (w 4) 16 10, fq := (w 5).toNat, savepa := (w 6).toNat, savelen := (w 7).toNat,
           lqs := [w 8, w 9, w 10, w 11], cores := w 21 ++ w 20 ++ w 19 ++ w 18 ++ w 17 ++ w 16 }

/-- A reserved field of a descriptor is nonzero; COMPAT is one on a device without the capability (R416). -/
def descReserved (s : State) (w : Nat → BitVec 64) : Bool :=
  field (w 0) 52 12 != 0 || field (w 0) 0 16 != 0 || field (w 1) 2 62 != 0 || (flag (w 1) 1 && !hasCap s 1) || field (w 2) 8 24 != 0 || field (w 3) 41 23 != 0 ||
    field (w 4) 9 7 != 0 || field (w 4) 26 38 != 0 || (List.range 4).any (fun i => w (12 + i) != 0) || (List.range 10).any (fun i => w (22 + i) != 0)

/-- The checks of R357: a code, and the context as described. -/
def readCtx (s : State) (n : Nat) : Nat × Ctx :=
  let pa := s.regs.ctxDesc.toNat
  let w (i : Nat) : BitVec 64 := hWord s 0 (pa + 8 * i)
  let c := ctxOf w (s.ctxs.get n)
  let others := s.ctxs.filter (fun e => e.1 != n)
  let shares := (others.filter (fun e => e.2.st == .active || e.2.st == .halted)).foldl (fun a e => a + e.2.share) c.share
  let rdqs := (others.filter (fun e => e.2.st != .free)).foldl (fun a e => a + e.2.rdq) c.rdq
  if !inMemory pa || hPoiSpan s pa 256 || descReserved s w || !inMemory c.root || 512 < c.keybase + c.keycnt || c.cores == 0 || c.fq % 64 != 0 ||
      c.savepa % 65536 != 0 || (saveHdr s c.savepa c.savelen).isNone then (csDesc, c)
  else if 255 < shares then (csShare, c)
  else if 256 < c.rdq || 256 < rdqs then (csStage, c)
  else (csOk, c)

-- ===== commands (R360, R361) =====

/-- STATUS of CTX_CMD. -/
def setCtxStatus (s : State) (v : Nat) : State :=
  { s with regs := { s.regs with ctxCmd := (s.regs.ctxCmd &&& ~~~0x00FF000000000000#64) ||| BitVec.ofNat 64 (v * 2 ^ 48) } }

/-- The oldest pending command, when its OP is the one that an event applies: its context and the state without it. -/
def ctxHead (s : State) (op : Nat) : Option (Nat × State) :=
  match s.regs.ctxPend with
  | [] => none
  | v :: r => if field v 44 4 = op then some (field v 38 6, { s with regs := { s.regs with ctxPend := r } }) else none

/-- A command that its context's state admits, else STATE. -/
def ctxCommand (op : Nat) (ok : CtxState → Bool) (f : State → Nat → State) (s : State) : Out :=
  .next (match ctxHead s op with
  | none => s
  | some (n, s1) => if ok (s1.ctxs.get n).st then f s1 n else setCtxStatus s1 csState)

/-- CREATE. Kernels of an earlier context of the number are no kernels of this one, whose GRIDs count from 0 again (R339, R341). -/
def ctxCreate (s : State) (n : Nat) : State :=
  let r := readCtx { s with ctxs := s.ctxs.set n {} } n
  if r.1 = csOk then
    setCtxStatus (updCtx { s with kernels := s.kernels.filter (fun k => k.ctx != n) } n (fun _ => { r.2 with st := .active })) csOk
  else setCtxStatus s r.1
def execCtxCreate (s : State) : Out := ctxCommand 1 (· == .free) ctxCreate s

/-- HALT (R362). -/
def execCtxHalt (s : State) : Out :=
  ctxCommand 2 (· == .active) (fun s n => setCtxStatus (updCtx s n (fun c => { c with st := .halted, hcause := 3 })) csOk) s

/-- Launch queues found unusable are looked at again (R341). -/
def lookAgain (c : Ctx) : Ctx := { c with badq := c.badq.map (fun b => { b with again := true }) }

/-- RESUME (R362). -/
def execCtxResume (s : State) : Out :=
  ctxCommand 3 (· == .halted) (fun s n => setCtxStatus (updCtx s n (fun c => { lookAgain c with st := .active })) csOk) s

-- ===== stops (R71, R363, R345, R346) =====

/-- The kernel and the slice of a group. -/
def kernelAt (s : State) (x : Group) : Option Kernel := s.kernels.find? (fun k => k.grid == x.spr.grid)
def sliceHeld (s : State) (x : Group) : Bool := match kernelAt s x with
  | some k => k.slices.get x.slice == .held
  | none => false

/-- A slice with an earlier deadline that only the resources of a yielding group keep from being placed (R346). -/
def yieldWanted (s : State) (g : Nat) : Bool :=
  let x := s.grp g
  match kernelAt s x with
  | none => false
  | some k =>
    let s1 := { s with groups := s.groups.del g }
    s.kernels.any (fun k2 => k2.ctx == k.ctx && (List.range (sliceCount k2)).any (fun j =>
      sliceDeadline k2 j < sliceDeadline k x.slice && runnable k2 j && !placeable s k2 j && placeable s1 k2 j))

/-- The bound of R363 has passed. -/
def ywaitOver (s : State) (c : Ctx) : Bool := c.saveClock * 10 / 36 + c.ywait ≤ (timen s).toNat

/-- Why a group may be stopped now, if it may: its context is saved (R363), its slice is HELD (R345), it has yielded (R346). One that is UNBORN is
placed first (R79). -/
def stopWhy (s : State) (g : Nat) : Option FrozenBy :=
  let x := s.grp g
  let c := s.ctxs.get x.ctx
  let idle := x.life == .ready && x.run.isNone
  if !s.groups.any (fun e => e.1 == g) || x.life == .unborn then none
  else if c.st == .saving then
    (if x.life == .parked || x.life == .waiting || x.life == .trapped || c.wasHalted || ywaitOver s c || x.stopWait || (idle && x.safe) then some .save
     else none)
  else if c.st ≠ .active then none
  else if x.stopWait && sliceHeld s x && x.life ≠ .trapped then some .held
  else if idle && x.yielded && x.chain.isNone && yieldWanted s g then some .yield
  else none

/-- The requests of the stages that a stopping group carries are refused. -/
def refuseWants (s : State) (g : Nat) : State :=
  match (s.grp g).chain with
  | none => s
  | some (c, i) =>
    if (s.chains.get c).folded then (List.range 8).foldl (fun s j => dropWants s c j) s else dropWants s c i

/-- A stop: the results in flight return first, the group's dirty entries pass to H, and the record is written. While a result cannot return, or no
record is free, the group stays (R71, R365); one that yielded is then not selected until a record is free. -/
def stopGroup (s : State) (g : Nat) (why : FrozenBy) : State :=
  let x := s.grp g
  let s1 := performAll (refuseWants s g) g
  match allReady s1 g, freeRecs s1 x.ctx (grpRecs s1 x.ctx) with
  | true, pa :: _ =>
    let s2 := passAll (returnAll s1 g) g
    let s3 := putRecord s2 x.ctx pa grpLen (groupImage s2 g (lifeCode x.life)) []
    let s4 := { s3 with groups := s3.groups.del g, frozen := s3.frozen ++ [{ pa := pa, ctx := x.ctx, why := why, due := why == .yield, x := s2.grp g }] }
    if x.blocks = 0 then s4 else poolWrite s4 (coreOf g)
  | _, [] => if why = .yield then s.setGrp g { x with stopWait := true } else refuseWants s g
  | _, _ => refuseWants s g

/-- GROUP_STOP. -/
def execGroupStop (g : Nat) (s : State) : Out := .next (match stopWhy s g with | some w => stopGroup s g w | none => s)

/-- YWAIT_EXPIRY: every group that has not stopped stops at its next word boundary. -/
def execYwaitExpiry (ctx : Nat) (s : State) : Out :=
  let c := s.ctxs.get ctx
  .next (if c.st = .saving && ywaitOver s c then
    { s with groups := s.groups.map (fun e => if e.2.ctx == ctx then (e.1, { e.2 with stopWait := true }) else e) } else s)

-- ===== SAVE (R364, R365, R368) =====

/-- The compartments granted to a context that hold something. -/
def heldComps (s : State) (ctx : Nat) : List Nat := (s.comps.filter (fun e => e.2.rect.isSome && e.2.grant == ctx && e.2.st != .empty)).map (·.1)

/-- The record of a LOADED compartment: its prefix, and the fields CFGID, ICRC, shape and IMGVA of a save's header. -/
def loadedRecord (s : State) (pa n : Nat) : State :=
  let c := cmpOf s n
  let k := recKey s c.grant
  let w0 := BitVec.ofNat 64 (c.planes.cfgid % 2 ^ 32 * 2 ^ 32)
  let w1 := BitVec.ofNat 64 (c.planes.crc % 2 ^ 32 + c.planes.shr % 256 * 2 ^ 32 + c.planes.shc % 256 * 2 ^ 40)
  let s1 := hWriteSpan s k pa (w64 (2 ^ 63 + 2 ^ 62) ++ w64 n ++ List.replicate 48 0) false
  setCmp (hWriteSpan s1 k (pa + 0x10000) (toBytes 8 w0.toNat ++ toBytes 8 w1.toNat ++ toBytes 8 c.imgva.toNat ++ List.replicate 40 0) false) n (unloaded c)

/-- One compartment's part in a save: a RUNNING graph freezes towards a record, a LOADED one is recorded at once. -/
def saveComp (ctx : Nat) (s : State) (n : Nat) : State :=
  let c := cmpOf s n
  match freeRecs s ctx (compRecs s ctx) with
  | [] => s
  | pa :: _ =>
    if c.st = .running then setUsed (setCmp s n { c with st := .freezing, saving := some { tag := 0, va := 0, phys := some pa } }) ctx pa true
    else if c.st = .loaded then loadedRecord s pa n
    else s

/-- The engine's part for a team: its entries wait with the team (R279). -/
def stopEngine (s : State) (tid : Nat) : State := let r := engStop s tid; if r.1.isEmpty then r.2 else { r.2 with reentry := r.2.reentry.upd tid (· ++ r.1) }

/-- A team's record is written and the team released. -/
def saveTeam (ctx : Nat) (s : State) (tid : Nat) : State :=
  match freeRecs s ctx (teamRecs s ctx) with
  | [] => s
  | pa :: _ =>
    let t := s.teams.get tid
    let s1 := putRecord s ctx pa teamLen (teamImage t (s.reentry.get tid)) (teamBadLines t)
    { s1 with teams := s1.teams.del tid, reentry := s1.reentry.del tid }

def ctxTeams (s : State) (ctx : Nat) : List Nat := (s.teams.filter (fun e => e.2.live && e.2.ctx == ctx)).map (·.1)

/-- What a save does once every group has stopped, in the order of R364, as far as it can go now. -/
def saveProgress (s : State) (ctx : Nat) : State :=
  if s.groups.any (fun e => e.2.ctx == ctx) then s
  else
    let s1 := (ctxTeams s ctx).foldl stopEngine s
    let s2 := (heldComps s1 ctx).foldl (saveComp ctx) s1
    if !(heldComps s2 ctx).isEmpty || s2.copies.any (fun c => c.ctx == ctx) then s2
    else
      let s3 := (ctxTeams s2 ctx).foldl (saveTeam ctx) s2
      if (ctxTeams s3 ctx).isEmpty then updCtx s3 ctx (fun c => { c with st := .saved }) else s3

/-- SAVE: enough records, then the stops begin (R363): at once for what stands still, with YWAIT 0 at the next word boundaries. -/
def ctxSave (s : State) (n : Nat) : State :=
  let gs := (s.groups.filter (fun e => e.2.ctx == n)).length
  if (freeRecs s n (grpRecs s n)).length < gs || (freeRecs s n (teamRecs s n)).length < (ctxTeams s n).length ||
      (freeRecs s n (compRecs s n)).length < (heldComps s n).length then setCtxStatus s csNospace
  else
    let c := s.ctxs.get n
    let s1 := updCtx s n (fun c => { c with st := .saving, wasHalted := c.st == .halted, saveClock := s.clock })
    let now (x : Group) : Bool := c.ywait = 0 || c.st == .halted || x.life == .parked || x.life == .waiting || x.life == .trapped
    let s2 := { s1 with groups := s1.groups.map (fun e => if e.2.ctx == n && now e.2 then (e.1, { e.2 with stopWait := true }) else e) }
    setCtxStatus (saveProgress s2 n) csOk
def execCtxSave (s : State) : Out := ctxCommand 4 (fun c => c == .active || c == .halted) ctxSave s

/-- CONTEXT_SAVED: the steps of a save that were still due. -/
def execContextSaved (ctx : Nat) (s : State) : Out := .next (if (s.ctxs.get ctx).st = .saving then saveProgress s ctx else s)

-- ===== RESTORE (R369) =====

/-- What RESTORE knows of a team record. -/
structure TeamRec where
  pa : Nat
  grid : BitVec 64
  index : Nat
  clu : Nat
  shm : Nat
  quota : Nat
  groups : List Nat               -- its group records
  blocks : Nat                    -- extended blocks that they hold
  deriving DecidableEq, Repr, Inhabited

/-- Groups of a kernel's cluster and teams of it, where the kernel is known. -/
def cluOf (s : State) (grid : BitVec 64) (team : Nat) : Nat := match s.kernels.find? (fun k => k.grid == grid) with
  | some k => team / max 1 (k.crows * k.ccols)
  | none => team

def teamRec (s : State) (ctx pa : Nat) (gs : List Nat) : TeamRec :=
  let r := recRd s ctx pa
  let grid := rd64 r 8
  let team := rdN r 0x10 8
  let mine := gs.filter (fun q => rd64 (recRd s ctx q) 8 == grid && rdN (recRd s ctx q) 0x10 8 == team)
  { pa := pa, grid := grid, index := team, clu := cluOf s grid team, shm := field (rd64 r 0) 0 10, quota := field (rd64 r 0) 16 10, groups := mine,
    blocks := mine.foldl (fun n q => n + field (rd64 (recRd s ctx q) 0) 57 3) 0 }

/-- A core can take a team beside those already placed; the teams of one cluster share a die. -/
def coreTakes (s : State) (c : Ctx) (done : List (TeamRec × Nat)) (t : TeamRec) (core : Nat) : Bool :=
  let here := (done.filter (fun e => e.2 == core)).map (·.1)
  let sum (f : TeamRec → Nat) : Nat := here.foldl (fun n u => n + f u) (f t)
  c.cores.getLsbD core && coreShm s core + sum (·.shm) ≤ 512 && coreQuota s core + sum (·.quota) ≤ 512 && sum (·.blocks) ≤ 48 &&
    sum (·.groups.length) ≤ (freeSlotsOf s core).length &&
    done.all (fun e => e.1.grid != t.grid || e.1.clu != t.clu || dieOfCore e.2 == dieOfCore core)

/-- A core for every team, if there is an assignment: the first one in order of cores. -/
def assignCores (s : State) (c : Ctx) : List TeamRec → List (TeamRec × Nat) → Option (List (TeamRec × Nat))
  | [], done => some done
  | t :: r, done => (List.range 384).findSome? (fun core => if coreTakes s c done t core then assignCores s c r (done ++ [(t, core)]) else none)

/-- What RESTORE knows of a compartment record: whether it is LD, its stack, shape, the load that it asks for, and the sluices that its image names. -/
structure CompRec where
  pa : Nat
  stack : Nat
  shape : Nat × Nat
  need : BitVec 32
  load : Loading
  deriving DecidableEq, Repr, Inhabited

/-- The sluices that the routes of a configuration name. -/
def namedSluices (p : Planes) : BitVec 32 :=
  p.edges.foldl (fun m e => (if edSk e then m ||| bitOf (edSrc e) else m) ||| (if edDk e then bitOf (edDst e) else 0)) 0

/-- Reading a compartment record; none where it, or its save's header, is malformed, or its image does not translate. -/
def compRec (s : State) (ctx pa : Nat) : Option CompRec :=
  let c := s.ctxs.get ctx
  let r := recRd s ctx pa
  let w0 := rd64 r 0
  let n := rdN r 8 8
  let ld := flag w0 62
  let hdr := (List.range 8).map (fun i => rd64 r (0x10000 + 8 * i))
  let iva := wordAt hdr 2
  if hPoiSpan s pa 64 || hPoiSpan s (pa + 0x10000) 64 || field w0 0 62 != 0 || 128 ≤ n || (!ld && !saveHdrOk hdr) then none
  else match checkAddr s ctx c.sup .load false iva 64 with
    | .error _ => none
    | .ok a =>
      let ih := toWords (hRead s a.key a.pa 64)
      let ipoi := hPoiSpan s a.pa 64
      match checkSpan s ctx c.sup .load iva (if !ipoi && imgLenOk ih then imgLen ih else 64) with
      | .error _ => none
      | .ok xl =>
        let img := readIn s xl iva.toNat (if imgLenOk ih then imgLen ih else 64)
        let ldg : Loading := { prev := .empty, hdr := if ld then ih else hdr, va := if ld then iva else 0, phys := if ld then none else some (pa + 0x10000), xl := xl,
                               imgHdr := ih, imgPoi := ipoi, restore := !ld, sup := c.sup, ctx := ctx }
        some { pa := pa, stack := n / 8, shape := (field (wordAt hdr 1) 32 8, field (wordAt hdr 1) 40 8),
               need := if imgLenOk ih then namedSluices (planesOf ih img.1) else 0, load := ldg }

/-- A compartment for every record, if there is an assignment. -/
def assignComps (s : State) (ctx : Nat) : List CompRec → List (CompRec × Nat) → Option (List (CompRec × Nat))
  | [], done => some done
  | r :: rest, done => (List.range 8).findSome? (fun i =>
      let n := 8 * r.stack + i
      let c := cmpOf s n
      let ok : Bool := match c.rect with
        | some q => c.grant == ctx && c.st == .empty && (q.2.2.1, q.2.2.2) == r.shape && (r.need &&& ~~~c.slmask) == 0 && !done.any (fun e => e.2 == n)
        | none => false
      if ok then assignComps s ctx rest (done ++ [(r, n)]) else none)

/-- A save that the loader would refuse is a malformed record, where its own content is the reason (R307, R369, log 27). -/
def compRefused (s : State) (e : CompRec × Nat) : Option Nat :=
  if !e.1.load.restore then none
  else
    let b := savedBytes s e.1.load
    match restoreFrom s e.2 e.1.load e.1.load.hdr b.1 b.2 with
    | .code k => some (if k = fcSave || k = fcPoison then csSave else csPlace)
    | .ok _ _ => none

/-- A team is reinstated on its core, its engine entries wait to re-enter, and its groups are due (R79, R367). -/
def restoreTeam (ctx : Nat) (s : State) (t : TeamRec) (core : Nat) : State :=
  let tid := s.nextTeam
  let k := s.kernels.find? (fun k => k.grid == t.grid)
  let kept (pa : Nat) : Group := match s.frozen.find? (fun f => f.pa == pa && f.ctx == ctx) with
    | some f => f.x
    | none => {}
  let plain := (t.groups.filter (fun q => (kept q).chain.isNone)).length
  let n := match k with | some k => k.ngroup | none => plain
  let tm := teamOfRecord s ctx t.pa core t.clu n (n - plain)
  let es := (List.range 16).filterMap (entryOfRecord (recRd s ctx t.pa) tid ctx)
  let es' := (List.range es.length).map (fun i => { (es.getD i default) with id := s.nextId + i })
  let fs := t.groups.map (fun q =>
    let x := groupOfRecord (recRd s ctx q) (kept q)
    ({ pa := q, ctx := ctx, why := .save, due := true,
       x := { x with ctx := ctx, sup := (s.ctxs.get ctx).sup, tid := tid, kern := t.grid.toNat, clu := t.clu, xblk := (k.map (·.xblk)).getD 0,
                     slice := match k with | some k => t.clu / max 1 k.slen | none => 0 } } : Frozen))
  let s1 := { s with teams := s.teams.set tid tm, nextTeam := tid + 1, nextId := s.nextId + es.length, reentry := s.reentry.set tid es',
                     frozen := s.frozen.filter (fun f => !(f.ctx == ctx && t.groups.contains f.pa)) ++ fs }
  setUsed s1 ctx t.pa false

/-- A compartment record is handed to the loader. -/
def restoreComp (ctx : Nat) (s : State) (e : CompRec × Nat) : State :=
  setUsed (updCmp s e.2 (fun c => { c with st := .loading, loading := some e.1.load })) ctx e.1.pa false

/-- RESTORE of a SAVED context. -/
def ctxRestore (s : State) (n : Nat) : State :=
  let rc := readCtx s n
  if rc.1 ≠ csOk then setCtxStatus s rc.1
  else
    let s1 := updCtx s n (fun _ => rc.2)
    let used (l : List Nat) : List Nat := l.filter (recUsed s1 n)
    let gs := used (grpRecs s1 n)
    let ts := (used (teamRecs s1 n)).map (fun pa => teamRec s1 n pa gs)
    let cs := (used (compRecs s1 n)).map (compRec s1 n)
    let orphan := gs.any (fun q => !ts.any (fun t => t.groups.contains q))
    let twice := (List.range ts.length).any (fun i => (List.range i).any (fun j =>
      (ts.getD i default).grid == (ts.getD j default).grid && (ts.getD i default).index == (ts.getD j default).index))
    if gs.any (groupRecBad s1 n) || ts.any (fun t => teamRecBad s1 n t.pa) || cs.any (·.isNone) || orphan || twice then setCtxStatus s csSave
    else match assignCores s1 rc.2 ts [], assignComps s1 n (cs.filterMap id) [] with
      | some tc, some cc => match cc.findSome? (compRefused s1) with
        | some k => setCtxStatus s k
        | none =>
        let s2 := tc.foldl (fun s e => restoreTeam n s e.1 e.2) s1
        let s3 := cc.foldl (restoreComp n) s2
        setCtxStatus (updCtx s3 n (fun c => { lookAgain c with st := .restoring })) csOk
      | _, _ => setCtxStatus s csPlace
def execCtxRestore (s : State) : Out := ctxCommand 5 (· == .saved) ctxRestore s

/-- A stage's group has a new number. -/
def chainMoved (s : State) (x : Group) (g : Nat) : State :=
  match x.chain with
  | none => s
  | some (c, i) =>
    let h := s.chains.get c
    let h1 := { h with tid := x.tid, core := coreOf g }
    if h.folded then setChain s c { h1 with gid := g, stages := h1.stages.map (fun t => if t.exited then t else { t with gid := g }) }
    else setChain s c (updStage h1 i (fun t => { t with gid := g }))

/-- A group as it comes back: an open transaction is validated first, and one that fails ends at the next word to issue (R210); a slice still HELD
stops it again. -/
def comeBack (s : State) (f : Frozen) : Group :=
  let x := f.x
  let next := (startRun x).getD x
  let y := if x.tx.act && !txValid s x then { failTx next txConflict (runPc next) with capCount := 0 } else x
  let b := match kernelAt s y with | some k => k.budget | none => 0
  { y with stopWait := sliceHeld s y, yielded := false, safe := false, budget := if f.why = .held then b else y.budget }

/-- A FROZEN group whose record is still to be read: a group stopped alone. -/
def readFrozen (s : State) (f : Frozen) : Frozen :=
  if f.why = .save then f
  else
    let y := groupOfRecord (recRd s f.ctx f.pa) f.x
    { f with x := { y with tid := f.x.tid, ctx := f.ctx } }

/-- A yielder comes back only when no earlier slice could be placed (R346). -/
def yieldFree (s : State) (f : Frozen) : Bool :=
  f.why != .yield || (match kernelAt s f.x with | some k => nothingEarlier s k f.x.slice | none => true)

/-- GROUP_RESTORE: the group of a record returns to a free slot of its team's core, once its blocks are free (R79, R85). -/
def groupRestore (s : State) (ctx rec g : Nat) : State :=
  let c := s.ctxs.get ctx
  match (grpRecs s ctx)[rec]? with
  | none => s
  | some pa => match s.frozen.find? (fun f => f.pa == pa && f.ctx == ctx && f.due) with
    | none => s
    | some f0 =>
      let f := readFrozen s f0
      if !(c.st == .restoring || c.st == .active) || s.groups.any (fun e => e.1 == g) || coreOf g != (s.teams.get f.x.tid).core ||
          poolFree s (coreOf g) < f.x.blocks || !yieldFree s f || (f.why != .save && groupRecBad s ctx pa) then s
      else
        let x := comeBack s f
        let s1 := { (setUsed (s.setGrp g x) ctx pa false) with frozen := s.frozen.filter (fun h => !(h.pa == pa && h.ctx == ctx)) }
        chainMoved (if x.blocks = 0 then s1 else poolWrite s1 (coreOf g)) x g
def execGroupRestore (ctx rec g : Nat) (s : State) : Out := .next (groupRestore s ctx rec g)

/-- CONTEXT_RESTORED: every record has been reinstated. -/
def execContextRestored (ctx : Nat) (s : State) : Out :=
  let waiting := s.frozen.any (fun f => f.ctx == ctx && f.due && f.why == .save) || s.comps.any (fun e => e.2.grant == ctx && e.2.st == .loading)
  .next (if (s.ctxs.get ctx).st = .restoring && !waiting then updCtx s ctx (fun c => { c with st := .active }) else s)

-- ===== END (R375) =====

/-- The machine drops a compartment of an ending context: a graph is abandoned with CONTEXT, a load is cancelled, the grant is withdrawn. -/
def endComp (s : State) (n : Nat) : State :=
  let c := cmpOf s n
  let s1 := if c.st = .running || c.st = .freezing then abandon s n fcContext else s
  let s2 := match c.loading with | some l => answerTag s1 l.tag fcState | none => s1
  let s3 := match c.saving with | some v => answerTag s2 v.tag fcState | none => s2
  setCmp s3 n {}

/-- A group of an ending context is terminated: what it has stored still reaches H. -/
def endMember (s : State) (g : Nat) : State :=
  let s1 := passAll (performAll s g) g
  let x := s1.grp g
  let s2 := { s1 with groups := s1.groups.del g }
  if x.blocks = 0 then s2 else poolWrite s2 (coreOf g)

def endContext (s : State) (n : Nat) : State :=
  let own (x : Nat) : Bool := x == n
  let s1 := ((s.groups.filter (fun e => own e.2.ctx)).map (·.1)).foldl endMember s
  let s2 := ((s1.comps.filter (fun e => e.2.rect.isSome && own e.2.grant)).map (·.1)).foldl endComp s1
  { (updCtx s2 n (fun c => { c with st := .ending })) with
    teams := (s2.teams.filter (fun e => !own e.2.ctx || teamCopying s2 e.1)).map (fun e =>
      if own e.2.ctx then (e.1, { e.2 with tiles := [], exits := e.2.ngroup }) else e), engines := s2.engines.foldl (fun (m : SMap (List EngEnt)) e =>
      SMap.set m e.1 (e.2.filter (fun n => !own n.ctx))) [],
    reentry := s2.reentry.filter (fun e => !own (s2.teams.get e.1).ctx), keptRuns := s2.keptRuns.filter (fun k => !own k.ctx), chains := s2.chains.filter (fun e => !own e.2.ctx),
    flights := s2.flights.filter (fun p => !own p.ctx), staged := s2.staged.filter (fun p => !own p.ctx),
    frozen := s2.frozen.filter (fun f => !own f.ctx), tlb := s2.tlb.filter (fun e => !own e.ctx),
    transfers := s2.transfers.filter (fun t => !s2.ranks.any (fun r => r.id == t.rank && own r.ctx)), ranks := s2.ranks.filter (fun r => !own r.ctx),
    kernels := s2.kernels.map (fun k => if own k.ctx && (k.st == .running || k.st == .settling) then { k with st := .aborted } else k) }

/-- END of a context that may end. -/
def ctxEnd (s : State) (n : Nat) : State := setCtxStatus (endContext s n) csOk
def execCtxEnd (s : State) : Out := ctxCommand 6 (fun c => c == .active || c == .halted || c == .saved || c == .quarantined) ctxEnd s

/-- CONTEXT_ENDED: the copies in flight have completed, the fault records that have room are pushed, and the number is FREE. -/
def contextEnded (s : State) (ctx : Nat) : State :=
  let c := s.ctxs.get ctx
  if c.st ≠ .ending || s.copies.any (fun k => k.ctx == ctx) then s
  else
    let t := (List.range c.frecs.length).foldl (fun s _ => faultPush s ctx) s
    { t with ctxs := t.ctxs.set ctx {}, tlb := t.tlb.filter (fun e => e.ctx != ctx) }
def execContextEnded (ctx : Nat) (s : State) : Out := .next (contextEnded s ctx)

end Sys2Proof.Machine
end

