-- ==== Sys2Proof/Machine/Transaction.lean ====
section
/-!
DEFINITION. The transaction words (R213 to R218) and the commit (R202, R203).
-/

namespace Sys2Proof.Machine

/-- TBEGIN (R214). -/
def tbeginBody (s : State) (g : Nat) : Eff :=
  let x := s.grp g
  if x.tx.act && active x != x.tx.lanes then refuseTx s g txDiverged
  else if x.tx.act && x.tx.nest = 15 then refuseTx s g txNesting
  else atQuantum s g fun s =>
    let x := s.grp g
    if x.tx.act then .done (s.setGrp g { x with tx := { x.tx with nest := x.tx.nest + 1 } })
    else .done (s.setGrp g { x with tx := { act := true, lanes := active x, restart := placeHere x (runPc x) (active x) } })
def execTbegin (s : State) : Out := issue .tbegin tbeginBody s

/-- The words that need an open transaction whose lanes are the active ones (R215 to R218); each is a quantum boundary (R213). -/
def inTx (s : State) (g : Nat) (k : State → Eff) : Eff :=
  let x := s.grp g
  if !x.tx.act then .trap s ⟨cIllegal, 0⟩
  else if active x != x.tx.lanes then refuseTx s g txDiverged
  else atQuantum s g k

/-- The commit of the outermost TEND: a release at dev, then in one step at H the validation and the appends in ascending line order, then an acquire
at dev (R181, R202, R203). -/
def commitTx (s : State) (g : Nat) : Eff :=
  if (s.grp g).tx.writes.any (fun e => e.poi.any (·.2)) then .trap s (poisonAt 0)
  else
    let s1 := releaseAt s g .dev
    let x := s1.grp g
    if txValid s1 x then
      let s2 := (sortWrites x.tx.writes).foldl commitWrite s1
      .done (acquireAt (s2.updGrp g (fun x => { closeTx x txCommit (runPc x) with capCount := 0 })) g .dev)
    else .moved (conflictEnd s1 g)

/-- TEND (R215). -/
def tendBody (s : State) (g : Nat) : Eff :=
  inTx s g fun s =>
    let x := s.grp g
    if x.tx.nest = 0 then commitTx s g else .done (s.setGrp g { x with tx := { x.tx with nest := x.tx.nest - 1 } })
def execTend (s : State) : Out := issue .tend tendBody s

/-- RETRY (R216). -/
def retryBody (s : State) (g : Nat) : Eff := inTx s g (fun s => retryTx s g)
def execRetry (s : State) : Out := issue .retry retryBody s

/-- OTHERWISE (R217). -/
def otherwiseBody (off : BitVec 27) (s : State) (g : Nat) : Eff :=
  inTx s g fun s =>
    let x := s.grp g
    if x.tx.succ.isSome || x.tx.alt = 3 then refuseTx s g txNesting
    else .done (s.setGrp g { x with tx := { x.tx with succ := some (placeHere x (runPc x + 8 * off.signExtend 64) (active x)) } })
def execOtherwise (off : BitVec 27) (s : State) : Out := issue (.otherwise off) (otherwiseBody off) s

/-- TABORT (R218). -/
def tabortBody (s : State) (g : Nat) : Eff :=
  inTx s g fun s => .done (s.updGrp g (fun x => { closeTx x txAbort (runPc x) with capCount := 0 }))
def execTabort (s : State) : Out := issue .tabort tabortBody s

end Sys2Proof.Machine
end

