-- ==== Sys2Proof/Machine/Events.lean ====
section
/-!
DEFINITION. The events of a group: results that return (R66), selection (R79, R81, R92), wakes (R209), conflicts (R199), the rounds of compatibility
mode (R184) and the exhaustion of a budget (R345).
-/

namespace Sys2Proof.Machine

/-- A group that stands in the machine. -/
def present (s : State) (g : Nat) : Bool := s.groups.any (fun e => e.1 == g)

-- ===== CLASS_V_RESULT_RETURN =====

/-- One result of a group returns, once what it waits for has happened (R66). -/
def resultReturn (s : State) (g tag : Nat) : State :=
  match (s.grp g).inflight.find? (fun f => f.tag == tag) with
  | none => s
  | some f => if flightReady s (s.grp g) f then returnFlight s g f else s
def execClassVResultReturn (g tag : Nat) (s : State) : Out := .next (resultReturn s g tag)

-- ===== SELECTION =====

/-- The group's context lets it be selected: ACTIVE, or SAVING before the group has reached its stop (R362, R363). -/
def ctxRuns (s : State) (x : Group) : Bool :=
  let c := s.ctxs.get x.ctx
  c.st == .active || (c.st == .saving && !c.wasHalted && !ywaitOver s c && !(x.run.isNone && x.safe))

/-- The group stands past a word that brought it to a quantum boundary, until its team's round (R184). -/
def awaitsRound (x : Group) : Bool := x.atBoundary && x.pastWord

/-- A group whose stop at a YIELD found no free record is not selected until one is free (R365). -/
def stopFailed (s : State) (x : Group) : Bool :=
  x.yielded && (s.ctxs.get x.ctx).st == .active && !sliceHeld s x && !(freeRecs s x.ctx (grpRecs s x.ctx)).isEmpty

/-- A group that a quadrant may choose. -/
def selectableNow (s : State) (x : Group) : Bool :=
  x.life == .ready && (!x.stopWait || stopFailed s x) && !awaitsRound x && !chainHeld s x && ctxRuns s x

/-- SELECTION. -/
def selection (s : State) (g : Nat) : State :=
  let x := s.grp g
  if selectableNow s x then
    match startRun x with
    | some y => s.setGrp g { y with life := .issuing, safe := false, yielded := false, stopWait := false }
    | none => s
  else s
def execSelection (g : Nat) (s : State) : Out := .next (selection s g)

-- ===== WAKE =====

/-- WAKE: a group in the thaw table becomes READY, after a write to a line that it holds or without one (R209), but not before the round of the quantum
boundary that its wait is (R184); a parked group none of whose named results is pending goes on. -/
def wake (s : State) (g : Nat) : State :=
  let x := s.grp g
  if awaitsRound x then s
  else if x.life == .waiting then s.setGrp g { x with life := .ready, thaw := [] }
  else if x.life == .parked && !x.parkNames.any (pending x) then s.setGrp g { x with life := .ready, parkNames := [] }
  else s
def execWake (g : Nat) (s : State) : Out := .next (wake s g)

-- ===== TX_CONFLICT =====

/-- A group that no longer stands at the quantum boundary that it had reached. -/
def leaveBoundary (x : Group) : Group := { x with atBoundary := false, roundDone := false, pastWord := false }

/-- TX_CONFLICT: an attempt whose read set has been written ends with conflict (R199, R206). -/
def txConflictStep (s : State) (g : Nat) : State :=
  let x := s.grp g
  if x.tx.act && !txValid s x && !awaitsRound x && (x.life == .issuing || x.life == .ready || x.life == .parked) then
    match startRun x with
    | some y => conflictEnd (s.setGrp g { leaveBoundary y with parkNames := [] }) g
    | none => s
  else s
def execTxConflict (g : Nat) (s : State) : Out := .next (txConflictStep s g)

-- ===== COMPAT_ROUND (R184) =====

/-- Groups in ascending GROUP. -/
def insGroup (s : State) (g : Nat) : List Nat → List Nat
  | [] => [g]
  | h :: r => if (s.grp g).spr.group.toNat ≤ (s.grp h).spr.group.toNat then g :: h :: r else h :: insGroup s g r
def teamGroups (s : State) (tid : Nat) : List Nat := ((s.groups.filter (fun e => e.2.tid == tid)).map (·.1)).foldr (insGroup s) []

/-- Every group of a team is at a boundary or WAITING; a FROZEN one is at none. -/
def roundReady (s : State) (tid : Nat) : Bool :=
  let gs := teamGroups s tid
  !gs.isEmpty && !s.frozen.any (fun f => f.x.tid == tid) &&
    gs.all (fun g => let x := s.grp g; inCompat s x && (x.life == .waiting || awaitsRound x || (x.life == .issuing && x.atBoundary && !x.roundDone)))

/-- The lines of global memory that a group's buffers hold. -/
def bufferLines (x : Group) : List Nat := (x.cbuf.filter (fun c => !c.shared)).map (fun c => 8 * c.addr / 64)

/-- A group goes on after the round: with the word at which it stands, or past the word that it has left. -/
def roundPass (s : State) (g : Nat) : State :=
  s.updGrp g (fun x => if x.pastWord then leaveBoundary x else if x.life == .issuing then { x with roundDone := true } else x)

/-- The atomic at which a group stands performs within the round. -/
def roundAtomic (s : State) (g : Nat) : State :=
  let x := s.grp g
  if x.life ≠ .issuing then s
  else match fetchWord s x (runPc x) with
    | .error _ => s
    | .ok w => match decodeWord w with
      | .amo f => performAll (issueAt (.amo f) (amoBody f) s g) g
      | .cas f => performAll (issueAt (.cas f) (casBody f) s g) g
      | .redo f => performAll (issueAt (.redo f) (redoBody f) s g) g
      | _ => s

/-- Groups whose held lines the commits wrote wake. -/
def roundWake (ls : List Nat) (s : State) (g : Nat) : State :=
  s.updGrp g (fun x =>
    if x.life == .waiting && x.thaw.any (fun w => match w with | .mem l _ => ls.contains l | _ => false) then { x with life := .ready, thaw := [] } else x)

/-- COMPAT_ROUND. -/
def compatRound (s : State) (tid : Nat) : State :=
  if roundReady s tid then
    let gs := teamGroups s tid
    let ls := gs.flatMap (fun g => bufferLines (s.grp g))
    let s1 := gs.foldl commitGroup s
    let s2 := gs.foldl roundPass s1
    gs.foldl (roundWake ls) (gs.foldl roundAtomic s2)
  else s
def execCompatRound (tid : Nat) (s : State) : Out := .next (compatRound s tid)

-- ===== BUDGET_EXHAUSTION (R345) =====

/-- The word at which a run stands is its trailer. -/
def standsAtTrl (s : State) (x : Group) : Bool :=
  match fetchWord s x (runPc x) with
  | .ok w => w.extractLsb' 57 7 == 0x7F
  | .error _ => false

/-- A group whose counter has reached zero with a word unissued. -/
def exhausted (x : Group) : Bool := x.budgeted && x.budget == 0 && (x.life == .issuing || x.life == .ready || x.life == .parked)

/-- The slice of a group becomes HELD, and every other group of it is asked to stop. -/
def holdSlice (s : State) (g : Nat) : State :=
  let x := s.grp g
  let s1 := updKernel s x.spr.grid (fun k => { k with slices := k.slices.set x.slice .held })
  { s1 with groups := s1.groups.map (fun e =>
      if e.1 != g && e.2.spr.grid == x.spr.grid && e.2.slice == x.slice then (e.1, { e.2 with stopWait := true }) else e) }

/-- BUDGET_EXHAUSTION: the trap at the word, and the slice held. -/
def budgetExhaustion (s : State) (g : Nat) : State :=
  let x := s.grp g
  if !present s g || !exhausted x then s
  else match startRun x with
    | none => s
    | some y =>
      let s1 := s.setGrp g { leaveBoundary y with parkNames := [] }
      if allReady (performAll s1 g) g then
        let s2 := takeTrap s1 g ⟨cBudget, 0⟩ (standsAtTrl s1 y)
        if (s2.grp g).life == .trapped then holdSlice s2 g else s2
      else s
def execBudgetExhaustion (g : Nat) (s : State) : Out := .next (budgetExhaustion s g)

end Sys2Proof.Machine
end

