-- ==== Sys2Proof/Machine/Commands.lean ====
section
/-!
DEFINITION. The commands of TRAP_CMD (R382), of KEY_CMD (R417) and of the controllers' MC_CPCMD (R147).
-/

namespace Sys2Proof.Machine

-- ===== TRAP_CMD (R382) =====

/-- STATUS of TRAP_CMD. -/
def setTrapStatus (s : State) (v : Nat) : State :=
  { s with regs := { s.regs with trapCmd := (s.regs.trapCmd &&& ~~~0x0C00000000000000#64) ||| BitVec.ofNat 64 (v * 2 ^ 58) } }

/-- The oldest pending command, when its OP is the one that an event applies: its word and the state without it. -/
def trapHead (s : State) (op : Nat) : Option (BitVec 64 × State) :=
  match s.regs.trapPend with
  | [] => none
  | v :: r => if field v 60 3 = op then some (v, { s with regs := { s.regs with trapPend := r } }) else none

/-- The group that a command names, where it is TRAPPED. -/
def trappedAt (s : State) (v : BitVec 64) : Option Nat :=
  let g := 48 * field v 32 9 + 12 * field v 4 2 + field v 0 4
  let x := s.grp g
  if field v 0 4 < 12 && field v 32 9 < 384 && present s g && x.life == .trapped && x.ctx == field v 48 6 then some g else none

/-- One command applied to the group that it names, else STATE. -/
def trapCommand (op : Nat) (f : State → Nat → State) (s : State) : Out :=
  .next (match trapHead s op with
  | none => s
  | some (v, s1) => match trappedAt s1 v with
    | none => setTrapStatus s1 1
    | some g => f s1 g)

/-- A group that BUDGET has trapped: its counter stands at zero. -/
def outOfBudget (x : Group) : Bool := x.budgeted && x.budget == 0

/-- BUDGET of a group's launch. -/
def launchBudget (s : State) (x : Group) : Nat := match kernelAt s x with | some k => k.budget | none => 0

/-- A group of the same slice. -/
def sameSlice (x y : Group) : Bool := x.spr.grid == y.spr.grid && x.slice == y.slice

/-- A HELD slice none of whose groups is still trapped by BUDGET is ACTIVE again, and its stopped groups come back (R343, R345). -/
def releaseSlice (s : State) (x : Group) : State :=
  if !sliceHeld s x || s.groups.any (fun e => sameSlice x e.2 && e.2.life == .trapped && outOfBudget e.2) then s
  else
    let s1 := updKernel s x.spr.grid (fun k => { k with slices := k.slices.set x.slice .active })
    { s1 with groups := s1.groups.map (fun e => if sameSlice x e.2 then (e.1, { e.2 with stopWait := false }) else e),
              frozen := s1.frozen.map (fun f => if f.why == .held && sameSlice x f.x then { f with due := true } else f) }

/-- A TRAPPED group goes on as `y`; one that BUDGET has trapped has its counter reloaded and its slice released. -/
def goOn (s : State) (g : Nat) (y : Group) : State :=
  let s1 := setTrapStatus s 0
  if outOfBudget (s.grp g) then releaseSlice (s1.setGrp g { y with budget := launchBudget s y, stopWait := false }) y else s1.setGrp g y

/-- RESUME and SKIP. -/
def execTrapCmdResume (s : State) : Out := trapCommand 1 (fun s g => goOn s g (resumeTrapped (s.grp g) false)) s
def execTrapCmdSkip (s : State) : Out := trapCommand 2 (fun s g => goOn s g (resumeTrapped (s.grp g) true)) s

/-- REFLECT: the handler is entered with the recorded cause (R378). -/
def reflectTrap (s : State) (g : Nat) : State :=
  let x := s.grp g
  match x.trapS with
  | none => setTrapStatus s 2
  | some ts =>
    if inHandler x || x.spr.uvec == 0 then setTrapStatus s 2
    else
      let y := { x with life := .ready, spr := { x.spr with trapCause := trapCauseOf true (flag x.spr.trapCause 8) (field x.spr.trapCause 0 8) } }
      goOn s g (insert y { pc := x.spr.uvec, prio := 0xFFF, depth := ts.depth, mask := ts.lanes })
def execTrapCmdReflect (s : State) : Out := trapCommand 3 reflectTrap s

/-- A slot number that no group has: a FROZEN group is ended there. -/
def endSlot : Nat := 48 * 384

/-- A FROZEN group ends: its record is free and its exit counts. -/
def endFrozen (s : State) (f : Frozen) : State :=
  let s1 := { setUsed s f.ctx f.pa false with frozen := s.frozen.filter (fun h => !(h.pa == f.pa && h.ctx == f.ctx)) }
  endGroup (chainMoved (s1.setGrp endSlot { f.x with blocks := 0 }) f.x endSlot) endSlot true

/-- The slice of a group is DONE, and its kernel may be SETTLING. -/
def sliceDone (sl : Nat) (k : Kernel) : Kernel :=
  let sls := k.slices.set sl .done
  { k with slices := sls, ranges := k.ranges.filter (fun r => r.slice != sl),
           st := if k.st == .running && (sls.filter (fun e => e.2 == .done)).length = sliceCount k then .settling else k.st }

/-- The supervisor terminates a slice that is HELD: every group of it ends (R343, R345). -/
def endSlice (s : State) (x : Group) : State :=
  let s1 := ((s.groups.filter (fun e => sameSlice x e.2)).map (·.1)).foldl (fun s g => if present s g then endGroup s g true else s) s
  let s2 := (s1.frozen.filter (fun f => f.why == .held && sameSlice x f.x)).foldl endFrozen s1
  updKernel s2 x.spr.grid (sliceDone x.slice)

/-- TERMINATE. -/
def execTrapCmdTerminate (s : State) : Out :=
  trapCommand 4 (fun s g =>
    let x := s.grp g
    setTrapStatus (if outOfBudget x && sliceHeld s x then endSlice s x else endGroup s g true) 0) s

-- ===== MC_CPCMD (R147, R148) =====

/-- The oldest pending command of a controller, when its MODE is the one that an event applies. -/
def cpHead (s : State) (stack mode : Nat) : Option (Nat × State) :=
  match s.regs.mcPend.get stack with
  | [] => none
  | v :: r => if field v 61 2 = mode then some (field v 0 36, { s with regs := { s.regs with mcPend := s.regs.mcPend.set stack r } }) else none

/-- A number enters an ascending list once. -/
def insNat (n : Nat) : List Nat → List Nat
  | [] => [n]
  | m :: r => if n < m then n :: m :: r else if n = m then m :: r else m :: insNat n r

def execCpStorePlain (stack : Nat) (s : State) : Out :=
  .next (match cpHead s stack 0 with
  | none => s
  | some (f, s1) => { s1 with compressed := s1.compressed.filter (· != f) })
def execCpStoreCompressed (stack : Nat) (s : State) : Out :=
  .next (match cpHead s stack 1 with
  | none => s
  | some (f, s1) => { s1 with compressed := insNat f s1.compressed })

-- ===== KEY_CMD (R417, R373) =====

/-- REF of KEY_CMD. -/
def setKeyRef (s : State) (refused : Bool) : State :=
  { s with regs := { s.regs with keyCmd := (s.regs.keyCmd &&& ~~~0x1000000000000000#64) ||| (if refused then 0x1000000000000000#64 else 0) } }

/-- The oldest pending command, when its OP is the one that an event applies, with the agent that wrote it. -/
def keyHead (s : State) (op : Nat) : Option (BitVec 64 × RegAgent × State) :=
  match s.regs.keyPend with
  | [] => none
  | (v, ag) :: r => if field v 61 2 = op then some (v, ag, { s with regs := { s.regs with keyPend := r } }) else none

/-- The key of the secured session between the device and an agent. -/
def sessionKey (s : State) : RegAgent → Option (List Byte)
  | .host => s.sessions.get 0
  | .mgmt => s.sessions.get 1
  | .super => none

/-- The key pair that a load names: none without a session, where the 72 bytes cannot be read, or where they do not unwrap. -/
def loadedKey (s : State) (ag : RegAgent) (pa : Nat) : Option (List Byte) :=
  match sessionKey s ag with
  | none => none
  | some kek => if !inMemory pa || hPoiSpan s pa 72 then none else unwrapKey kek (hRead s 0 pa 72)

/-- KEY_LOAD. -/
def execKeyLoad (s : State) : Out :=
  .next (match keyHead s 1 with
  | none => s
  | some (v, ag, s1) =>
    let pa := 512 * field v 0 43
    match loadedKey s1 ag pa with
    | none => setKeyRef s1 true
    | some k => setKeyRef { hWriteSpan s1 0 pa (List.replicate 72 0) false with keys := s1.keys.set (field v 43 9) (.key k) } false)

/-- KEY_LOAD_PLAIN. -/
def execKeyLoadPlain (s : State) : Out :=
  .next (match keyHead s 3 with
  | none => s
  | some (v, ag, s1) => if ag = .super then setKeyRef s1 true else setKeyRef { s1 with keys := s1.keys.set (field v 43 9) .plain } false)

/-- KEY_ERASE. -/
def execKeyErase (s : State) : Out :=
  .next (match keyHead s 2 with
  | none => s
  | some (v, _, s1) => setKeyRef { s1 with keys := s1.keys.set (field v 43 9) .disabled } false)

end Sys2Proof.Machine
end

