-- ==== Sys2Proof/Machine/Convert.lean ====
section
/-!
DEFINITION. The conversion family (R121 to R125).
-/

namespace Sys2Proof.Machine

/-- The part rule (R121): source and destination sub-elements that take part, ascending by destination. -/
def partPairs (ns nd p : Nat) : List (Nat × Nat) :=
  if nd ≥ ns then (List.range ns).map (fun i => (i, p * ns + i)) else (List.range nd).map (fun i => (p * nd + i, i))

/-- One value of CVT (R122): integer to integer is exact, wrapped or clamped; everything else is rounded, under rs with the lane's next draw. A word
whose rounding field selects rs advances the state whatever its formats (R38). -/
def convSub (src dst : Shape) (uns udst : Bool) (mode : Rnd) (sat : Bool) (r : BitVec 32) (b : Nat) : SubRes :=
  let r1 := if mode = .rs then xorshift32 r else r
  if src.isInt && dst.isInt then
    let v := fitInt dst.width udst sat (toInt src.width uns b)
    ⟨v.1, v.2, r1⟩
  else
    let v := (shapeFmt src uns).decode b
    let e := (shapeFmt dst udst).encode mode sat (drawOf r1) v
    ⟨e.1, e.2, r1⟩

/-- The block-scaled element format that a shape stands for in QNT and DQNT (R124). -/
def quantFmt (s : Shape) : EF := if s = .i8x8 then .mxint8 else shapeFmt s false

/-- One element of QNT: `x / 2^(E-127)` by step 3 of R29; the scale 0xFF gives zero and NV (R124). -/
def qntSub (src dst : Shape) (mode : Rnd) (e : Nat) (r : BitVec 32) (b : Nat) : SubRes :=
  let r1 := if mode = .rs then xorshift32 r else r
  if e = 255 then ⟨0, fNV, r1⟩
  else
    let v := (shapeFmt src false).decode b
    let q := encScaled (quantFmt dst) mode (drawOf r1) e v
    ⟨q.1, q.2 ||| flagIf v.isSig fNV, r1⟩

/-- One element of DQNT: `round(2^(E-127) · value)`; the scale 0xFF gives the canonical NaN and NV (R125). -/
def dqntSub (src dst : Shape) (mode : Rnd) (sat : Bool) (e : Nat) (r : BitVec 32) (b : Nat) : SubRes :=
  let r1 := if mode = .rs then xorshift32 r else r
  let v := decScaled (quantFmt src) e b
  let q := (shapeFmt dst false).encode mode sat (drawOf r1) v.1
  ⟨q.1, q.2 ||| v.2, r1⟩

/-- One lane of a conversion: pairs of source value and destination place, converted in ascending order of the destination. -/
def convLane (x : Group) (dst : Shape) (l : Nat) (poi : Bool) (f : BitVec 32 → Nat → SubRes) (ps : List (Nat × Nat)) : LaneOut :=
  let r := ps.foldl (fun acc p => let q := f acc.rng p.1
    ⟨acc.subs ++ [(p.2, q.bits)], acc.flags ||| q.flags, q.rng⟩) (⟨[], 0, rngOf x l⟩ : LaneRes)
  laneOut dst l poi (rngOf x l) r

/-- Sub-elements of A that take part, with their places. -/
def srcPairs (src dst : Shape) (part : Nat) (a : BitVec 64) : List (Nat × Nat) :=
  (partPairs src.count dst.count part).map (fun p => (subOf src.width p.1 a.toNat, p.2))

/-- The source shape of a conversion word. -/
def FmtCsrc (f : FmtC) : Shape := f.srcShape?.getD .i64

/-- CVT (R122). -/
def cvtBody (f : FmtC) (s : State) (g : Nat) : Eff :=
  let x := s.grp g
  let src := FmtCsrc f
  let m := modeOf x f.rnd
  let one (l : Nat) : LaneOut :=
    let a := opVal x src f.a l
    convLane x f.shp l a.poi (convSub src f.shp (f.fam.getLsbD 0) (f.fam.getLsbD 1) m f.sat) (srcPairs src f.shp f.part a.val)
  .done (commitF s g f.d ((workLanes x f.msk f.d).map one))
def execCvt (f : FmtC) (s : State) : Out := issue (.cvt f) (cvtBody f) s

/-- PACK (R123): A fills the lower half of D, B the upper. -/
def packBody (f : FmtC) (s : State) (g : Nat) : Eff :=
  let x := s.grp g
  let src := FmtCsrc f
  let m := modeOf x f.rnd
  let n := src.count
  let one (l : Nat) : LaneOut :=
    let a := opVal x src f.a l
    let b := opVal x src f.b l
    convLane x f.shp l (a.poi || b.poi) (convSub src f.shp (f.fam.getLsbD 0) (f.fam.getLsbD 1) m f.sat)
      ((List.range n).map (fun i => (subOf src.width i a.val.toNat, i)) ++ (List.range n).map (fun i => (subOf src.width i b.val.toNat, n + i)))
  .done (commitF s g f.d ((workLanes x f.msk f.d).map one))
def execPack (f : FmtC) (s : State) : Out := issue (.pack f) (packBody f) s

/-- QNT, element mode (R124). A constant as the scale B supplies the integer *c*: R60 reads constants in a word's shape, and the spec names none for
the scale (log 33). -/
def qntBody (f : FmtC) (s : State) (g : Nat) : Eff :=
  let x := s.grp g
  let src := FmtCsrc f
  let m := modeOf x f.rnd
  let one (l : Nat) : LaneOut :=
    let a := opVal x src f.a l
    let b := opVal x .i64 f.b l
    convLane x f.shp l (a.poi || b.poi) (qntSub src f.shp m (b.val.toNat % 256)) (srcPairs src f.shp f.part a.val)
  .done (commitF s g f.d ((workLanes x f.msk f.d).map one))
def execQnt (f : FmtC) (s : State) : Out := issue (.qnt f) (qntBody f) s

/-- QNT.scl (R124): the scale of each block over its live elements, in every live lane of the block. A lane contributes its own elements' NV unless it
is itself poisoned, whatever the other lanes of its block (log 33). -/
def qntSclBody (f : FmtC) (s : State) (g : Nat) : Eff :=
  let x := s.grp g
  let src := FmtCsrc f
  let per := sclLen (f.fam.toNat - 4) / src.count
  let live := lanes (liveOf x f.msk)
  let vals (l : Nat) : List Val := (List.range src.count).map (fun i => (shapeFmt src false).decode (subOf src.width i (opVal x src f.a l).val.toNat))
  let one (l : Nat) : LaneOut :=
    let blk := live.filter (fun k => k / per == l / per)
    let sc := blockScale (quantFmt f.shp) (blk.flatMap vals)
    let own := (opVal x src f.a l).poi
    { w := { lane := l, val := BitVec.ofNat 64 sc.1, poi := blk.any (fun k => (opVal x src f.a k).poi) },
      flags := laneFlags own (flagIf ((vals l).any (fun v => v.isNan || v.isInf)) fNV) }
  .done (commitF s g f.d ((workLanes x f.msk f.d).map one))
def execQntScl (f : FmtC) (s : State) : Out := issue (.qntScl f) (qntSclBody f) s

/-- DQNT (R125), with a constant scale as in QNT (log 33). -/
def dqntBody (f : FmtC) (s : State) (g : Nat) : Eff :=
  let x := s.grp g
  let src := FmtCsrc f
  let m := modeOf x f.rnd
  let one (l : Nat) : LaneOut :=
    let a := opVal x src f.a l
    let b := opVal x .i64 f.b l
    convLane x f.shp l (a.poi || b.poi) (dqntSub src f.shp m f.sat (b.val.toNat % 256)) (srcPairs src f.shp f.part a.val)
  .done (commitF s g f.d ((workLanes x f.msk f.d).map one))
def execDqnt (f : FmtC) (s : State) : Out := issue (.dqnt f) (dqntBody f) s

end Sys2Proof.Machine
end

