-- ==== Sys2Proof/Machine/Cross.lean ====
section
/-!
DEFINITION. The cross-lane family (R126 to R131): SHFL, RED, SCAN, XPERM and PTLD, with the fixed trees of R45 and R46.
-/

namespace Sys2Proof.Machine

/-- Element `j` of a register over all 32 lanes, with its lane's poison (R126). -/
def elemAt (x : Group) (shp : Shape) (o : Opd) (j : Nat) : Nat × Bool :=
  let p := opVal x shp o (j / shp.count)
  (subOf shp.width (j % shp.count) p.val.toNat, p.poi)

/-- The element that SHFL reads for destination element `d` of lane `l`, sub-element `i` (R127). -/
def shflSrc (mode k n l i : Nat) : Nat :=
  let d := l * n + i
  let t := 32 * n
  match mode with
  | 0 => (k + i) % t
  | 1 => if d < k then d else d - k
  | 2 => if t ≤ d + k then d else d + k
  | 3 => (d ^^^ k) % t
  | _ => (d + k) % t

/-- SHFL (R127). -/
def shflBody (f : FmtC) (s : State) (g : Nat) : Eff :=
  let x := s.grp g
  let n := f.shp.count
  let ls := workLanes x f.msk f.d
  if ls.any (fun l => (opVal x f.shp f.b l).poi) then .trap s (poisonAt 0)
  else
    let one (l : Nat) : LaneOut :=
      let k := (opVal x f.shp f.b l).val.toNat % 2 ^ 16
      let es := (List.range n).map (fun i => (i, elemAt x f.shp f.a (shflSrc f.fam.toNat k n l i)))
      laneOut f.shp l (es.any (·.2.2)) 0 ⟨es.map (fun e => (e.1, e.2.1)), 0, 0⟩
    .done (commitF s g f.d (ls.map one))
def execShfl (f : FmtC) (s : State) : Out := issue (.shfl f) (shflBody f) s

-- ===== the fixed trees (R45, R46) =====

/-- A combined value with the flags of its combinations; none is an absent child. -/
abbrev Node := Option (Nat × BitVec 5)

/-- What a tree combines with: by the combination's own number, which tells rs draws apart (log 33). -/
abbrev Comb := Nat → Nat → Nat → Nat × BitVec 5

def combine (f : Nat → Nat → Nat × BitVec 5) (a b : Node) : Node :=
  match a, b with
  | none, b => b
  | a, none => a
  | some p, some q => let r := f p.1 q.1
    some (r.1, p.2 ||| q.2 ||| r.2)

/-- The node that covers 2^k leaves from `base` on. -/
def treeNode (f : Comb) (leaf : Nat → Node) : Nat → Nat → Node
  | 0, base => leaf base
  | k + 1, base => combine (f (64 * k + base)) (treeNode f leaf k base) (treeNode f leaf k (base + 2 ^ k))

/-- The maximal aligned subtrees that cover leaves 0..m-1, from left to right (R46). -/
def prefixNode (f : Comb) (leaf : Nat → Node) (m : Nat) : Nat → Nat → Node → Node
  | 0, base, acc => if m % 2 = 1 then combine (f (512 + 64 * m)) acc (leaf base) else acc
  | k + 1, base, acc =>
    if m / 2 ^ (k + 1) % 2 = 1 then prefixNode f leaf m k (base + 2 ^ (k + 1)) (combine (f (512 + 64 * m + (k + 1))) acc (treeNode f leaf (k + 1) base))
    else prefixNode f leaf m k base acc

/-- The combination of RED and SCAN under a draw (R128): C[0] makes the sub-elements of every integer operation unsigned, a saturating sum included
(log 33); floating-point min and max follow R114. -/
def redFn (shp : Shape) (op : Nat) (mode : Rnd) (sat uns : Bool) (draw a b : Nat) : Nat × BitVec 5 :=
  let w := shp.width
  if shp.isInt then
    let x := toInt w uns a
    let y := toInt w uns b
    match op with
    | 0 => fitInt w uns sat (x + y)
    | 1 => (if x ≤ y then a else b, 0)
    | 2 => (if y ≤ x then a else b, 0)
    | 3 => (a &&& b, 0)
    | 4 => (a ||| b, 0)
    | _ => (a ^^^ b, 0)
  else
    let ff := shapeFF shp
    match op with
    | 0 => let v := (ff.decode a).add mode (ff.decode b)
      let r := ff.round mode sat draw v.1
      (r.1, r.2 ||| v.2)
    | 1 => let r := fpMinMax shp false default 0 a b 0
      (r.bits, r.flags)
    | _ => let r := fpMinMax shp true default 0 a b 0
      (r.bits, r.flags)

/-- The identities of R128. -/
def redIdent (shp : Shape) (op : Nat) (uns : Bool) : Nat :=
  let w := shp.width
  match op with
  | 0 => 0
  | 1 => if shp.isInt then wrapBits w (intMax w uns) else (shapeFF shp).infCode
  | 2 => if shp.isInt then wrapBits w (intMin w uns) else (shapeFF shp).pack true (shapeFF shp).infCode
  | 3 => 2 ^ w - 1
  | _ => 0

/-- A column of the group: the live lanes' sub-elements at one position. -/
def column (x : Group) (f : FmtC) (live : BitVec 32) (i l : Nat) : Node :=
  if live.getLsbD l then some (subOf f.shp.width i (opVal x f.shp f.a l).val.toNat, 0) else none

/-- RED and SCAN round under rs: a floating-point sum whose `.dyn` selects it (R38, R45). -/
def redDraws (x : Group) (f : FmtC) : Bool := modeOf x f.rnd == .rs && !f.shp.isInt && f.fam.toNat == 0

/-- The live lanes' stochastic states as one number: what the draws of a reduction depend on (log 33). -/
def drawSeed (x : Group) (live : BitVec 32) : Nat := (lanes live).foldl (fun n l => (n * 32 + l) * 2 ^ 32 + (rngOf x l).toNat) 1

/-- The combination of sub-element position `i`, under the draws of its nodes. -/
def redComb (x : Group) (f : FmtC) (i : Nat) : Comb := fun k a b =>
  let m := modeOf x f.rnd
  redFn f.shp f.fam.toNat m f.sat (f.ctl.getLsbD 0) (if m = .rs then Config.nodeDraw (drawSeed x (liveOf x f.msk)) (4096 * i + k) % 2 ^ 24 else 0) a b

/-- A state advanced n times (R38). -/
def rngAfter : Nat → BitVec 32 → BitVec 32
  | 0, r => r
  | n + 1, r => rngAfter n (xorshift32 r)

/-- The end of RED and SCAN: every live lane's value, one poison for all, flags once unless poisoned (R128), and under rs one advance of the lane's
state for each of its sub-elements (R38). -/
def redCommit (s : State) (g : Nat) (f : FmtC) (live : BitVec 32) (val : Nat → List (Nat × Nat)) (fl : BitVec 5) : Eff :=
  let x := s.grp g
  let poi := (lanes live).any (fun l => (opVal x f.shp f.a l).poi)
  let adv (l : Nat) : BitVec 32 := if redDraws x f then rngAfter f.shp.count (rngOf x l) else rngOf x l
  .done (commitF s g f.d ((lanes live).map (fun l => laneOut f.shp l poi (rngOf x l) ⟨val l, fl, adv l⟩)))

/-- RED (R128). -/
def redBody (f : FmtC) (s : State) (g : Nat) : Eff :=
  let x := s.grp g
  let live := liveOf x f.msk
  let cols := (List.range f.shp.count).map (fun i => treeNode (redComb x f i) (column x f live i) 5 0)
  let get (n : Node) : Nat := match n with
    | some p => p.1
    | none => redIdent f.shp f.fam.toNat (f.ctl.getLsbD 0)
  let fl : BitVec 5 := cols.foldl (fun a n => match n with | some p => a ||| p.2 | none => a) 0
  if f.ctl.getLsbD 1 then
    let r := treeNode (redComb x f f.shp.count) (fun i => match cols[i]? with | some n => some (get n, 0) | none => none) (Nat.log2 f.shp.count) 0
    let fl2 := match r with
      | some p => fl ||| p.2
      | none => fl
    redCommit s g f live (fun _ => (List.range f.shp.count).map (fun i => (i, if i = 0 then get r else 0))) fl2
  else redCommit s g f live (fun _ => (List.range f.shp.count).map (fun i => (i, get (cols.getD i none)))) fl
def execRed (f : FmtC) (s : State) : Out := issue (.red f) (redBody f) s

/-- SCAN (R46, R128): inclusive over lanes 0..l, exclusive over lanes 0..l-1. -/
def scanBody (f : FmtC) (s : State) (g : Nat) : Eff :=
  let x := s.grp g
  let live := liveOf x f.msk
  let ident := redIdent f.shp f.fam.toNat (f.ctl.getLsbD 0)
  let node (l i : Nat) : Node := prefixNode (redComb x f i) (column x f live i) (if f.ctl.getLsbD 1 then l else l + 1) 5 0 none
  let val (l : Nat) : List (Nat × Nat) := (List.range f.shp.count).map (fun i => (i, match node l i with | some p => p.1 | none => ident))
  let fl : BitVec 5 := (lanes live).foldl (fun a l => (List.range f.shp.count).foldl (fun a i => match node l i with | some p => a ||| p.2 | none => a) a) 0
  redCommit s g f live val fl
def execScan (f : FmtC) (s : State) : Out := issue (.scan f) (scanBody f) s

-- ===== pattern tables (R129 to R131) =====

/-- An entry of a table and its poison. -/
def tableAt (x : Group) (j e : Nat) : Nat × Bool := ((x.ptab.get (512 * j + e)).toNat, x.ptabPoi.get (16 * j + e / 32))

/-- One element of `.perm` (R130). -/
def permElem (x : Group) (f : FmtC) (j d : Nat) : Nat × Bool :=
  let t := tableAt x j d
  let idx := t.1 % 512
  if t.1 / 2 ^ 15 % 2 = 1 || 32 * f.shp.count ≤ idx then (0, t.2)
  else
    let r := elemAt x f.shp (if t.1 / 2 ^ 9 % 2 = 1 then f.b else f.a) idx
    (r.1, r.2 || t.2)

/-- XPERM (R130): class V, on the table as it stands at the word's issue. -/
def xpermBody (f : FmtC) (s : State) (g : Nat) : Eff :=
  let x := s.grp g
  let n := f.shp.count
  let j := f.fam.toNat % 4
  let ls := workLanes x f.msk f.d
  if f.fam.toNat < 4 then
    let one (l : Nat) : LaneOut :=
      let es := (List.range n).map (fun i => (i, permElem x f j (l * n + i)))
      laneOut f.shp l (es.any (·.2.2)) 0 ⟨es.map (fun e => (e.1, e.2.1)), 0, 0⟩
    .done (commitV s g f.d (ls.map one))
  else if ls.any (fun l => (opVal x f.shp f.a l).poi) then .trap s (poisonAt 0)
  else
    let one (l : Nat) : LaneOut :=
      let a := (opVal x f.shp f.a l).val.toNat
      let es := (List.range n).map (fun i => (i, tableAt x j (subOf f.shp.width i a % 512)))
      laneOut f.shp l (es.any (·.2.2)) 0 ⟨es.map (fun e => (e.1, e.2.1 % 2 ^ f.shp.width)), 0, 0⟩
    .done (commitV s g f.d (ls.map one))
def execXperm (f : FmtC) (s : State) : Out := issue (.xperm f) (xpermBody f) s

/-- PTLD (R131): the kilobyte is checked and read at issue, once every earlier operation of the group has performed (log 5), and the table is replaced
as a whole. A mask prefix changes nothing: the word has no lanes (log 5). -/
def ptldBody (f : FmtC) (s : State) (g : Nat) : Eff :=
  let x := s.grp g
  let a := sval x f.a
  let j := f.fam.toNat % 4
  if a.poi then .trap s (poisonAt 0)
  else orTrap s (checkAddr s x.ctx x.sup .load false a.val 1024) fun t =>
    let s1 := seenSpan (performAll s g) g t.key t.pa 1024 t.leaf.cp
    let fs := findSpan s1 g t.key t.pa 1024 t.leaf.cp
    let bs := fs.map (·.byte)
    let tab := (List.range 512).foldl (fun m e => m.set (512 * j + e) (BitVec.ofNat 16 (ofBytes ((bs.drop (2 * e)).take 2)))) x.ptab
    let poi := (List.range 16).foldl (fun m k => m.set (16 * j + k) (((fs.drop (64 * k)).take 64).any (·.poi))) x.ptabPoi
    .done (s1.updGrp g (fun y => { y with ptab := tab, ptabPoi := poi }))
def execPtld (f : FmtC) (s : State) : Out := issue (.ptld f) (ptldBody f) s

end Sys2Proof.Machine
end

