-- ==== Sys2Proof/Machine/Homes.lean ====
section
/-!
DEFINITION. The scheduling of a home controller's requests: deficit round robin (R371) and latency bounds (R372).
-/

namespace Sys2Proof.Machine

/-- The residual class. -/
def residual : Nat := 64

/-- A context that has a class of its own: ACTIVE or HALTED, with a share. -/
def hasClass (s : State) (c : Nat) : Bool := let x := s.ctxs.get c; c < 64 && (x.st == .active || x.st == .halted) && 0 < x.share

/-- The class of a request: its context's own, else the residual one. -/
def classOf (s : State) (r : HReq) : Nat := if hasClass s r.cls then r.cls else residual

/-- The classes in the order of a round. -/
def classes (s : State) : List Nat := (List.range 64).filter (hasClass s) ++ [residual]

/-- The quantum of a class, in lines. -/
def quantum (s : State) (c : Nat) : Int :=
  if c = residual then 256 - (((List.range 64).filter (hasClass s)).foldl (fun a i => a + (s.ctxs.get i).share) 0 : Nat) else ((s.ctxs.get c).share : Nat)

/-- The head request of a class. -/
def headOf (s : State) (h : Home) (c : Nat) : Option HReq := h.reqs.find? (fun r => classOf s r == c)

/-- The class's head may be served within its deficit. -/
def fitsNow (s : State) (h : Home) (c : Nat) : Bool := match headOf s h c with
  | some r => (r.cost : Int) ≤ h.deficit.get c
  | none => false

/-- The class visited after one. -/
def nextClass (s : State) (c : Option Nat) : Nat := match c with
  | none => (classes s).headD residual
  | some c => ((classes s).filter (fun d => c < d)).headD ((classes s).headD residual)

/-- The visit of a class: not backlogged, its deficit is 0; backlogged, it receives its quantum. -/
def visit (s : State) (h : Home) (c : Nat) : Home :=
  match headOf s h c with
  | none => { h with deficit := h.deficit.set c 0, cur := some c }
  | some _ => { h with deficit := h.deficit.upd c (· + quantum s c), cur := some c }

/-- Visits until a class's head may be served. -/
def seek (s : State) : Nat → Home → Home
  | 0, h => h
  | n + 1, h =>
    if (match h.cur with | some c => fitsNow s h c | none => false) then h else seek s n (visit s h (nextClass s h.cur))

/-- Visits enough for some head to fit: every round raises the deficit of a backlogged class. -/
def seekFuel (h : Home) : Nat :=
  66 * (h.reqs.foldl (fun a r => max a r.cost) 0 + h.deficit.foldl (fun a d => max a d.2.natAbs) 0 + 2)

/-- Serving a request, charged to its class. -/
def serve (s : State) (h : Home) (r : HReq) : Home :=
  { h with reqs := h.reqs.erase r, deficit := h.deficit.upd (classOf s r) (· - (r.cost : Int)), served := h.served + r.cost }

/-- A core request that has waited longer than its bound. -/
def expired (s : State) (r : HReq) : Bool := r.core && r.latb != 0 && r.latb < (s.clock - r.arrived) * 10 / 36

/-- The one that has waited longest. -/
def longest : List HReq → Option HReq
  | [] => none
  | r :: rest => match longest rest with
    | some q => some (if q.arrived < r.arrived then q else r)
    | none => some r

/-- The expired core request that goes ahead of the head of the class in turn, when that is a sluice burst. -/
def bypass (s : State) (h : Home) : Option HReq :=
  match h.cur with
  | none => none
  | some c => match headOf s h c with
    | some r => if !r.core && r.cls < 64 then longest (h.reqs.filter (expired s)) else none
    | none => none

/-- The controller with the class in turn found, or as it is when nothing waits. -/
def turn (s : State) (stack : Nat) : Home := let h := s.homes.get stack; if h.reqs.isEmpty then h else seek s (seekFuel h) h

/-- HOME_SERVICE: one request is served; an expired core request goes first. -/
def homeService (s : State) (stack : Nat) : State :=
  let h := turn s stack
  match bypass s h, h.cur.bind (headOf s h) with
  | some r, _ => { s with homes := s.homes.set stack (serve s h r) }
  | none, some r => { s with homes := s.homes.set stack (serve s h r) }
  | none, none => s
def execHomeService (stack : Nat) (s : State) : Out := .next (homeService s stack)

/-- LATENCY_BOUND_EXPIRY: an expired core request takes the slot of a sluice burst, which keeps its position and its deficit. -/
def latencyBoundExpiry (s : State) (stack : Nat) : State :=
  let h := turn s stack
  match bypass s h with
  | some r => { s with homes := s.homes.set stack (serve s h r) }
  | none => s
def execLatencyBoundExpiry (stack : Nat) (s : State) : Out := .next (latencyBoundExpiry s stack)

/-- A request of a core is for one line, a sluice's burst has 1 to 32, and traffic of no context is of any size (R371). -/
def requestOk (cls cost : Nat) (core : Bool) : Bool := 1 ≤ cost && (!core || cost == 1) && (64 ≤ cls || cost ≤ 32)

/-- The action by which a request reaches a controller. -/
def requestArrives (s : State) (stack cls cost : Nat) (core : Bool) : State :=
  if !requestOk cls cost core then s else { s with homes := s.homes.upd stack (fun h => { h with reqs := h.reqs ++
    [{ cls := min cls residual, cost := cost, core := core, latb := (s.ctxs.get cls).latb, arrived := s.clock }] }) }

end Sys2Proof.Machine
end

