-- ==== Sys2Proof/Machine/Links.lean ====
section
/-!
DEFINITION. Device links (R393 to R397), inbound peer accesses (R398), and collectives (R400 to R405).
-/

namespace Sys2Proof.Machine

-- ===== the events of a link (R394) =====

/-- LINK_ENABLE: EN is written 1. -/
def execLinkEnable (n : BitVec 5) (s : State) : Out := .next (updLink s n.toNat linkOn)

/-- LINK_DISABLE: EN is written 0, and every transfer in flight on the link fails at once (R397). -/
def execLinkDisable (n : BitVec 5) (s : State) : Out := .next (failLink (updLink s n.toNat linkOff) n.toNat)

/-- LINK_TRAINED: all 8 lanes pass, or only 4 to 7; the link learns its peer (R393). -/
def execLinkTrained (n : BitVec 5) (lanes : Nat) (peer : BitVec 16) (s : State) : Out :=
  let l := s.links.get n.toNat
  .next (if (l.st == lkTraining || l.st == lkRetraining) && 4 ≤ lanes then
    updLink s n.toNat (fun l => { l with st := if 8 ≤ lanes then lkUp else lkDegraded, peer := peer, crcFails := 0 }) else s)

/-- TRAINING_FAILED. -/
def execTrainingFailed (n : BitVec 5) (s : State) : Out :=
  let l := s.links.get n.toNat
  .next (if l.st == lkTraining || l.st == lkRetraining then failLink (updLink s n.toNat (fun l => { linkReset l with st := lkFailed })) n.toNat else s)

/-- ERROR_BURST. -/
def execErrorBurst (n : BitVec 5) (s : State) : Out :=
  .next (if linkUp (s.links.get n.toNat) then updLink s n.toNat (fun l => { l with st := lkRetraining }) else s)

-- ===== flits (R396) =====

def flitSeq (f : List Byte) : BitVec 12 := BitVec.ofNat 12 (ofBytes (f.take 2))
/-- The CRC over bytes 0..251 stands in bytes 252..255. -/
def flitOk (f : List Byte) : Bool := f.length == 256 && crc32 (f.take 252) == BitVec.ofNat 32 (ofBytes (f.drop 252))

/-- A flit to be sent: header, payload, CRC. -/
def flitOf (seq : BitVec 12) (typ : Nat) (payload : List Byte) : List Byte :=
  let b := toBytes 8 (seq.toNat + typ % 16 * 4096) ++ (payload ++ List.replicate 244 0).take 244
  b ++ toBytes 4 (crc32 b).toNat

/-- FLIT_RECEIVE: a CRC error discards the flit and every later one until the replay; the 16th of one flit in a row is an error burst (R394). -/
def receiveFlit (l : Link) (f : List Byte) : Link :=
  if !flitOk f then { l with crcFails := l.crcFails + 1, naked := true, st := if 16 ≤ l.crcFails + 1 then lkRetraining else l.st }
  else if flitSeq f = l.rxSeq then { l with rxSeq := l.rxSeq + 1, crcFails := 0, naked := false }
  else l
def execFlitReceive (n : BitVec 5) (flit : List Byte) (s : State) : Out :=
  .next (if linkUp (s.links.get n.toNat) then updLink s n.toNat (fun l => receiveFlit l flit) else s)

/-- NAK_REPLAY: the flits from a sequence number on are sent again, and REPLAY counts them. -/
def replayFrom (l : Link) (seq : BitVec 12) : Link :=
  { l with replay := min 0xFFFF (l.replay + (l.unacked.dropWhile (fun f => flitSeq f != seq)).length) }
def execNakReplay (n : BitVec 5) (seq : BitVec 12) (s : State) : Out :=
  .next (if linkUp (s.links.get n.toNat) then updLink s n.toNat (fun l => replayFrom l seq) else s)

/-- The action that sends a flit: at most 512 are unacknowledged. -/
def sendFlit (s : State) (n typ : Nat) (payload : List Byte) : State :=
  updLink s n (fun l => if linkUp l && l.unacked.length < 512 then { l with unacked := l.unacked ++ [flitOf l.txSeq typ payload], txSeq := l.txSeq + 1 } else l)
/-- The action by which the peer acknowledges flits. -/
def ackFlits (s : State) (n k : Nat) : State := updLink s n (fun l => { l with unacked := l.unacked.drop k })

-- ===== TRANSFER_COMPLETE (R397, R226) =====

/-- The receiver writes destination lines as they arrive: those of `fresh` have their new content now, where every contribution is there (R397). -/
def landLines (s : State) (t : Transfer) (fresh : List Nat) : State :=
  match s.ranks.find? (fun r => r.id == t.rank) with
  | none => s
  | some r => match contribs s r with
    | some cs => if r.op = 0 || r.written || fresh.isEmpty then s else writeDst s r cs fresh.contains
    | none => s

/-- What a PUT has sent when its transfer ends well: its lines, and the arrival on the peer's barrier where RES names one (R403). -/
def putSent (s : State) (t : Transfer) : State :=
  match s.ranks.find? (fun r => r.id == t.rank) with
  | none => s
  | some r =>
    if r.op ≠ 0 then s
    else
      let o := field t.peerAddr 0 56
      let marks := (lineParts o t.data.length).map (fun p => t.poiLines.contains (p.1 / 64))
      let arr : List (Nat × PeerOp) := if r.res = 0 then [] else [(t.link, .arrive r.res)]
      { s with peerOut := arr ++ (t.link, .write t.peerAddr t.data marks) :: s.peerOut }

/-- The end of an attempt of a transfer: it completes, it repeats up to 8 times, or it fails; one that the receiving device refuses fails at once
(R398). -/
def transferStep (s : State) (id : Nat) (out : XferEnd) (fresh : List Nat) : State :=
  match s.transfers.find? (fun t => t.id == id) with
  | none => s
  | some t =>
    let l := s.links.get t.link
    if l.st = lkRetraining then s
    else if !linkUp l then failTransfer s t fresh.contains
    else match out with
      | .agrees => let s1 := putSent (landLines s t fresh) t; { s1 with transfers := s1.transfers.filter (fun x => x.id != id) }
      | .mismatch =>
        if t.tries < 8 then
          let s1 := landLines s t fresh
          { s1 with transfers := s1.transfers.map (fun x => if x.id == id then { x with tries := x.tries + 1 } else x) }
        else failTransfer s t fresh.contains
      | .refused => failTransfer s t fresh.contains
def execTransferComplete (id : Nat) (outcome : XferEnd) (fresh : List Nat) (s : State) : Out := .next (transferStep s id outcome fresh)

-- ===== PEER_ACCESS (R398) =====

/-- Bytes that go back to an outside agent: 0 completed, 1 completed with poison, 2 refused; then the data. -/
def reply (s : State) (code : Nat) (bs : List Byte) : State := { s with replies := (BitVec.ofNat 8 code :: bs) :: s.replies }

/-- A context whose groups and translations are in the device. -/
def resident (s : State) (n : Nat) : Bool :=
  let c := (s.ctxs.get n).st
  c == .active || c == .halted || c == .saving || c == .restoring

/-- The window of a peer address: context and virtual address; none outside the windows. -/
def peerWindow (s : State) (n : Nat) (addr : BitVec 64) (len : Nat) (write : Bool) : Option (Nat × BitVec 64) :=
  let w := field addr 56 8
  let v := s.regs.win.get (16 * n + w)
  let size := if field v 0 16 = 0 then 2 ^ 32 else field v 0 16 * 65536
  if 16 ≤ w || !flag v 63 || (write && !flag v 62) || size < field addr 0 56 + len || !resident s (field v 56 6) then none
  else some (field v 56 6, BitVec.ofNat 64 (field v 16 39 * 65536 + field addr 0 56))

/-- The translations of a peer's bytes, at user level. -/
def peerSpan (s : State) (n : Nat) (addr : BitVec 64) (len : Nat) (k : Acc) (write : Bool) : Option (BitVec 64 × List (Nat × Leaf)) :=
  match peerWindow s n addr len write with
  | none => none
  | some (c, va) => match checkSpan s c false k va len with
    | .ok xl => some (va, xl)
    | .error _ => none

/-- The old value that an atomic of an outside agent works on: what stands at H, or, after a device's atomic on a page without SA, what stood there
before it, whose update is then lost (R176). -/
def outsideOld (s : State) (key pa wd : Nat) : Nat :=
  match s.oldWords.find? (fun w => !w.host && w.pa == pa && w.n == wd) with
  | some w => if Config.lostUpdate s.tick then w.val else hNat s key pa wd
  | none => hNat s key pa wd

/-- An atomic at H by an agent that is no group (R176): the old value and its poison, and the state after. -/
def homeAtomic (s : State) (key pa wd : Nat) (op : BitVec 4) (val : BitVec 64) : Nat × Bool × State :=
  let old := outsideOld s key pa wd
  if hPoi s (pa / 64) then (hNat s key pa wd, true, s)
  else (old, false, hWrite { keepOld s ⟨pa, wd, true, hNat s key pa wd⟩ with tick := s.tick + 1 } key (pa / 64)
    (entBytes pa wd (atomNew { op := op, wide := wd == 8 } old (val.toNat % 256 ^ wd))) false)

/-- A width and an operation that an outside atomic may have (R187), at an aligned address. -/
def atomicOk (wd : Nat) (op : BitVec 4) (a : Nat) : Bool := (wd == 4 || wd == 8) && op.toNat < 12 && a % wd == 0

/-- The answers to a read of many lines: each line comes with its own mark (R387). -/
def replyLines (s : State) (xl : List (Nat × Leaf)) (va n : Nat) : State :=
  (lineParts va n).foldl (fun s p => let b := readIn s xl p.1 p.2; reply s (if b.2 then 1 else 0) b.1) s

/-- A write whose lines carry a mark each. -/
def writeMarked (s : State) (die : Nat) (xl : List (Nat × Leaf)) (va : Nat) (data : List Byte) (marks : List Bool) : State :=
  let ps := lineParts va data.length
  (List.range ps.length).foldl (fun s j =>
    let p := ps.getD j (0, 0)
    sendIn s die xl p.1 ((data.drop (p.1 - va)).take p.2) (marks.getD j false)) s

/-- An inbound access through a window; one that is refused changes nothing. A transfer that has failed breaks the barrier that it was to arrive on,
with the number of its link (R226). -/
def peerStep (s : State) (n : Nat) (op : PeerOp) : State :=
  match op with
  | .read addr len => match peerSpan s n addr len .load false with
    | none => reply s 2 []
    | some (va, xl) => replyLines (arrivesIn s (linkDie n) xl va.toNat len) xl va.toNat len
  | .write addr data marks => match peerSpan s n addr data.length .store true with
    | none => reply s 2 []
    | some (va, xl) => reply (writeMarked s (linkDie n) xl va.toNat data marks) 0 []
  | .fail addr => match peerSpan s n addr 64 .store true with
    | none => s
    | some (va, xl) => if va.toNat % 64 ≠ 0 then s else breakBar s (keyIx s (leafIn xl va.toNat).key) (paIn xl va.toNat) 1 n
  | .atomic addr wd o val => match peerSpan s n addr wd .store true with
    | none => reply s 2 []
    | some (va, xl) =>
      if !atomicOk wd o va.toNat then reply s 2 []
      else
        let r := homeAtomic s (keyIx s (leafIn xl va.toNat).key) (paIn xl va.toNat) wd o val
        reply (arrivesIn r.2.2 (linkDie n) xl va.toNat wd) (if r.2.1 then 1 else 0) (toBytes wd r.1)
  | .arrive addr => match peerSpan s n addr 64 .store true with
    | none => reply s 2 []
    | some (va, xl) =>
      if va.toNat % 64 ≠ 0 then reply s 2 []
      else reply (arriveBal s (keyIx s (leafIn xl va.toNat).key) (paIn xl va.toNat) 1 (128 + n)) 0 []
/-- PEER_ACCESS: traffic needs a link that carries flits; the failure of a transfer may be that of its link. -/
def execPeerAccess (n : BitVec 5) (op : PeerOp) (s : State) : Out :=
  let lost := match op with | .fail _ => true | _ => false
  .next (if lost || linkUp (s.links.get n.toNat) then peerStep s n.toNat op else s)

-- ===== COLL (R400, R402) =====

/-- The rank that a descriptor describes. -/
def rankOfDesc (w : List (BitVec 64)) (x : Group) (g : Nat) : Rank :=
  let a (i : Nat) : BitVec 64 := wordAt w i
  { ctx := x.ctx, sup := x.sup, gid := g, op := field (a 0) 0 4, dt := field (a 0) 4 4, rop := field (a 0) 8 4, k := field (a 0) 12 8,
    p := field (a 0) 32 11, rank := field (a 0) 43 10, tag := a 1, src := a 2, dst := a 3, count := (a 4).toNat, bar := a 5, res := a 6 }

/-- A reserved field or a value out of range (R401). -/
def descBad (w : List (BitVec 64)) (r : Rank) : Bool :=
  let a0 := wordAt w 0
  field a0 20 12 != 0 || field a0 53 11 != 0 || 3 < r.op || 3 < r.dt || (r.dt == 3 && !(r.op == 0 || r.op == 2)) || 2 < r.rop ||
    (r.rop != 0 && (r.op == 0 || r.op == 2)) || (r.k != 0 && !(r.dt == 0 && (r.op == 1 || r.op == 3))) || r.p == 0 || 1024 < r.p || r.p ≤ r.rank ||
    (r.op == 0 && (r.p != 2 || r.rank != 0)) || r.bar.toNat % 64 != 0

/-- Bytes of a rank's source and destination. -/
def collSrcLen (r : Rank) : Nat := r.count * dtSize r.dt
def collDstLen (r : Rank) : Nat :=
  if r.op = 2 then r.p * r.count * dtSize r.dt else if r.op = 3 then (chunkOf r.count r.p r.rank).2 * dtSize r.dt else r.count * dtSize r.dt

/-- RES lies wholly in base-die SRAM. -/
def resInSram (xl : List (Nat × Leaf)) (r : Rank) : Bool :=
  (pieces r.res.toNat (4 * r.count)).all (fun p => sramBase ≤ paIn xl p.1 && paIn xl p.1 + p.2 ≤ memTop)

/-- The address checks of a COLL in order: SRC, BAR, DST, RES. -/
def collChecks (s : State) (r : Rank) : Except Trap (List (Nat × Leaf)) :=
  firstErr [checkSpan s r.ctx r.sup .load r.src (collSrcLen r), checkSpan s r.ctx r.sup .store r.bar 64,
    if r.op = 0 then .ok [] else checkSpan s r.ctx r.sup .store r.dst (collDstLen r),
    if r.k = 0 then .ok [] else checkSpan s r.ctx r.sup .store r.res (4 * r.count)]

/-- The ids of the ranks: read from PEERS, for a PUT the peer alone. -/
def readIds (s : State) (g : Nat) (r : Rank) (peers : BitVec 64) : Except Trap (List (BitVec 16)) :=
  if r.op = 0 then .ok [s.regs.devId, peers.setWidth 16]
  else match readRange s g peers (2 * r.p) with
    | .error t => .error t
    | .ok (bs, poi) => if poi.isSome then .error ⟨cPoison, peers⟩ else .ok ((elemsOf 2 bs).map (BitVec.ofNat 16))

/-- The neighbours of a rank on other devices. -/
def remoteNeighbours (s : State) (r : Rank) : List (BitVec 16) :=
  ([r.rank + 1, r.rank + r.p - 1].map (fun q => r.ids.getD (q % r.p) 0)).eraseDups.filter (fun i => i != s.regs.devId)

/-- Elements of a range that lie, at least in part, on poisoned lines. -/
def poisonedElems (s : State) (xl : List (Nat × Leaf)) (va : BitVec 64) (sz n : Nat) : SMap Bool :=
  (List.range n).foldl (fun (m : SMap Bool) i =>
    SMap.set m i ((List.range sz).any (fun j => hPoi s (paIn xl (va.toNat + sz * i + j) / 64)))) []

/-- The rank with its contribution, read at H when it is accepted; with K its residual as well. -/
def withData (s : State) (r : Rank) : Rank :=
  let bs := (readIn s r.xl r.src.toNat (collSrcLen r)).1
  let sz := dtSize r.dt
  let poi := poisonedElems s r.xl r.src sz r.count
  if r.k = 0 then { r with data := bs, poi := poi }
  else
    let res := elemsOf 4 (readIn s r.xl r.res.toNat (4 * r.count)).1
    let poiR := poisonedElems s r.xl r.res 4 r.count
    let xs := elemsOf 4 bs
    let vs := (List.range xs.length).map (fun i => collOp 0 0 (xs.getD i 0) (res.getD i 0))
    let t := topK r.k r.count vs
    let bad (b : Nat) : Bool := (List.range 256).any (fun i => poi.get (256 * b + i) || poiR.get (256 * b + i))
    { r with data := elemsBytes 4 t.1, resid := elemsBytes 4 t.2,
             poi := (List.range r.count).foldl (fun (m : SMap Bool) i => SMap.set m i (bad (i / 256))) [] }

/-- A rank is accepted: one transfer for each neighbour on another device; a PUT's carries its data. -/
def acceptRank (s : State) (r0 : Rank) : State :=
  let f := freshId s
  let r := { withData f.2 r0 with id := f.1 }
  let u := arrivesIn (arrivesIn f.2 (rankDie r) r.xl r.src.toNat (collSrcLen r)) (rankDie r) r.xl r.res.toNat (if r.k = 0 then 0 else 4 * r.count)
  let sz := dtSize r.dt
  let lines := ((List.range r.count).filter (fun i => r.poi.get i)).flatMap (fun i => (List.range sz).map (fun j => (field r.dst 0 56 + i * sz + j) / 64))
  let ns := remoteNeighbours s r
  let ts : List Transfer := (List.range ns.length).map (fun i =>
    { id := f.2.nextId + i, link := (linkTo s (ns.getD i 0)).getD 0, rank := r.id, peerAddr := if r.op = 0 then r.dst else 0, data := r.data,
      poiLines := if r.op = 0 then lines.eraseDups else [] })
  { u with ranks := u.ranks ++ [r], transfers := u.transfers ++ ts, nextId := u.nextId + ns.length }

/-- A rank whose work is not done. -/
def unfinished (s : State) : Nat := (s.ranks.filter (fun r => !r.done)).length

/-- The state once PEERS has been read. -/
def idsSeen (s : State) (g : Nat) (r : Rank) (peers : BitVec 64) : State := if r.op = 0 then s else seenRange s g peers (2 * r.p)

def collBody (d a : Opd) (s : State) (g : Nat) : Eff :=
  let s0 := performAll s g
  let x := s0.grp g
  orTrap s (addrOf x a) fun va =>
  let u := seenRange s0 g va 64
  orTrap u (readDesc u g va 64 64) fun w =>
  let r0 := rankOfDesc w x g
  if descBad w r0 || (r0.k != 0 && !hasCap u 2) then .trap u ⟨cQueueDesc, va⟩
  else orTrap u (collChecks u r0) fun xl =>
    if r0.k != 0 && !resInSram xl r0 then .trap u ⟨cQueueDesc, va⟩
    else
      let v := idsSeen u g r0 (wordAt w 7)
      orTrap v (readIds v g r0 (wordAt w 7)) fun ids =>
      let r := { r0 with ids := ids, xl := xl }
      if (remoteNeighbours v r).any (fun i => (linkTo v i).isNone) then .trap v ⟨cQueueDesc, va⟩
      else
        let s1 := releaseAt v g (if ids.all (· == v.regs.devId) then .dev else .sys)
        let ok := unfinished s1 < 64
        .done (flightNow (if ok then acceptRank s1 r else s1) g d [(0, ⟨if ok then 1 else 0, false⟩)] 0 [])
def execColl (d a : Opd) (s : State) : Out := issue (.coll d a) (collBody d a) s

-- ===== COLL_RANK_COMPLETE (R405) =====

/-- The acquire of a participant at its completion: clean copies of the named buffers go from its core and its die (R180). -/
def acquireBuffers (s : State) (r : Rank) : State :=
  dropClean s r.gid (scopeLevel .dev) (fun e => inRange r.xl r.dst.toNat (collDstLen r) e.line || (r.k != 0 && inRange r.xl r.res.toNat (4 * r.count) e.line))

/-- A rank is done: its barrier. -/
def finishRank (s : State) (r : Rank) : State :=
  let b := rankBar s r
  let s1 := arriveBal s b.1 b.2 1 (rankSrc s r)
  if r.op = 0 then { s1 with ranks := s1.ranks.filter (fun x => x.id != r.id) }
  else closeInstance { acquireBuffers s1 r with ranks := s1.ranks.map (fun x => if x.id == r.id then { x with done := true } else x) } r

/-- Every rank of this device whose values are known has them at their homes, before any participant's completion is observable (R180). -/
def writeAll (s : State) (r : Rank) : State :=
  (instanceRanks s r).foldl (fun u x => match contribs s x with
    | some cs => if x.written then u else
      let v := writeRes (writeDst u x cs (fun _ => true)) x
      { v with ranks := v.ranks.map (fun y => if y.id == x.id then { y with written := true } else y) }
    | none => u) s

def collComplete (s : State) (id : Nat) : State :=
  match s.ranks.find? (fun r => r.id == id && !r.done) with
  | none => s
  | some r =>
    if s.transfers.any (fun t => t.rank == id) then s
    else if r.op = 0 then (if r.ids.getD 1 0 = s.regs.devId then failRank s r none 0xFF (fun _ => false) else finishRank s r)
    else if (localRank s r.tag r.p r.rank).map (·.id) ≠ some id || (contribs s r).isNone then s
    else finishRank (writeAll s r) r
def execCollRankComplete (id : Nat) (s : State) : Out := .next (collComplete s id)

end Sys2Proof.Machine
end

