-- ==== Sys2Proof/Machine/Network.lean ====
section
/-!
DEFINITION. The Ethernet ports (R406 to R408, R413, R352): the classifier, the receive and send rings, and the bindings. Frames are Ethernet II with
IPv4 or IPv6 and UDP, without the frame check sequence.
-/

namespace Sys2Proof.Machine

-- ===== frames =====

/-- A big-endian number at an offset of a frame. -/
def beAt (f : List Byte) (o n : Nat) : Nat := beNat ((f.drop o).take n)
/-- A byte of a frame. -/
def byteOf (f : List Byte) (o : Nat) : Nat := (f.getD o 0).toNat

/-- Where the UDP header of a frame begins, if it carries UDP. -/
def udpAt (f : List Byte) : Option Nat :=
  let ip := 14
  if beAt f 12 2 = 0x0800 && byteOf f ip / 16 = 4 && byteOf f (ip + 9) = 17 && beAt f (ip + 6) 2 % 0x4000 = 0 then some (ip + 4 * (byteOf f ip % 16))
  else if beAt f 12 2 = 0x86DD && byteOf f ip / 16 = 6 && byteOf f (ip + 6) = 17 then some (ip + 40)
  else none

/-- UDP destination port and payload. -/
def udpOf (f : List Byte) : Option (Nat × List Byte) :=
  match udpAt f with
  | none => none
  | some o => if f.length < o + 8 then none else some (beAt f (o + 2) 2, (f.drop (o + 8)).take (beAt f (o + 4) 2 - 8))

-- ===== the classifier (R407, R408) =====

/-- The binding that a frame matches: the lowest one. -/
def bindingOf (s : State) (port : Nat) (f : List Byte) : Option (Nat × List Byte) :=
  match udpOf f with
  | none => none
  | some (dst, pay) => ((List.range 64).find? (fun b =>
      let v := s.regs.ncBind.get b
      flag v 63 && flag v (59 + port) && field v 0 16 == dst)).map (fun b => (b, pay))

/-- The authentication key of a context: the first 32 bytes of slot KEYBASE (R373). -/
def gmacKey (s : State) (ctx : Nat) : Option (List Byte) :=
  let c := s.ctxs.get ctx
  if c.keycnt = 0 then none else (keyOf s (keyIx s c.keybase)).map (·.take 32)

/-- The tag of a payload matches. -/
def tagOk (s : State) (ctx : Nat) (pay : List Byte) : Bool :=
  match gmacKey s ctx with
  | none => false
  | some k => gmac k ((pay.drop 8).take 12) (pay.take 148) == pay.drop 148

/-- A frame dropped by a binding. -/
def bindDrop (s : State) (b : Nat) : State :=
  { s with regs := { s.regs with ncDrop := s.regs.ncDrop.upd b (fun v => if v = 0xFFFFFFFFFFFFFFFF#64 then v else v + 1) } }

/-- The push of a record into a launch queue (R352); none where the queue is unusable, closed, or has fewer than 2 free slots. -/
def intakePush (s : State) (ctx lq : Nat) (rec : List Byte) : Option State :=
  let va := (s.ctxs.get ctx).lqs.getD lq 0
  if va = 0 then none
  else match openLq s ctx va with
    | none => none
    | some q =>
      if q.cclosed then none
      else match qPushAs s (dispAcc s ctx) q [rec.take 64, rec.drop 64] with
        | .ok r => r
        | .error _ => none

/-- A bound frame: every check of R408, then the push and the last SEQ. -/
def intake (s : State) (b : Nat) (pay : List Byte) : State :=
  let v := s.regs.ncBind.get b
  let ctx := field v 53 6
  let seq := ofBytes (pay.take 8)
  let st := (s.ctxs.get ctx).st
  if pay.length ≠ 164 || st == .free || st == .quarantined || !tagOk s ctx pay || seq ≤ s.regs.ncSeq.get b then bindDrop s b
  else match intakePush s ctx (field v 51 2) ((pay.drop 20).take 128) with
    | none => bindDrop s b
    | some s1 => { s1 with regs := { s1.regs with ncSeq := s1.regs.ncSeq.set b seq } }

-- ===== the rings (R413) =====

/-- How the ports take a ring's addresses: physically. -/
def netAcc : QAcc := ⟨true, 0, true⟩

/-- A ring by its register; none where its descriptor is unusable. -/
def netRing (s : State) (pa : BitVec 64) : Option QDesc :=
  match qOpen s netAcc .store pa with
  | .ok q => if q.lnch || q.words != 2 || q.cclosed then none else some q
  | .error _ => none

/-- The element at the head of a ring: buffer address and length; none where its slot cannot be read or is poisoned. -/
def ringHead (s : State) (q : QDesc) : Option (BitVec 64 × Nat) :=
  match qSlots s netAcc .load q q.get 1 with
  | .ok (ps :: _) => let b := getPieces s ps; if b.2 then none else some (wordAt (toWords b.1) 0, field (wordAt (toWords b.1) 1) 0 16)
  | _ => none

/-- A frame dropped by a port whose ring is unusable. -/
def portDrop (s : State) (port : Nat) : State :=
  { s with regs := { s.regs with netDrop := s.regs.netDrop.upd port (fun v => if v = 0xFFFFFFFFFFFFFFFF#64 then v else v + 1) } }

/-- A buffer that a port may use. -/
def bufferOk (a : BitVec 64) (n : Nat) : Bool := inMemory a.toNat && inMemory (a.toNat + n - 1)

/-- An unbound frame enters the next receive buffer, which is put back filled, and the vector of the port is signalled (R412). Without a buffer that
holds the frame it is dropped. -/
def receiveFrame (s : State) (port : Nat) (f : List Byte) : State :=
  match netRing s (s.regs.netRx.get port) with
  | none => portDrop s port
  | some q =>
    if q.count = 0 then s
    else match ringHead s q with
      | none => portDrop s port
      | some (a, n) =>
        if n < f.length || f.isEmpty || !bufferOk a f.length then s
        else
          let s1 := qPop (hWriteSpan s 0 a.toNat f false) q 1
          match netRing s1 (s.regs.netRx.get port) with
          | none => portDrop s port
          | some q1 => match qPushAs s1 netAcc q1 [toBytes 8 a.toNat ++ toBytes 8 f.length] with
            | .ok (some s2) => signal s2 (port + 1)
            | _ => portDrop s port

/-- FRAME_RECEIVE. -/
def execFrameReceive (port : BitVec 2) (frame : List Byte) (s : State) : Out :=
  .next (match bindingOf s port.toNat frame with
  | some (b, pay) => intake s b pay
  | none => receiveFrame s port.toNat frame)

/-- NET_TRANSMIT: the next transmit element is popped and its frame leaves; one whose buffer cannot be read clean is popped without a frame. -/
def netTransmit (s : State) (port : Nat) : State :=
  match netRing s (s.regs.netTx.get port) with
  | none => s
  | some q =>
    if q.count = 0 then s
    else match ringHead s q with
      | none => s
      | some (a, n) =>
        let s1 := arrives (qPop s q 1) (portDie port) a.toNat (if bufferOk a n then n else 0)
        if n = 0 || !bufferOk a n || hPoiSpan s a.toNat n then s1
        else { s1 with frames := s1.frames.upd port (· ++ [hRead s 0 a.toNat n]) }
def execNetTransmit (port : BitVec 2) (s : State) : Out := .next (netTransmit s port.toNat)

/-- NC_BIND_WRITE: a binding is written, and its last SEQ is 0 again. -/
def execNcBindWrite (b : BitVec 6) (val : BitVec 64) (s : State) : Out := .next (bindWrite s b.toNat val)

end Sys2Proof.Machine
end

