-- ==== Sys2Proof/Machine/Sign.lean ====
section
/-!
DEFINITION. What firmware signatures need (R1, R418, R419): SHA-256 (FIPS 180-4) and the verification of ECDSA over P-256 (FIPS 186-5). Bytes are
lists of `Byte`, numbers big-endian.
-/

namespace Sys2Proof.Machine

-- ===== SHA-256 =====

/-- The constants of the rounds. -/
def shaK : List (BitVec 32) :=
  ([0x428a2f98, 0x71374491, 0xb5c0fbcf, 0xe9b5dba5, 0x3956c25b, 0x59f111f1, 0x923f82a4, 0xab1c5ed5,
    0xd807aa98, 0x12835b01, 0x243185be, 0x550c7dc3, 0x72be5d74, 0x80deb1fe, 0x9bdc06a7, 0xc19bf174] : List (BitVec 32)) ++
  [0xe49b69c1, 0xefbe4786, 0x0fc19dc6, 0x240ca1cc, 0x2de92c6f, 0x4a7484aa, 0x5cb0a9dc, 0x76f988da,
    0x983e5152, 0xa831c66d, 0xb00327c8, 0xbf597fc7, 0xc6e00bf3, 0xd5a79147, 0x06ca6351, 0x14292967] ++
  [0x27b70a85, 0x2e1b2138, 0x4d2c6dfc, 0x53380d13, 0x650a7354, 0x766a0abb, 0x81c2c92e, 0x92722c85,
    0xa2bfe8a1, 0xa81a664b, 0xc24b8b70, 0xc76c51a3, 0xd192e819, 0xd6990624, 0xf40e3585, 0x106aa070] ++
  [0x19a4c116, 0x1e376c08, 0x2748774c, 0x34b0bcb5, 0x391c0cb3, 0x4ed8aa4a, 0x5b9cca4f, 0x682e6ff3,
    0x748f82ee, 0x78a5636f, 0x84c87814, 0x8cc70208, 0x90befffa, 0xa4506ceb, 0xbef9a3f7, 0xc67178f2]
/-- The first chaining value. -/
def shaInit : List (BitVec 32) := [0x6a09e667, 0xbb67ae85, 0x3c6ef372, 0xa54ff53a, 0x510e527f, 0x9b05688c, 0x1f83d9ab, 0x5be0cd19]

def rotr32 (x : BitVec 32) (n : Nat) : BitVec 32 := (x >>> n) ||| (x <<< (32 - n))

/-- A big-endian number. -/
def beNumber (bs : List Byte) : Nat := bs.foldl (fun n b => 256 * n + b.toNat) 0
/-- The `n` bytes of a number, the most significant first. -/
def beBytes : Nat → Nat → List Byte
  | 0, _ => []
  | n + 1, v => BitVec.ofNat 8 (v / 256 ^ n) :: beBytes n v

/-- The message with its padding and its length in bits. -/
def shaPad (bs : List Byte) : List Byte :=
  let z := (119 - bs.length % 64) % 64
  bs ++ [0x80] ++ List.replicate z 0 ++ beBytes 8 (8 * bs.length)

/-- `n` more words of the message schedule, the newest first. -/
def shaExpand : Nat → List (BitVec 32) → List (BitVec 32)
  | 0, ws => ws
  | n + 1, ws =>
    let x := ws.getD 14 0
    let y := ws.getD 1 0
    let s0 := rotr32 x 7 ^^^ rotr32 x 18 ^^^ (x >>> 3)
    let s1 := rotr32 y 17 ^^^ rotr32 y 19 ^^^ (y >>> 10)
    shaExpand n ((ws.getD 15 0 + s0 + ws.getD 6 0 + s1) :: ws)

/-- One round on the eight working variables. -/
def shaRound (v : List (BitVec 32)) (kw : BitVec 32 × BitVec 32) : List (BitVec 32) :=
  match v with
  | [a, b, c, d, e, f, g, h] =>
    let s1 := rotr32 e 6 ^^^ rotr32 e 11 ^^^ rotr32 e 25
    let ch := (e &&& f) ^^^ (~~~e &&& g)
    let t1 := h + s1 + ch + kw.1 + kw.2
    let s0 := rotr32 a 2 ^^^ rotr32 a 13 ^^^ rotr32 a 22
    let maj := (a &&& b) ^^^ (a &&& c) ^^^ (b &&& c)
    [t1 + (s0 + maj), a, b, c, d + t1, e, f, g]
  | _ => v

/-- The compression of one block of 64 bytes. -/
def shaBlock (h : List (BitVec 32)) (blk : List Byte) : List (BitVec 32) :=
  let w0 := (List.range 16).map (fun i => BitVec.ofNat 32 (beNumber ((blk.drop (4 * i)).take 4)))
  let ws := (shaExpand 48 w0.reverse).reverse
  List.zipWith (· + ·) h ((shaK.zip ws).foldl shaRound h)

/-- Every block in order. -/
def shaBlocks : Nat → List (BitVec 32) → List Byte → List (BitVec 32)
  | 0, h, _ => h
  | n + 1, h, bs => shaBlocks n (shaBlock h (bs.take 64)) (bs.drop 64)

/-- SHA-256 of a message. -/
def sha256 (bs : List Byte) : BitVec 256 :=
  let m := shaPad bs
  BitVec.ofNat 256 ((shaBlocks (m.length / 64) shaInit m).foldl (fun n w => 2 ^ 32 * n + w.toNat) 0)
/-- A digest as its 32 bytes. -/
def digestBytes (d : BitVec 256) : List Byte := beBytes 32 d.toNat

-- ===== P-256 =====

def p256 : Nat := 0xffffffff00000001000000000000000000000000ffffffffffffffffffffffff
def p256n : Nat := 0xffffffff00000000ffffffffffffffffbce6faada7179e84f3b9cac2fc632551
def p256b : Nat := 0x5ac635d8aa3a93e7b3ebbd55769886bc651d06b0cc53b0f63bce3c3e27d2604b
def p256g : Nat × Nat :=
  (0x6b17d1f2e12c4247f8bce6e563a440f277037d812deb33a0f4a13945d898c296, 0x4fe342e2fe1a7f9b8ee7eb4a7c0f9e162bce33576b315ececbb6406837bf51f5)

/-- A power modulo `m`, by the `k` low bits of the exponent. -/
def powMod (m : Nat) : Nat → Nat → Nat → Nat
  | 0, _, _ => 1 % m
  | k + 1, b, e => (if e % 2 = 1 then b else 1) * powMod m k (b * b % m) (e / 2) % m
/-- The inverse modulo a prime of 256 bits. -/
def invMod (m a : Nat) : Nat := powMod m 256 (a % m) (m - 2)
def subMod (m a b : Nat) : Nat := (a + (m - b % m)) % m

/-- A point of the curve; none is the point at infinity. -/
abbrev Point := Option (Nat × Nat)

/-- The sum of two points. -/
def addPoint (a b : Point) : Point :=
  match a, b with
  | none, q => q
  | p, none => p
  | some (x1, y1), some (x2, y2) =>
    if x1 = x2 && (y1 + y2) % p256 = 0 then none
    else
      let l := if x1 = x2 then (3 * x1 * x1 + (p256 - 3)) * invMod p256 (2 * y1) % p256 else subMod p256 y2 y1 * invMod p256 (subMod p256 x2 x1) % p256
      let x := subMod p256 (l * l) (x1 + x2)
      some (x, subMod p256 (l * subMod p256 x1 x) y1)

/-- A multiple of a point, by the `k` low bits of the number. -/
def mulPoint : Nat → Nat → Point → Point
  | 0, _, _ => none
  | k + 1, n, p => addPoint (if n % 2 = 1 then p else none) (mulPoint k (n / 2) (addPoint p p))

/-- A point that lies on the curve. -/
def onCurve (q : Nat × Nat) : Bool := q.1 < p256 && q.2 < p256 && q.2 * q.2 % p256 == (q.1 * q.1 * q.1 + (p256 - 3) * q.1 + p256b) % p256

/-- The verification of a signature (r, s) over a digest. -/
def ecdsaOk (q : Nat × Nat) (digest r s : Nat) : Bool :=
  if r = 0 || p256n ≤ r || s = 0 || p256n ≤ s || !onCurve q then false
  else
    let w := invMod p256n s
    match addPoint (mulPoint 256 (digest * w % p256n) (some p256g)) (mulPoint 256 (r * w % p256n) (some q)) with
    | none => false
    | some (x, _) => x % p256n == r

/-- A signature of 64 bytes by a public key of 64 bytes over the SHA-256 digest of a message (R418). -/
def signedBy (key sig msg : List Byte) : Bool :=
  key.length == 64 && sig.length == 64 &&
    ecdsaOk (beNumber (key.take 32), beNumber (key.drop 32)) (sha256 msg).toNat (beNumber (sig.take 32)) (beNumber (sig.drop 32))

end Sys2Proof.Machine
end

