-- ==== Sys2Proof/Machine/HostPort.lean ====
section
/-!
DEFINITION. The host and the management port (chapter 19): CXL.mem (R412), register accesses (R409 to R411, R414), status (R390, R391), errors (R385,
R390), PLDM, SPDM and firmware (R414, R418, R419), the security alarm (R376, R420), and resets (R421).
-/

namespace Sys2Proof.Machine

-- ===== HOST_MEM_ACCESS (R412, R387) =====

/-- A range of memory that the HDM decoder maps and that is populated. -/
def hostRange (pa n : Nat) : Bool := 0 < n && inMemory pa && inMemory (pa + n - 1)

def hostStep (s : State) : HostOp → State
  | .read pa n => if hostRange pa n then reply (arrives s hostDie pa n) (if hPoiSpan s pa n then 1 else 0) (hRead s 0 pa n) else reply s 2 []
  | .write pa data poi => if hostRange pa data.length then reply (hSendSpan s hostDie 0 pa data poi) 0 [] else reply s 2 []
  | .bar0Read off n => if off + n ≤ 2 ^ 32 then reply s 0 (toBytes n (devReadN s (devBase + off) n).toNat) else reply s 2 []
  | .bar0Write off n v => if off + n ≤ 2 ^ 32 then reply (devWriteN s .host (devBase + off) n v) 0 [] else reply s 2 []
  | .atomic pa wd op val =>
    if hostRange pa wd && atomicOk wd op pa then
      let r := homeAtomic s 0 pa wd op val
      reply (arrives r.2.2 hostDie pa wd) (if r.2.1 then 1 else 0) (toBytes wd r.1)
    else reply s 2 []
def execHostMemAccess (op : HostOp) (s : State) : Out := .next (hostStep s op)

-- ===== registers (R409, R414) =====

/-- MCTP_REGISTER_ACCESS: the management port reads or writes one register of the device register range. -/
def execMctpRegisterAccess (pa : Nat) (val : Option (BitVec 64)) (s : State) : Out :=
  .next (if !inDevice pa then reply s 2 [] else match val with
  | none => reply s 0 (toBytes 8 (devReadN s pa 8).toNat)
  | some v => reply (devWriteN s .mgmt pa 8 v) 0 [])

/-- A register whose bits are cleared by writing 1: `HB_STAT` of a stack, `DB_STAT` of a boundary. -/
def isStatus (pa : Nat) : Bool :=
  (List.range 16).any (fun i => pa == devBase + 0x100000 + 0x1000 * i + 0x20) || (List.range 4).any (fun i => pa == devBase + 0x2000 + 8 * i)

/-- STATUS_CLEAR: the summary bit follows, since `ERR_SUM` gathers the registers as they stand (R391). -/
def execStatusClear (ag : RegAgent) (pa : Nat) (val : BitVec 64) (s : State) : Out := .next (if isStatus pa then devWriteN s ag pa 8 val else s)

/-- REGISTER_WRITE. -/
def execRegisterWrite (ag : RegAgent) (pa : Nat) (val : BitVec 64) (s : State) : Out := .next (devWriteN s ag pa 8 val)

-- ===== errors (R385, R390, R391) =====

/-- The bytes of a line after an uncorrectable error are free. -/
def freeLine (s : State) (line : Nat) : State :=
  { s with h := { s.h with bytes := putBytes s.h.bytes (64 * line) ((List.range 64).map (fun i => Config.freeByte (s.tick * 64 + i))) }, tick := s.tick + 1 }

/-- The fabric of a compartment: a graph is abandoned, a loaded configuration is lost. -/
def fabricError (s : State) (n : Nat) : State :=
  let c := cmpOf s n
  if c.st = .running || c.st = .freezing then abandon s n fcEcc else if c.st = .loaded then updCmp s n unloaded else s

/-- The marking of an uncorrectable error, by place (R385). -/
def uncorrectable (s : State) : ErrPlace → State
  | .line pa => if inMemory pa then hMark (freeLine s (pa / 64)) (pa / 64) else s
  | .l1 core => { s with cv := s.cv.upd core (fun l => l.filter (·.dirty)) }
  | .shared team w =>
    if (s.teams.get team).live && w < 512 * (s.teams.get team).shm then
      { s with teams := s.teams.upd team (fun t => { t with
          sh := putBytes t.sh (8 * w) ((List.range 8).map (fun i => Config.freeByte (s.tick * 64 + i))), shPoi := t.shPoi.set w true }), tick := s.tick + 1 }
    else s
  | .vreg g n lane =>
    if present s g && !unheldV (s.grp g) n && lane < 32 then
      { s.updGrp g (fun x => { x with v := x.v.set (32 * n + lane) ⟨Config.freeRegister s.tick, true⟩ }) with tick := s.tick + 1 }
    else s
  | .sreg g n =>
    if present s g && n < 64 then { s.updGrp g (fun x => { x with s := x.s.set n ⟨Config.freeRegister s.tick, true⟩ }) with tick := s.tick + 1 } else s
  | .tile team z =>
    if (s.teams.get team).live && z < 16 then
      { s with teams := s.teams.upd team (fun t => { t with tiles := t.tiles.upd z (fun y => { y with poi := true }) }) } else s
  | .table g j line => if present s g && j < 4 && line < 16 then s.updGrp g (fun x => { x with ptabPoi := x.ptabPoi.set (16 * j + line) true }) else s
  | .fabric cmp => fabricError s cmp
  | .boundary i => if i < 4 then { s with regs := { s.regs with dbStat := s.regs.dbStat.upd i (fun v => v ||| 2) } } else s
def execUncorrectableError (pl : ErrPlace) (s : State) : Out := .next (uncorrectable s pl)

/-- CORRECTED_ERROR: a stack's home counts it; places 16 to 19 are the die boundaries. -/
def corrected (s : State) (n : Nat) : State :=
  if n < 16 then
    let old := s.regs.hbStat.get n
    let cnt := min 0xFFFF (field old 32 16 + 1)
    { s with regs := { s.regs with hbStat := s.regs.hbStat.set n ((old &&& ~~~0x0000FFFF00000000#64) ||| BitVec.ofNat 64 (cnt * 2 ^ 32) ||| hbCE) } }
  else if n < 20 then { s with regs := { s.regs with dbStat := s.regs.dbStat.upd (n - 16) (fun v => v ||| 1) } }
  else s
def execCorrectedError (stack : Nat) (s : State) : Out := .next (corrected s stack)

-- ===== management services (R414, R418, R419) =====

/-- PLDM_SENSORS: the readings are free. -/
def execPldmSensors (s : State) : Out := .next (reply { s with tick := s.tick + 1 } 0 (Config.sensorReport s.tick))

/-- PLDM_FIRMWARE_UPDATE: the image that the next boot verifies, with its signing key and signature. -/
def execPldmFirmwareUpdate (image : List Byte) (ver : Nat) (auth : List Byte × List Byte) (s : State) : Out :=
  .next { s with fwNext := some ⟨image, ver, auth.1, auth.2⟩ }

/-- The three measurements: boot ROM, running firmware, fuse settings. -/
def measurement (s : State) (idx : Nat) : List Byte :=
  match idx with
  | 1 => digestBytes Config.romDigest
  | 2 => digestBytes s.fwDigest
  | 3 => digestBytes (Config.fuseDigest s.fwVersion s.fwKey)
  | _ => []

/-- GET_MEASUREMENTS: one measurement with its signature; index 0xFF reports all three (SPDM 1.2). -/
def execGetMeasurements (idx : Nat) (s : State) : Out :=
  let m := if idx = 0xFF then measurement s 1 ++ measurement s 2 ++ measurement s 3 else measurement s idx
  .next (reply { s with tick := s.tick + 1 } 0 (m ++ beBytes 64 (Config.signature s.tick m).toNat))

/-- SECURED_SESSION: the session key between the device and the host or the management controller. -/
def execSecuredSession (ag : RegAgent) (key : List Byte) (s : State) : Out :=
  .next (match ag with
  | .host => if key.length = 32 then { s with sessions := s.sessions.set 0 (some key) } else s
  | .mgmt => if key.length = 32 then { s with sessions := s.sessions.set 1 (some key) } else s
  | .super => s)

-- ===== SECURITY_ALARM (R376, R420) =====

/-- The first alarm bit disables every slot and quarantines every context. -/
def firstAlarm (s : State) : State :=
  { s with keys := [], ctxs := s.ctxs.map (fun e => if e.2.st == .free then e else (e.1, { e.2 with st := .quarantined })) }
def execSecurityAlarm (which : BitVec 3) (s : State) : Out :=
  let s1 := if which = 0 || alarmed s then s else firstAlarm s
  .next { s1 with regs := { s1.regs with alarm := s1.regs.alarm ||| which.setWidth 64 } }

-- ===== resets (R418, R421) =====

/-- The device after a cold reset; its capabilities, its fuses and host memory are not its to lose, and what the outside does next goes on. -/
def resetKeeping (s : State) : State :=
  { State.reset with
    agenda := s.agenda, tick := s.tick, regs := { State.reset.regs with capHead := s.regs.capHead, caps := s.regs.caps },
    hostMem := s.hostMem, fwVersion := s.fwVersion, fwKey := s.fwKey, fwDigest := s.fwDigest, fwNext := s.fwNext, replies := s.replies,
    frames := s.frames, hostOut := s.hostOut, peerOut := s.peerOut }

def setBoot (s : State) (code : Nat) : State := { s with regs := { s.regs with bootStat := code } }

/-- The verification of an image before it runs: the signing key has the fused digest, its signature verifies, and the version is not lower (R418). -/
def imageOk (s : State) (f : FwImage) : Bool := sha256 f.key == s.fwKey && signedBy f.key f.sig f.image && s.fwVersion ≤ f.ver

/-- The boot ROM's work: the firmware that is there goes on, a new image runs once it is verified, and a refused one holds the device in RECOVERY. -/
def bootImage (s : State) : State :=
  match s.fwNext with
  | none => setBoot s 3
  | some f => if imageOk s f then setBoot { s with fwDigest := sha256 f.image, fwNext := none } 3 else setBoot s 2

/-- The next stage of a cold reset, in the order of `BOOT_STAT` (R419, R421): OFF, ROM, HBM training, clearing, READY. -/
def bootStep (s : State) : State :=
  match s.regs.bootStat with
  | 0 => setBoot s 1
  | 1 => bootImage s
  | 3 => setBoot s 4
  | 4 => setBoot s 5
  | _ => s

/-- COLD_RESET: the device is OFF, with nothing kept but what outlives its power; its stages follow as steps of their own. -/
def execColdReset (s : State) : Out := .next (setBoot (resetKeeping s) 0)

/-- FUNCTION_LEVEL_RESET: every context ends as END does, every slot is erased, and bindings, windows and `HA_MAP` are clear; memory is kept. -/
def functionReset (s : State) : State :=
  let s1 := ((s.ctxs.filter (fun e => e.2.st != .free && e.2.st != .ending)).map (·.1)).foldl endContext s
  { s1 with keys := [], regs := { s1.regs with ncBind := [], ncSeq := [], win := [], haMap := [] } }
def execFunctionLevelReset (s : State) : Out := .next (functionReset s)

end Sys2Proof.Machine
end

