-- ==== Sys2Proof/Machine/Dispatch.lean ====
section
/-!
DEFINITION. The dispatch of every instruction, word or event, to its meaning.
-/

namespace Sys2Proof.Machine

def exec (i : Instr) (s : State) : Host.Outcome State Fault Refusal :=
  match i with
  | .iadd f => Sys2Proof.Machine.execIadd f s
  | .iaddI f => Sys2Proof.Machine.execIaddI f s
  | .isub f => Sys2Proof.Machine.execIsub f s
  | .isubI f => Sys2Proof.Machine.execIsubI f s
  | .imul f => Sys2Proof.Machine.execImul f s
  | .imulI f => Sys2Proof.Machine.execImulI f s
  | .imulh f => Sys2Proof.Machine.execImulh f s
  | .imulhI f => Sys2Proof.Machine.execImulhI f s
  | .imad f => Sys2Proof.Machine.execImad f s
  | .imadI f => Sys2Proof.Machine.execImadI f s
  | .imin f => Sys2Proof.Machine.execImin f s
  | .iminI f => Sys2Proof.Machine.execIminI f s
  | .imax f => Sys2Proof.Machine.execImax f s
  | .imaxI f => Sys2Proof.Machine.execImaxI f s
  | .iabs f => Sys2Proof.Machine.execIabs f s
  | .iabsI f => Sys2Proof.Machine.execIabsI f s
  | .and f => Sys2Proof.Machine.execAnd f s
  | .andI f => Sys2Proof.Machine.execAndI f s
  | .or f => Sys2Proof.Machine.execOr f s
  | .orI f => Sys2Proof.Machine.execOrI f s
  | .xor f => Sys2Proof.Machine.execXor f s
  | .xorI f => Sys2Proof.Machine.execXorI f s
  | .andn f => Sys2Proof.Machine.execAndn f s
  | .andnI f => Sys2Proof.Machine.execAndnI f s
  | .shl f => Sys2Proof.Machine.execShl f s
  | .shlI f => Sys2Proof.Machine.execShlI f s
  | .shr f => Sys2Proof.Machine.execShr f s
  | .shrI f => Sys2Proof.Machine.execShrI f s
  | .sar f => Sys2Proof.Machine.execSar f s
  | .sarI f => Sys2Proof.Machine.execSarI f s
  | .popc f => Sys2Proof.Machine.execPopc f s
  | .popcI f => Sys2Proof.Machine.execPopcI f s
  | .clz f => Sys2Proof.Machine.execClz f s
  | .clzI f => Sys2Proof.Machine.execClzI f s
  | .bfx f => Sys2Proof.Machine.execBfx f s
  | .bfxI f => Sys2Proof.Machine.execBfxI f s
  | .bfi f => Sys2Proof.Machine.execBfi f s
  | .bfiI f => Sys2Proof.Machine.execBfiI f s
  | .lea f => Sys2Proof.Machine.execLea f s
  | .leaI f => Sys2Proof.Machine.execLeaI f s
  | .fadd f => Sys2Proof.Machine.execFadd f s
  | .faddI f => Sys2Proof.Machine.execFaddI f s
  | .fsub f => Sys2Proof.Machine.execFsub f s
  | .fsubI f => Sys2Proof.Machine.execFsubI f s
  | .fmul f => Sys2Proof.Machine.execFmul f s
  | .fmulI f => Sys2Proof.Machine.execFmulI f s
  | .ffma f => Sys2Proof.Machine.execFfma f s
  | .ffmaI f => Sys2Proof.Machine.execFfmaI f s
  | .fmin f => Sys2Proof.Machine.execFmin f s
  | .fminI f => Sys2Proof.Machine.execFminI f s
  | .fmax f => Sys2Proof.Machine.execFmax f s
  | .fmaxI f => Sys2Proof.Machine.execFmaxI f s
  | .fabs f => Sys2Proof.Machine.execFabs f s
  | .fabsI f => Sys2Proof.Machine.execFabsI f s
  | .fneg f => Sys2Proof.Machine.execFneg f s
  | .fnegI f => Sys2Proof.Machine.execFnegI f s
  | .frnd f => Sys2Proof.Machine.execFrnd f s
  | .frndI f => Sys2Proof.Machine.execFrndI f s
  | .frcp f => Sys2Proof.Machine.execFrcp f s
  | .frcpI f => Sys2Proof.Machine.execFrcpI f s
  | .frsq f => Sys2Proof.Machine.execFrsq f s
  | .frsqI f => Sys2Proof.Machine.execFrsqI f s
  | .fsqrt f => Sys2Proof.Machine.execFsqrt f s
  | .fsqrtI f => Sys2Proof.Machine.execFsqrtI f s
  | .fexp2 f => Sys2Proof.Machine.execFexp2 f s
  | .fexp2I f => Sys2Proof.Machine.execFexp2I f s
  | .flog2 f => Sys2Proof.Machine.execFlog2 f s
  | .flog2I f => Sys2Proof.Machine.execFlog2I f s
  | .ftanh f => Sys2Proof.Machine.execFtanh f s
  | .ftanhI f => Sys2Proof.Machine.execFtanhI f s
  | .icmp f => Sys2Proof.Machine.execIcmp f s
  | .icmpI f => Sys2Proof.Machine.execIcmpI f s
  | .fcmp f => Sys2Proof.Machine.execFcmp f s
  | .fcmpI f => Sys2Proof.Machine.execFcmpI f s
  | .sel f => Sys2Proof.Machine.execSel f s
  | .selI f => Sys2Proof.Machine.execSelI f s
  | .mop f => Sys2Proof.Machine.execMop f s
  | .mopI f => Sys2Proof.Machine.execMopI f s
  | .mcnt f => Sys2Proof.Machine.execMcnt f s
  | .mcntI f => Sys2Proof.Machine.execMcntI f s
  | .mmov f => Sys2Proof.Machine.execMmov f s
  | .mmovI f => Sys2Proof.Machine.execMmovI f s
  | .cvt f => Sys2Proof.Machine.execCvt f s
  | .pack f => Sys2Proof.Machine.execPack f s
  | .qnt f => Sys2Proof.Machine.execQnt f s
  | .qntScl f => Sys2Proof.Machine.execQntScl f s
  | .dqnt f => Sys2Proof.Machine.execDqnt f s
  | .xperm f => Sys2Proof.Machine.execXperm f s
  | .ptld f => Sys2Proof.Machine.execPtld f s
  | .shfl f => Sys2Proof.Machine.execShfl f s
  | .red f => Sys2Proof.Machine.execRed f s
  | .scan f => Sys2Proof.Machine.execScan f s
  | .rxa n => Sys2Proof.Machine.execRxa n s
  | .rxr n => Sys2Proof.Machine.execRxr n s
  | .srd d sr => Sys2Proof.Machine.execSrd d sr s
  | .swr a sr => Sys2Proof.Machine.execSwr a sr s
  | .ld f => Sys2Proof.Machine.execLd f s
  | .st f => Sys2Proof.Machine.execSt f s
  | .ldsh f => Sys2Proof.Machine.execLdsh f s
  | .stsh f => Sys2Proof.Machine.execStsh f s
  | .ldc f => Sys2Proof.Machine.execLdc f s
  | .prf f => Sys2Proof.Machine.execPrf f s
  | .cpy a => Sys2Proof.Machine.execCpy a s
  | .drain d mem => Sys2Proof.Machine.execDrain d mem s
  | .amo f => Sys2Proof.Machine.execAmo f s
  | .cas f => Sys2Proof.Machine.execCas f s
  | .redo f => Sys2Proof.Machine.execRedo f s
  | .fence sc o => Sys2Proof.Machine.execFence sc o s
  | .rflush d => Sys2Proof.Machine.execRflush d s
  | .tbegin => Sys2Proof.Machine.execTbegin s
  | .tend => Sys2Proof.Machine.execTend s
  | .retry => Sys2Proof.Machine.execRetry s
  | .otherwise off => Sys2Proof.Machine.execOtherwise off s
  | .tabort => Sys2Proof.Machine.execTabort s
  | .qbind a q => Sys2Proof.Machine.execQbind a q s
  | .qbindFree q => Sys2Proof.Machine.execQbindFree q s
  | .put d a q => Sys2Proof.Machine.execPut d a q s
  | .get d q => Sys2Proof.Machine.execGet d q s
  | .qcnt d q => Sys2Proof.Machine.execQcnt d q s
  | .chload d a => Sys2Proof.Machine.execChload d a s
  | .chfold d => Sys2Proof.Machine.execChfold d s
  | .chspread d => Sys2Proof.Machine.execChspread d s
  | .binit a n => Sys2Proof.Machine.execBinit a n s
  | .barv r sc d a n => Sys2Proof.Machine.execBarv r sc d a n s
  | .bwait sc d a => Sys2Proof.Machine.execBwait sc d a s
  | .btest d a => Sys2Proof.Machine.execBtest d a s
  | .mxacq d z => Sys2Proof.Machine.execMxacq d z s
  | .mxrel drop z => Sys2Proof.Machine.execMxrel drop z s
  | .mxiss d a => Sys2Proof.Machine.execMxiss d a s
  | .mxrank d z => Sys2Proof.Machine.execMxrank d z s
  | .mxrankSet d a z => Sys2Proof.Machine.execMxrankSet d a z s
  | .mxrd p d a z => Sys2Proof.Machine.execMxrd p d a z s
  | .mxwr p d a z => Sys2Proof.Machine.execMxwr p d a z s
  | .fcfg nocache d a n => Sys2Proof.Machine.execFcfg nocache d a n s
  | .fcfgRestore nocache d a n => Sys2Proof.Machine.execFcfgRestore nocache d a n s
  | .frun d a => Sys2Proof.Machine.execFrun d a s
  | .fconst d a n i1 => Sys2Proof.Machine.execFconst d a n i1 s
  | .fstopKill d n => Sys2Proof.Machine.execFstopKill d n s
  | .fstopSave d a n => Sys2Proof.Machine.execFstopSave d a n s
  | .fstopUnload d n => Sys2Proof.Machine.execFstopUnload d n s
  | .fstat d n => Sys2Proof.Machine.execFstat d n s
  | .launch d a r => Sys2Proof.Machine.execLaunch d a r s
  | .coll d a => Sys2Proof.Machine.execColl d a s
  | .eret next => Sys2Proof.Machine.execEret next s
  | .tlbiPage d a c => Sys2Proof.Machine.execTlbiPage d a c s
  | .tlbiCtx d c => Sys2Proof.Machine.execTlbiCtx d c s
  | .tlbiAll d => Sys2Proof.Machine.execTlbiAll d s
  | .bra msk prio off => Sys2Proof.Machine.execBra msk prio off s
  | .brm cond msk prio off => Sys2Proof.Machine.execBrm cond msk prio off s
  | .call msk prio off => Sys2Proof.Machine.execCall msk prio off s
  | .calli msk r => Sys2Proof.Machine.execCalli msk r s
  | .ret msk => Sys2Proof.Machine.execRet msk s
  | .exit msk => Sys2Proof.Machine.execExit msk s
  | .yield msk => Sys2Proof.Machine.execYield msk s
  | .trap msk n => Sys2Proof.Machine.execTrap msk n s
  | .brk msk n => Sys2Proof.Machine.execBrk msk n s
  | .trl y f q prio n0 n1 n2 n3 => Sys2Proof.Machine.execTrl y f q prio n0 n1 n2 n3 s
  | .unassignedWord w => Sys2Proof.Machine.execUnassignedWord w s
  | .illegalWord w => Sys2Proof.Machine.execIllegalWord w s
  | .seqLi rd imm => Sys2Proof.Machine.execSeqLi rd imm s
  | .seqAdd rd ra rb => Sys2Proof.Machine.execSeqAdd rd ra rb s
  | .seqAddi rd ra imm => Sys2Proof.Machine.execSeqAddi rd ra imm s
  | .seqSub rd ra rb => Sys2Proof.Machine.execSeqSub rd ra rb s
  | .seqShl rd ra rb => Sys2Proof.Machine.execSeqShl rd ra rb s
  | .seqShr rd ra rb => Sys2Proof.Machine.execSeqShr rd ra rb s
  | .seqAnd rd ra rb => Sys2Proof.Machine.execSeqAnd rd ra rb s
  | .seqOr rd ra rb => Sys2Proof.Machine.execSeqOr rd ra rb s
  | .seqBeq ra rb off => Sys2Proof.Machine.execSeqBeq ra rb off s
  | .seqBne ra rb off => Sys2Proof.Machine.execSeqBne ra rb off s
  | .seqBlt ra rb off => Sys2Proof.Machine.execSeqBlt ra rb off s
  | .seqJ off => Sys2Proof.Machine.execSeqJ off s
  | .seqArg rd n => Sys2Proof.Machine.execSeqArg rd n s
  | .seqRec ra rb ovr => Sys2Proof.Machine.execSeqRec ra rb ovr s
  | .seqPwait ra => Sys2Proof.Machine.execSeqPwait ra s
  | .seqCnst ra i1 => Sys2Proof.Machine.execSeqCnst ra i1 s
  | .seqArrv ra n => Sys2Proof.Machine.execSeqArrv ra n s
  | .seqEvt ra => Sys2Proof.Machine.execSeqEvt ra s
  | .seqHalt => Sys2Proof.Machine.execSeqHalt s
  | .seqWaitEnd cmp => Sys2Proof.Machine.execSeqWaitEnd cmp s
  | .classVResultReturn g tag => Sys2Proof.Machine.execClassVResultReturn g tag s
  | .placement g => Sys2Proof.Machine.execPlacement g s
  | .selection g => Sys2Proof.Machine.execSelection g s
  | .wake g => Sys2Proof.Machine.execWake g s
  | .txConflict g => Sys2Proof.Machine.execTxConflict g s
  | .compatRound team => Sys2Proof.Machine.execCompatRound team s
  | .budgetExhaustion g => Sys2Proof.Machine.execBudgetExhaustion g s
  | .groupStop g => Sys2Proof.Machine.execGroupStop g s
  | .ywaitExpiry ctx => Sys2Proof.Machine.execYwaitExpiry ctx s
  | .groupRestore ctx rec g => Sys2Proof.Machine.execGroupRestore ctx rec g s
  | .copyComplete id => Sys2Proof.Machine.execCopyComplete id s
  | .partialStaged idx => Sys2Proof.Machine.execPartialStaged idx s
  | .kernelSettled grid => Sys2Proof.Machine.execKernelSettled grid s
  | .barrierArrival pa n src => Sys2Proof.Machine.execBarrierArrival pa n src s
  | .chainFold id => Sys2Proof.Machine.execChainFold id s
  | .chainSpread id => Sys2Proof.Machine.execChainSpread id s
  | .tileZero core => Sys2Proof.Machine.execTileZero core s
  | .tileMma core => Sys2Proof.Machine.execTileMma core s
  | .tileAdd core => Sys2Proof.Machine.execTileAdd core s
  | .tileMul core => Sys2Proof.Machine.execTileMul core s
  | .tileRcmp core => Sys2Proof.Machine.execTileRcmp core s
  | .tileDns core => Sys2Proof.Machine.execTileDns core s
  | .tileLdt core => Sys2Proof.Machine.execTileLdt core s
  | .tileStt core => Sys2Proof.Machine.execTileStt core s
  | .tileScl core => Sys2Proof.Machine.execTileScl core s
  | .engineEntryReentry team => Sys2Proof.Machine.execEngineEntryReentry team s
  | .configLoadComplete cmp => Sys2Proof.Machine.execConfigLoadComplete cmp s
  | .compartmentRestoreDone cmp => Sys2Proof.Machine.execCompartmentRestoreDone cmp s
  | .saveComplete cmp => Sys2Proof.Machine.execSaveComplete cmp s
  | .unitFire cmp node => Sys2Proof.Machine.execUnitFire cmp node s
  | .islandDot cmp node => Sys2Proof.Machine.execIslandDot cmp node s
  | .stallTimeout cmp => Sys2Proof.Machine.execStallTimeout cmp s
  | .sluiceReadElement cmp slc => Sys2Proof.Machine.execSluiceReadElement cmp slc s
  | .sluiceWriteToken cmp slc => Sys2Proof.Machine.execSluiceWriteToken cmp slc s
  | .graphCompletion cmp => Sys2Proof.Machine.execGraphCompletion cmp s
  | .slResume stack => Sys2Proof.Machine.execSlResume stack s
  | .faultRecordPush ctx => Sys2Proof.Machine.execFaultRecordPush ctx s
  | .dispatcherPop ctx lq => Sys2Proof.Machine.execDispatcherPop ctx lq s
  | .clusterPlacement grid die slot => Sys2Proof.Machine.execClusterPlacement grid die slot s
  | .steal grid die slot => Sys2Proof.Machine.execSteal grid die slot s
  | .homeService stack => Sys2Proof.Machine.execHomeService stack s
  | .latencyBoundExpiry stack => Sys2Proof.Machine.execLatencyBoundExpiry stack s
  | .ctxCreate => Sys2Proof.Machine.execCtxCreate s
  | .ctxHalt => Sys2Proof.Machine.execCtxHalt s
  | .ctxResume => Sys2Proof.Machine.execCtxResume s
  | .ctxSave => Sys2Proof.Machine.execCtxSave s
  | .contextSaved ctx => Sys2Proof.Machine.execContextSaved ctx s
  | .ctxRestore => Sys2Proof.Machine.execCtxRestore s
  | .contextRestored ctx => Sys2Proof.Machine.execContextRestored ctx s
  | .ctxEnd => Sys2Proof.Machine.execCtxEnd s
  | .contextEnded ctx => Sys2Proof.Machine.execContextEnded ctx s
  | .trapCmdResume => Sys2Proof.Machine.execTrapCmdResume s
  | .trapCmdSkip => Sys2Proof.Machine.execTrapCmdSkip s
  | .trapCmdReflect => Sys2Proof.Machine.execTrapCmdReflect s
  | .trapCmdTerminate => Sys2Proof.Machine.execTrapCmdTerminate s
  | .grant stack => Sys2Proof.Machine.execGrant stack s
  | .withdraw stack => Sys2Proof.Machine.execWithdraw stack s
  | .cpStorePlain stack => Sys2Proof.Machine.execCpStorePlain stack s
  | .cpStoreCompressed stack => Sys2Proof.Machine.execCpStoreCompressed stack s
  | .keyLoad => Sys2Proof.Machine.execKeyLoad s
  | .keyLoadPlain => Sys2Proof.Machine.execKeyLoadPlain s
  | .keyErase => Sys2Proof.Machine.execKeyErase s
  | .linkEnable n => Sys2Proof.Machine.execLinkEnable n s
  | .linkDisable n => Sys2Proof.Machine.execLinkDisable n s
  | .linkTrained n lanes peer => Sys2Proof.Machine.execLinkTrained n lanes peer s
  | .trainingFailed n => Sys2Proof.Machine.execTrainingFailed n s
  | .errorBurst n => Sys2Proof.Machine.execErrorBurst n s
  | .flitReceive n flit => Sys2Proof.Machine.execFlitReceive n flit s
  | .nakReplay n seq => Sys2Proof.Machine.execNakReplay n seq s
  | .transferComplete id outcome fresh => Sys2Proof.Machine.execTransferComplete id outcome fresh s
  | .peerAccess n op => Sys2Proof.Machine.execPeerAccess n op s
  | .collRankComplete id => Sys2Proof.Machine.execCollRankComplete id s
  | .frameReceive port frame => Sys2Proof.Machine.execFrameReceive port frame s
  | .netTransmit port => Sys2Proof.Machine.execNetTransmit port s
  | .ncBindWrite b val => Sys2Proof.Machine.execNcBindWrite b val s
  | .hostMemAccess op => Sys2Proof.Machine.execHostMemAccess op s
  | .mctpRegisterAccess pa val => Sys2Proof.Machine.execMctpRegisterAccess pa val s
  | .pldmSensors => Sys2Proof.Machine.execPldmSensors s
  | .pldmFirmwareUpdate image ver auth => Sys2Proof.Machine.execPldmFirmwareUpdate image ver auth s
  | .getMeasurements idx => Sys2Proof.Machine.execGetMeasurements idx s
  | .statusClear ag pa val => Sys2Proof.Machine.execStatusClear ag pa val s
  | .registerWrite ag pa val => Sys2Proof.Machine.execRegisterWrite ag pa val s
  | .uncorrectableError pl => Sys2Proof.Machine.execUncorrectableError pl s
  | .correctedError stack => Sys2Proof.Machine.execCorrectedError stack s
  | .securityAlarm which => Sys2Proof.Machine.execSecurityAlarm which s
  | .coldReset => Sys2Proof.Machine.execColdReset s
  | .functionLevelReset => Sys2Proof.Machine.execFunctionLevelReset s
  | .securedSession ag key => Sys2Proof.Machine.execSecuredSession ag key s

end Sys2Proof.Machine
end

