-- ==== Sys2Proof/Machine/Schedule.lean ====
section
/-!
DEFINITION. Who moves next (log 1): what each action of the agenda does, the fetch of words (R51, R331), the passing of time (R342, R345, R304), the
device in RECOVERY (R418), the schedule of an empty agenda, and the placing of one word for the next step to fetch.
-/

namespace Sys2Proof.Machine

-- ===== words of a group =====

/-- The counter of free values after a fetch: it advances where the fetch had a choice (R52). -/
def fetchTick (s : State) (x : Group) (pc : BitVec 64) : Nat :=
  match checkAddr s x.ctx x.sup .exec false pc 8 with
  | .error _ => s.tick
  | .ok a => if hWord s a.key a.pa = snapWord s x a.key a.pa then s.tick else s.tick + 1

/-- The group stands at a word that it may issue now. -/
def mayIssue (s : State) (x : Group) : Bool :=
  let c := s.ctxs.get x.ctx
  !x.stopWait && (c.st == .active || (c.st == .saving && !c.wasHalted && !ywaitOver s c))

/-- A group that stops being issued keeps its run (R362). -/
def leaveIssue (s : State) (g : Nat) : State := s.updGrp g (fun x => { x with life := .ready })

/-- A poisoned word that comes from another die marks the boundaries on its way (R391). -/
def fetchSeen (s : State) (g : Nat) (x : Group) (pc : BitVec 64) : State :=
  match checkAddr s x.ctx x.sup .exec false pc 8 with
  | .error _ => s
  | .ok a => arrives s (instOf g 2) a.pa 8

/-- The next word of an issuing group: its fetch, and the word's meaning. A trailer that was looked at with the transfer before it is fetched anew (log
9). -/
def runWord (s : State) (g : Nat) : Out :=
  let x := s.grp g
  if x.life != .issuing || x.run.isNone then .next s
  else if exhausted x then exec (.budgetExhaustion g) s
  else if !mayIssue s x then .next (leaveIssue s g)
  else if x.atBoundary && !x.roundDone then .next s
  else match fetchWord s x (runPc x) with
    | .error t => .next (trapOr s (fetchSeen s g x (runPc x)) g t false)
    | .ok w => exec (decodeWord w) { s with cur := .group g, tick := fetchTick s x (runPc x) }

-- ===== words of a sequencer =====

/-- The next word of a sequencer (R331, R333): a failed fetch stalls it, a poisoned word or one that is no instruction abandons the graph. -/
def runSeqWord (s : State) (n : Nat) : Out :=
  if !seqReady s n then .next s
  else match seqRead s n (cmpOf s n).seq.pc 4 with
    | .error t => .next (seqFault s n false t)
    | .ok (bs, poi) =>
      if poi then .next (abandon s n fcPoison)
      else match decodeSeq (BitVec.ofNat 32 (ofBytes bs)) with
        | none => .next (abandon s n fcArg)
        | some i => exec i { s with cur := .seqr n }

-- ===== time =====

/-- One group's budget after `n` arithmetic clocks (R345, R362). -/
def budgetAfter (s : State) (n : Nat) (x : Group) : Group :=
  if x.budgeted && (x.life == .ready || x.life == .issuing || x.life == .parked) && (s.ctxs.get x.ctx).st != .halted then { x with budget := x.budget - n } else x

/-- What a compartment is after an event. -/
def cmpAfter (n : Nat) : Out → Compartment
  | .next t => cmpOf t n
  | _ => {}

/-- A graph in which something can move: a unit, an island, a sluice, the sequencer, or one that waits for a fault to be repaired (R304). -/
def graphMoves (s : State) (n : Nat) : Bool :=
  let c := cmpOf s n
  let moved (o : Out) : Bool := cmpAfter n o != c
  c.seq.stalled || !seqIdle c.seq || c.sl.any (fun e => e.2.stalled) ||
    (List.range c.planes.nodes.length).any (fun i => moved (execUnitFire n i s) || moved (execIslandDot n i s)) ||
    (List.range 32).any (fun i => moved (execSluiceReadElement n i s) || moved (execSluiceWriteToken n i s))

/-- Consecutive quiet clocks of a running graph. -/
def quietAfter (s : State) (k n : Nat) (c : Compartment) : Compartment :=
  if c.st != .running then c else if graphMoves s n then { c with quiet := 0 } else { c with quiet := c.quiet + k }

/-- `n` arithmetic clocks pass; the fabric clock runs at half the rate. -/
def passTime (s : State) (n : Nat) : State :=
  let k := (s.clock + n) / 2 - s.clock / 2
  { s with clock := s.clock + n, groups := s.groups.map (fun e => (e.1, budgetAfter s n e.2)), comps := s.comps.map (fun e => (e.1, quietAfter s k e.1 e.2)) }

-- ===== kept translations (R136, R137) =====

/-- A page's translation is kept: from its own entry, or from the first entry of a contiguity set of `set` entries. A context that is FREE or ENDING
keeps none (R375). -/
def fillTlb (s : State) (ctx vpn set : Nat) : State :=
  let va := BitVec.ofNat 64 (vpn * 65536)
  let c := s.ctxs.get ctx
  let l := if set = 0 then walk s c.root va else if set = 32 || set = 512 then walkSet s c.root va set else none
  match l with
  | some l => if c.st == .free || c.st == .ending then s else { s with tlb := ⟨ctx, vpn, l, true⟩ :: s.tlb }
  | none => s

/-- A kept translation is used by accesses from now on, or not. -/
def setTlb (s : State) (ix : Nat) (on : Bool) : State := { s with tlb := s.tlb.modify ix (fun e => { e with on := on }) }

-- ===== actions =====

/-- In RECOVERY only firmware updates are accepted (R418), and before READY the management port sees the registers alone, which read `BOOT_STAT`
(log 40); a cold reset ends RECOVERY, and the sensors of R420 work. -/
def admitted (s : State) : Action → Bool
  | .event (.securityAlarm ..) => true
  | .event (.pldmFirmwareUpdate ..) => true
  | .event (.mctpRegisterAccess _ none) => s.regs.bootStat != 2
  | .bootStep => true
  | .event .coldReset => true
  | .time _ => true
  | _ => s.regs.bootStat == 5

/-- A row of the table that is no word: it has no encoding. -/
def isEvent (i : Instr) : Bool := (encodeWord i).isNone && (encodeSeq i).isNone

/-- What an action does. A word runs only where its agent fetches it. -/
def runAction (s : State) : Action → Out
  | .event i => if isEvent i then exec i { s with cur := .outside } else .next s
  | .word g => runWord s g
  | .seqWord n => runSeqWord s n
  | .perform g id fill => .next (performId s g id (fill != 0))
  | .pass lvl inst ix => .next (passIx s lvl inst ix)
  | .drop lvl inst ix => .next (dropIx s lvl inst ix)
  | .time n => .next (passTime s n)
  | .tlbFill ctx vpn set => .next (fillTlb s ctx vpn set)
  | .tlbSet ix on => .next (setTlb s ix on)
  | .copyRow id => .next (copyRowAct s id)
  | .switchConst cmp node => .next (switchConst s cmp node)
  | .cacheDrop ix => .next { s with cache := s.cache.eraseIdx ix }
  | .request stack cls cost core => .next (requestArrives s stack cls cost core)
  | .fold c f => .next (holdChain s c f)
  | .flitSend link typ payload => .next (sendFlit s link typ payload)
  | .ack link n => .next (ackFlits s link n)
  | .remoteData v => .next { s with remotes := s.remotes ++ [v] }
  | .bootStep => .next (bootStep s)

def act (s : State) (a : Action) : Out := if admitted s a then runAction s a else .next s

-- ===== the schedule of an empty agenda =====

/-- The dirty entries of an instance could pass, the oldest first. -/
def passMoves (s : State) (lvl inst : Nat) : List Action :=
  ((List.range (ents s lvl inst).length).filter (fun ix => match (ents s lvl inst)[ix]? with | some e => e.dirty | none => false)).reverse.map
    (.pass lvl inst)

/-- What a group could do next. -/
def groupMoves (s : State) (g : Nat) : List Action :=
  let x := s.grp g
  let woken := x.thaw.any (fun w => match w with | .mem l p => hPos s l != p | .pool p => s.poolPos.get (coreOf g) != p | .tiles p => (s.teams.get x.tid).tlPos != p)
  let l : List (List Action) := [[.word g], x.inflight.map (fun f => .event (.classVResultReturn g f.tag)), x.iq.map (fun o => .perform g o.id 0),
    [.event (.placement g), .event (.selection g), .event (.txConflict g), .event (.budgetExhaustion g), .event (.groupStop g)],
    if woken || (x.life == .parked && !x.parkNames.any (pending x)) then [.event (.wake g)] else [], passMoves s 0 g, passMoves s 3 g]
  l.flatten

/-- What a compartment could do next. -/
def compMoves (s : State) (n : Nat) : List Action :=
  let c := cmpOf s n
  let node (i : Nat) : List Action := [.event (.unitFire n i), .event (.islandDot n i), .switchConst n i]
  let slc (i : Nat) : List Action := [.event (.sluiceReadElement n i), .event (.sluiceWriteToken n i)]
  let l : List (List Action) := [[.seqWord n, .event (.seqWaitEnd n), .event (.configLoadComplete n), .event (.compartmentRestoreDone n),
    .event (.saveComplete n), .event (.graphCompletion n)], (List.range c.planes.nodes.length).flatMap node, (List.range 32).flatMap slc,
    [.event (.stallTimeout n)]]
  l.flatten

/-- What a core's engine could do next. -/
def engineMoves (core : Nat) : List Action :=
  [.event (.tileZero core), .event (.tileMma core), .event (.tileAdd core), .event (.tileMul core), .event (.tileRcmp core), .event (.tileDns core),
   .event (.tileLdt core), .event (.tileStt core), .event (.tileScl core)]

/-- What a context could do next. -/
def ctxMoves (s : State) (n : Nat) : List Action :=
  let restore (f : Frozen) : List Action := match (grpRecs s n).findIdx? (· == f.pa) with
    | none => []
    | some r => (freeSlotsOf s (s.teams.get f.x.tid).core).map (fun i => .event (.groupRestore n r (48 * (s.teams.get f.x.tid).core + i)))
  let l : List (List Action) := [[.event (.faultRecordPush n), .event (.dispatcherPop n 0), .event (.dispatcherPop n 1), .event (.dispatcherPop n 2),
    .event (.dispatcherPop n 3), .event (.ywaitExpiry n), .event (.contextSaved n), .event (.contextRestored n), .event (.contextEnded n)],
    (s.frozen.filter (fun f => f.ctx == n)).flatMap restore]
  l.flatten

/-- What a kernel could do next. -/
def kernelMoves (s : State) (k : Kernel) : List Action :=
  let die (d : Nat) : List Action := (List.range (dieSlots s k d).length).map (fun j => .event (.clusterPlacement k.grid (BitVec.ofNat 2 d) j))
  let l : List (List Action) := [(List.range 4).flatMap die, [.event (.kernelSettled k.grid)]]
  l.flatten

/-- Commands that wait. -/
def commandMoves (s : State) : List Action :=
  let ctx : List Instr := if s.regs.ctxPend.isEmpty then [] else [.ctxCreate, .ctxHalt, .ctxResume, .ctxSave, .ctxRestore, .ctxEnd]
  let trap : List Instr := if s.regs.trapPend.isEmpty then [] else [.trapCmdResume, .trapCmdSkip, .trapCmdReflect, .trapCmdTerminate]
  let key : List Instr := if s.regs.keyPend.isEmpty then [] else [.keyLoad, .keyLoadPlain, .keyErase]
  let pl (n : Nat) : List Instr := [.grant n, .withdraw n]
  let mc (n : Nat) : List Instr := [.cpStorePlain n, .cpStoreCompressed n]
  let sl (n : Nat) : Instr := .slResume n
  let l : List (List Instr) := [ctx, trap, key, s.regs.plPend.keys.flatMap pl, s.regs.mcPend.keys.flatMap mc, s.regs.slPend.keys.map sl]
  l.flatten.map .event

/-- Every action of the schedule, in its order. -/
def moves (s : State) : List Action :=
  let chain (e : Nat × Chain) : List Action := if e.2.wants.isEmpty then [] else [.event (.chainFold e.1), .event (.chainSpread e.1)]
  let l : List (List Action) := [[.bootStep], s.groups.keys.flatMap (groupMoves s), s.teams.keys.map (fun t => .event (.compatRound t)),
    s.copies.map (fun c => .event (.copyComplete c.id)), [.event (.partialStaged 0)], s.engines.keys.flatMap engineMoves,
    s.reentry.keys.map (fun t => .event (.engineEntryReentry t)), s.comps.keys.flatMap (compMoves s), s.chains.flatMap chain,
    s.ctxs.keys.flatMap (ctxMoves s), s.kernels.flatMap (kernelMoves s), commandMoves s, s.ranks.map (fun r => .event (.collRankComplete r.id)),
    s.homes.keys.map (fun n => .event (.homeService n)), s.cv.keys.flatMap (passMoves s 1), s.dv.keys.flatMap (passMoves s 2)]
  l.flatten

/-- An action that would change the state. -/
def changes (s : State) (a : Action) : Bool :=
  match act s a with
  | .next t => t != s
  | _ => false

/-- With an empty agenda the first action of the schedule that changes the state takes place; where none does, one clock passes. -/
def defaultAction (s : State) : Action := ((moves s).find? (changes s)).getD (.time 1)

-- ===== placing a word (for one step) =====

/-- The page that a placed word lies in: one page of context 0, mapped onto itself. -/
def bootPage : Nat := 65536

/-- Context 0 ACTIVE with that page readable, writable and executable, under a slot loaded plain. -/
def bootCtx (s : State) : State :=
  { s with ctxs := s.ctxs.set 0 { (s.ctxs.get 0) with st := .active, keybase := 0, keycnt := 1 }, keys := s.keys.set 0 .plain,
           tlb := ⟨0, 1, { pa := bootPage, w := true, x := true, u := true }, true⟩ :: s.tlb }

/-- A group in slot 0 of core 0 that issues at the page's first word. -/
def bootGroup : Group :=
  { life := .issuing, ctx := 0, tid := 1, run := some { ent := { pc := 65536, mask := 0xFFFFFFFF }, pc := 65536 } }

/-- A running graph whose sequencer stands at the page's first word. -/
def bootComp : Compartment := { rect := some (0, 0, 1, 1), grant := 0, st := .running, seq := { pc := 65536, on := true } }

/-- A plain trailer. -/
def plainTrl : BitVec 64 := (encodeWord (.trl false false false 0 none none none none)).getD 0

/-- Where the agenda's next word is fetched: key index and physical address. -/
def fetchPlace (s : State) : Option (Nat × Nat) :=
  match s.agenda with
  | .word g :: _ =>
    let x := s.grp g
    if x.life != .issuing || x.run.isNone || exhausted x || !mayIssue s x || (x.atBoundary && !x.roundDone) then none
    else match checkAddr s x.ctx x.sup .exec false (runPc x) 8 with
      | .ok a => some (a.key, a.pa)
      | .error _ => none
  | .seqWord n :: _ =>
    if !seqReady s n then none
    else match checkAddr s (cmpOf s n).grant (cmpOf s n).sup .load false (cmpOf s n).seq.pc 4 with
      | .ok a => some (a.key, a.pa)
      | .error _ => none
  | _ => none

/-- The agenda's next step is a group's word, or a sequencer's. -/
def nextIsWord (s : State) (seq : Bool) : Bool :=
  match s.agenda with
  | .word _ :: _ => !seq
  | .seqWord _ :: _ => seq
  | _ => false

/-- A word of the cores or of a sequencer placed for the very next step: where that step would fetch already, else at the boot page, whose group or
sequencer moves next. -/
def placeWord (s : State) (seq : Bool) (bs : List Byte) : State :=
  match nextIsWord s seq, fetchPlace s with
  | true, some (key, pa) => hWriteSpan s key pa bs false
  | _, _ =>
    let s1 := hWriteSpan (hWriteSpan (bootCtx s) 0 bootPage bs false) 0 (bootPage + 8) (toBytes 8 plainTrl.toNat) false
    if seq then { s1 with comps := s1.comps.set 0 bootComp, agenda := [.seqWord 0] } else { s1 with groups := s1.groups.set 0 bootGroup, agenda := [.word 0] }

end Sys2Proof.Machine
end

