-- ==== Sys2Proof/Machine/Step.lean ====
section
/-!
DEFINITION. One step of the device: the agenda's next action (log 1), and the placing of a word for the next step.
-/

namespace Sys2Proof.Machine

/-- One step: the head of the agenda, or the schedule's own action where the agenda is empty. -/
def step (s : State) : Host.Outcome State Fault Refusal :=
  match s.agenda with
  | a :: r => act { s with agenda := r } a
  | [] => act s (defaultAction s)

/-- The state with an instruction of `nbits` bits placed where the next step fetches it. -/
def State.withFetchWord (s : State) (nbits w : Nat) : State :=
  if nbits = 64 then placeWord s false (toBytes 8 w) else if nbits = 32 then placeWord s true (toBytes 4 w) else s

end Sys2Proof.Machine
end

