-- ==== Sys2Proof/WellFormed.lean ====
section
/-!
DEFINITION. What a well-formed instruction is: its fields are ones that some word encodes. The rules for the fields of a word stand in
`fieldRules` (Decode.lean); the rest is here: a trailer's names cannot be v[s63], whose code 0x1FF means none (R58); a word that is no
instruction is UNASSIGNED or ILLEGAL as R74 says; an ARRV has a weight (R333).
-/

namespace Sys2Proof

/-- A publish name that a trailer can encode (R58). -/
def nameOk : Option Opd → Bool
  | some (.ind 63) => false
  | _ => true

/-- A well-formed instruction word, sequencer word or event. -/
def Instr.wf : Instr → Bool
  | .trl _ _ _ _ n0 n1 n2 n3 => nameOk n0 && nameOk n1 && nameOk n2 && nameOk n3
  | .unassignedWord w => decodeWord w == .unassignedWord w
  | .illegalWord w => w.extractLsb' 57 7 == 0
  | .qnt f => fieldRules (.qnt f)
  | .seqArrv _ n => n != 0
  | i => fieldRules i

/-- The same as a proposition. -/
abbrev WellFormed (i : Instr) : Prop := i.wf = true

end Sys2Proof
end

