-- ==== Sys2Proof/Safety.lean ====
section
/-!
DEFINITION. What counts as a safe run, and the words that the statements use: a step that goes on, a word that has passed its checks, and what a
frame leaves alone.
-/

namespace Sys2Proof.Machine

/-- A step that goes on: no fault, no refusal. -/
def GoesOn (s : State) : Prop := ∃ t, step s = .next t

/-- The word `i` of group `g` passes every check of R75: the group issues, and the word is neither misplaced, unassigned, illegal, privileged beyond
its level, nor names a register that it may not read or write now. -/
def Runs (s : State) (g : Nat) (i : Instr) : Prop := issuer s = some g ∧ precheck s g i = .ok

/-- Every byte of memory, and of every shared store, reads as before, for every group, under every key, from every level of its path. -/
def MemSame (s t : State) : Prop :=
  (∀ g key pa start ign, findByte t g key pa start ign = findByte s g key pa start ign) ∧
  (∀ tid o, (t.teams.get tid).sh.get o = (s.teams.get tid).sh.get o)

/-- Nothing differs but one group, and the model's own counters of identities and free values. -/
def OnlyGroup (s t : State) (g : Nat) : Prop :=
  t = { s with groups := t.groups, tick := t.tick, nextId := t.nextId } ∧ ∀ k, k ≠ g → t.grp k = s.grp k

/-- Of a group nothing differs but its v, s and m registers, temporaries and hazards of the run, results in flight, stochastic states, the sticky
flags of FPMODE and the position of the run. -/
def OnlyRegs (x y : Group) : Prop :=
  y = { x with v := y.v, s := y.s, m := y.m, rng := y.rng, run := y.run, inflight := y.inflight, spr := { x.spr with fpmode := y.spr.fpmode } } ∧
  y.spr.fpmode &&& ~~~0x1F#64 = x.spr.fpmode &&& ~~~0x1F#64

/-- The run goes on with the next word: the pc is 8 higher and the word position one higher; the entry and a decided transfer are as they were. -/
def NextWord (x y : Group) : Prop :=
  runPc y = runPc x + 8 ∧ (runState y).pos = (runState x).pos + 1 ∧ runEnt y = runEnt x ∧ (runState y).xfer = (runState x).xfer ∧ y.life = x.life

/-- Every register but the one that an operand reaches is as before, in every lane. -/
def OthersSame (x y : Group) (d : Opd) : Prop := ∀ c l, c < 0x14C → l < 32 → c ≠ opCode x d → rget y c l = rget x c l

/-- The sub-elements of a register lane. -/
def subAt (x : Group) (c l w i : Nat) : Nat := subOf w i (rget x c l).val.toNat

/-- A destination temporary that the run has not written yet (R68). -/
def fresh (x : Group) (d : Opd) : Bool :=
  match d with
  | .k n => !(runState x).tdef.getLsbD n.toNat
  | _ => false

/-- What a masked word writes to its destination (R62, R63, R108, R109): in each lane of `ls` the sub-elements `is` take their values and the others
keep theirs; the lane is poisoned when a source was, or when it keeps part of a poisoned content. Other lanes keep everything. (What the first write
of a temporary leaves unwritten is free, R68.) -/
def Wrote (x y : Group) (d : Opd) (shp : Shape) (ls is : List Nat) (val : Nat → Nat → Nat) (poi : Nat → Bool) : Prop :=
  (∀ l ∈ ls, (∀ i ∈ is, subAt y (opCode x d) l shp.width i = val l i) ∧
    (∀ i < shp.count, i ∉ is → fresh x d = false → subAt y (opCode x d) l shp.width i = subAt x (opCode x d) l shp.width i) ∧
    (rget y (opCode x d) l).poi = (poi l || ((rget x (opCode x d) l).poi && !fresh x d && is.length < shp.count))) ∧
  ∀ l < 32, l ∉ ls → (ls = [] ∨ (opIsS d = false ∧ fresh x d = false)) → rget y (opCode x d) l = rget x (opCode x d) l

/-- Flags together. -/
def orAll (fs : List (BitVec 5)) : BitVec 5 := fs.foldl (· ||| ·) 0

/-- The sticky flags gain those of every computed sub-element (R44). -/
def NewFlags (x y : Group) (ls is : List Nat) (flg : Nat → Nat → BitVec 5) : Prop :=
  y.spr.fpmode = x.spr.fpmode ||| (orAll (ls.flatMap (fun l => is.map (flg l)))).setWidth 64

/-- A poisoned lane raises no flags (R44). -/
def unlessPoi (poi : Nat → Bool) (flg : Nat → Nat → BitVec 5) (l i : Nat) : BitVec 5 := if poi l then 0 else flg l i

/-- The run's hazards, the masks and the results in flight are as before, and of the temporaries the destination alone may be newly written. -/
def RunKept (x y : Group) (d : Opd) : Prop :=
  (runState y).hazard = (runState x).hazard ∧ y.m = x.m ∧ y.inflight = x.inflight ∧
  ∀ n, n < 4 → 0x140 + n ≠ d.code.toNat → (runState y).tdef.getLsbD n = (runState x).tdef.getLsbD n

/-- The stochastic state of a lane after `n` draws (R38). -/
def nthRng : Nat → BitVec 32 → BitVec 32
  | 0, r => r
  | n + 1, r => xorshift32 (nthRng n r)

/-- What a class-F word did to its group: destination, flags and stochastic states as given, the next word, and nothing else. -/
def DidF (x y : Group) (d : Opd) (shp : Shape) (ls is : List Nat) (val : Nat → Nat → Nat) (flg : Nat → Nat → BitVec 5) (poi : Nat → Bool)
    (draws : Nat) : Prop :=
  OnlyRegs x y ∧ OthersSame x y d ∧ NextWord x y ∧ RunKept x y d ∧ Wrote x y d shp ls is val poi ∧ NewFlags x y ls is flg ∧
  ∀ l < 32, rngOf y l = if l ∈ ls then nthRng draws (rngOf x l) else rngOf x l

/-- A class-F word completes with these results (R66). -/
def CompletesF (s : State) (g : Nat) (i : Instr) (d : Opd) (shp : Shape) (ls is : List Nat) (val : Nat → Nat → Nat) (flg : Nat → Nat → BitVec 5)
    (poi : Nat → Bool) (draws : Nat) : Prop :=
  ∃ t, exec i s = .next t ∧ OnlyGroup s t g ∧ DidF (s.grp g) (t.grp g) d shp ls is val flg poi draws

/-- Every queued operation of the group has performed and every result in flight has returned: the state in which a trap is taken (R70, log 7). -/
def settled (s : State) (g : Nat) : State := returnAll (performAll s g) g

/-- Every result in flight of the group can return now, so that a trap need not wait. -/
def CanSettle (s : State) (g : Nat) : Prop := allReady (performAll s g) g = true

/-- TRAP_CAUSE as its fields (R380). -/
def causeFields (ih esc : Bool) (code : Nat) : BitVec 64 := BitVec.ofNat 64 ((if ih then 512 else 0) + (if esc then 256 else 0) + code % 256)

/-- From `s` to `t` the group has entered its handler with a cause and an address (R378): the trap registers are written and IH is set, the trapping
entry's state is kept, and the handler's entry issues at U_VEC with priority 0xFFF, at the trapping depth, with the active lanes. -/
def HandlerEntered (s t : State) (g cause : Nat) (addr : BitVec 64) (trl : Bool) : Prop :=
  let x := s.grp g
  t = s.setGrp g { x with
    spr := { x.spr with trapCause := causeFields true (x.spr.trapCause.getLsbD 8) cause, trapPc := runPc x, trapAddr := addr },
    trapS := some { pc := runPc x, prio := (runEnt x).prio, depth := (runEnt x).depth, lanes := active x, rs := runState x, trl := trl },
    run := some { ent := { pc := x.spr.uvec, prio := 0xFFF, depth := (runEnt x).depth, mask := active x }, pc := x.spr.uvec, rs := {} },
    life := .issuing }

/-- The EMU registers (R76). -/
def emuOf (x : Group) : List (BitVec 64) := [x.spr.emuWord, x.spr.emuD, x.spr.emuA, x.spr.emuB, x.spr.emuC, x.spr.emuImm, x.spr.emuShp]

/-- The last fault record that a context holds back is the one of kind 5 for this trap (R381, R389). -/
def TrapRecorded (s t : State) (g cause : Nat) (esc : Bool) (addr pc : BitVec 64) : Prop :=
  (t.ctxs.get (s.grp g).ctx).frecs = (s.ctxs.get (s.grp g).ctx).frecs ++
    [recordBytes (BitVec.ofNat 64 (5 + 2 ^ 8 * cause + (if esc then 2 ^ 16 else 0) + 2 ^ 17 * (g / 48) + 2 ^ 26 * (g % 48 / 12) + 2 ^ 28 * (g % 12))) addr pc
      (BitVec.ofNat 64 (s.clock * 10 / 36))]

-- ===== operands of the arithmetic families =====

/-- The sub-elements that result sub-element `i` of lane `l` reads in a format-A word (R63, R108). -/
def srcA (x : Group) (f : FmtA) (l i : Nat) : Nat := subOf f.shp.width (routeA f.rt i) (opVal x f.shp f.a l).val.toNat
def srcB (x : Group) (f : FmtA) (l i : Nat) : Nat := subOf f.shp.width (routeB f.rt i) (opVal x f.shp f.b l).val.toNat
def srcC (x : Group) (f : FmtA) (l i : Nat) : Nat := subOf f.shp.width i (opVal x f.shp f.c l).val.toNat
/-- Whether a source that is read in lane `l` is poisoned (R109). -/
def srcPoi (x : Group) (f : FmtA) (b c : Bool) (l : Nat) : Bool :=
  (opVal x f.shp f.a l).poi || (b && (opVal x f.shp f.b l).poi) || (c && (opVal x f.shp f.c l).poi)
/-- The same in a format-I word, whose C is the old content of D (R54). -/
def srcAI (x : Group) (f : FmtI) (l i : Nat) : Nat := subOf f.shp.width i (opVal x f.shp f.a l).val.toNat
def srcDI (x : Group) (f : FmtI) (l i : Nat) : Nat := subOf f.shp.width i (opVal x f.shp f.d l).val.toNat
def srcPoiI (x : Group) (f : FmtI) (c : Bool) (l : Nat) : Bool := (opVal x f.shp f.a l).poi || (c && (opVal x f.shp f.d l).poi)

-- ===== the integer family =====

/-- The exact integer of a member of the integer family, by its MIN code (R111, R112); `k` is LEA's shift. -/
def exactInt (op : Nat) (shp : Shape) (uns : Bool) (k a b c : Nat) : Int :=
  let w := shp.width
  let x := toInt w uns a
  let y := toInt w uns b
  let p := if shp = .i64 then b % 64 else b % 32
  let n := min (if shp = .i64 then b / 256 % 128 else b / 256 % 64) (w - p)
  match op with
  | 0 => x + y
  | 1 => x - y
  | 2 => x * y
  | 3 => x * y / (2 ^ w : Nat)
  | 4 => x * y + toInt w uns c
  | 5 => min x y
  | 6 => max x y
  | 7 => |toInt w false a|
  | 8 => (a &&& b : Nat)
  | 9 => (a ||| b : Nat)
  | 10 => (a ^^^ b : Nat)
  | 11 => (a &&& ((2 ^ w - 1) ^^^ b) : Nat)
  | 12 => x * (2 ^ b : Nat)
  | 13 => (a / 2 ^ b : Nat)
  | 14 => toInt w false a / (2 ^ b : Nat)
  | 15 => ((List.range w).filter (fun i => a.testBit i)).length
  | 16 => if a = 0 then w else w - (Nat.log2 a + 1)
  | 17 => if n = 0 then 0 else toInt n uns (a / 2 ^ p % 2 ^ n)
  | 18 => (c / 2 ^ (p + n) * 2 ^ (p + n) + a % 2 ^ n * 2 ^ p + c % 2 ^ p : Nat)
  | _ => toInt w false a + toInt w false b * (2 ^ k : Nat)

/-- Which members read B and C, and which have `.uns` and `.sat` (R111). -/
def intB (op : Nat) : Bool := op != 7 && op != 15 && op != 16
def intC (op : Nat) : Bool := op == 4 || op == 18
def intUns (op : Nat) (u : Bool) : Bool := u && (op ≤ 6 || op == 12 || op == 17)
def intSat (op : Nat) (t : Bool) : Bool := t && (op ≤ 2 || op == 4 || op == 7 || op == 12 || op == 19)

/-- The bits written, and the flags: the exact integer modulo 2^w, or clamped with OF and NX (R40, R110, R111). -/
def intBits (w : Nat) (uns sat : Bool) (e : Int) : Nat := ((if sat then clampInt w uns e else e) % (2 ^ w : Nat)).toNat
def intFlags (w : Nat) (uns sat : Bool) (e : Int) : BitVec 5 := if sat && clampInt w uns e != e then fOF ||| fNX else 0

/-- The integer family in formats A and I, with MIN codes. -/
def intWordsA (f : FmtA) : List (Nat × Instr) :=
  [(0, .iadd f), (1, .isub f), (2, .imul f), (3, .imulh f), (4, .imad f), (5, .imin f), (6, .imax f), (7, .iabs f), (8, .and f), (9, .or f),
   (10, .xor f), (11, .andn f), (12, .shl f), (13, .shr f), (14, .sar f), (15, .popc f), (16, .clz f), (17, .bfx f), (18, .bfi f), (19, .lea f)]
def intWordsI (f : FmtI) : List (Nat × Instr) :=
  [(0, .iaddI f), (1, .isubI f), (2, .imulI f), (3, .imulhI f), (4, .imadI f), (5, .iminI f), (6, .imaxI f), (7, .iabsI f), (8, .andI f),
   (9, .orI f), (10, .xorI f), (11, .andnI f), (12, .shlI f), (13, .shrI f), (14, .sarI f), (15, .popcI f), (16, .clzI f), (17, .bfxI f),
   (18, .bfiI f), (19, .leaI f)]

-- ===== results in flight (R66) =====

/-- The registers as a result leaves them when it returns. -/
def landed (x : Group) (f : Flight) : Group := f.writes.foldl (fun y w => rset y w.reg w.lane w.pv) x

/-- A result `f` has gone in flight for destination `d`: its pending bit and its run hazard are set, and of the registers nothing has changed yet. -/
def Launched (x y : Group) (d : Opd) (f : Flight) (waits : List WaitOn) : Prop :=
  y.inflight = x.inflight ++ [f] ∧ f.regs = [opCode x d] ∧ f.waits = waits ∧ f.pinfo = [] ∧ f.acquire = false ∧ f.drainKinds = 0 ∧
  (runState y).hazard = (runState x).hazard ++ [opCode x d] ∧ (runState y).tdef = (runState x).tdef ∧
  (∀ c l, c < 0x14C → l < 32 → rget y c l = rget x c l) ∧ y.spr = x.spr

/-- A class-V word completes: its result goes in flight with these values and flags, and the next word issues. -/
def CompletesV (s : State) (g : Nat) (i : Instr) (d : Opd) (shp : Shape) (ls is : List Nat) (val : Nat → Nat → Nat) (flg : Nat → Nat → BitVec 5)
    (poi : Nat → Bool) (draws : Nat) : Prop :=
  ∃ t f, exec i s = .next t ∧ OnlyGroup s t g ∧ t.nextId = s.nextId + 1 ∧ f.tag = s.nextId ∧
    OnlyRegs (s.grp g) (t.grp g) ∧ NextWord (s.grp g) (t.grp g) ∧ Launched (s.grp g) (t.grp g) d f [] ∧
    f.flags = orAll (ls.flatMap (fun l => is.map (flg l))) ∧ Wrote (s.grp g) (landed (s.grp g) f) d shp ls is val poi ∧
    OthersSame (s.grp g) (landed (s.grp g) f) d ∧
    ∀ l < 32, rngOf (t.grp g) l = if l ∈ ls then nthRng draws (rngOf (s.grp g) l) else rngOf (s.grp g) l

-- ===== floating point =====

/-- The draw for the sub-element computed as number `k` in a lane, under rs the lane's state after one step more (R38). -/
def drawFor (m : Rnd) (x : Group) (l k : Nat) : Nat := drawOf (nthRng (if m = .rs then k + 1 else 0) (rngOf x l))

/-- The order of FMIN and FMAX: −0 lies below +0 (R114). -/
def belowEq (x y : Val) : Bool := if x.isZero && y.isZero then x.neg? || !y.neg? else x.cmp y != .gt

/-- Bits and flags of a class-F member of the floating-point family, by its MIN code (R113, R114). -/
def fpBits (op : Nat) (ff : FF) (m : Rnd) (sat : Bool) (draw a b c : Nat) : Nat × BitVec 5 :=
  let x := ff.decode a
  let y := ff.decode b
  let rounded (v : Val × BitVec 5) : Nat × BitVec 5 := ((ff.round m sat draw v.1).1, (ff.round m sat draw v.1).2 ||| v.2)
  let pick (first : Bool) : Nat × BitVec 5 :=
    (if x.isNan && y.isNan then ff.canonNan else if x.isNan then b else if y.isNan then a else if first then a else b, flagIf (x.isSig || y.isSig) fNV)
  match op with
  | 0 => rounded (x.add m y)
  | 1 => rounded (x.add m y.negate)
  | 2 => rounded (x.mul y)
  | 3 => rounded (Val.fma m x y (ff.decode c))
  | 4 => pick (belowEq x y)
  | 5 => pick (belowEq y x)
  | 6 => if x.isNan then (ff.canonNan, flagIf x.isSig fNV) else (a % 2 ^ (ff.width - 1), 0)
  | 7 => if x.isNan then (ff.canonNan, flagIf x.isSig fNV) else (a ^^^ 2 ^ (ff.width - 1), 0)
  | _ => match x with
    | .fin n _ _ _ => (ff.pack n (ff.round .rz false 0 (.fin false (roundInt m draw x).1.natAbs 0 false)).1, 0)
    | .inf _ => (a, 0)
    | .nan sig => (ff.canonNan, flagIf sig fNV)

def fpB (op : Nat) : Bool := op ≤ 5
def fpC (op : Nat) : Bool := op == 3
/-- The members that round, and so draw under rs: all but FMIN and FMAX (R113, R114). -/
def fpDraws (op : Nat) (m : Rnd) : Bool := (op ≤ 3 || 6 ≤ op) && m == .rs

/-- The exact value of a class-V member, by its MIN code (R115). -/
def fnVal (op : Nat) : Val → Val × BitVec 5 :=
  match op with
  | 9 => Val.rcp
  | 10 => Val.rsq
  | 11 => Val.sqrt
  | 12 => Val.exp2
  | 13 => Val.logTwo
  | _ => Val.tanh
def fnBits (op : Nat) (ff : FF) (m : Rnd) (sat : Bool) (draw a : Nat) : Nat × BitVec 5 :=
  let v := fnVal op (ff.decode a)
  ((ff.round m sat draw v.1).1, (ff.round m sat draw v.1).2 ||| v.2)

def fpWordsA (f : FmtA) : List (Nat × Instr) :=
  [(0, .fadd f), (1, .fsub f), (2, .fmul f), (3, .ffma f), (4, .fmin f), (5, .fmax f), (6, .fabs f), (7, .fneg f), (8, .frnd f)]
def fpWordsI (f : FmtI) : List (Nat × Instr) :=
  [(0, .faddI f), (1, .fsubI f), (2, .fmulI f), (3, .ffmaI f), (4, .fminI f), (5, .fmaxI f), (6, .fabsI f), (7, .fnegI f), (8, .frndI f)]
def fnWordsA (f : FmtA) : List (Nat × Instr) := [(9, .frcp f), (10, .frsq f), (11, .fsqrt f), (12, .fexp2 f), (13, .flog2 f), (14, .ftanh f)]
def fnWordsI (f : FmtI) : List (Nat × Instr) := [(9, .frcpI f), (10, .frsqI f), (11, .fsqrtI f), (12, .fexp2I f), (13, .flog2I f), (14, .ftanhI f)]

/-- The rational that a finite value without a sticky bit stands for. -/
def ratOf : Val → ℚ
  | .fin n m e _ => (if n then -1 else 1) * (m : ℚ) * (2 : ℚ) ^ e
  | _ => 0
/-- A finite value that is exact. -/
def exactVal : Val → Bool
  | .fin _ _ _ st => !st
  | _ => false

-- ===== immediates (R54) =====

/-- The immediate of a format-I word for a sub-element: `n` bits, sign-extended, cut to the width; or an FP32 value whose top bits they are, rounded
into the shape's format. -/
def immI (shp : Shape) (n : Nat) (imm : BitVec 27) : Nat := (toInt n false (imm.toNat % 2 ^ n) % (2 ^ shp.width : Nat)).toNat
def immF (shp : Shape) (n : Nat) (imm : BitVec 27) : Nat :=
  ((shapeFmt shp false).encode .rne false 0 (FF.fp32.decode (imm.toNat % 2 ^ n * 2 ^ (32 - n)))).1 % 2 ^ shp.width

-- ===== compares and masks =====

/-- A compare in either format: what it compares, under which condition, where the result goes. -/
structure CmpForm where
  i : Instr
  shp : Shape
  msk : Msk
  d : Opd
  rt : Route
  flt : Bool
  cond : Nat
  a : Nat → Nat → Nat
  b : Nat → Nat → Nat
  poi : Nat → Bool

/-- The condition and the flags of one sub-element (R116). -/
def cmpHolds (shp : Shape) (flt : Bool) (cond a b : Nat) : Bool × BitVec 5 :=
  if flt then
    let x := (shapeFF shp).decode a
    let y := (shapeFF shp).decode b
    let nan := x.isNan || y.isNan
    let quiet := cond == 0 || cond == 1 || cond == 6 || cond == 7
    (if nan then cond == 1 || cond == 6
      else match cond with
        | 0 => x.cmp y == .eq
        | 1 => x.cmp y != .eq
        | 2 => x.cmp y == .lt
        | 3 => x.cmp y == .lt || x.cmp y == .eq
        | 4 => x.cmp y == .gt
        | 5 => x.cmp y == .gt || x.cmp y == .eq
        | 6 => false
        | _ => true,
     flagIf (x.isSig || y.isSig || (nan && !quiet)) fNV)
  else
    let x := toInt shp.width false a
    let y := toInt shp.width false b
    (match cond with
      | 0 => a == b
      | 1 => a != b
      | 2 => x < y
      | 3 => y ≤ x
      | 4 => a < b
      | 5 => b ≤ a
      | 6 => x ≤ y
      | _ => y < x, 0)

/-- The four compares, in formats A and I. -/
def cmpForms (x : Group) (f : FmtA) (k : FmtI) : List CmpForm :=
  [⟨.icmp f, f.shp, f.msk, f.d, f.rt, false, f.fam.toNat, srcA x f, srcB x f, srcPoi x f true false⟩,
   ⟨.fcmp f, f.shp, f.msk, f.d, f.rt, true, f.fam.toNat, srcA x f, srcB x f, srcPoi x f true false⟩,
   ⟨.icmpI k, k.shp, k.msk, k.d, .elem, false, k.imm.toNat / 2 ^ 24, srcAI x k, fun _ _ => immI k.shp 24 k.imm, srcPoiI x k false⟩,
   ⟨.fcmpI k, k.shp, k.msk, k.d, .elem, true, k.imm.toNat / 2 ^ 24, srcAI x k, fun _ _ => immF k.shp 24 k.imm, srcPoiI x k false⟩]

/-- A word wrote the bits `hit` of live lanes to mask `n`, ORed flags in, and did nothing else. -/
def DidMask (x y : Group) (n : Nat) (live hit : BitVec 32) (fl : BitVec 5) : Prop :=
  OnlyRegs x y ∧ NextWord x y ∧ (∀ c l, c < 0x14C → l < 32 → c ≠ 0x144 + n → rget y c l = rget x c l) ∧
  mreg y n = (mreg x n &&& ~~~live) ||| (hit &&& live) ∧ y.rng = x.rng ∧ y.inflight = x.inflight ∧
  (runState y).hazard = (runState x).hazard ∧ (runState y).tdef = (runState x).tdef ∧ y.spr.fpmode = x.spr.fpmode ||| fl.setWidth 64

/-- From `s` to `t` the group has taken a trap, at the level that R377 and R379 give: into its handler (R378), or stopped for the supervisor (R381)
with the trap registers and the trap's state, or inside a handler with ESC and the escalation state; a record waits for the fault queue. -/
def TrapTaken (s t : State) (g cause : Nat) (addr : BitVec 64) (trl : Bool) : Prop :=
  let x := s.grp g
  let y := t.grp g
  let st : TrapState := { pc := runPc x, prio := (runEnt x).prio, depth := (runEnt x).depth, lanes := active x, rs := runState x, trl := trl }
  if toS x cause then
    y.life = .trapped ∧ y.run = none ∧ TrapRecorded s t g cause (inHandler x) addr (runPc x) ∧
    (if inHandler x then
      y.spr.trapCause = causeFields true true (x.spr.trapCause.toNat % 256) ∧ y.spr.trapPc = x.spr.trapPc ∧ y.spr.trapAddr = x.spr.trapAddr ∧
        y.trapS = x.trapS ∧ y.escS = some st
     else y.spr.trapCause = causeFields false false cause ∧ y.spr.trapPc = runPc x ∧ y.spr.trapAddr = addr ∧ y.trapS = some st)
  else HandlerEntered s t g cause addr trl

/-- A word outside a transaction traps precisely, once every result in flight has returned (R70, R378, R379, R381). -/
def Traps (s : State) (g : Nat) (i : Instr) (cause : Nat) (addr : BitVec 64) : Prop :=
  CanSettle s g → ((settled s g).grp g).tx.act = false → ∃ t, exec i s = .next t ∧ TrapTaken (settled s g) t g cause addr (isTrl i)

/-- The run goes on with the next word and the group is otherwise `x`. -/
def stepOn (x : Group) : Group := updRun x (fun r => { r with pc := r.pc + 8, rs := { r.rs with pos := r.rs.pos + 1 } })

/-- A word that traps or decides nothing but a transfer: the next word issues with the transfer decided, and nothing else changes (R95). -/
def deciding (x : Group) (f : Xfer) : Group := stepOn (updRs x (fun r => { r with xfer := { f with decided := true } }))

-- ===== conversions (R121, R122) =====

/-- Where a conversion writes, and which source sub-element a place takes (the part rule). -/
def convPlaces (ns nd p : Nat) : List Nat := if ns ≤ nd then (List.range ns).map (fun i => p * ns + i) else List.range nd
def convFrom (ns nd p j : Nat) : Nat := if ns ≤ nd then j - p * ns else p * nd + j
/-- The number of a place in the order of conversion. -/
def convNth (ns nd p j : Nat) : Nat := if ns ≤ nd then j - p * ns else j

/-- One value of CVT and PACK. -/
def convBits (src dst : Shape) (uns udst : Bool) (m : Rnd) (sat : Bool) (draw b : Nat) : Nat × BitVec 5 :=
  if src.isInt && dst.isInt then
    (intBits dst.width udst sat (toInt src.width uns b), intFlags dst.width udst sat (toInt src.width uns b))
  else (shapeFmt dst udst).encode m sat draw ((shapeFmt src uns).decode b)
/-- One value of QNT (R124) and of DQNT (R125) under a scale. -/
def qntBits (src dst : Shape) (m : Rnd) (e draw b : Nat) : Nat × BitVec 5 :=
  let v := (shapeFmt src false).decode b
  if e = 255 then (0, fNV) else ((encScaled (quantFmt dst) m draw e v).1, (encScaled (quantFmt dst) m draw e v).2 ||| flagIf v.isSig fNV)
def dqntBits (src dst : Shape) (m : Rnd) (sat : Bool) (e draw b : Nat) : Nat × BitVec 5 :=
  let v : Val × BitVec 5 := if e = 255 then (.nan false, fNV) else (((quantFmt src).decode b).scale ((e : Int) - 127), 0)
  (((shapeFmt dst false).encode m sat draw v.1).1, ((shapeFmt dst false).encode m sat draw v.1).2 ||| v.2)

-- ===== lanes together (R126) =====

/-- Element `j` of a register over the 32 lanes, and the poison of its lane. -/
def elemOf (x : Group) (shp : Shape) (o : Opd) (j : Nat) : Nat := subOf shp.width (j % shp.count) (opVal x shp o (j / shp.count)).val.toNat
def elemPoi (x : Group) (shp : Shape) (o : Opd) (j : Nat) : Bool := (opVal x shp o (j / shp.count)).poi

/-- The element that SHFL takes for element `d` (R127): `t` elements, index `k`, sub-element `i`. -/
def shflFrom (mode t k i d : Nat) : Nat :=
  match mode with
  | 0 => (k + i) % t
  | 1 => if d < k then d else d - k
  | 2 => if d + k < t then d + k else d
  | 3 => (d ^^^ k) % t
  | _ => (d + k) % t

/-- The sub-element of a live lane at a position, as a leaf of the trees of R45 and R46. -/
def scanLeaf (x : Group) (f : FmtC) (i l : Nat) : Node :=
  if (liveOf x f.msk).getLsbD l then some (subOf f.shp.width i (opVal x f.shp f.a l).val.toNat, 0) else none
def nodeVal (n : Node) (ident : Nat) : Nat := (n.map (·.1)).getD ident
def nodeFlags (n : Node) : BitVec 5 := (n.map (·.2)).getD 0

-- ===== special registers (R87) =====

/-- What SRD reads, by number and lane, in class F and in class V. -/
def specials (s : State) (g : Nat) : List (Nat × (Nat → BitVec 64)) :=
  let x := s.grp g
  let p := x.spr
  let t := s.teams.get x.tid
  [(0x00, fun l => BitVec.ofNat 64 l), (0x01, fun _ => p.group), (0x02, fun _ => p.team), (0x03, fun _ => p.cluster), (0x04, fun _ => p.grid),
   (0x05, fun _ => p.ngroup), (0x06, fun _ => p.nteam), (0x07, fun _ => BitVec.ofNat 64 (g / 48)), (0x08, fun _ => BitVec.ofNat 64 (g / 48 / 96)),
   (0x09, fun _ => BitVec.ofNat 64 x.ctx), (0x0A, fun _ => p.argp), (0x0B, fun _ => p.fpmode), (0x0C, fun _ => p.rseed), (0x0F, fun _ => p.deadline),
   (0x11, fun _ => p.uvec), (0x12, fun _ => p.trapCause), (0x13, fun _ => p.trapPc), (0x14, fun _ => p.trapAddr), (0x15, fun _ => p.emuWord),
   (0x16, fun _ => p.emuD), (0x17, fun _ => p.emuA), (0x18, fun _ => p.emuB), (0x19, fun _ => p.emuC), (0x1A, fun _ => p.emuImm),
   (0x1B, fun _ => p.emuShp), (0x1C, fun _ => p.stkBase), (0x1D, fun _ => p.stkLimit), (0x1E, fun _ => BitVec.ofNat 64 (runEnt x).depth),
   (0x1F, fun _ => txStatus x), (0x20, fun _ => t.tol), (0x21, fun _ => t.rcap), (0x22, fun _ => t.tileMode), (0x23, fun _ => chainReg s x),
   (0x24, fun _ => p.poisonInfo)]
def counters (s : State) (g : Nat) : List (Nat × BitVec 64) :=
  [(0x0D, BitVec.ofNat 64 s.clock), (0x0E, BitVec.ofNat 64 (s.clock * 10 / 36)),
   (0x10, if (s.grp g).budgeted then BitVec.ofNat 64 (s.grp g).budget else 0xFFFFFFFFFFFFFFFF#64)]

/-- What SWR makes of the group's special registers, by number: reserved bits and the read-only fields stay. -/
def specialsAfter (p : Specials) (v : BitVec 64) : List (Nat × Specials) :=
  [(0x0B, { p with fpmode := v &&& 0x71F#64 }), (0x0C, { p with rseed := v }), (0x11, { p with uvec := v &&& ~~~7#64 }),
   (0x12, { p with trapCause := (p.trapCause &&& ~~~0xFF#64) ||| (v &&& 0xFF#64) }), (0x13, { p with trapPc := v }), (0x14, { p with trapAddr := v }),
   (0x1C, { p with stkBase := v &&& ~~~0xFF#64 }), (0x1D, { p with stkLimit := v &&& ~~~0xFF#64 })]
def teamAfter (t : Team) (v : BitVec 64) : List (Nat × Team) :=
  [(0x20, { t with tol := v &&& 0xFFFFFFFF#64 }), (0x21, { t with rcap := v &&& 31#64 }), (0x22, { t with tileMode := v &&& 1#64 })]

-- ===== memory =====

/-- A known word of result goes in flight for an s register: from `u`, the state that the word's own effect leaves, nothing else changes but the
run's next word (R66). -/
def Returns (u t : State) (g : Nat) (d : Opd) (v : BitVec 64) (waits : List WaitOn) : Prop :=
  OnlyGroup u t g ∧ t.nextId = u.nextId + 1 ∧ NextWord (u.grp g) (t.grp g) ∧
  t.grp g = { u.grp g with run := (t.grp g).run, inflight := (t.grp g).inflight } ∧
  ∃ fl, Launched (u.grp g) (t.grp g) d fl waits ∧ fl.tag = u.nextId ∧ fl.flags = 0 ∧ fl.writes = [⟨opCode (u.grp g) d, 0, ⟨v, false⟩⟩]

/-- Every kept translation maps a whole 64 KiB frame (R134): an invariant of the machine. -/
def FramesAligned (s : State) : Prop := ∀ e ∈ s.tlb, e.leaf.pa % 65536 = 0

/-- The last of a list's accesses that covers a byte: of several lanes, the highest (R152). -/
def covering (as : List LaneAcc) (pa : Nat) : Option LaneAcc := (as.filter (fun a => a.xl.pa ≤ pa && pa < a.xl.pa + a.n)).getLast?

/-- The byte that a lane's value gives an address of its access. -/
def byteFor (a : LaneAcc) (v : BitVec 64) (pa : Nat) : Byte := v.extractLsb' (8 * (pa - a.xl.pa)) 8

-- ===== transactions (chapter 09) =====

/-- A group may pass a quantum boundary: it runs in no compatibility mode, or the round for the boundary has taken place (R184). -/
def mayPass (s : State) (x : Group) : Prop := inCompat s x = false ∨ x.roundDone = true
/-- The group past the boundary. -/
def passed (s : State) (x : Group) : Group := if inCompat s x then { x with roundDone := false, atBoundary := false } else x

/-- The state past the boundary. -/
def pastBoundary (s : State) (g : Nat) : State :=
  if inCompat s (s.grp g) then s.setGrp g { s.grp g with roundDone := false, atBoundary := false } else s

/-- A transaction refuses a word (R198): the read set is validated; a valid attempt closes with the cause and the word traps with ILLEGAL outside it, an
invalid one ends with conflict. -/
def RefusedInTx (s : State) (g : Nat) (i : Instr) (cause : Nat) : Prop :=
  let x := s.grp g
  let v := s.setGrp g { closeTx x cause (runPc x) with capCount := 0 }
  (txValid s x = true → CanSettle v g → ∃ t, exec i s = .next t ∧ TrapTaken (settled v g) t g 0x01 0 false) ∧
  (txValid s x = false → exec i s = .next (conflictEnd s g))

/-- The lanes of an attempt stand at a recorded place as one entry, with the return stacks recorded there, and the group is READY (R200). -/
def StandsAt (x y : Group) (r : Restart) (m : BitVec 32) : Prop :=
  y.life = .ready ∧ y.run = none ∧
  (m ≠ 0 → ∃ e ∈ y.frontier, e.pc = r.pc ∧ e.depth = r.depth ∧ within m e.mask = true ∧ r.prio ≤ e.prio) ∧
  (∀ l < 32, y.rstk.get l = if m.getLsbD l then r.rstk.get l else x.rstk.get l) ∧
  (∀ c l, c < 0x100 → l < 32 → rget y c l = rget x c l) ∧ y.s = x.s ∧ y.m = x.m ∧ y.q = x.q ∧ y.rng = x.rng ∧ y.inflight = x.inflight

/-- An attempt fails (R200, R205, R206): without a successor the transaction closes and its lanes stand at its restart point; else they stand at the
successor's place, the writes are gone and the failed alternative's reads with them. -/
def AttemptFails (x y : Group) (cause : Nat) : Prop :=
  y.spr = { x.spr with txCause := cause, txWpc := runPc x } ∧
  match x.tx.succ with
  | none => y.tx = {} ∧ StandsAt x y x.tx.restart x.tx.lanes
  | some r => StandsAt x y r x.tx.lanes ∧
      y.tx = { x.tx with
        writes := [], alt := x.tx.alt + 1, nest := r.nest, succ := none,
        reads := if cause = 3 then x.tx.reads else x.tx.reads.filter (fun e => e.alt != x.tx.alt) }

-- ===== queues and barriers (chapters 10 and 11) =====

/-- A word that has read lines before it traps: the trap is taken from the state `u` that this leaves. -/
def TrapsFrom (s u : State) (g : Nat) (i : Instr) (cause : Nat) (addr : BitVec 64) : Prop :=
  CanSettle u g → ((settled u g).grp g).tx.act = false → ∃ t, exec i s = .next t ∧ TrapTaken (settled u g) t g cause addr (isTrl i)

/-- A group that waits at its place for a change of these lines. In a team of mode COMPAT the wait is a quantum boundary: the group stops at it with
its word still to be executed (R72, R184). -/
def waitsAt (s : State) (x : Group) (ls : List WLine) : Group :=
  { x with life := .waiting, thaw := ls, atBoundary := inCompat s x || x.atBoundary, pastWord := inCompat s x || x.pastWord }

/-- The word waits at its place on a line of memory (R72, R209, R211). -/
def WaitsOn (u t : State) (g line : Nat) : Prop :=
  OnlyGroup u t g ∧ t.grp g = waitsAt u (u.grp g) [.mem line (u.h.pos.get line)]

/-- A queue descriptor as a word outside a transaction finds it: the state in which it is read at its home, and its fields (R211, R234, R235). -/
def queueFound (s : State) (g : Nat) (k : Acc) (va : BitVec 64) : Option (State × QDesc) :=
  match checkAddr s (s.grp g).ctx (s.grp g).sup k false va 64 with
  | .error _ => none
  | .ok xl =>
    let u := settleLine s g xl.key (xl.pa / 64)
    let q := qdescOf va xl.key xl.pa (hRead u xl.key xl.pa 64)
    if hPoi u (xl.pa / 64) || q.bad then none else some (u, q)

/-- The lines of a batch's slots are settled before they are read or written at their homes. -/
def settleSlots (s : State) (g : Nat) (sl : List (List (Nat × Nat × Nat))) : State := sl.flatten.foldl (fun s p => settleLine s g p.1 (p.2.1 / 64)) s

/-- A barrier's STATE from its fields (R220). -/
def barState (expected arrived phase ovr : Nat) : Nat := expected + 2 ^ 24 * arrived + 2 ^ 48 * phase + 2 ^ 62 * ovr

/-- What one arrival of weight `n` makes of STATE, at a home without a key and without alarm (R223, R224): nothing where it is poisoned or broken;
malformed, it breaks with reason 3; else `n` has arrived, and when the expected weight is reached the phase goes up and nothing has arrived. -/
def Arrived (u t : State) (pa n : Nat) : Prop :=
  let v := hNat u 0 pa 8
  (u.h.poi.get (pa / 64) = true → t.h = u.h) ∧
  (u.h.poi.get (pa / 64) = false → barBroken v = true → t.h = u.h) ∧
  (u.h.poi.get (pa / 64) = false → barBroken v = false → barMalformed v = true →
    barBroken (hNat t 0 pa 8) = true ∧ hNat t 0 pa 8 % 2 ^ 63 = v % 2 ^ 63 ∧ hNat t 0 (pa + 8) 8 % 256 = 3) ∧
  ∀ e a p o, u.h.poi.get (pa / 64) = false → 0 < e → e < 2 ^ 24 → a < e → p < 256 → o < 2 → v = barState e a p o →
    hNat t 0 pa 8 = (if a + n < e then barState e (a + n) p o else barState e 0 ((p + 1) % 256) (if e < a + n then 1 else o)) ∧
    (∀ x, x < pa ∨ pa + 8 ≤ x → t.h.bytes.get x = u.h.bytes.get x) ∧ t.h.pos.get (pa / 64) = u.h.pos.get (pa / 64) + 1

-- ===== tiles and graphs (chapters 13 and 14) =====

/-- Nothing differs but one tile of a team with its tile line, and one group. -/
def OnlyTile (s t : State) (g tid z : Nat) : Prop :=
  t = { s with groups := t.groups, teams := t.teams, tick := t.tick, nextId := t.nextId } ∧ (∀ k, k ≠ g → t.grp k = s.grp k) ∧
  (∀ k, k ≠ tid → t.teams.get k = s.teams.get k) ∧
  t.teams.get tid = { s.teams.get tid with tiles := (t.teams.get tid).tiles, tlPos := (s.teams.get tid).tlPos + 1 } ∧
  ∀ k, k ≠ z → (t.teams.get tid).tiles.get k = (s.teams.get tid).tiles.get k

/-- A tile written at its team (R262). -/
def withTile (s : State) (tid z : Nat) (x : Tile) : State :=
  { s with teams := s.teams.upd tid (fun t => { t with tiles := t.tiles.set z x, tlPos := t.tlPos + 1 }) }

/-- The events of the engine, by operation code (R270). -/
def engineOps (core : Nat) : List (Nat × Instr) :=
  [(0, .tileZero core), (1, .tileMma core), (2, .tileAdd core), (3, .tileMul core), (4, .tileRcmp core), (5, .tileDns core), (6, .tileLdt core),
   (7, .tileStt core), (8, .tileScl core)]

/-- What a computation of the engine gives, without the flags of its roundings. -/
def valueOf (m : FM α) : α := (m.run 0).1

/-- An element as an LDT makes it of what it reads: its FP32 value, or an INT32 (R277). -/
def asLoaded (int : Bool) (r : ElemRead) : BitVec 32 :=
  if int then BitVec.ofInt 32 (intOf r.val) else BitVec.ofNat 32 ((shapeFmt .f32x2 false).encode .rne false 0 r.val).1

/-- The bytes that an STT gives an operand of 64 by `n` values through a map without scales whose elements are whole bytes: their addresses and
values (R266, R277). An FP32 element keeps its bits; another is encoded in the map's format. -/
def placedBytes (m : OMap) (n : Nat) (v : Nat → Nat → BitVec 32) : List (Nat × Byte) :=
  (List.range 64).flatMap (fun i => (List.range n).flatMap (fun k =>
    let row := if m.t then k else i
    let e := if m.t then i else k
    let b := if m.fmt = 1 then (v i k).toNat else (m.ef.encode .rne false 0 (val32 (v i k))).1
    (List.range (m.ef.width / 8)).map (fun j => (m.byteAt row (m.ef.width / 8 * e + j), BitVec.ofNat 8 (b / 256 ^ j)))))

/-- Of a memory just these bytes are written, outside `apart`: each address of the list has its byte, and every other address keeps its own. -/
def OnlyBytes (m n : SMap Byte) (l : List (Nat × Byte)) (apart : Nat → Prop) : Prop :=
  (l.map (·.1)).Nodup → ∀ x, ¬apart x → (∀ b, (x, b) ∈ l → n.get x = b) ∧ ((∀ b, (x, b) ∉ l) → n.get x = m.get x)

/-- The content of a tile: its form, kind, rank and elements. -/
def SameContent (c a : Tile) : Prop := c.dense = a.dense ∧ c.int = a.int ∧ c.rank = a.rank ∧ c.d = a.d ∧ c.u = a.u ∧ c.v = a.v

/-- Nothing differs but one compartment. -/
def OnlyCmp (s t : State) (n : Nat) : Prop := t = { s with comps := t.comps } ∧ ∀ k, k ≠ n → t.comps.get k = s.comps.get k

/-- A graph is abandoned with a code (R304): the run's state is gone, ERR holds the code, a record of kind 6 waits, and the compartment is LOADED, or
EMPTY after an ECC error; its barrier is broken with reason 4 where it stands whole. -/
def Abandoned (s t : State) (n code : Nat) : Prop :=
  let c := s.comps.get n
  let d := { c with bufs := [], units := [], switching := [], seq := {}, sl := [], args := [], quiet := 0 }
  t = { s with comps := t.comps, ctxs := t.ctxs, h := t.h, regs := t.regs } ∧ (∀ k, k ≠ n → t.comps.get k = s.comps.get k) ∧
  t.comps.get n = (if code = 17 then { d with err := code, st := .empty, planes := {}, imgva := 0, islands := [] } else { d with err := code, st := .loaded }) ∧
  (t.ctxs.get c.grant).frecs = (s.ctxs.get c.grant).frecs ++
    [recordBytes (BitVec.ofNat 64 (6 + 2 ^ 8 * code + 2 ^ 16 * n)) c.bar c.seq.pc (BitVec.ofNat 64 (s.clock * 10 / 36))] ∧
  (alarmed s = false → c.barAt.2 = 0 → c.barAt.1 % 64 = 0 → s.h.poi.get (c.barAt.1 / 64) = false → barBroken (hNat s 0 c.barAt.1 8) = false →
    barBroken (hNat t 0 c.barAt.1 8) = true ∧ hNat t 0 (c.barAt.1 + 8) 8 % 2 ^ 16 = n % 256 * 256 + 4)

/-- Only the sequencer of one compartment has changed, to `q`; the graph is no longer quiet. -/
def SeqIs (s t : State) (n : Nat) (q : Seqr) : Prop := OnlyCmp s t n ∧ t.comps.get n = { s.comps.get n with quiet := 0, seq := q }

/-- The sequencer stalls at its word (R328, R329): a record of kind 2 waits, and an ACTIVE context is halted. -/
def SeqStalls (s t : State) (n : Nat) (write : Bool) (e : Trap) : Prop :=
  let c := s.comps.get n
  t = { s with comps := t.comps, ctxs := t.ctxs } ∧ (∀ k, k ≠ n → t.comps.get k = s.comps.get k) ∧
  t.comps.get n = { c with quiet := 0, seq := { c.seq with stalled := true } } ∧
  (t.ctxs.get c.grant).frecs = (s.ctxs.get c.grant).frecs ++
    [recordBytes (BitVec.ofNat 64 (2 + 2 ^ 8 * e.cause + 2 ^ 16 * n + (if write then 2 ^ 28 else 0))) e.addr c.seq.pc (BitVec.ofNat 64 (s.clock * 10 / 36))] ∧
  ((s.ctxs.get c.grant).st = .active → (t.ctxs.get c.grant).st = .halted)

/-- The result that waits for a tag has received a code as its value. -/
def Answered (s t : State) (tag code : Nat) : Prop :=
  tag ≠ 0 → ∀ e ∈ s.groups, ∃ e' ∈ t.groups, e'.1 = e.1 ∧ e'.2.inflight = e.2.inflight.map (fun f =>
    if f.tag = tag then { f with writes := f.regs.map (fun c => ⟨c, 0, ⟨BitVec.ofNat 64 code, false⟩⟩) } else f)

-- ===== transfers and trailers (chapter 05) =====

/-- A return entry (R104): the priority in [63:52], the address of a word in [51:0]. -/
def returnWord (pc : BitVec 64) (prio : Nat) : BitVec 64 := BitVec.ofNat 64 (prio % 2 ^ 12 * 2 ^ 52 + pc.toNat / 8 % 2 ^ 52)

/-- Two entries of one place. -/
def SamePlace (e f : Entry) : Prop := e.pc = f.pc ∧ e.depth = f.depth

/-- The frontier `gs` is `fs` with the entry `e` inserted (R93), where no transaction divides the lanes: at a new place it is added; else one entry of
its place takes its lanes and the greater priority, and the rest of the frontier stays. The run state that either brings stays (log 14). -/
def Inserted (fs gs : List Entry) (e : Entry) : Prop :=
  ((∀ f ∈ fs, ¬SamePlace f e) ∧ gs = fs ++ [e]) ∨
  ∃ l f r, fs = l ++ f :: r ∧ SamePlace f e ∧ (∀ k ∈ l, ¬SamePlace k e) ∧
    gs = l ++ { f with mask := f.mask ||| e.mask, prio := max f.prio e.prio, resume := e.resume.orElse (fun _ => f.resume) } :: r

/-- A frontier `fs` gathers the entries `cs` (R93): no two of its entries have one place, every entry of `cs` is in one of them, and each has the lanes
of just those of its place and the greatest of their priorities. -/
def Gathers (fs cs : List Entry) : Prop :=
  fs.Pairwise (fun e f => ¬SamePlace e f) ∧ (∀ c ∈ cs, ∃ e ∈ fs, SamePlace e c) ∧
  ∀ e ∈ fs, (∃ c ∈ cs, SamePlace c e ∧ c.prio = e.prio) ∧ (∀ c ∈ cs, SamePlace c e → c.prio ≤ e.prio) ∧
    ∀ l < 32, e.mask.getLsbD l = true ↔ ∃ c ∈ cs, SamePlace c e ∧ c.mask.getLsbD l = true

/-- What the trailer of a run inserts (R94): one entry for each lane that transfers, and one for the lanes that fall through; none for no lane. -/
def insertions (x : Group) (prio : Nat) : List Entry :=
  let f := (runState x).xfer
  let js : List Entry := f.jump.map (fun j => { pc := j.2.1, prio := j.2.2.1, depth := j.2.2.2, mask := bitOf j.1 })
  let through : Entry :=
    { pc := runPc x + 8, prio := prio, depth := (runEnt x).depth, mask := active x &&& ~~~f.exits &&& ~~~maskOf (f.jump.map (·.1)) }
  (js ++ [through]).filter (fun e => e.mask != 0)

-- ===== groups, kernels and contexts (chapters 05, 15 and 16) =====

/-- A READY group that a quadrant may choose (R80, R81, R362, R363): it is not to stop, or its stop at a YIELD found no record and one is free now
(R365); it waits at no quantum boundary (R184) and for no switch of its chain (R253); its context is ACTIVE, or SAVING with the bound of R363 still to
come. -/
def MayBeSelected (s : State) (x : Group) : Prop :=
  let c := s.ctxs.get x.ctx
  (x.stopWait = false ∨ (x.yielded = true ∧ c.st = .active ∧ sliceHeld s x = false ∧ freeRecs s x.ctx (grpRecs s x.ctx) ≠ [])) ∧
  awaitsRound x = false ∧ chainHeld s x = false ∧
  (c.st = .active ∨ (c.st = .saving ∧ c.wasHalted = false ∧ (timen s).toNat < c.saveClock * 10 / 36 + c.ywait))

/-- An entry that R92 selects before another. -/
def Outranks (f e : Entry) : Prop := e.depth < f.depth ∨ (e.depth = f.depth ∧ (e.prio < f.prio ∨ (e.prio = f.prio ∧ f.pc.toNat < e.pc.toNat)))

/-- Nothing differs but the contexts, and of them one context. -/
def OnlyCtx (s t : State) (n : Nat) : Prop := t = { s with ctxs := t.ctxs } ∧ ∀ k, k ≠ n → t.ctxs.get k = s.ctxs.get k

/-- A command of CTX_CMD is taken, and answers with a STATUS (R360): the rest of the register stays. -/
def CtxAnswers (s t : State) (rest : List (BitVec 64)) (code : Nat) : Prop :=
  t.regs = { s.regs with ctxPend := rest, ctxCmd := t.regs.ctxCmd } ∧ t.regs.ctxCmd.toNat / 2 ^ 48 % 2 ^ 8 = code ∧
  t.regs.ctxCmd &&& ~~~0xFF000000000000#64 = s.regs.ctxCmd &&& ~~~0xFF000000000000#64

/-- The same of TRAP_CMD (R382). -/
def TrapAnswers (s t : State) (rest : List (BitVec 64)) (code : Nat) : Prop :=
  t.regs = { s.regs with trapPend := rest, trapCmd := t.regs.trapCmd } ∧ t.regs.trapCmd.toNat / 2 ^ 58 % 4 = code

/-- A group that stands in the machine has left it. -/
def Gone (t : State) (g : Nat) : Prop := t.grp g = default ∧ ∀ e ∈ t.groups, e.1 ≠ g

-- ===== the device (chapters 18 and 19) =====

/-- Nothing differs but one link. -/
def OnlyLink (s t : State) (n : Nat) : Prop := t = { s with links := t.links } ∧ ∀ k, k ≠ n → t.links.get k = s.links.get k

/-- An answer to an outside agent is the only thing new since `u`. -/
def Replied (u t : State) (code : Nat) (bs : List Byte) : Prop := t = { u with replies := (BitVec.ofNat 8 code :: bs) :: u.replies }

/-- An atomic at H of an agent that is no group, on a word that is not poisoned (R176): the value `v` that it works on and answers is the word's, or,
where a device's atomic has updated the word through a page without SA, the value from before that update, which is then lost. -/
def OutsideAtomic (s t : State) (key pa wd : Nat) (o : BitVec 4) (val : BitVec 64) (v : Nat) : Prop :=
  let u := hWrite s key (pa / 64) (entBytes pa wd (atomNew { op := o, wide := wd == 8 } v (val.toNat % 256 ^ wd))) false
  (v = hNat s key pa wd ∨ ∃ w ∈ s.oldWords, w.host = false ∧ w.pa = pa ∧ w.n = wd ∧ v = w.val) ∧
  t = { u with oldWords := t.oldWords, tick := s.tick + 1, replies := (0 :: toBytes wd v) :: s.replies }

-- ===== the canonical form of home memory =====

/-- The canonical form of home memory: bytes, poison marks and positions each in strictly rising order of address, and no entry that holds what
an unlisted address reads as (zero, no poison, position zero). Two home memories that read alike are equal data. -/
def Memory.wf (h : HMem) : Bool := h.bytes.wf && h.poi.wf && h.pos.wf

end Sys2Proof.Machine
end

