-- ==== Sys2Proof/Certificates/Slice0/Obligations.lean ====
section
/-!
DEFINITION. The statements for the provers, chapter by chapter. The words of each statement are those of Safety.lean and of the model.
-/

open Sys2Proof Sys2Proof.Machine

-- ===== decoding =====

/-- A well-formed instruction of the cores or of a sequencer, encoded and decoded, is itself: with every operand at every value that the encoding
admits (R53 to R63, R73, R332). -/
def Obligations.EncodedInstructionsDecodeBack : Prop :=
  ∀ i, WellFormed i → (∀ w, encodeWord i = some w → decodeWord w = i) ∧ (∀ w, encodeSeq i = some w → decodeSeq w = some i)

/-- Every 64-bit word is the encoding of what it decodes to, so the decoder drops no bit and no two words are one instruction; what it decodes to is
well-formed (R50, R63, R74). The same of a sequencer's words: a 32-bit word that decodes is the encoding of its instruction, which is well-formed
(R332, R333). -/
def Obligations.WordsAreTheEncodingsOfWhatTheyDecodeTo : Prop :=
  (
    ∀ w, encodeWord (decodeWord w) = some w ∧ WellFormed (decodeWord w)) ∧
  (
    ∀ w i, decodeSeq w = some i → encodeSeq i = some w ∧ WellFormed i)

/-- Words written out from the encodings of the spec decode to the instructions they stand for: ERET and ERET.next (R383), IADD.i64 v3, v1, v2 (R111),
LD.i64 s2, [s1+0] (R151), QCNT s10, q1 (R240), and HALT of the sequencer (R333). -/
def Obligations.SampleWordsDecode : Prop :=
  decodeWord 0x5400000000000000 = .eret false ∧ decodeWord 0x5400200000000000 = .eret true ∧
  decodeWord 0x0200003008080000 = .iadd ⟨.i64, .all, .v 3, .v 1, .v 2, .v 0, .rne, false, .elem, 0⟩ ∧
  decodeWord 0x4000102808000000 = .ld ⟨0, .all, .s 2, .s 1, .grp, .rlx, 0, 0⟩ ∧
  decodeWord 0x4A3010A000000001 = .qcnt (.s 10) 1 ∧ decodeSeq 0x4C000000 = some .seqHalt

-- ===== steps =====

/-- A group that issues, may be issued now, has budget left and stands at no unfinished quantum boundary, and whose next word is fetched: a step whose
action is that group's word runs exactly what the word decodes to. Around the word the step only takes the action off the agenda, names the group as
the agent, and counts a free value that the fetch has drawn (log 1, log 9). The same of a sequencer that may execute: its step runs what the 32 bits
at its pc decode to (R331). The next step after a word has been placed runs that word, from the state right after reset: `withFetchWord` places every
word of 64 bits where the step fetches. -/
def Obligations.StepsRunTheDecodedInstruction : Prop :=
  (
    ∀ (s : State) (g : Nat) (w : BitVec 64), s.regs.bootStat = 5 → (s.grp g).life = .issuing → (s.grp g).run.isSome = true →
      exhausted (s.grp g) = false → mayIssue s (s.grp g) = true → ((s.grp g).atBoundary && !(s.grp g).roundDone) = false →
      fetchWord s (s.grp g) (runPc (s.grp g)) = .ok w →
      step { s with agenda := .word g :: s.agenda } = exec (decodeWord w) { s with cur := .group g, tick := fetchTick s (s.grp g) (runPc (s.grp g)) } ∧
      issuer { s with cur := .group g, tick := fetchTick s (s.grp g) (runPc (s.grp g)) } = some g) ∧
  (
    ∀ (s : State) (n : Nat) (bs : List Byte) (i : Instr), s.regs.bootStat = 5 → seqReady s n = true →
      seqRead s n (cmpOf s n).seq.pc 4 = .ok (bs, false) → decodeSeq (BitVec.ofNat 32 (ofBytes bs)) = some i →
      step { s with agenda := .seqWord n :: s.agenda } = exec i { s with cur := .seqr n }) ∧
  (
    ∀ w : BitVec 64, ∃ s, step (State.reset.withFetchWord 64 w.toNat) = exec (decodeWord w) s ∧ issuer s = some 0 ∧ runPc (s.grp 0) = 65536)

/-- No step ends in a fault or a refusal, from any state. -/
def Obligations.EveryStepGoesOn : Prop := ∀ s : State, GoesOn s

-- ===== traps (chapter 17) =====

/-- TRAP and BRK with a live lane raise SW and BRK with the sign-extended code as address, and enter the user handler (R103, R377, R378); with no live
lane they do nothing and the run goes on. The trap is taken once the group's earlier results can return (log 7). A word of MAJ 0 raises ILLEGAL, and
any other word that is no instruction UNASSIGNED: the group enters its handler, and at this entry the EMU registers are written from the word's
fields (R74, R76); where the trap goes to the supervisor they keep their values. -/
def Obligations.TrapsEnterTheHandler : Prop :=
  (
    ∀ (s : State) (g : Nat) (msk : Msk) (n : BitVec 33), ∀ p ∈ [(Instr.trap msk n, 0x60), (Instr.brk msk n, 0x61)], Runs s g p.1 →
      (liveOf (s.grp g) msk = 0 → ∃ t, exec p.1 s = .next t ∧ OnlyGroup s t g ∧ NextWord (s.grp g) (t.grp g) ∧ OnlyRegs (s.grp g) (t.grp g)) ∧
      (liveOf (s.grp g) msk ≠ 0 → CanSettle s g → ((settled s g).grp g).tx.act = false → inHandler ((settled s g).grp g) = false →
        ((settled s g).grp g).spr.uvec ≠ 0 → ∃ t, exec p.1 s = .next t ∧ HandlerEntered (settled s g) t g p.2 (n.signExtend 64) false)) ∧
  (
    ∀ (s : State) (g : Nat) (w : BitVec 64), issuer s = some g →
      (CanSettle s g → ((settled s g).grp g).tx.act = false → inHandler ((settled s g).grp g) = false → ((settled s g).grp g).spr.uvec ≠ 0 →
        ∃ t, exec (.illegalWord w) s = .next t ∧ HandlerEntered (settled s g) t g 0x01 0 false) ∧
      (precheck s g (.unassignedWord w) = .unassigned → CanSettle s g → ((settled s g).grp g).tx.act = false →
        let toHandler := inHandler ((settled s g).grp g) = false ∧ ((settled s g).grp g).spr.uvec ≠ 0
        let trl := w.extractLsb' 57 7 == 0x7F
        (toHandler → ∃ t u, exec (.unassignedWord w) s = .next t ∧ t = u.updGrp g (fun x => writeEmu x w) ∧ (t.grp g).spr.emuWord = w ∧
          HandlerEntered (settled s g) u g 0x02 0 trl) ∧
        (¬toHandler → ∃ t, exec (.unassignedWord w) s = .next t ∧ TrapTaken (settled s g) t g 0x02 0 trl ∧
          emuOf (t.grp g) = emuOf ((settled s g).grp g))))

/-- TLBI at user level raises PRIV, which goes to the supervisor (R158, R377, R381): the group is TRAPPED with the trap registers written and IH
clear, its state is kept, and a record of kind 5 waits for the fault queue. The trap waits for earlier results (log 7). A BRK that traps in the
handler goes to the supervisor with ESC set (R379): the first trap's registers and state stay, the second one's state is the escalation state, and the
record carries the second trap's own cause, address and word. -/
def Obligations.TrapsGoToTheSupervisor : Prop :=
  (
    ∀ (s : State) (g : Nat) (d a : Opd) (c : BitVec 6), ∀ i ∈ [Instr.tlbiPage d a c, Instr.tlbiCtx d c, Instr.tlbiAll d], issuer s = some g →
      posBad s (s.grp g) (info (s.grp g).chain.isSome i) = none → (info (s.grp g).chain.isSome i).illegal = false → (s.grp g).tx.act = false →
      (s.grp g).sup = false → CanSettle s g → ((settled s g).grp g).tx.act = false → ((settled s g).grp g).sup = false →
      inHandler ((settled s g).grp g) = false →
      ∃ t, exec i s = .next t ∧ (t.grp g).life = .trapped ∧ (t.grp g).run = none ∧ (t.grp g).spr.trapCause = 5 ∧
        (t.grp g).spr.trapPc = runPc ((settled s g).grp g) ∧ (t.grp g).spr.trapAddr = 0 ∧
        (t.grp g).trapS = some { pc := runPc ((settled s g).grp g), prio := (runEnt ((settled s g).grp g)).prio, depth := (runEnt ((settled s g).grp g)).depth,
                                 lanes := active ((settled s g).grp g), rs := runState ((settled s g).grp g), trl := false } ∧
        TrapRecorded (settled s g) t g 5 false 0 (runPc ((settled s g).grp g))) ∧
  (
    ∀ (s : State) (g : Nat) (msk : Msk) (n : BitVec 33), Runs s g (.brk msk n) → liveOf (s.grp g) msk ≠ 0 → CanSettle s g →
      ((settled s g).grp g).tx.act = false → inHandler ((settled s g).grp g) = true →
      ∃ t, exec (.brk msk n) s = .next t ∧ (t.grp g).life = .trapped ∧
        (t.grp g).spr.trapCause = causeFields true true (((settled s g).grp g).spr.trapCause.toNat % 256) ∧
        (t.grp g).spr.trapPc = ((settled s g).grp g).spr.trapPc ∧ (t.grp g).spr.trapAddr = ((settled s g).grp g).spr.trapAddr ∧
        (t.grp g).trapS = ((settled s g).grp g).trapS ∧
        (t.grp g).escS = some { pc := runPc ((settled s g).grp g), prio := (runEnt ((settled s g).grp g)).prio, depth := (runEnt ((settled s g).grp g)).depth,
                                lanes := active ((settled s g).grp g), rs := runState ((settled s g).grp g), trl := false } ∧
        TrapRecorded (settled s g) t g 0x61 true (n.signExtend 64) (runPc ((settled s g).grp g)))

/-- ERET of the handler's remaining lanes is decided at the word, and at its trailer they return (R383): to TRAP_PC, or to the word after it, with the
saved priority and depth, in the middle of the trapped run where that is the trapping word or its successor; they are inserted into the frontier as
R93 says; IH ends clear and POISON_INFO is cleared. -/
def Obligations.EretReturnsFromTheHandler : Prop :=
  (∀ (s : State) (g : Nat) (nx : Bool), Runs s g (.eret nx) → inHandler (s.grp g) = true →
    active (s.grp g) = (unexited (s.grp g) &&& handlerLanes (s.grp g)) →
    ∃ t, exec (.eret nx) s = .next t ∧ OnlyGroup s t g ∧ runPc (t.grp g) = runPc (s.grp g) + 8 ∧ (runState (t.grp g)).xfer.eret = some nx) ∧
  (∀ (s : State) (g : Nat) (y : Bool) (prio : BitVec 12) (nx : Bool) (ts : TrapState), Runs s g (.trl y false false prio none none none none) →
    (s.grp g).tx.act = false → (s.grp g).chain = none → (runState (s.grp g)).xfer.eret = some nx → (s.grp g).trapS = some ts → active (s.grp g) ≠ 0 →
    ∃ t, exec (.trl y false false prio none none none none) s = .next t ∧ (t.grp g).life = .ready ∧ (t.grp g).run = none ∧ (t.grp g).trapS = none ∧
      inHandler (t.grp g) = false ∧ (t.grp g).spr.poisonInfo = 0 ∧
      ∀ (back : BitVec 64), back = (s.grp g).spr.trapPc + (if nx then 8 else 0) →
        let res := if back = ts.pc then some ts.rs
          else if back = ts.pc + 8 ∧ ts.trl = false then some { ts.rs with pos := ts.rs.pos + 1 } else none
        Inserted (s.grp g).frontier (t.grp g).frontier { pc := back, prio := ts.prio, depth := ts.depth, mask := active (s.grp g), resume := res })

-- ===== the integer family (chapter 06) =====

/-- Every format-A member of the integer family completes: in each lane that it works in, each computed sub-element becomes its exact integer reduced
or clamped, poison and flags follow, and nothing else changes (R108 to R112). The same of the format-I members: B is the 27-bit immediate, sign-
extended and cut to the sub-element's width, C is the old content of D, and there is neither `.uns` nor `.sat` nor a shift (R54, R111). -/
def Obligations.IntegerWords : Prop :=
  (
    ∀ (s : State) (g : Nat) (f : FmtA), ∀ p ∈ intWordsA f, Runs s g p.2 →
      let x := s.grp g
      let uns := intUns p.1 (f.fam.getLsbD 0)
      let sat := intSat p.1 f.sat
      let e := fun l i => exactInt p.1 f.shp uns f.fam.toNat (srcA x f l i) (srcB x f l i) (srcC x f l i)
      CompletesF s g p.2 f.d f.shp (workLanes x f.msk f.d) (written f.shp f.rt) (fun l i => intBits f.shp.width uns sat (e l i))
        (unlessPoi (srcPoi x f (intB p.1) (intC p.1)) (fun l i => intFlags f.shp.width uns sat (e l i))) (srcPoi x f (intB p.1) (intC p.1)) 0) ∧
  (
    ∀ (s : State) (g : Nat) (f : FmtI), ∀ p ∈ intWordsI f, Runs s g p.2 →
      let x := s.grp g
      let e := fun l i => exactInt p.1 f.shp false 0 (srcAI x f l i) ((f.imm.signExtend 64).toNat % 2 ^ f.shp.width) (srcDI x f l i)
      CompletesF s g p.2 f.d f.shp (workLanes x f.msk f.d) (List.range f.shp.count) (fun l i => intBits f.shp.width false false (e l i))
        (fun _ _ => 0) (srcPoiI x f (intC p.1)) 0)

-- ===== the floating-point family =====

/-- Every class-F member in format A completes: the exact result of each computed sub-element is rounded once under the word's mode, with the draws of
rs in ascending order; poison, flags and stochastic states follow, and nothing else changes (R36 to R44, R108, R109, R113, R114). FRND passes an
infinity, and FMIN and FMAX give one of their sources (R114), whatever the saturate bit says (R114 over R40 by log 33). The same in format I: B is an
FP32 value whose top 27 bits are the immediate, rounded into the shape's format, and the mode is rne (R54, R113). -/
def Obligations.FloatWords : Prop :=
  (
    ∀ (s : State) (g : Nat) (f : FmtA), ∀ p ∈ fpWordsA f, WellFormed p.2 → Runs s g p.2 →
      let x := s.grp g
      let m := modeOf x f.rnd
      let r := fun l i => fpBits p.1 (shapeFF f.shp) m f.sat (drawFor m x l i) (srcA x f l i) (srcB x f l i) (srcC x f l i)
      let poi := srcPoi x f (fpB p.1) (fpC p.1)
      CompletesF s g p.2 f.d f.shp (workLanes x f.msk f.d) (written f.shp f.rt) (fun l i => (r l i).1) (unlessPoi poi (fun l i => (r l i).2)) poi
        (if fpDraws p.1 m then (written f.shp f.rt).length else 0)) ∧
  (
    ∀ (s : State) (g : Nat) (f : FmtI), ∀ p ∈ fpWordsI f, WellFormed p.2 → Runs s g p.2 →
      let x := s.grp g
      let r := fun l i => fpBits p.1 (shapeFF f.shp) .rne false 0 (srcAI x f l i) (immF f.shp 27 f.imm) (srcDI x f l i)
      let poi := srcPoiI x f (fpC p.1)
      CompletesF s g p.2 f.d f.shp (workLanes x f.msk f.d) (List.range f.shp.count) (fun l i => (r l i).1) (unlessPoi poi (fun l i => (r l i).2)) poi 0)

/-- FRCP to FTANH in both formats are class V: the correctly rounded values go in flight with their flags (R66, R115). How the rounded value is found
is the model's (log 11). -/
def Obligations.FunctionWordsGoInFlight : Prop :=
  (∀ (s : State) (g : Nat) (f : FmtA), ∀ p ∈ fnWordsA f, WellFormed p.2 → Runs s g p.2 →
    let x := s.grp g
    let m := modeOf x f.rnd
    let r := fun l i => fnBits p.1 (shapeFF f.shp) m f.sat (drawFor m x l i) (srcA x f l i)
    let poi := srcPoi x f false false
    CompletesV s g p.2 f.d f.shp (workLanes x f.msk f.d) (written f.shp f.rt) (fun l i => (r l i).1) (unlessPoi poi (fun l i => (r l i).2)) poi
      (if m = .rs then (written f.shp f.rt).length else 0)) ∧
  (∀ (s : State) (g : Nat) (f : FmtI), ∀ p ∈ fnWordsI f, WellFormed p.2 → Runs s g p.2 →
    let x := s.grp g
    let r := fun l i => fnBits p.1 (shapeFF f.shp) .rne false 0 (srcAI x f l i)
    let poi := srcPoiI x f false
    CompletesV s g p.2 f.d f.shp (workLanes x f.msk f.d) (List.range f.shp.count) (fun l i => (r l i).1) (unlessPoi poi (fun l i => (r l i).2)) poi 0)

/-- Exact arithmetic on values is arithmetic on the rationals they stand for, up to the one rounding; quotients and roots are bracketed by one unit of
the working precision, with the sticky bit set just where they are not exact (R24, R115). The functions of R115 at zeros, infinities, NaNs and
negative numbers are those of its table; 2^a of an integer and log2 of a power of two are exact; any other 2^a (of |a| below 2^20), log2 a and tanh a
of a number of at most 53 bits is bracketed by one unit of at least 90 bits, in so far as the precision of log 11 decides it. The one rounding of a
finite exact value whose result is finite (R36, R37): rz does not go away from zero, rd not up and ru not down, rne and rna not to a neighbour that is
further off, and no mode passes over a value of the format; what a format holds is rounded to itself without a flag. -/
def Obligations.ValuesAndRoundings : Prop :=
  (
    (∀ m x y, exactVal x = true → exactVal y = true →
      (ratOf (x.add m y).1 = ratOf x + ratOf y ∧ exactVal (x.add m y).1 = true) ∧ (ratOf (x.mul y).1 = ratOf x * ratOf y ∧ exactVal (x.mul y).1 = true) ∧
      (x.cmp y = .lt ↔ ratOf x < ratOf y) ∧ (x.cmp y = .eq ↔ ratOf x = ratOf y)) ∧
    (∀ m x y z, exactVal x = true → exactVal y = true → exactVal z = true → ratOf (Val.fma m x y z).1 = ratOf x * ratOf y + ratOf z) ∧
    (∀ n m e, m ≠ 0 → ∃ k j st, Val.rcp (.fin n m e false) = (.fin n k j st, 0) ∧
      (k : ℚ) * 2 ^ j * (m * 2 ^ e) ≤ 1 ∧ 1 < ((k : ℚ) + 1) * 2 ^ j * (m * 2 ^ e) ∧ (st = false ↔ (k : ℚ) * 2 ^ j * (m * 2 ^ e) = 1)) ∧
    (∀ m e, m ≠ 0 → ∃ k j st, Val.sqrt (.fin false m e false) = (.fin false k j st, 0) ∧
      ((k : ℚ) * 2 ^ j) ^ 2 ≤ m * 2 ^ e ∧ (m * 2 ^ e : ℚ) < (((k : ℚ) + 1) * 2 ^ j) ^ 2 ∧ (st = false ↔ ((k : ℚ) * 2 ^ j) ^ 2 = m * 2 ^ e)) ∧
    (∀ m e, m ≠ 0 → ∃ k j st, Val.rsq (.fin false m e false) = (.fin false k j st, 0) ∧
      ((k : ℚ) * 2 ^ j) ^ 2 * (m * 2 ^ e) ≤ 1 ∧ 1 < (((k : ℚ) + 1) * 2 ^ j) ^ 2 * (m * 2 ^ e) ∧
      (st = false ↔ ((k : ℚ) * 2 ^ j) ^ 2 * (m * 2 ^ e) = 1))) ∧
  (
    (∀ n e st, Val.rcp (.fin n 0 e st) = (.inf n, fDZ) ∧ Val.rsq (.fin n 0 e st) = (.inf n, fDZ) ∧ Val.sqrt (.fin n 0 e st) = (.zero n, 0) ∧
      Val.exp2 (.fin n 0 e st) = (.fin false 1 0 false, 0) ∧ Val.logTwo (.fin n 0 e st) = (.inf true, fDZ) ∧ Val.tanh (.fin n 0 e st) = (.zero n, 0)) ∧
    (∀ n, Val.rcp (.inf n) = (.zero n, 0) ∧ Val.exp2 (.inf n) = (if n then .zero false else .inf false, 0) ∧ Val.tanh (.inf n) = (.fin n 1 0 false, 0)) ∧
    (∀ f ∈ [Val.rsq, Val.sqrt, Val.logTwo], f (.inf true) = (.nan false, fNV) ∧ ∀ m e st, m ≠ 0 → f (.fin true m e st) = (.nan false, fNV)) ∧
    Val.rsq (.inf false) = (.zero false, 0) ∧ Val.sqrt (.inf false) = (.inf false, 0) ∧ Val.logTwo (.inf false) = (.inf false, 0) ∧
    (∀ f ∈ [Val.rcp, Val.rsq, Val.sqrt, Val.exp2, Val.logTwo, Val.tanh], ∀ sig, f (.nan sig) = (.nan false, if sig then fNV else 0)) ∧
    (∀ n m e (q : Int), ratOf (.fin n m e false) = q → |q| ≤ 2 ^ 20 → ratOf (Val.exp2 (.fin n m e false)).1 = 2 ^ q ∧
      exactVal (Val.exp2 (.fin n m e false)).1 = true) ∧
    (∀ m e (q : Int), ratOf (.fin false m e false) = 2 ^ q → ratOf (Val.logTwo (.fin false m e false)).1 = q ∧
      exactVal (Val.logTwo (.fin false m e false)).1 = true)) ∧
  (
    ∀ (n : Bool) (m : Nat) (e : Int), 0 < m → m < 2 ^ 53 →
      let x : ℝ := (ratOf (.fin n m e false) : ℚ)
      let near := fun (k : Nat) (j : Int) (st : Bool) (v : ℝ) => (st = false ∨ 2 ^ 90 ≤ k) ∧ (k : ℝ) * 2 ^ j ≤ v ∧ v < ((k : ℝ) + 1) * 2 ^ j
      (|x| < 2 ^ 20 → ∀ k j st, Val.exp2 (.fin n m e false) = (.fin false k j st, 0) → k ≠ 0 → near k j st ((2 : ℝ) ^ x)) ∧
      (n = false → ∀ c k j st, Val.logTwo (.fin n m e false) = (.fin c k j st, 0) → k ≠ 0 →
        near k j st |Real.logb 2 x| ∧ (c = true ↔ Real.logb 2 x < 0)) ∧
      (∀ c k j st, Val.tanh (.fin n m e false) = (.fin c k j st, 0) → k ≠ 0 → near k j st |Real.tanh x| ∧ c = n)) ∧
  (
    ∀ (ff : FF) (m : Rnd) (draw : Nat) (n : Bool) (k : Nat) (e : Int), m ≠ .dyn → draw < 2 ^ 24 → k ≠ 0 →
      let v := ratOf (.fin n k e false)
      let r := ff.round m false draw (.fin n k e false)
      (r.2 &&& fOF) = 0 →
        exactVal (ff.decode r.1) = true ∧ r.1 < 2 ^ ff.width ∧
        (∀ b < 2 ^ ff.width, exactVal (ff.decode b) = true →
          (ratOf (ff.decode b) = v → ratOf (ff.decode r.1) = v ∧ r.2 = 0) ∧
          ¬ (v ≤ ratOf (ff.decode b) ∧ ratOf (ff.decode b) < ratOf (ff.decode r.1)) ∧
          ¬ (ratOf (ff.decode r.1) < ratOf (ff.decode b) ∧ ratOf (ff.decode b) ≤ v) ∧
          (m = .rne ∨ m = .rna → |ratOf (ff.decode r.1) - v| ≤ |ratOf (ff.decode b) - v|)) ∧
        (m = .rz → |ratOf (ff.decode r.1)| ≤ |v|) ∧ (m = .rd → ratOf (ff.decode r.1) ≤ v) ∧ (m = .ru → v ≤ ratOf (ff.decode r.1)) ∧
        ((r.2 &&& fNX) = 0 ↔ ratOf (ff.decode r.1) = v))

-- ===== compares and masks =====

/-- The four compares into a v, s, k or indirect register write all ones or zero for each computed sub-element (R116). Into a mask they write one bit
for each live lane, set when the condition holds in every computed sub-element; a poisoned live lane raises POISON_CONSUMED before anything is written
(R109, R116). -/
def Obligations.CompareWords : Prop :=
  (
    ∀ (s : State) (g : Nat) (f : FmtA) (k : FmtI), ∀ c ∈ cmpForms (s.grp g) f k, Runs s g c.i → opIsM c.d = false →
      let r := fun l i => cmpHolds c.shp c.flt c.cond (c.a l i) (c.b l i)
      CompletesF s g c.i c.d c.shp (workLanes (s.grp g) c.msk c.d) (written c.shp c.rt) (fun l i => if (r l i).1 then 2 ^ c.shp.width - 1 else 0)
        (unlessPoi c.poi (fun l i => (r l i).2)) c.poi 0) ∧
  (
    ∀ (s : State) (g : Nat) (f : FmtA) (k : FmtI), ∀ c ∈ cmpForms (s.grp g) f k, Runs s g c.i → ∀ n, c.d = .m n →
      let x := s.grp g
      let live := liveOf x c.msk
      let r := fun l i => cmpHolds c.shp c.flt c.cond (c.a l i) (c.b l i)
      ((∀ l ∈ lanes live, c.poi l = false) → ∃ t hit, exec c.i s = .next t ∧ OnlyGroup s t g ∧
        DidMask x (t.grp g) n.toNat live hit (orAll ((lanes live).flatMap (fun l => (written c.shp c.rt).map (fun i => (r l i).2)))) ∧
        ∀ l < 32, live.getLsbD l = true → hit.getLsbD l = (written c.shp c.rt).all (fun i => (r l i).1)) ∧
      ((∃ l ∈ lanes live, c.poi l = true) → Traps s g c.i 0x18 0))

/-- SEL takes each sub-element from the source that the selector's bit of the lane chooses, its poison with it (R117). -/
def Obligations.SelectWordsChooseByLane : Prop :=
  ∀ (s : State) (g : Nat) (f : FmtA) (k : FmtI),
    let x := s.grp g
    (Runs s g (.sel f) →
      CompletesF s g (.sel f) f.d f.shp (workLanes x f.msk f.d) (written f.shp f.rt)
        (fun l i => if (mreg x f.fam.toNat).getLsbD l then srcA x f l i else srcB x f l i) (fun _ _ => 0)
        (fun l => if (mreg x f.fam.toNat).getLsbD l then (opVal x f.shp f.a l).poi else (opVal x f.shp f.b l).poi) 0) ∧
    (Runs s g (.selI k) →
      CompletesF s g (.selI k) k.d k.shp (workLanes x k.msk k.d) (List.range k.shp.count)
        (fun l i => if (mreg x (k.imm.toNat / 2 ^ 24)).getLsbD l then srcAI x k l i else immI k.shp 24 k.imm) (fun _ _ => 0)
        (fun l => (mreg x (k.imm.toNat / 2 ^ 24)).getLsbD l && (opVal x k.shp k.a l).poi) 0)

/-- MOP combines two masks in the live lanes (R118), an FP constant supplying its FP64 bits (log 33); with no live lane it does nothing (log 32), and
a poisoned source raises POISON_CONSUMED. MCNT writes a count, the first set lane or the rank over the live lanes of a mask into every live lane
(R119). MMOV moves between masks and registers by its four forms (R120); a poisoned source of a mask raises POISON_CONSUMED. -/
def Obligations.MaskWords : Prop :=
  (
    ∀ (s : State) (g : Nat) (f : FmtA) (k : FmtI),
      let x := s.grp g
      ∀ p ∈ [(Instr.mop f, f.msk, f.d, f.fam.toNat, maskSrc x f.a, maskSrc x f.b),
             (Instr.mopI k, k.msk, k.d, k.imm.toNat / 2 ^ 24, maskSrc x k.a, (⟨BitVec.ofNat 64 (immI .i64 24 k.imm), false⟩ : PV))],
      ∀ n, p.2.2.1 = .m n → Runs s g p.1 →
        let live := liveOf x p.2.1
        let a := p.2.2.2.2.1.val.setWidth 32
        let b := p.2.2.2.2.2.val.setWidth 32
        let poi := p.2.2.2.2.1.poi || (p.2.2.2.1 != 4 && p.2.2.2.2.2.poi)
        let r : BitVec 32 := match p.2.2.2.1 with
          | 0 => a &&& b
          | 1 => a ||| b
          | 2 => a ^^^ b
          | 3 => a &&& ~~~b
          | _ => ~~~a
        (live = 0 ∨ poi = false → ∃ t, exec p.1 s = .next t ∧ OnlyGroup s t g ∧ DidMask x (t.grp g) n.toNat live r 0) ∧
        (live ≠ 0 → poi = true → Traps s g p.1 0x18 0)) ∧
  (
    ∀ (s : State) (g : Nat) (f : FmtA) (k : FmtI),
      let x := s.grp g
      ∀ p ∈ [(Instr.mcnt f, f.msk, f.d, f.a, f.fam.toNat), (Instr.mcntI k, k.msk, k.d, k.a, k.imm.toNat / 2 ^ 24)], Runs s g p.1 →
        let live := lanes (liveOf x p.2.1)
        let hit := live.filter (fun l => (maskSrc x p.2.2.2.1).val.getLsbD l)
        CompletesF s g p.1 p.2.2.1 .i64 live [0] (fun l _ => match p.2.2.2.2 with
          | 0 => hit.length
          | 1 => hit.headD 32
          | _ => (hit.filter (fun h => h < l)).length) (fun _ _ => 0) (fun _ => false) 0) ∧
  (
    ∀ (s : State) (g : Nat) (f : FmtA) (k : FmtI),
      let x := s.grp g
      ∀ p ∈ [(Instr.mmov f, f.msk, f.d, f.a, f.fam.toNat), (Instr.mmovI k, k.msk, k.d, k.a, k.imm.toNat / 2 ^ 24)], Runs s g p.1 →
        let live := liveOf x p.2.1
        let src := maskSrc x p.2.2.2.1
        let a := opVal x .i64 p.2.2.2.1
        (p.2.2.2.2 = 0 → ∀ n, p.2.2.1 = .m n →
          (live = 0 ∨ src.poi = false → ∃ t, exec p.1 s = .next t ∧ OnlyGroup s t g ∧ DidMask x (t.grp g) n.toNat live (src.val.setWidth 32) 0) ∧
          (live ≠ 0 → src.poi = true → Traps s g p.1 0x18 0)) ∧
        (p.2.2.2.2 = 1 → CompletesF s g p.1 p.2.2.1 .i64 (lanes live) [0] (fun _ _ => src.val.toNat) (fun _ _ => 0) (fun _ => false) 0) ∧
        (p.2.2.2.2 = 2 → ∀ n, p.2.2.1 = .m n →
          ((∀ l ∈ lanes live, (a l).poi = false) → ∃ t hit, exec p.1 s = .next t ∧ OnlyGroup s t g ∧ DidMask x (t.grp g) n.toNat live hit 0 ∧
            ∀ l < 32, live.getLsbD l = true → hit.getLsbD l = ((a l).val != 0)) ∧
          ((∃ l ∈ lanes live, (a l).poi = true) → Traps s g p.1 0x18 0)) ∧
        (p.2.2.2.2 = 3 → CompletesF s g p.1 p.2.2.1 .i64 (lanes live) [0] (fun l _ => if src.val.getLsbD l then 1 else 0) (fun _ _ => 0) (fun _ => false) 0))

-- ===== conversions =====

/-- CVT converts by the part rule, PACK two sources into the halves of the destination, QNT and DQNT under the scale in B (R121 to R125): the places
written, each value rounded once, the draws of rs in ascending order of the places, poison and flags; nothing else changes. QNT.scl gives every lane
it works in the E8M0 scale of its block over the block's live elements; a poisoned live lane poisons its block (R29, R124). A word that selects rs
draws for every value it writes, integers to integers too (R38). -/
def Obligations.Conversions : Prop :=
  (
    ∀ (s : State) (g : Nat) (f : FmtC) (src : Shape), f.srcShape? = some src →
      let x := s.grp g
      let m := modeOf x f.rnd
      let ns := src.count
      let nd := f.shp.count
      let ls := workLanes x f.msk f.d
      let places := convPlaces ns nd f.part
      let a := fun l j => subOf src.width (convFrom ns nd f.part j) (opVal x src f.a l).val.toNat
      let dr := fun l j => drawFor m x l (convNth ns nd f.part j)
      let e := fun l => (opVal x .i64 f.b l).val.toNat % 256
      let pa := fun l => (opVal x src f.a l).poi
      let pab := fun l => (opVal x src f.a l).poi || (opVal x .i64 f.b l).poi
      let n := if m = .rs then places.length else 0
      (WellFormed (.cvt f) → Runs s g (.cvt f) →
        let r := fun l j => convBits src f.shp (f.fam.getLsbD 0) (f.fam.getLsbD 1) m f.sat (dr l j) (a l j)
        CompletesF s g (.cvt f) f.d f.shp ls places (fun l j => (r l j).1) (unlessPoi pa (fun l j => (r l j).2)) pa n) ∧
      (WellFormed (.pack f) → Runs s g (.pack f) →
        let poi := fun l => (opVal x src f.a l).poi || (opVal x src f.b l).poi
        let r := fun l j => convBits src f.shp (f.fam.getLsbD 0) (f.fam.getLsbD 1) m f.sat (drawFor m x l j)
          (subOf src.width (j % ns) (opVal x src (if j < ns then f.a else f.b) l).val.toNat)
        CompletesF s g (.pack f) f.d f.shp ls (List.range nd) (fun l j => (r l j).1) (unlessPoi poi (fun l j => (r l j).2)) poi
          (if m = .rs then nd else 0)) ∧
      (WellFormed (.qnt f) → Runs s g (.qnt f) →
        let r := fun l j => qntBits src f.shp m (e l) (dr l j) (a l j)
        CompletesF s g (.qnt f) f.d f.shp ls places (fun l j => (r l j).1) (unlessPoi pab (fun l j => (r l j).2)) pab n) ∧
      (WellFormed (.dqnt f) → Runs s g (.dqnt f) →
        let r := fun l j => dqntBits src f.shp m f.sat (e l) (dr l j) (a l j)
        CompletesF s g (.dqnt f) f.d f.shp ls places (fun l j => (r l j).1) (unlessPoi pab (fun l j => (r l j).2)) pab n)) ∧
  (
    ∀ (s : State) (g : Nat) (f : FmtC) (src : Shape), f.srcShape? = some src → WellFormed (.qntScl f) → Runs s g (.qntScl f) →
      let x := s.grp g
      let per := (if f.fam.toNat = 4 then 32 else if f.fam.toNat = 5 then 16 else 64) / src.count
      let blk := fun l => (lanes (liveOf x f.msk)).filter (fun k => k / per == l / per)
      let vals := fun l => (List.range src.count).map (fun i => (shapeFmt src false).decode (subOf src.width i (opVal x src f.a l).val.toNat))
      CompletesF s g (.qntScl f) f.d .i64 (workLanes x f.msk f.d) [0] (fun l _ => (blockScale (quantFmt f.shp) ((blk l).flatMap vals)).1)
        (unlessPoi (fun l => (opVal x src f.a l).poi) (fun l _ => flagIf ((vals l).any (fun v => v.isNan || v.isInf)) fNV))
        (fun l => (blk l).any (fun k => (opVal x src f.a k).poi)) 0)

-- ===== lanes together =====

/-- SHFL takes its elements from all 32 lanes by mode and index; XPERM takes them, or table entries, by its pattern table, as a result in flight
(R126, R127, R129, R130). A poisoned index raises POISON_CONSUMED before any lane is written. PTLD replaces a pattern table by the kilobyte at its
address as relaxed loads of the group find it at issue, with the poison of its lines, and leaves the other tables and every register alone; a failed
check raises its own cause (R131, log 5), and a poisoned base POISON_CONSUMED with the address 0 (log 34). -/
def Obligations.ShufflesAndPatternTables : Prop :=
  (
    ∀ (s : State) (g : Nat) (f : FmtC),
      let x := s.grp g
      let n := f.shp.count
      let w := f.shp.width
      let ls := workLanes x f.msk f.d
      (Runs s g (.shfl f) →
        let src := fun l i => shflFrom f.fam.toNat (32 * n) ((opVal x f.shp f.b l).val.toNat % 2 ^ 16) i (l * n + i)
        ((∀ l ∈ ls, (opVal x f.shp f.b l).poi = false) →
          CompletesF s g (.shfl f) f.d f.shp ls (List.range n) (fun l i => elemOf x f.shp f.a (src l i)) (fun _ _ => 0)
            (fun l => (List.range n).any (fun i => elemPoi x f.shp f.a (src l i))) 0) ∧
        ((∃ l ∈ ls, (opVal x f.shp f.b l).poi = true) → Traps s g (.shfl f) 0x18 0)) ∧
      (Runs s g (.xperm f) →
        let ent := fun d => x.ptab.get (512 * (f.fam.toNat % 4) + d)
        let entPoi := fun d => x.ptabPoi.get (16 * (f.fam.toNat % 4) + d / 32)
        let zero := fun d => (ent d).getLsbD 15 || 32 * n ≤ (ent d).toNat % 512
        let from' := fun d => if (ent d).getLsbD 9 then f.b else f.a
        let idx := fun l i => subOf w i (opVal x f.shp f.a l).val.toNat % 512
        (f.fam.toNat < 4 →
          CompletesV s g (.xperm f) f.d f.shp ls (List.range n)
            (fun l i => if zero (l * n + i) then 0 else elemOf x f.shp (from' (l * n + i)) ((ent (l * n + i)).toNat % 512)) (fun _ _ => 0)
            (fun l => (List.range n).any (fun i => entPoi (l * n + i) ||
              (!zero (l * n + i) && elemPoi x f.shp (from' (l * n + i)) ((ent (l * n + i)).toNat % 512)))) 0) ∧
        (4 ≤ f.fam.toNat → (∀ l ∈ ls, (opVal x f.shp f.a l).poi = false) →
          CompletesV s g (.xperm f) f.d f.shp ls (List.range n) (fun l i => (ent (idx l i)).toNat % 2 ^ w) (fun _ _ => 0)
            (fun l => (List.range n).any (fun i => entPoi (idx l i))) 0) ∧
        (4 ≤ f.fam.toNat → (∃ l ∈ ls, (opVal x f.shp f.a l).poi = true) → Traps s g (.xperm f) 0x18 0))) ∧
  (
    ∀ (s : State) (g : Nat) (f : FmtC), Runs s g (.ptld f) →
      let x := s.grp g
      let j := f.fam.toNat % 4
      let a := opVal x .i64 f.a 0
      (a.poi = true → Traps s g (.ptld f) 0x18 0) ∧
      (a.poi = false → ∀ e, checkAddr s x.ctx x.sup .load false a.val 1024 = .error e → Traps s g (.ptld f) e.cause e.addr) ∧
      (a.poi = false → ∀ xl, checkAddr s x.ctx x.sup .load false a.val 1024 = .ok xl →
        let u := seenSpan (performAll s g) g xl.key xl.pa 1024 xl.leaf.cp
        let fs := findSpan u g xl.key xl.pa 1024 xl.leaf.cp
        let byteOf := fun i => (fs.getD i ⟨0, 0, false, false⟩).byte
        ∃ t, exec (.ptld f) s = .next t ∧ OnlyGroup u t g ∧
          t.grp g = { stepOn (u.grp g) with ptab := (t.grp g).ptab, ptabPoi := (t.grp g).ptabPoi } ∧
          (∀ e < 512, (t.grp g).ptab.get (512 * j + e) = byteOf (2 * e + 1) ++ byteOf (2 * e)) ∧
          (∀ k, k < 512 * j ∨ 512 * (j + 1) ≤ k → (t.grp g).ptab.get k = x.ptab.get k) ∧
          (∀ k < 16, (t.grp g).ptabPoi.get (16 * j + k) = ((fs.drop (64 * k)).take 64).any (·.poi)) ∧
          (∀ k, k < 16 * j ∨ 16 * (j + 1) ≤ k → (t.grp g).ptabPoi.get k = x.ptabPoi.get k)))

/-- RED combines the live lanes along the fixed tree of R45, SCAN along the aligned subtrees of R46 (R128): the values, one poison for all, the flags
once. An integer addition along a tree is the sum modulo 2^w. The minimum and the maximum of numbers are one of them, whatever the saturate bit says
(R114, R128; log 33 says why over R40). A sum of floating-point numbers whose `.dyn` selects rs rounds under it, each node with a free draw, and every
live lane's stochastic state advances once for each of its sub-elements (R38, log 33). -/
def Obligations.ReductionsAndScans : Prop :=
  ∀ (s : State) (g : Nat) (f : FmtC),
    let x := s.grp g
    let n := f.shp.count
    let live := lanes (liveOf x f.msk)
    let op := f.fam.toNat
    let uns := f.ctl.getLsbD 0
    let m := modeOf x f.rnd
    let fn : Nat → Comb := fun i k a b =>
      redFn f.shp op m f.sat uns (if m = .rs then Config.nodeDraw (drawSeed x (liveOf x f.msk)) (4096 * i + k) % 2 ^ 24 else 0) a b
    let ident := redIdent f.shp op uns
    let poi := fun (_ : Nat) => live.any (fun l => (opVal x f.shp f.a l).poi)
    let draws := if m = .rs ∧ f.shp.isInt = false ∧ op = 0 then n else 0
    let col := fun i => treeNode (fn i) (scanLeaf x f i) 5 0
    let all := treeNode (fn n) (fun i => if i < n then some (nodeVal (col i) ident, 0) else none) (Nat.log2 n) 0
    let pre := fun l i => prefixNode (fn i) (scanLeaf x f i) (if f.ctl.getLsbD 1 then l else l + 1) 5 0 none
    let sum := fun (p : Nat → Bool) i => ((live.filter p).map (fun k => subOf f.shp.width i (opVal x f.shp f.a k).val.toNat)).sum % 2 ^ f.shp.width
    (WellFormed (.red f) → Runs s g (.red f) →
      (f.ctl.getLsbD 1 = false → CompletesF s g (.red f) f.d f.shp live (List.range n) (fun _ i => nodeVal (col i) ident)
        (unlessPoi poi (fun _ i => nodeFlags (col i))) poi draws) ∧
      (f.ctl.getLsbD 1 = true → CompletesF s g (.red f) f.d f.shp live (List.range n) (fun _ i => if i = 0 then nodeVal all ident else 0)
        (unlessPoi poi (fun _ i => nodeFlags (col i) ||| nodeFlags all)) poi draws) ∧
      (f.shp.isInt = true → op = 0 → f.sat = false → ∀ i < n, nodeVal (col i) ident = sum (fun _ => true) i)) ∧
    (WellFormed (.scan f) → Runs s g (.scan f) →
      CompletesF s g (.scan f) f.d f.shp live (List.range n) (fun l i => nodeVal (pre l i) ident) (unlessPoi poi (fun l i => nodeFlags (pre l i))) poi draws ∧
      (f.shp.isInt = true → op = 0 → f.sat = false → ∀ l ∈ live, ∀ i < n,
        nodeVal (pre l i) ident = sum (fun k => k < l || (k == l && !f.ctl.getLsbD 1)) i))

-- ===== the group family (chapter 05) =====

/-- RXA takes the missing blocks all or nothing, with zeroed registers, or waits at its word on the pool line; RXR gives blocks back and writes the
pool line, unless a register of theirs is hazardous or pending; either does nothing where the count already holds (R83 to R85, R211). -/
def Obligations.BlocksAreAcquiredAndReleased : Prop :=
  (∀ (s : State) (g : Nat) (n : BitVec 3), Runs s g (.rxa n) →
    let x := s.grp g
    let need := n.toNat - x.blocks
    (n.toNat ≤ x.blocks → ∃ t, exec (.rxa n) s = .next t ∧ OnlyGroup s t g ∧ t.grp g = stepOn x) ∧
    (x.blocks < n.toNat → need ≤ poolFree s (g / 48) → ∃ t, exec (.rxa n) s = .next t ∧ OnlyGroup s t g ∧
      t.grp g = { stepOn x with blocks := n.toNat, v := (t.grp g).v } ∧
      ∀ c l, c < 0x100 → l < 32 → rget (t.grp g) c l = if 32 * (x.blocks + 1) ≤ c ∧ c < 32 * (n.toNat + 1) then ⟨0, false⟩ else rget x c l) ∧
    (x.blocks < n.toNat → poolFree s (g / 48) < need → x.tx.act = false → ∃ t, exec (.rxa n) s = .next t ∧ OnlyGroup s t g ∧
      t.grp g = waitsAt s x [.pool (s.poolPos.get (g / 48))])) ∧
  (∀ (s : State) (g : Nat) (n : BitVec 3), Runs s g (.rxr n) →
    let x := s.grp g
    let regs := (List.range (32 * (x.blocks - n.toNat))).map (· + 32 * (n.toNat + 1))
    (x.blocks ≤ n.toNat → ∃ t, exec (.rxr n) s = .next t ∧ OnlyGroup s t g ∧ t.grp g = stepOn x) ∧
    (n.toNat < x.blocks → (∀ c ∈ regs, c ∉ (runState x).hazard ∧ pending x c = false) → ∃ t, exec (.rxr n) s = .next t ∧
      t = { s with groups := t.groups, poolPos := t.poolPos } ∧ t.poolPos.get (g / 48) = s.poolPos.get (g / 48) + 1 ∧
      (∀ k, k ≠ g → t.grp k = s.grp k) ∧ (t.grp g).blocks = n.toNat ∧ t.grp g = { stepOn x with blocks := n.toNat, v := (t.grp g).v } ∧
      ∀ c l, c < 0x100 → l < 32 → c < 32 * (n.toNat + 1) → rget (t.grp g) c l = rget x c l) ∧
    (n.toNat < x.blocks → ∀ c ∈ regs, (∀ b ∈ regs, b < c → b ∉ (runState x).hazard ∧ pending x b = false) →
      (c ∈ (runState x).hazard ∨ pending x c = true) → Traps s g (.rxr n) 0x03 (BitVec.ofNat 64 c)))

/-- SRD reads every special register of R87, the three counters as results in flight (R88); SWR writes the writable ones, with RSEED the stochastic
states of every lane, and a poisoned source raises POISON_CONSUMED (R38, R42, R89). TIMEN counts the clock at 10 / 36 nanoseconds a cycle (log 23). -/
def Obligations.SpecialRegistersAreReadAndWritten : Prop :=
  ∀ (s : State) (g : Nat),
    let x := s.grp g
    (∀ d sr, Runs s g (.srd d sr) →
      let ls := if opIsS d then [0] else lanes (active x)
      (∀ p ∈ specials s g, p.1 = sr.toNat →
        CompletesF s g (.srd d sr) d .i64 ls [0] (fun l _ => (p.2 l).toNat) (fun _ _ => 0) (fun _ => false) 0) ∧
      (∀ p ∈ counters s g, p.1 = sr.toNat →
        CompletesV s g (.srd d sr) d .i64 ls [0] (fun _ _ => p.2.toNat) (fun _ _ => 0) (fun _ => false) 0)) ∧
    (∀ a sr, Runs s g (.swr a sr) →
      let v := opVal x .i64 a 0
      (v.poi = true → Traps s g (.swr a sr) 0x18 0) ∧
      (v.poi = false → ∀ p ∈ specialsAfter x.spr v.val, p.1 = sr.toNat → ∃ t, exec (.swr a sr) s = .next t ∧ OnlyGroup s t g ∧
        t.grp g = { stepOn x with spr := p.2, rng := (t.grp g).rng } ∧
        ∀ l < 32, rngOf (t.grp g) l = if sr = 0x0C then seedState v.val l else rngOf x l) ∧
      (v.poi = false → ∀ p ∈ teamAfter (s.teams.get x.tid) v.val, p.1 = sr.toNat → ∃ t, exec (.swr a sr) s = .next t ∧
        t = { s with groups := t.groups, teams := t.teams } ∧ t.grp g = stepOn x ∧ (∀ k, k ≠ g → t.grp k = s.grp k) ∧
        t.teams.get x.tid = p.2 ∧ ∀ k, k ≠ x.tid → t.teams.get k = s.teams.get k))

-- ===== memory (chapter 07) =====

/-- LD, LDC and LDSH check every live lane first (R140), then go in flight with one queued read for each lane (R66, R151 to R153, R182). Reads of
device registers are answered at once (R411), after the group's earlier operations where they may not pass them (R162), and in compatibility mode the
lanes read past their own buffers (R183). -/
def Obligations.LoadsIssueTheirReads : Prop :=
  ∀ (s : State) (g : Nat) (f : FmtM),
    let x := s.grp g
    let c := opCode x f.d
    let off := f.off.signExtend 64
    let ls := workLanes x f.msk f.d
    let glb := checkLanes s x .load (!x.tx.act) f.shp f.a off ls
    let cst := checkLanes s x .load false f.shp f.a off ls
    let shr := firstTrap (ls.map (checkShared s x f.shp f.a off))
    (∀ p ∈ [(Instr.ld f, glb), (.ldc f, cst), (.ldsh f, shr)], Runs s g p.1 → ∀ e, p.2 = .error e → Traps s g p.1 e.cause e.addr) ∧
    (∀ p ∈ [(Instr.ld f, glb, !x.tx.act && !inCompat s x, false, false, f.scope, f.order), (.ldc f, cst, true, false, true, .grp, .rlx),
            (.ldsh f, shr, !inCompat s x, true, false, f.scope, f.order)], Runs s g p.1 → p.2.2.1 = true →
      let (shared, ldc, sc, o) := p.2.2.2
      ∀ as, p.2.1 = .ok as → (shared = true ∨ ldc = true ∨ ∀ a ∈ as, inDevice a.xl.pa = false) →
      ∃ t fl, exec p.1 s = .next t ∧ OnlyGroup s t g ∧ t.nextId = s.nextId + as.length + 1 ∧ NextWord x (t.grp g) ∧
        Launched x (t.grp g) f.d fl [.ops] ∧ fl.tag = s.nextId ∧ fl.writes = [] ∧ fl.flags = 0 ∧
        t.grp g = { x with run := (t.grp g).run, inflight := (t.grp g).inflight, iq := x.iq ++ (List.range as.length).map (fun k =>
          let a := as.getD k default
          { id := s.nextId + 1 + k, word := s.nextId, kind := .load a.ext, shared := shared, ldc := ldc, pa := a.xl.pa, n := a.n, key := a.xl.key,
            sa := a.xl.leaf.sa, cp := a.xl.leaf.cp, scope := sc, order := o, tag := s.nextId, reg := c, lane := a.lane }) }) ∧
    (Runs s g (.ld f) → x.tx.act = false → isAcq f.order = false → ∀ as, glb = .ok as → as ≠ [] →
      (∀ a ∈ as, inDevice a.xl.pa = true ∧ (a.xl.pa < devBase + 0x100 ∨ devBase + 0x300 ≤ a.xl.pa)) →
      let u := if inCompat s x then performAll s g else beforeDev s g as
      ∃ t fl, exec (.ld f) s = .next t ∧ OnlyGroup u t g ∧ NextWord (u.grp g) (t.grp g) ∧
        Launched (u.grp g) (t.grp g) f.d fl (if inCompat s x then [] else [.ops]) ∧
        t.grp g = { u.grp g with run := (t.grp g).run, inflight := (t.grp g).inflight } ∧
        fl.writes = as.map (fun a => ⟨c, a.lane, ⟨(extend a.ext a.n (toBytes a.n (devReadN u a.xl.pa a.n).toNat) 127 0).1, false⟩⟩)) ∧
    (Runs s g (.ld f) → x.tx.act = false → inCompat s x = true → ∀ as, glb = .ok as → (∀ a ∈ as, inDevice a.xl.pa = false) →
      let u := as.foldl (fun s a => passClash s g a.xl.key (a.xl.pa / 64)) (performAll s g)
      let op := fun a => loadOp a 0 0 0 0 f.scope f.order false
      ∃ t fl, exec (.ld f) s = .next t ∧ runPc (t.grp g) = runPc x + 8 ∧ (t.grp g).inflight = (u.grp g).inflight ++ [fl] ∧ fl.regs = [c] ∧
        fl.waits = [] ∧ fl.writes = as.map (fun a => { (compatLoad u g op a).1 with reg := c })) ∧
    (Runs s g (.ldsh f) → inCompat s x = true → ∀ as, shr = .ok as →
      let u := passWhere (performAll s g) 3 g (fun _ => true)
      ∃ t fl, exec (.ldsh f) s = .next t ∧ runPc (t.grp g) = runPc x + 8 ∧ (t.grp g).inflight = (u.grp g).inflight ++ [fl] ∧ fl.regs = [c] ∧
        fl.waits = [] ∧ fl.writes = as.map (fun a => { (compatLoadSh u g a).1 with reg := c }))

/-- ST and STSH check every live lane, a release store outside a transaction its data first (R140, R152), and queue the lanes' stores, each within one
line, or within one word of the shared store (R149, R161): a byte that several lanes store is the highest lane's and stands in one queued store, and
poison goes to the lines (words) that a poisoned lane touches, whatever a higher lane writes (log 19). The lanes that cover a line whole with clean
data are one store of it (R152, log 4). Nothing else changes. In compatibility mode the bytes enter the lanes' buffers (R183), and a store to a device
register performs at once, after a release where the word is one (R411). -/
def Obligations.StoresIssueTheirWrites : Prop :=
  ∀ (s : State) (g : Nat) (f : FmtM),
    let x := s.grp g
    let off := f.off.signExtend 64
    let ls := workLanes x f.msk f.d
    let d := fun l => opVal x .i64 f.d l
    let rel := isRel f.order = true ∧ x.tx.act = false
    ∀ p ∈ [(Instr.st f, checkLanes s x .store (!x.tx.act) f.shp f.a off ls, false), (.stsh f, firstTrap (ls.map (checkShared s x f.shp f.a off)), true)],
      FramesAligned s → WellFormed p.1 → Runs s g p.1 →
      let unit := if p.2.2 then 8 else 64
      (rel → ∀ l ∈ ls, (d l).poi = true → (∀ k ∈ ls, k < l → (d k).poi = false) → Traps s g p.1 0x18 (laneAddr x f.a off l).val) ∧
      ((rel → ∀ l ∈ ls, (d l).poi = false) →
        (∀ e, p.2.1 = .error e → Traps s g p.1 e.cause e.addr) ∧
        (∀ as, p.2.1 = .ok as → inCompat s x = false → (p.2.2 = false → x.tx.act = false ∧ ∀ a ∈ as, inDevice a.xl.pa = false) →
          ∃ t ops, exec p.1 s = .next t ∧ OnlyGroup s t g ∧ t.grp g = { stepOn x with iq := x.iq ++ ops } ∧
            (∀ o ∈ ops, o.kind = .store ∧ o.shared = p.2.2 ∧ o.scope = f.scope ∧ o.order = f.order ∧ o.word = s.nextId ∧
              o.n = unit ∧ o.pa % unit = 0 ∧ (∃ a ∈ as, a.xl.pa / unit = o.pa / unit ∧ a.xl.key = o.key ∧ a.xl.leaf.cp = o.cp) ∧
              (o.poi = true → ∃ a ∈ as, a.xl.pa / unit = o.pa / unit ∧ (d a.lane).poi = true) ∧
              ∀ k < unit, ∀ b, o.bytes.get k = some b →
                ∃ a, covering as (o.pa + k) = some a ∧ a.xl.key = o.key ∧ b = byteFor a (d a.lane).val (o.pa + k)) ∧
            (∀ a ∈ as, (d a.lane).poi = true → ∃ o ∈ ops, o.pa / unit = a.xl.pa / unit ∧ o.key = a.xl.key ∧ o.poi = true) ∧
            (∀ pa a, covering as pa = some a → ∃ o ∈ ops, o.pa / unit = pa / unit ∧ o.key = a.xl.key ∧
              o.bytes.get (pa % unit) = some (byteFor a (d a.lane).val pa)) ∧
            ops.Pairwise (fun o q => o.pa = q.pa → ∀ k, o.bytes.get k = none ∨ q.bytes.get k = none) ∧
            (∀ line key, (∀ k < unit, ∃ a, covering as (unit * line + k) = some a ∧ a.xl.key = key) →
              (∀ a ∈ as, a.xl.pa / unit = line → (d a.lane).poi = false) → (ops.filter (fun o => o.pa / unit == line)).length = 1)) ∧
        (∀ as, p.2.1 = .ok as → inCompat s x = true → (p.2.2 = false → x.tx.act = false ∧ ∀ a ∈ as, inDevice a.xl.pa = false) →
          (∀ a ∈ as, cfull x a.lane p.2.2 a.xl.pa = false) →
          ∃ t, exec p.1 s = .next t ∧ OnlyGroup s t g ∧ t.grp g = { stepOn x with cbuf := (t.grp g).cbuf } ∧
            ∀ a ∈ as, ∀ i < a.n, (cbyte (t.grp g) a.lane p.2.2 (a.xl.pa + i)).map (·.1) = some (byteFor a (d a.lane).val (a.xl.pa + i))) ∧
        (∀ a, p.2.1 = .ok [a] → p.2.2 = false → x.tx.act = false → inDevice a.xl.pa = true →
          let u := devWriteN (if isRel f.order then releaseAt s g f.scope else beforeDev s g [a]) .super a.xl.pa a.n (d a.lane).val
          ∃ t, exec p.1 s = .next t ∧ OnlyGroup u t g ∧ t.grp g = stepOn (u.grp g)))

/-- A queued operation that may perform performs (R162 to R164, R168): a store's bytes become its group's newest ones, everything else reads as before
and no other agent sees it yet; a load delivers the bytes that the search finds. A store's bytes enter as one entry (log 4). An atomic performs in one
step at the instance of its scope, or further outward where its page keeps lines out of the caches (R150, log 4), after its group's own writes to its
bytes have come there (R168, R187 to R189): the old value is delivered with its poison; unless it is poisoned, or a compare fails, the new value is
the newest at that instance, and a compare that fails passes no write. At a page without SA an atomic narrower than `sys` that performs at the home
may find the value from before the last atomic of the other side (R176): whether it does is free (log 34). -/
def Obligations.OperationsPerform : Prop :=
  (
    ∀ (s : State) (g : Nat) (o : MemOp), (s.grp g).iq.find? (fun y => y.id == o.id) = some o → mayPerform s g o = true →
      (∀ fill, o.kind = .store → o.shared = false → o.cp = 0 → (∀ e ∈ (s.grp g).sb, e.line = o.pa / 64 → e.key = o.key) →
        let u := performId s g o.id fill
        u.h = s.h ∧ u.cv = s.cv ∧ u.dv = s.dv ∧ u.teams = s.teams ∧ OnlyGroup s u g ∧
        ∀ key pa ign, findByte u g key pa 0 ign =
          match (if pa / 64 = o.pa / 64 then o.bytes.get (pa % 64) else none) with
          | some b => ⟨0, b, o.poi, false⟩
          | none => findByte s g key pa 0 ign) ∧
      (∀ ext fill, o.kind = .load ext → ext = .zero ∨ ext = .sign → o.shared = false → o.ldc = false →
        let u := performId s g o.id fill
        let bs := findBytes s g o.key o.pa o.n 0 (loadIgn o)
        u.h = s.h ∧ u.teams = s.teams ∧ (∀ k, k ≠ g → u.grp k = s.grp k) ∧
        (isAcq o.order = true → ∀ lvl, 1 ≤ lvl → lvl ≤ 2 → lvl < scopeLevel o.scope → ∀ e ∈ ents u lvl (instOf g lvl), e.dirty = true) ∧
        u.grp g = deliver { s.grp g with iq := (s.grp g).iq.filter (fun y => y.id != o.id) } o.tag
          [⟨o.reg, o.lane, ⟨(extend ext o.n (bs.map (·.byte)) 127 0).1, bs.any (·.poi)⟩⟩] 0 (if bs.any (·.poi) then [(o.lane, pinfoOf false o.pa)] else []) ∧
        u.regs = (crossed s (homeDie o.pa) (instOf g 2) (bs.any (fun f => f.poi && f.lvl == 3))).regs)) ∧
  (
    ∀ (s : State) (g : Nat) (o : MemOp) (r : AtomReq) (fill : Bool), (s.grp g).iq.find? (fun y => y.id == o.id) = some o → mayPerform s g o = true →
      o.kind = .atomic r → (o.n = 4 ∨ o.n = 8) → o.pa % o.n = 0 →
      let u := performId s g o.id fill
      let lvl := max (atomLevel o.scope) (if o.cp = 0 then 0 else o.cp + 1)
      let v := passOwn (dequeue s g o.id) g lvl (fun e => e.holds o.pa o.n)
      let bs := findBytes v g o.key o.pa o.n lvl 0
      let here := ofBytes (bs.map (·.byte))
      let apart := o.sa = false ∧ o.scope ≠ .sys ∧ lvl = 3
      let old := match (if apart then s.oldWords.find? (fun w => w.host && w.pa == o.pa && w.n == o.n) else none) with
        | some w => if Config.lostUpdate s.tick then w.val else here
        | none => here
      let poi := bs.any (·.poi)
      let val := r.val.toNat % 2 ^ (8 * o.n)
      let new := if r.cas then val else atomNew r old val
      let fails := r.cas = true ∧ poi = false ∧ old ≠ r.cmp.toNat % 2 ^ (8 * o.n)
      (u.grp g).inflight = (deliver (s.grp g) o.tag [⟨o.reg, o.lane, ⟨BitVec.ofNat 64 old, poi⟩⟩] 0 []).inflight ∧
        (poi = true → u.h = v.h) ∧ (fails → u.h = s.h) ∧
        (poi = false → ¬fails → (lvl = 3 → u.h = (hWrite v o.key (o.pa / 64) (entBytes o.pa o.n new) false).h ∧
            (apart → (⟨o.pa, o.n, false, here⟩ : OldWord) ∈ u.oldWords)) ∧
          (lvl < 3 → ∀ i < o.n, findByte u g o.key (o.pa + i) lvl 0 = ⟨lvl, BitVec.ofNat 8 (new / 2 ^ (8 * i)), false, false⟩)))

/-- PRF fills clean copies and never traps but on a poisoned base (R154); FENCE queues its fence (R192); RFLUSH sends the atomic buffer's entries out
in order and returns their number when all are staged (R193). After a releasing step of a scope, no queued operation of the group is left and no dirty
entry of a write of the group remains inward of the scope's level (R167). -/
def Obligations.PrefetchesFencesAndReleases : Prop :=
  (
    (∀ (s : State) (g : Nat) (f : FmtM), Runs s g (.prf f) →
      let x := s.grp g
      let ls := lanes (liveOf x f.msk)
      let at' := fun l => laneAddr x f.a (f.off.signExtend 64) l
      (∀ l ∈ ls, (at' l).poi = true → (∀ k ∈ ls, k < l → (at' k).poi = false) → Traps s g (.prf f) 0x18 (at' l).val) ∧
      ((∀ l ∈ ls, (at' l).poi = false) → ∃ t, exec (.prf f) s = .next t ∧ t.grp g = stepOn x ∧ (∀ k, k ≠ g → t.grp k = s.grp k) ∧
        t = { s with cv := t.cv, dv := t.dv, groups := t.groups, regs := { s.regs with dbStat := t.regs.dbStat } } ∧
          ∀ k key pa, findByte t k key pa 0 3 = findByte s k key pa 0 3)) ∧
    (∀ (s : State) (g : Nat) (sc : Scope) (o : MOrder), Runs s g (.fence sc o) → inCompat s (s.grp g) = false →
      ∃ t, exec (.fence sc o) s = .next t ∧ OnlyGroup s t g ∧ t.nextId = s.nextId + 1 ∧
        t.grp g = { stepOn (s.grp g) with iq := (s.grp g).iq ++ [{ id := s.nextId, word := s.nextId, kind := .fence, scope := sc, order := o }] }) ∧
    (∀ (s : State) (g : Nat) (d : Opd), Runs s g (.rflush d) →
      let x := s.grp g
      let n := x.redo.length
      let ids := (List.range n).map (s.nextId + ·)
      let ps := (List.range n).map (fun k => ({
        id := s.nextId + k, ctx := x.ctx, grid := x.spr.grid, ent := x.redo.getD k default, src := x.srcKey, seq := x.flushes } : Partial))
      ∃ t, exec (.rflush d) s = .next t ∧
        Returns { s.setGrp g { x with redo := [], flushes := x.flushes + 1 } with flights := s.flights ++ ps, nextId := s.nextId + n } t g d
          (BitVec.ofNat 64 n) [.partials ids])) ∧
  (
    ∀ (s : State) (g : Nat) (sc : Scope), (releaseAt s g sc).grp g = { (releaseAt s g sc).grp g with iq := [] } ∧
      ownDirty (releaseAt s g sc) g (scopeLevel sc) = false ∧ (sc ≠ .grp → ∀ e ∈ ((releaseAt s g sc).grp g).shsb, e.dirty = false))

-- ===== atomics, copies =====

/-- AMO and CAS check the poison of their data, then every lane's address with write permission (R140, R144, R186, R188, R189), and queue one atomic
for each lane in lane order; the old values return in flight. That the data come before the addresses is log 31. -/
def Obligations.AtomicWordsIssue : Prop :=
  ∀ (s : State) (g : Nat) (f : FmtAt),
    let x := s.grp g
    let c := opCode x f.d
    let ls := workLanes x f.msk f.d
    let chk := firstTrap (ls.map (checkAtom s x f))
    let d := fun l => opVal x (atShape f.shp) f.d l
    let next := f.d.code.toNat + 1
    let amo : Nat → AtomReq := fun l => { op := f.op, wide := atWide f.shp, fp := atFp f.shp, val := (d l).val }
    let cas : Nat → AtomReq := fun l => { cas := true, wide := atWide f.shp, val := (opVal x .i64 f.d l).val, cmp := (rget x next l).val }
    ∀ p ∈ [(Instr.amo f, (fun l => (d l).poi), amo), (.cas f, (fun l => (opVal x .i64 f.d l).poi || (rget x next l).poi), cas)], Runs s g p.1 →
      (∀ l ∈ ls, p.2.1 l = true → (∀ k ∈ ls, k < l → p.2.1 k = false) → Traps s g p.1 0x18 (laneAddr x f.a (f.off.signExtend 64) l).val) ∧
      ((∀ l ∈ ls, p.2.1 l = false) →
        (∀ e, chk = .error e → Traps s g p.1 e.cause e.addr) ∧
        (∀ as, chk = .ok as → mayPass s x → ∃ t fl, exec p.1 s = .next t ∧ OnlyGroup s t g ∧ t.nextId = s.nextId + as.length + 1 ∧
          NextWord x (t.grp g) ∧ Launched x (t.grp g) f.d fl [.ops] ∧ fl.tag = s.nextId ∧ fl.writes = [] ∧ fl.flags = 0 ∧
          t.grp g = { passed s x with run := (t.grp g).run, inflight := (t.grp g).inflight, iq := x.iq ++ (List.range as.length).map (fun k =>
            let a := as.getD k default
            { id := s.nextId + 1 + k, word := s.nextId, kind := .atomic (p.2.2 a.lane), pa := a.xl.pa, n := a.n, key := a.xl.key, sa := a.xl.leaf.sa,
              cp := a.xl.leaf.cp, scope := f.scope, order := f.order, tag := s.nextId, reg := c, lane := a.lane }) }))

/-- REDO gathers each lane's value in the group's atomic buffer (R190): into the entry of its word and operation where there is one, else into a new
entry, before which the buffer is flushed when it holds five or has the word under another operation. Its addresses are checked before the poison of
its data (log 31). Registers and memory stay. A partial that arrives at its home settles alone where its context has no allowance, is staged within
the allowance, and above it settles its word early with the context's staged partials of the word, in the order of source and sequence, and sets ROL
(R191). -/
def Obligations.ReductionsGatherAndSettle : Prop :=
  (
    ∀ (s : State) (g : Nat) (f : FmtAt), Runs s g (.redo f) →
      let x := s.grp g
      let ls := workLanes x f.msk f.d
      let chk := firstTrap (ls.map (checkAtom s x f))
      let d := fun l => opVal x (atShape f.shp) f.d l
      (∀ e, chk = .error e → Traps s g (.redo f) e.cause e.addr) ∧
      (∀ as, chk = .ok as → ∀ l ∈ ls, (d l).poi = true → (∀ k ∈ ls, k < l → (d k).poi = false) →
        Traps s g (.redo f) 0x18 (laneAddr x f.a (f.off.signExtend 64) l).val) ∧
      (∀ as, chk = .ok as → (∀ l ∈ ls, (d l).poi = false) → mayPass s x → ∃ t, exec (.redo f) s = .next t ∧
        t = { s with groups := t.groups, flights := t.flights, nextId := t.nextId } ∧ (∀ k, k ≠ g → t.grp k = s.grp k) ∧
        t.grp g = { stepOn (passed s x) with redo := (t.grp g).redo, flushes := (t.grp g).flushes } ∧
        ∀ a, as = [a] →
          let e : RedoEnt := { pa := a.xl.pa, wide := atWide f.shp, fp := atFp f.shp, op := f.op, key := a.xl.key,
                               acc := BitVec.ofNat 64 ((d a.lane).val.toNat % 2 ^ (8 * a.n)) }
          let same := fun (h : RedoEnt) => h.pa = e.pa ∧ h.wide = e.wide ∧ h.fp = e.fp ∧ h.op = e.op
          ((∃ h ∈ x.redo, same h) → t.flights = s.flights ∧ (t.grp g).flushes = x.flushes ∧ (t.grp g).redo = x.redo.map (fun h =>
            if h.pa = e.pa && h.wide = e.wide && h.fp = e.fp && h.op = e.op then
              { h with acc := BitVec.ofNat 64 (atomNew { op := f.op, wide := e.wide, fp := e.fp } h.acc.toNat e.acc.toNat) } else h)) ∧
          ((∀ h ∈ x.redo, h.pa ≠ e.pa) → x.redo.length < 5 → t.flights = s.flights ∧ (t.grp g).flushes = x.flushes ∧ (t.grp g).redo = x.redo ++ [e]) ∧
          ((∀ h ∈ x.redo, ¬same h) → ((∃ h ∈ x.redo, h.pa = e.pa) ∨ 5 ≤ x.redo.length) → (t.grp g).redo = [e] ∧ (t.grp g).flushes = x.flushes + 1 ∧
            t.flights.map (·.ent) = s.flights.map (·.ent) ++ x.redo ∧
            ∀ p ∈ t.flights.drop s.flights.length, p.ctx = x.ctx ∧ p.grid = x.spr.grid ∧ p.src = x.srcKey ∧ p.seq = x.flushes))) ∧
  (
    ∀ (s : State) (ix : Nat) (p : Partial), s.flights[ix]? = some p →
      let stack := stackOf p.ent.pa
      let rdq := (s.ctxs.get p.ctx).rdq
      let n := if p.ent.wide then 8 else 4
      let mine := s.staged.filter (fun q => q.ctx == p.ctx && q.ent.pa == p.ent.pa && q.ent.wide == p.ent.wide)
      let room := (s.staged.filter (fun q => q.ctx == p.ctx && stackOf q.ent.pa == stack)).length < rdq * 4096
      let red := fun (v : Nat) (q : Partial) => atomNew { op := q.ent.op, wide := q.ent.wide, fp := q.ent.fp } v q.ent.acc.toNat
      let put := fun (key v : Nat) => (hWrite s key (p.ent.pa / 64) (entBytes p.ent.pa n v) false).h
      ∃ t, exec (.partialStaged ix) s = .next t ∧ t.flights = s.flights.eraseIdx ix ∧ t.groups = s.groups ∧ t.cv = s.cv ∧ t.dv = s.dv ∧
        (rdq = 0 → t.staged = s.staged ∧ t.h = if hPoi s (p.ent.pa / 64) then s.h else put p.ent.key (red (hNat s p.ent.key p.ent.pa n) p)) ∧
        (rdq ≠ 0 → room → t.staged = s.staged ++ [p] ∧ t.h = s.h ∧ t.regs = s.regs) ∧
        (rdq ≠ 0 → ¬room → t.staged = s.staged.filter (fun q => !mine.contains q) ∧ (t.regs.hbStat.get stack).getLsbD 3 = true ∧
          ∀ q r, sortPartials (mine ++ [p]) = q :: r →
            t.h = if hPoi s (p.ent.pa / 64) then s.h else put q.ent.key ((q :: r).foldl red (hNat s q.ent.key p.ent.pa n))))

/-- A result whose condition has come returns (R66, R69, R79): its registers take its values, its flags and poison records are added, its pending
bits clear, a parked group whose names have all returned becomes READY; nothing else changes, but for the acquire that some results carry. In a folded
chain the flags go to the FPMODE of the stage whose word it was (R246). A DRAIN
returns the number of lines that its core's earlier copies have poisoned, and forgets them (R157). -/
def Obligations.ResultsReturn : Prop :=
  ∀ (s : State) (g tag : Nat) (f : Flight), (s.grp g).inflight.find? (fun h => h.tag == tag) = some f → flightReady s (s.grp g) f = true →
    let x := s.grp g
    let cnt := drainCount s (g / 48) f.drainKinds f.tag % 2 ^ 32
    let f' := if f.drainKinds = 0 then f else { f with writes := f.writes ++ f.regs.map (fun c => ⟨c, 0, ⟨BitVec.ofNat 64 cnt, false⟩⟩) }
    let u := if f.acquire then acquireAt s g .dev else s
    let left := x.inflight.filter (fun h => h.tag != f.tag)
    let goes := x.life = .parked ∧ ∀ c ∈ x.parkNames, ∀ h ∈ left, c ∉ h.regs
    let own := x.chain = none ∨ f.stage = stageIx x
    ∃ t, exec (.classVResultReturn g tag) s = .next t ∧ t = { u with groups := t.groups, poiLines := t.poiLines, chains := t.chains } ∧
      (own → t.chains = s.chains) ∧
      (∀ c i, x.chain = some (c, i) → f.stage ≠ i → (∀ d, d ≠ c → t.chains.get d = s.chains.get d) ∧
        t.chains.get c = { s.chains.get c with stages := (s.chains.get c).stages.modify f.stage (fun p =>
          { p with st := { p.st with fpmode := p.st.fpmode ||| f.flags.setWidth 64 } }) }) ∧ (∀ k, k ≠ g → t.grp k = s.grp k) ∧
      t.poiLines = (if f.drainKinds = 0 then s.poiLines else s.poiLines.filter (fun e => !drainHit (g / 48) f.drainKinds f.tag e)) ∧
      t.grp g = { landed x f' with inflight := left, life := (t.grp g).life, parkNames := (t.grp g).parkNames, spr := { x.spr with
        fpmode := if own then x.spr.fpmode ||| f.flags.setWidth 64 else x.spr.fpmode, poisonInfo := notePoison x.spr.poisonInfo f.pinfo } } ∧
      (goes → (t.grp g).life = .ready ∧ (t.grp g).parkNames = []) ∧ (¬goes → (t.grp g).life = x.life ∧ (t.grp g).parkNames = x.parkNames)

/-- CPY reads its descriptor along its path, refuses a malformed one with QUEUE_DESC (what counts as malformed beyond R155 is log 34), checks every
row, releases, and hands the copy over (R155, R156, R177). DRAIN waits for the copies of its kinds that its core has accepted (R157). The descriptor
is read when the word issues (log 5). A copy completes (R156, R177): it leaves the copies in flight, and no group is touched. A team whose groups have
all exited and of which nothing else is in flight ends with it (log 16), and no running team ends or changes by a copy between global addresses. The
last row of a plain copy between global addresses, whose destination lies in one page, stands in H byte for byte as its source stood, poison with it;
no other byte or line of H changes. -/
def Obligations.CopiesAreIssuedAndComplete : Prop :=
  (
    (∀ (s : State) (g : Nat) (a : Opd), Runs s g (.cpy a) →
      let x := (performAll s g).grp g
      (∀ e, addrOf x a = .error e → Traps s g (.cpy a) e.cause e.addr) ∧
      ∀ va, addrOf x a = .ok va →
        let u := seenRange (performAll s g) g va 64
        (∀ e, readDesc u g va 64 64 = .error e → TrapsFrom s u g (.cpy a) e.cause e.addr) ∧
        ∀ ws, readDesc u g va 64 64 = .ok ws →
          ((copyBad ws (copyOf ws) || decTooBig u x (copyOf ws)) = true → TrapsFrom s u g (.cpy a) 0x40 va) ∧
          ((copyBad ws (copyOf ws) || decTooBig u x (copyOf ws)) = false →
            (∀ e, copyCheck u x (copyOf ws) = .error e → TrapsFrom s u g (.cpy a) e.cause e.addr) ∧
            ∀ xl, copyCheck u x (copyOf ws) = .ok xl →
              let v := releaseAt u g (if (copyOf ws).skind = 1 then .team else .dev)
              ∃ t, exec (.cpy a) s = .next t ∧ t = { v with groups := t.groups, copies := t.copies, nextId := s.nextId + 1 } ∧
                (∀ k, k ≠ g → t.grp k = v.grp k) ∧ t.grp g = stepOn (v.grp g) ∧
                t.copies = s.copies ++ [{ copyOf ws with id := s.nextId, core := g / 48, ctx := x.ctx, tid := x.tid, gid := g, xl := xl }])) ∧
    (∀ (s : State) (g : Nat) (d : Opd) (mem : BitVec 3), Runs s g (.drain d mem) →
      let x := s.grp g
      let ids := (s.copies.filter (fun c => c.core == g / 48 && mem.getLsbD c.dkind)).map (·.id)
      ∃ t, exec (.drain d mem) s = .next t ∧ OnlyGroup s t g ∧ NextWord x (t.grp g) ∧
        t.grp g = { x with run := (t.grp g).run, inflight := x.inflight ++
          [{ tag := s.nextId, regs := [opCode x d], waits := [.copies ids], drainKinds := mem.toNat }] } ∧
        (runState (t.grp g)).hazard = (runState x).hazard ++ [opCode x d])) ∧
  (
    ∀ (s : State) (id : Nat) (c : Copy), s.copies.find? (fun d => d.id == id) = some c →
      let src := (srcRow c c.row).toNat
      let dst := (dstRow c c.row).toNat
      let pd := paIn c.xl dst
      ∃ t, exec (.copyComplete id) s = .next t ∧ t.copies = s.copies.filter (fun d => d.id != id) ∧ t.groups = s.groups ∧
        let tm := s.teams.get c.tid
        (tm.ngroup ≤ tm.exits → (∀ e ∈ s.engines, ∀ n ∈ e.2, n.tid ≠ c.tid) → (∀ e ∈ s.groups, e.2.tid ≠ c.tid) →
          (∀ d ∈ s.copies, d.id ≠ id → d.tid ≠ c.tid) → (s.reentry.get c.tid).isEmpty → ∀ e ∈ t.teams, e.1 ≠ c.tid) ∧
        (c.rowlen = 0 → t.h = s.h ∧ (tm.exits < tm.ngroup → t.teams = s.teams)) ∧
        (c.row + 1 = c.rows → 0 < c.rowlen → c.dec = false → c.skind ≠ 1 → c.dkind ≠ 0 → alarmed s = false → (∀ k, keyIx s k = 0) →
          dst % 65536 + c.rowlen ≤ 65536 → (tm.exits < tm.ngroup → t.teams = s.teams) ∧
          (∀ i < c.rowlen, t.h.bytes.get (pd + i) = s.h.bytes.get (paIn c.xl (src + i))) ∧
          (∀ a, a < pd ∨ pd + c.rowlen ≤ a → t.h.bytes.get a = s.h.bytes.get a) ∧
          (∀ i < c.rowlen, s.h.poi.get (paIn c.xl (src + i) / 64) = true → t.h.poi.get ((pd + i) / 64) = true) ∧
          (∀ l, l < pd / 64 ∨ (pd + c.rowlen - 1) / 64 < l → t.h.poi.get l = s.h.poi.get l)))

-- ===== transactions (chapter 09) =====

/-- The transaction words (R196, R213 to R218): TBEGIN opens or nests, TEND closes a level, and the outermost one commits when its read set is valid,
after a release and with an acquire (R202, R203); RETRY parks on the read set or passes to the successor (R207); OTHERWISE records one; TABORT closes
and goes on. Outside a transaction the latter four are ILLEGAL. -/
def Obligations.TransactionWords : Prop :=
  ∀ (s : State) (g : Nat),
    let x := s.grp g
    let y := passed s x
    (Runs s g .tbegin →
      (x.tx.act = true → active x ≠ x.tx.lanes → RefusedInTx s g .tbegin 7) ∧
      (x.tx.act = true → active x = x.tx.lanes → x.tx.nest = 15 → RefusedInTx s g .tbegin 8) ∧
      (x.tx.act = true → active x = x.tx.lanes → x.tx.nest ≠ 15 → mayPass s x → ∃ t, exec .tbegin s = .next t ∧ OnlyGroup s t g ∧
        t.grp g = { stepOn y with tx := { x.tx with nest := x.tx.nest + 1 } }) ∧
      (x.tx.act = false → mayPass s x → ∃ t, exec .tbegin s = .next t ∧ OnlyGroup s t g ∧
        t.grp g = { stepOn y with tx := { act := true, lanes := active x, restart := placeHere x (runPc x) (active x) } })) ∧
    (∀ off, ∀ i ∈ [Instr.tend, .retry, .tabort, .otherwise off], Runs s g i →
      (x.tx.act = false → Traps s g i 0x01 0) ∧ (x.tx.act = true → active x ≠ x.tx.lanes → RefusedInTx s g i 7)) ∧
    (x.tx.act = true → active x = x.tx.lanes → mayPass s x →
      (Runs s g .tend → x.tx.nest ≠ 0 → ∃ t, exec .tend s = .next t ∧ OnlyGroup s t g ∧
        t.grp g = { stepOn y with tx := { x.tx with nest := x.tx.nest - 1 } }) ∧
      (Runs s g .tend → x.tx.nest = 0 → (∀ e ∈ x.tx.writes, ∀ b ∈ e.poi, b.2 = false) →
        let u := releaseAt (pastBoundary s g) g .dev
        (txValid u x = true → ∃ t, exec .tend s = .next t ∧ t.h = ((sortWrites x.tx.writes).foldl commitWrite u).h ∧
          (∀ k, k ≠ g → t.grp k = u.grp k) ∧
          t.grp g = { stepOn (u.grp g) with tx := {}, capCount := 0, spr := { x.spr with txCause := 0, txWpc := runPc x } }) ∧
        (txValid u x = false → exec .tend s = .next (conflictEnd u g))) ∧
      (Runs s g .retry → x.tx.succ = none → x.tx.reads ≠ [] → ∃ t, exec .retry s = .next t ∧ OnlyGroup s t g ∧ (t.grp g).tx = {} ∧
        (t.grp g).run = none ∧ (t.grp g).spr = { x.spr with txCause := 3, txWpc := runPc x } ∧
        (txValid s x = true → (t.grp g).life = .waiting ∧ (t.grp g).thaw = x.tx.reads.map (fun r => .mem r.line r.pos) ∧
          StandsAt x { t.grp g with life := .ready } x.tx.restart x.tx.lanes) ∧
        (txValid s x = false → StandsAt x (t.grp g) x.tx.restart x.tx.lanes)) ∧
      (Runs s g .retry → x.tx.succ ≠ none → ∃ t, exec .retry s = .next t ∧ OnlyGroup s t g ∧ AttemptFails x (t.grp g) 3) ∧
      (∀ off, Runs s g (.otherwise off) → x.tx.succ = none → x.tx.alt ≠ 3 → ∃ t, exec (.otherwise off) s = .next t ∧ OnlyGroup s t g ∧
        t.grp g = { stepOn y with tx := { x.tx with succ := some (placeHere x (runPc x + 8 * off.signExtend 64) (active x)) } }) ∧
      (∀ off, Runs s g (.otherwise off) → x.tx.succ ≠ none ∨ x.tx.alt = 3 → inCompat s x = false → RefusedInTx s g (.otherwise off) 8) ∧
      (Runs s g .tabort → ∃ t, exec .tabort s = .next t ∧ OnlyGroup s t g ∧
        t.grp g = { stepOn y with tx := {}, capCount := 0, spr := { x.spr with txCause := 4, txWpc := runPc x } }))

/-- Inside a transaction (R197, R198, R206): a load enters its lines into the read set and takes bytes from the write set first; a store enters the
write set; a word that a transaction does not admit ends the attempt; TX_CONFLICT ends an attempt whose read set has been written; a trap is taken at
the restart point, after the validation (R199, R205). The accesses read H when they issue (log 6). -/
def Obligations.TransactionsKeepTheirSets : Prop :=
  ∀ (s : State) (g : Nat),
    let x := s.grp g
    x.tx.act = true →
      (∀ f as u, Runs s g (.ld f) → checkLanes s x .load false f.shp f.a (f.off.signExtend 64) (workLanes x f.msk f.d) = .ok as →
        addReads s g (as.flatMap (txLoadLines x)) = some u →
        ∃ t fl, exec (.ld f) s = .next t ∧ (t.grp g).tx = (u.grp g).tx ∧ (t.grp g).inflight = (u.grp g).inflight ++ [fl] ∧ fl.regs = [opCode x f.d] ∧
          fl.waits = [] ∧ ∀ a ∈ as, a.ext = .zero → ∃ w ∈ fl.writes, w.lane = a.lane ∧
            w.pv = ⟨BitVec.ofNat 64 (ofBytes (txBytes u (u.grp g) a.xl.key a.xl.pa a.n).1), (txBytes u (u.grp g) a.xl.key a.xl.pa a.n).2⟩) ∧
      (∀ f as, FramesAligned s → WellFormed (.st f) → Runs s g (.st f) →
        checkLanes s x .store false f.shp f.a (f.off.signExtend 64) (workLanes x f.msk f.d) = .ok as →
        x.tx.writes.length + (as.map (fun a => a.xl.pa / 64)).eraseDups.length ≤ 8 →
        ∃ t, exec (.st f) s = .next t ∧ OnlyGroup s t g ∧ t.grp g = { stepOn x with tx := { x.tx with writes := (t.grp g).tx.writes } } ∧
          ∀ key pa, txByte s (t.grp g) key pa = match covering as pa with
            | some a => (byteFor a (opVal x .i64 f.d a.lane).val pa, (opVal x .i64 f.d a.lane).poi)
            | none => txByte s x key pa) ∧
      (∀ i, issuer s = some g → precheck s g i = .refused → RefusedInTx s g i 6) ∧
      (txValid s x = false → x.life = .issuing → x.run.isSome = true → (x.atBoundary && x.pastWord) = false → ∃ t, exec (.txConflict g) s = .next t ∧ OnlyGroup s t g ∧
        AttemptFails x (t.grp g) 1) ∧
      (∀ msk n, Runs s g (.trap msk n) → liveOf x msk ≠ 0 → CanSettle s g → txValid (settled s g) ((settled s g).grp g) = true → inHandler x = false →
        x.spr.uvec ≠ 0 → ∃ t, exec (.trap msk n) s = .next t ∧ (t.grp g).life = .issuing ∧ (t.grp g).tx = {} ∧ (t.grp g).spr.txCause = 5 ∧
          (t.grp g).spr.trapPc = x.tx.restart.pc ∧ (t.grp g).spr.trapAddr = n.signExtend 64 ∧ runPc (t.grp g) = x.spr.uvec ∧
          active (t.grp g) = x.tx.lanes ∧
          (t.grp g).trapS = some { pc := x.tx.restart.pc, prio := x.tx.restart.prio, depth := x.tx.restart.depth, lanes := x.tx.lanes })

-- ===== barriers (chapter 10) =====

/-- BINIT writes the whole line at its home after a release: the expected weight, nothing arrived, the phase kept, the rest zero (R231). BARV arrives
after a release of its scope (R224, R227, R231) and with R returns the old STATE, which a poisoned STATE leaves poisoned; an arrival without a group
is the same step (R225). The steps at the home are taken when the word issues (log 5). BWAIT reads STATE at its home: another phase than D's returns
it, with an acquire of its scope; the same phase waits on the line; a broken or a poisoned barrier traps (R211, R232). BTEST reads it as an acquiring
load of the device (R233). -/
def Obligations.Barriers : Prop :=
  (
    (∀ (s : State) (g : Nat) (a : Opd) (n : BitVec 24), Runs s g (.binit a n) →
      (∀ e, barAddr s (s.grp g) .store a = .error e → Traps s g (.binit a n) e.cause e.addr) ∧
      ∀ va xl, barAddr s (s.grp g) .store a = .ok (va, xl) →
        let u := settleLine (releaseAt s g .dev) g xl.key (xl.pa / 64)
        let ph := if hPoi u (xl.pa / 64) then 0 else barPhase (hNat u xl.key xl.pa 8)
        ∃ t, exec (.binit a n) s = .next t ∧ t = { u with h := t.h, groups := t.groups, regs := t.regs } ∧ (∀ k, k ≠ g → t.grp k = u.grp k) ∧
          t.grp g = stepOn (u.grp g) ∧
          (alarmed u = false → xl.key = 0 → xl.pa % 64 = 0 → hNat t 0 xl.pa 8 = barState n.toNat 0 ph 0 ∧ t.h.poi.get (xl.pa / 64) = false ∧
            (∀ i, 8 ≤ i → i < 64 → t.h.bytes.get (xl.pa + i) = 0) ∧ ∀ x, x < xl.pa ∨ xl.pa + 64 ≤ x → t.h.bytes.get x = u.h.bytes.get x)) ∧
    (∀ (s : State) (g : Nat) (r : Bool) (sc : Scope) (d a : Opd) (n : BitVec 16), Runs s g (.barv r sc d a n) →
      (∀ e, barAddr s (s.grp g) .store a = .error e → Traps s g (.barv r sc d a n) e.cause e.addr) ∧
      ∀ va xl, barAddr s (s.grp g) .store a = .ok (va, xl) →
        let u := settleLine (releaseAt s g sc) g xl.key (xl.pa / 64)
        let v := arrive u xl.key xl.pa n.toNat 0xFF
        (r = true → v.poi = false → ∃ t, exec (.barv r sc d a n) s = .next t ∧ Returns v.st t g d (BitVec.ofNat 64 (hNat u xl.key xl.pa 8)) []) ∧
        (r = true → v.poi = true → ∃ t fl old, exec (.barv r sc d a n) s = .next t ∧ OnlyGroup v.st t g ∧ t.h = u.h ∧
          NextWord (v.st.grp g) (t.grp g) ∧ Launched (v.st.grp g) (t.grp g) d fl [] ∧ fl.writes = [⟨opCode (u.grp g) d, 0, ⟨old, true⟩⟩]) ∧
        v.poi = hPoi u (xl.pa / 64) ∧
        (r = false → ∃ t, exec (.barv r sc d a n) s = .next t ∧ t.h = v.st.h ∧ (∀ k, k ≠ g → t.grp k = u.grp k) ∧ t.grp g = stepOn (u.grp g) ∧
          (v.poi = true → (t.regs.hbStat.get (stackOf xl.pa)).getLsbD 4 = true)) ∧
        (xl.key = 0 → xl.pa % 64 = 0 → alarmed u = false → Arrived u v.st xl.pa n.toNat)) ∧
    (∀ (s : State) (pa n : Nat) (src : BitVec 8), inMemory pa = true → pa % 64 = 0 → 0 < n → alarmed s = false →
      ∃ t, exec (.barrierArrival pa n src) s = .next t ∧ t = { s with h := t.h, regs := t.regs } ∧ Arrived s t pa n)) ∧
  (
    ∀ (s : State) (g : Nat) (sc : Scope) (d a : Opd),
      let x := s.grp g
      (Runs s g (.bwait sc d a) →
        let p := opVal x .i64 d 0
        (p.poi = true → Traps s g (.bwait sc d a) 0x18 0) ∧
        (p.poi = false → ∀ e, barAddr s x .load a = .error e → Traps s g (.bwait sc d a) e.cause e.addr) ∧
        (p.poi = false → x.tx.act = false → ∀ va xl, barAddr s x .load a = .ok (va, xl) →
          let u := settleLine s g xl.key (xl.pa / 64)
          let v := hNat u xl.key xl.pa 8
          (hPoi u (xl.pa / 64) = true → TrapsFrom s u g (.bwait sc d a) 0x18 va) ∧
          (hPoi u (xl.pa / 64) = false → barBroken v = true → TrapsFrom s u g (.bwait sc d a) 0x48 va) ∧
          (hPoi u (xl.pa / 64) = false → barBroken v = false → barPhase v = barPhase p.val.toNat →
            ∃ t, exec (.bwait sc d a) s = .next t ∧ WaitsOn u t g (xl.pa / 64)) ∧
          (hPoi u (xl.pa / 64) = false → barBroken v = false → barPhase v ≠ barPhase p.val.toNat →
            ∃ t, exec (.bwait sc d a) s = .next t ∧ Returns (acquireAt u g sc) t g d (BitVec.ofNat 64 v) []))) ∧
      (Runs s g (.btest d a) →
        (∀ e, barAddr s x .load a = .error e → Traps s g (.btest d a) e.cause e.addr) ∧
        ∀ va xl, barAddr s x .load a = .ok (va, xl) → x.tx.act = false →
          ∃ t fl, exec (.btest d a) s = .next t ∧ OnlyGroup s t g ∧ t.nextId = s.nextId + 2 ∧ NextWord x (t.grp g) ∧ Launched x (t.grp g) d fl [.ops] ∧
            fl.tag = s.nextId ∧ fl.writes = [] ∧ t.grp g = { x with run := (t.grp g).run, inflight := (t.grp g).inflight, iq := x.iq ++
              [{ id := s.nextId + 1, word := s.nextId, kind := .load .zero, pa := xl.pa, n := 8, key := xl.key, sa := xl.leaf.sa, cp := xl.leaf.cp,
                 scope := .dev, order := .acq, tag := s.nextId, reg := opCode x d, lane := 0 }] }))

-- ===== queues (chapter 11) =====

/-- QBIND binds a handle to a checked descriptor, and refuses a launch queue's; QBIND.free unbinds; QCNT returns the count; without a bound handle
QCNT traps. A descriptor that fails its address checks, lies on a poisoned line or is malformed traps (R234, R235, R238 to R242). The descriptor is
read when the word issues (log 5). -/
def Obligations.QueueWords : Prop :=
  ∀ (s : State) (g : Nat) (n : BitVec 3) (d a : Opd),
    let x := s.grp g
    (∀ p ∈ [(Instr.qbind a n, addrOf x a), (.qcnt d n, if (x.q.get n.toNat).bound then .ok (x.q.get n.toNat).addr else .error ⟨0x40, 0⟩)],
      Runs s g p.1 → (∀ e, p.2 = .error e → Traps s g p.1 e.cause e.addr) ∧
      (x.tx.act = false → ∀ va, p.2 = .ok va →
        (∀ e, checkAddr s x.ctx x.sup .load false va 64 = .error e → Traps s g p.1 e.cause e.addr) ∧
        ∀ xl, checkAddr s x.ctx x.sup .load false va 64 = .ok xl →
          let u := settleLine s g xl.key (xl.pa / 64)
          (hPoi u (xl.pa / 64) = true → TrapsFrom s u g p.1 0x18 va) ∧
          (hPoi u (xl.pa / 64) = false → (qdescOf va xl.key xl.pa (hRead u xl.key xl.pa 64)).bad = true → TrapsFrom s u g p.1 0x40 va))) ∧
    (Runs s g (.qbind a n) → ∀ va u q, addrOf x a = .ok va → queueFound s g .load va = some (u, q) →
      (q.lnch = true → TrapsFrom s u g (.qbind a n) 0x40 va) ∧
      (q.lnch = false → ∃ t, exec (.qbind a n) s = .next t ∧ OnlyGroup u t g ∧
        t.grp g = { stepOn (u.grp g) with q := x.q.set n.toNat { bound := true, link := false, addr := va } })) ∧
    (Runs s g (.qbindFree n) → ∃ t, exec (.qbindFree n) s = .next t ∧ OnlyGroup s t g ∧ t.grp g = { stepOn x with q := x.q.set n.toNat {} }) ∧
    (Runs s g (.qcnt d n) → x.tx.act = false → (x.q.get n.toNat).bound = true → ∀ u q, queueFound s g .load (x.q.get n.toNat).addr = some (u, q) →
      ∃ t, exec (.qcnt d n) s = .next t ∧ Returns u t g d (q.put - q.get) [])

/-- PUT pushes one element from s registers or one for each active lane from v registers, all or none, after a release, and returns how many; GET pops
them all, with an acquire, or waits on the descriptor's line; closed sides trap (R236, R237, R240, R241), after poison (log 34). The elements move when
the word issues (log 5). A push puts the elements' bytes in their slots and then raises PUTCNT; a pop raises GETCNT (R237); at homes without keys. -/
def Obligations.PutsAndGets : Prop :=
  (
    ∀ (s : State) (g : Nat) (n : BitVec 3) (d a : Opd),
      let x := s.grp g
      let hd := x.q.get n.toNat
      x.tx.act = false → hd.bound = true → hd.link = false → ∀ u q, queueFound s g .store hd.addr = some (u, q) →
        let line := q.pa / 64
        (Runs s g (.put d a n) → blockBad u (u.grp g) hd.addr a.code.toNat q.words = none →
          let ls := batchLanes x a
          let c := a.code.toNat
          (∀ i, elemPoison x c q.words ls = some i → TrapsFrom s u g (.put d a n) 0x18 (q.slot (q.put + BitVec.ofNat 64 i))) ∧
          (elemPoison x c q.words ls = none → q.cclosed = true → TrapsFrom s u g (.put d a n) 0x40 hd.addr) ∧
          (elemPoison x c q.words ls = none → q.cclosed = false → q.cap < q.count + ls.length →
            ∃ t, exec (.put d a n) s = .next t ∧ Returns (releaseAt u g .dev) t g d 0 []) ∧
          (elemPoison x c q.words ls = none → q.cclosed = false → q.count + ls.length ≤ q.cap →
            ∀ sl, qSlots u (gAcc x) .store q q.put ls.length = .ok sl →
              ∃ t, exec (.put d a n) s = .next t ∧
                Returns (qPush (settleSlots (releaseAt u g .dev) g sl) q sl (ls.map (elemBytes x c q.words))) t g d (BitVec.ofNat 64 ls.length) [])) ∧
        (Runs s g (.get d n) → blockBad u (u.grp g) hd.addr d.code.toNat q.words = none →
          let ls := batchLanes x d
          let c := d.code.toNat
          (q.count < ls.length → q.pclosed = true → TrapsFrom s u g (.get d n) 0x40 hd.addr) ∧
          (q.count < ls.length → q.pclosed = false → ∃ t, exec (.get d n) s = .next t ∧ WaitsOn u t g line) ∧
          (ls.length ≤ q.count → ∀ sl, qSlots u (gAcc x) .load q q.get ls.length = .ok sl →
            let v := settleSlots u g sl
            ∃ t fl, exec (.get d n) s = .next t ∧ t.h = (qPop v q ls.length).h ∧ (t.grp g).inflight = (v.grp g).inflight ++ [fl] ∧
              fl.regs = (List.range q.words).map (c + ·) ∧ fl.waits = [] ∧ runPc (t.grp g) = runPc x + 8 ∧
              fl.writes = (ls.zip (sl.map (getPieces v))).flatMap (fun e => (List.range q.words).map (fun i =>
                ⟨c + i, e.1, ⟨BitVec.ofNat 64 (ofBytes ((e.2.1.drop (8 * i)).take 8)), e.2.2⟩⟩))))) ∧
  (
    ∀ (s : State) (q : QDesc), alarmed s = false → q.key = 0 → q.pa % 64 = 0 →
      (∀ sl els, hWord (qPush s q sl els) 0 q.pa = q.put + BitVec.ofNat 64 els.length) ∧
      (∀ pa e, e ≠ [] → (pa + e.length ≤ q.pa ∨ q.pa + 8 ≤ pa) → hRead (qPush s q [[(0, pa, e.length)]] [e]) 0 pa e.length = e ∧
        ∀ x, (x < pa ∨ pa + e.length ≤ x) → (x < q.pa ∨ q.pa + 8 ≤ x) → (qPush s q [[(0, pa, e.length)]] [e]).h.bytes.get x = s.h.bytes.get x) ∧
      (∀ n, hWord (qPop s q n) 0 (q.pa + 8) = q.get + BitVec.ofNat 64 n ∧
        ∀ x, (x < q.pa + 8 ∨ q.pa + 16 ≤ x) → (qPop s q n).h.bytes.get x = s.h.bytes.get x))

-- ===== chains (chapter 12) =====

/-- CHLOAD reads and checks its descriptor, and births the chain where slots and blocks allow, else returns 0; every stage starts READY at its pc with
all lanes (R244, R245, R248, R256). The descriptor is read when the word issues (log 5). CHFOLD and CHSPREAD ask for the other form, or return at once
(R256). -/
def Obligations.ChainWords : Prop :=
  (∀ (s : State) (g : Nat) (d a : Opd), Runs s g (.chload d a) →
    (∀ e, addrOf (s.grp g) a = .error e → Traps s g (.chload d a) e.cause e.addr) ∧
    ∀ va, addrOf (s.grp g) a = .ok va →
      let v := seenRange (releaseAt s g .dev) g va 64
      (∀ e, readDesc v g va 64 64 = .error e → TrapsFrom s v g (.chload d a) e.cause e.addr) ∧
      ∀ hd, readDesc v g va 64 64 = .ok hd →
        let n := field (wordAt hd 0) 0 3 + 1
        let u := seenRange v g (va + 64) (32 * n)
        let x := v.grp g
        (∀ e, readRange u g (va + 64) (32 * n) = .error e → TrapsFrom s u g (.chload d a) e.cause e.addr) ∧
        (∀ bs l, readRange u g (va + 64) (32 * n) = .ok (bs, some l) → TrapsFrom s u g (.chload d a) 0x18 va) ∧
        ∀ bs, readRange u g (va + 64) (32 * n) = .ok (bs, none) →
        let ws := hd ++ toWords bs
        let ts := stagesOf ws n
        (stagesBad ws ts = true → TrapsFrom s u g (.chload d a) 0x40 va) ∧
        (stagesBad ws ts = false → (∀ e, linksCheck u x ts = .error e → TrapsFrom s u g (.chload d a) e.cause e.addr) ∧
          (linksCheck u x ts = .ok () →
            let b := chainBuild u g va ws ts
            let slots := freeSlots u (g / 48)
            let room := if flag (wordAt ws 0) 3 then 1 ≤ slots.length ∧ maxBlocks ts ≤ poolFree u (g / 48)
              else n ≤ slots.length ∧ sumBlocks ts ≤ poolFree u (g / 48)
            (∃ t, exec (.chload d a) s = .next t ∧ Returns b.2 t g d (BitVec.ofNat 64 b.1) []) ∧
            (¬room → b = (0, u)) ∧
            (room → b.1 = u.nextChain ∧ ((b.2.chains.get b.1).stages.map (·.pc)) = ts.map (·.pc)) ∧
            (room → flag (wordAt ws 0) 3 = false → ∀ i < n, ∀ k, slots[i]? = some k → (b.2.grp k).life = .ready ∧ (b.2.grp k).chain = some (b.1, i) ∧
              (b.2.grp k).frontier = [{ pc := (ts.getD i default).pc, mask := 0xFFFFFFFF }] ∧ (b.2.grp k).run = none ∧ (b.2.grp k).tid = x.tid) ∧
            (room → flag (wordAt ws 0) 3 = true → ∀ k, slots[0]? = some k → (b.2.grp k).life = .ready ∧ (b.2.grp k).chain = some (b.1, n - 1) ∧
              (b.2.grp k).frontier = [{ pc := (ts.getD (n - 1) default).pc, mask := 0xFFFFFFFF }]))) ) ∧
  (∀ (s : State) (g : Nat) (d : Opd), ∀ p ∈ [(Instr.chfold d, true), (.chspread d, false)], Runs s g p.1 →
    let x := s.grp g
    (x.chain = none → ∃ t, exec p.1 s = .next t ∧ Returns s t g d 4 []) ∧
    (∀ c i, x.chain = some (c, i) → (s.chains.get c).folded = p.2 → ∃ t, exec p.1 s = .next t ∧ Returns s t g d 1 []) ∧
    (∀ c i, x.chain = some (c, i) → (s.chains.get c).folded ≠ p.2 → ∃ t fl, exec p.1 s = .next t ∧ NextWord x (t.grp g) ∧
      Launched x (t.grp g) d fl [.chain c] ∧ fl.tag = s.nextId ∧ (∀ k, k ≠ g → t.grp k = s.grp k) ∧
      (t.chains.get c).wants = (s.chains.get c).wants ++ [⟨p.2, i, s.nextId, false⟩] ∧ ∀ k, k ≠ c → t.chains.get k = s.chains.get k))

/-- On a link handle of a folded chain PUT fills the link register and control passes on at the trailer; at a full one control passes at once to the
next stage. GET empties the register of the stage before; at an empty one control passes back (R249, R251). CHAIN_FOLD and CHAIN_SPREAD answer a
request that acts, or switch the form on the scheduler's account, when the stages stand where R252 to R255 allow it; then the chain has its other
form, and the group of the running stage runs it; which group that is, and the answer of a fold that finds an element it cannot read, are log 36. -/
def Obligations.ChainsMoveTheirElements : Prop :=
  (
    ∀ (s : State) (g : Nat) (n : BitVec 3) (d a : Opd) (c i : Nat),
      let x := s.grp g
      let hd := x.q.get n.toNat
      let h := s.chains.get c
      let at' := fun (h : Chain) (i : Nat) => h.stages.getD i default
      let passes := fun (i : Instr) (j : Nat) => ∃ t, exec i s = .next t ∧ (t.grp g).chain = some (c, j) ∧ (t.grp g).life = .ready ∧
        (t.chains.get c).running = j ∧ (t.grp g).v = x.v ∧ (t.grp g).s = x.s
      x.tx.act = false → hd.bound = true → hd.link = true → x.chain = some (c, i) → h.folded = true → i < h.stages.length →
        ∀ u q, queueFound s g .store hd.addr = some (u, q) →
        (Runs s g (.put d a n) → linkBad s x a (n == 1) = false → blockBad u (u.grp g) hd.addr a.code.toNat q.words = none →
          elemPoison x a.code.toNat q.words [0] = none → q.cclosed = false → (at' h (i + 1)).exited = false →
          ((at' h i).link ≠ none → passes (.put d a n) (i + 1)) ∧
          ((at' h i).link = none → ∃ t, exec (.put d a n) s = .next t ∧ Returns { releaseAt u g .dev with chains := t.chains } t g d 1 [] ∧
            (runState (t.grp g)).pass = some (i + 1) ∧
            (at' (t.chains.get c) i).link = some ((List.range q.words).map (fun k => (rget x (a.code.toNat + k) 0).val), false))) ∧
        (Runs s g (.get d n) → linkBad s x d (n == 0) = false → blockBad u (u.grp g) hd.addr d.code.toNat q.words = none →
          ((at' h (i - 1)).link = none → q.pclosed = false → (at' h (i - 1)).exited = false → passes (.get d n) (i - 1)) ∧
          (∀ ws poi, (at' h (i - 1)).link = some (ws, poi) → ∃ t fl, exec (.get d n) s = .next t ∧ fl ∈ (t.grp g).inflight ∧
            fl.regs = (List.range q.words).map (d.code.toNat + ·) ∧ (∀ k < q.words, ∀ w, ws[k]? = some w → ⟨d.code.toNat + k, 0, ⟨w, poi⟩⟩ ∈ fl.writes) ∧
            fl.pinfo = (at' h (i - 1)).linkPoi.map (fun w => (0, w)) ∧
            ((at' h (i - 1)).exited = false → (runState (t.grp g)).pass = some (i - 1)) ∧
            (at' (t.chains.get c) (i - 1)).link = none ∧ runPc (t.grp g) = runPc x + 8))) ∧
  (
    ∀ (s : State) (c : Nat),
      let h := s.chains.get c
      let ls := liveStages h
      let gs := ls.map (fun e => s.grp e.2.gid)
      let stands := gs.all (stageStands s c)
      let equiv := gs.all stagePlain && linksLight s h
      let x := s.grp h.gid
      (∀ w, h.wants.find? (fun w => w.on && w.fold) = some w → h.folded = true → exec (.chainFold c) s = .next (resolveWant s c w 1)) ∧
      (h.wants.find? (fun w => w.on && w.fold) = none → h.live = true → h.folded = false → h.noFold = false → ls ≠ [] → stands = true →
        equiv = true → foldRoom s h = true → (foldChain s c).isSome = true → ∃ t, exec (.chainFold c) s = .next t ∧ (t.chains.get c).folded = true ∧ (t.chains.get c).live = true ∧
          (t.chains.get c).gid = (ls.headD (0, default)).2.gid ∧
          (t.grp (t.chains.get c).gid).life = .ready ∧ (t.grp (t.chains.get c).gid).chain = some (c, (t.chains.get c).running)) ∧
      (∀ w, h.wants.find? (fun w => w.on && w.fold) = some w → h.folded = false → stands = true →
        (equiv = false → exec (.chainFold c) s = .next (resolveWant s c w 2)) ∧
        (equiv = true → foldRoom s h = false → exec (.chainFold c) s = .next (resolveWant s c w 3)) ∧
        (equiv = true → foldRoom s h = true → foldChain s c = none → exec (.chainFold c) s = .next (resolveWant s c w 2)) ∧
        (equiv = true → foldRoom s h = true → (foldChain s c).isSome = true →
          ∃ t, exec (.chainFold c) s = .next t ∧ (t.chains.get c).folded = true ∧ (∀ v ∈ (t.chains.get c).wants, v ≠ w))) ∧
      (∀ w, h.wants.find? (fun w => w.on && !w.fold) = some w → h.folded = false → exec (.chainSpread c) s = .next (resolveWant s c w 1)) ∧
      (h.live = true → h.folded = true → h.noSpread = false → spreadStands x = true → stagePlain x = true → spreadRoom s h = true →
        (∀ t ∈ h.stages, t.link = none) → ∃ t, exec (.chainSpread c) s = .next t ∧ (t.chains.get c).folded = false ∧
          (t.chains.get c).stages.map (·.pc) = h.stages.map (·.pc) ∧ t.h = (spreadReady s h.gid).h))

-- ===== tiles (chapter 13) =====

/-- The tile words (R257 to R263, R280 to R285): MXACQ waits for a busy tile, else takes its token, with the acquire of R178, and delivers a fault
left in it; MXREL gives the token back; MXRANK reads the header; MXRANK.set needs the token and the room, and makes the tile firn of a rank, with the
columns below the old rank kept, or dense: zero above RCAP with DFALL set, at 32 the tile's own value (R284). MXRD reads a vector of a tile into a
register, two elements a lane, with the tile's poison, or zeros where the tile has no such vector; MXWR writes a row, which makes a firn tile dense,
or a vector of a firn tile, from the active lanes; both need the token (R285), which is looked at before the poison of the operand (log 31). -/
def Obligations.TilesAreOwnedReadAndWritten : Prop :=
  (
    ∀ (s : State) (g : Nat) (d a : Opd) (z : BitVec 4),
      let x := s.grp g
      let tid := x.tid
      let n := z.toNat
      let tm := s.teams.get tid
      let tl := tm.tiles.get n
      let own : Tile := { tl with tok := true }
      let busy := tl.tok = false ∧ tileBusy s tid n = true
      (Runs s g (.mxacq d z) →
        (busy → ∃ t, exec (.mxacq d z) s = .next t ∧ OnlyGroup s t g ∧ t.grp g = waitsAt s x [.tiles tm.tlPos]) ∧
        (¬busy → tl.flt = 0 → ∃ t, exec (.mxacq d z) s = .next t ∧ Returns (mxAcquire (withTile s tid n own) g) t g d own.header []) ∧
        (¬busy → tl.flt ≠ 0 → TrapsFrom s (withTile (mxAcquire (withTile s tid n own) g) tid n { own with flt := 0 }) g (.mxacq d z)
          (if tl.flt = 1 then 0x29 else if tl.flt = 2 then 0x2A else 0x10) (BitVec.ofNat 64 (64 * tl.fblk)))) ∧
      (∀ drop, Runs s g (.mxrel drop z) →
        (tl.tok = false → ∃ t, exec (.mxrel drop z) s = .next t ∧ OnlyGroup s t g ∧ t.grp g = stepOn x) ∧
        (tl.tok = true → ∃ t, exec (.mxrel drop z) s = .next t ∧ OnlyTile s t g tid n ∧ t.grp g = stepOn x ∧
          (t.teams.get tid).tiles.get n = if drop then { tl with tok := false, dense := false, int := false, rank := 0, poi := false, d := [], u := [], v := [] }
            else { tl with tok := false })) ∧
      (Runs s g (.mxrank d z) → ∃ t, exec (.mxrank d z) s = .next t ∧ Returns s t g d tl.header []) ∧
      (Runs s g (.mxrankSet d a z) →
        let p := opVal x .i64 a 0
        let r := p.val.toNat
        let cap := tm.rcap.toNat % 32
        (tl.tok = false → Traps s g (.mxrankSet d a z) 0x28 (z.setWidth 64)) ∧
        (tl.tok = true → p.poi = true → Traps s g (.mxrankSet d a z) 0x18 0) ∧
        (tl.tok = true → p.poi = false → 32 < r → Traps s g (.mxrankSet d a z) 0x01 0) ∧
        (tl.tok = true → p.poi = false → r < 32 → cap < r → tm.tileMode.getLsbD 0 = false → Traps s g (.mxrankSet d a z) 0x29 (z.setWidth 64)) ∧
        (tl.tok = true → p.poi = false → r < 32 → r ≤ cap → roomFor tm n ((r + 3) / 4) false = false →
          Traps s g (.mxrankSet d a z) 0x2A (z.setWidth 64)) ∧
        (tl.tok = true → p.poi = false → r < 32 → r ≤ cap → roomFor tm n ((r + 3) / 4) false = true → ∃ t new, exec (.mxrankSet d a z) s = .next t ∧
          Returns (withTile s tid n new) t g d new.header [] ∧ new.tok = true ∧ new.dense = false ∧ new.rank = r ∧ new.poi = false ∧
          ∀ l < 32, ∀ i < 64, new.u.get (64 * l + i) = (if tl.dense = false ∧ l < tl.rank ∧ l < r then tl.u.get (64 * l + i) else 0) ∧
            new.v.get (64 * l + i) = (if tl.dense = false ∧ l < tl.rank ∧ l < r then tl.v.get (64 * l + i) else 0)) ∧
        (tl.tok = true → p.poi = false → r < 32 → cap < r → tm.tileMode.getLsbD 0 = true →
          (roomFor tm n 8 false = false → Traps s g (.mxrankSet d a z) 0x2A (z.setWidth 64)) ∧
          (roomFor tm n 8 false = true → ∃ t new, exec (.mxrankSet d a z) s = .next t ∧ Returns (withTile s tid n new) t g d new.header [] ∧
            new = { tl with dense := true, int := false, rank := 0, poi := false, d := [], u := [], v := [] })) ∧
        (tl.tok = true → p.poi = false → r = 32 → roomFor tm n 8 false = false → Traps s g (.mxrankSet d a z) 0x2A (z.setWidth 64)) ∧
        (tl.tok = true → p.poi = false → r = 32 → tl.dense = false → roomFor tm n 8 false = true → ∃ t new, exec (.mxrankSet d a z) s = .next t ∧
          Returns (withTile s tid n new) t g d new.header [] ∧
          new = { tl with dense := true, int := false, rank := 0, poi := false, d := new.d, u := [], v := [] } ∧
          ∀ i < 64, ∀ j < 64, new.d.get (64 * i + j) = ((tl.firnRow i).run 0).1.getD j 0) ∧
        (tl.tok = true → p.poi = false → r = 32 → tl.dense = true → roomFor tm n 8 false = true → ∃ t, exec (.mxrankSet d a z) s = .next t ∧
          Returns (withTile s tid n { tl with poi := false }) t g d ({ tl with poi := false } : Tile).header []))) ∧
  (
    ∀ (s : State) (g : Nat) (d a : Opd) (z : BitVec 4) (pt : TilePart),
      let x := s.grp g
      let tid := x.tid
      let n := z.toNat
      let tm := s.teams.get tid
      let tl := tm.tiles.get n
      let p := opVal x .i64 a 0
      let i := p.val.toNat
      let rowOf : Nat → Nat → BitVec 32 := fun j k => if tl.dense then tl.d.get (64 * j + k) else ((tl.firnRow j).run 0).1.getD k 0
      let vec : Option (Nat → BitVec 32) := match pt with
        | .row => if i < 64 then some (rowOf i) else none
        | .u => if !tl.dense && decide (i < tl.rank) then some (fun k => tl.u.get (64 * i + k)) else none
        | .v => if !tl.dense && decide (i < tl.rank) then some (fun k => tl.v.get (64 * i + k)) else none
      (∀ w ∈ [Instr.mxrd pt d a z, .mxwr pt d a z], Runs s g w → (tl.tok = false → Traps s g w 0x28 (z.setWidth 64)) ∧
        (tl.tok = true → p.poi = true → Traps s g w 0x18 0)) ∧
      (tl.tok = true → p.poi = false → Runs s g (.mxrd pt d a z) →
        let e := vec.getD (fun _ => 0)
        ∃ t fl, exec (.mxrd pt d a z) s = .next t ∧ OnlyGroup s t g ∧ NextWord x (t.grp g) ∧
          (t.grp g).inflight = x.inflight ++ [fl] ∧ fl.tag = s.nextId ∧ fl.regs = [opCode x d] ∧ fl.waits = [] ∧
          t.grp g = { x with run := (t.grp g).run, inflight := (t.grp g).inflight } ∧
          fl.pinfo = (if tl.poi then [(0, 0xC000000000000000#64 ||| z.setWidth 64)] else []) ∧
          fl.writes = (lanes (active x)).map (fun l => ⟨opCode x d, l, ⟨e (2 * l + 1) ++ e (2 * l), tl.poi⟩⟩)) ∧
      (tl.tok = true → p.poi = false → pt = .row → i < 64 → tl.dense = false → roomFor tm n 8 false = false → Runs s g (.mxwr pt d a z) →
        Traps s g (.mxwr pt d a z) 0x2A (z.setWidth 64)) ∧
      (tl.tok = true → p.poi = false → (pt = .row → tl.dense = false → roomFor tm n 8 false = true) → ∀ e, vec = some e →
        (Runs s g (.mxwr pt d a z) → ∃ t, exec (.mxwr pt d a z) s = .next t ∧ OnlyTile s t g tid n ∧ t.grp g = stepOn x ∧
          let new := (t.teams.get tid).tiles.get n
          let part := fun (y : Tile) => match pt with | .row => y.d | .u => y.u | .v => y.v
          let grows := pt = .row ∧ tl.dense = false
          (grows → new = { tl with dense := true, rank := 0, d := new.d, u := [], v := [], poi := new.poi }) ∧
          (¬grows → new = { tl with d := new.d, u := new.u, v := new.v, poi := new.poi }) ∧
          new.poi = (tl.poi || (lanes (active x)).any (fun l => (opVal x .f32x2 d l).poi)) ∧
          (∀ l < 32, (part new).get (64 * i + 2 * l) = (if (active x).getLsbD l then (opVal x .f32x2 d l).val.extractLsb' 0 32 else e (2 * l)) ∧
            (part new).get (64 * i + 2 * l + 1) = (if (active x).getLsbD l then (opVal x .f32x2 d l).val.extractLsb' 32 32 else e (2 * l + 1))) ∧
          (grows → ∀ j < 64, j ≠ i → ∀ k < 64, new.d.get (64 * j + k) = rowOf j k) ∧
          (¬grows → ∀ k, (k < 64 * i ∨ 64 * (i + 1) ≤ k) → (part new).get k = (part tl).get k))) ∧
      (tl.tok = true → p.poi = false → vecValid tl pt i = false → Runs s g (.mxwr pt d a z) → ∃ t, exec (.mxwr pt d a z) s = .next t ∧ OnlyGroup s t g ∧
        t.grp g = stepOn x))

/-- MXISS checks its parameter block and its maps in order (R267, R269, R283), returns 0 where the queue is full or saved entries of the team still
wait (log 37), and else enters the operation with its snapshots (R272) and returns 1. -/
def Obligations.TileOperationsAreIssued : Prop :=
  ∀ (s : State) (g : Nat) (d a : Opd), Runs s g (.mxiss d a) →
    let p := opVal (s.grp g) .i64 a 0
    let off := p.val.toNat
    let u := releaseAt s g .team
    let x := u.grp g
    let tm := u.teams.get x.tid
    let ws := shWords tm off 5
    let i := Instr.mxiss d a
    let ok := p.poi = false ∧ off % 64 = 0 ∧ off + 64 ≤ 4096 * tm.shm ∧ shPoisoned tm off 64 = false ∧ blockRefused ws = false ∧ mapChecks u tm ws = none
    (p.poi = true → Traps s g i 0x18 0) ∧
    (p.poi = false → off % 64 ≠ 0 → TrapsFrom s u g i 0x13 p.val) ∧
    (p.poi = false → off % 64 = 0 → 4096 * tm.shm < off + 64 → TrapsFrom s u g i 0x11 p.val) ∧
    (p.poi = false → off % 64 = 0 → off + 64 ≤ 4096 * tm.shm → shPoisoned tm off 64 = true → TrapsFrom s u g i 0x18 p.val) ∧
    (p.poi = false → off % 64 = 0 → off + 64 ≤ 4096 * tm.shm → shPoisoned tm off 64 = false → blockRefused ws = true → TrapsFrom s u g i 0x40 p.val) ∧
    (p.poi = false → off % 64 = 0 → off + 64 ≤ 4096 * tm.shm → shPoisoned tm off 64 = false → blockRefused ws = false → ∀ e, mapChecks u tm ws = some e →
      TrapsFrom s u g i e.cause e.addr) ∧
    (ok → ∀ xl, (if blkGlb (wordAt ws 0) then glbCheck u x.ctx x.sup ws else .ok []) = .ok xl →
      (∀ z ∈ namedTiles (wordAt ws 0), (tm.tiles.get z).tok = true → (namedTiles (wordAt ws 0)).head? = some z →
        TrapsFrom s u g i 0x28 (BitVec.ofNat 64 z)) ∧
      ((∀ z ∈ namedTiles (wordAt ws 0), (tm.tiles.get z).tok = false) →
        (16 ≤ (u.engines.get (g / 48)).length ∨ u.reentry.get x.tid ≠ [] → ∃ t, exec i s = .next t ∧ Returns u t g d 0 []) ∧
        ((u.engines.get (g / 48)).length < 16 → u.reentry.get x.tid = [] → ∃ t e, exec i s = .next t ∧
          Returns { u with engines := u.engines.upd (g / 48) (fun q => q ++ [e]), nextId := u.nextId + 1 } t g d 1 [] ∧
          e.id = u.nextId ∧ e.tid = x.tid ∧ e.ctx = x.ctx ∧ e.sup = x.sup ∧ e.blk = off ∧ e.words = ws ∧ e.xl = xl ∧ e.tol = tm.tol.setWidth 32 ∧
          e.rcap = tm.rcap.toNat % 32 ∧ e.dfall = tm.tileMode.getLsbD 0)))

/-- The operation at the head of a core's queue completes (R259, R271 to R278): it leaves the queue, its status word stands in its block, DZ has its
new content where the rank and the room allow it (dense above the rank cap with DFALL set), or a fault with the place of its block, and no group is
touched; a tile that RCMP or DNS copies onto itself stays (OUT 0, or 4) and needs no room (log 37). STT writes the tile's elements to the shared store
by the block's maps, here for formats of whole bytes without scales, or to memory, here FP32 rows of one page each, and nothing else but the status
word (R277). What the operations make (R270, R273 to R278): ZERO the zero tile of its form; an INT8 MMA of whole chunks the exact integer sums modulo
2^32; ADD of two firn tiles the columns of both, negated under SUB; MUL the product in the form that R276 gives, its factors taken over or formed by
dot; RCMP the kept columns of the steps of R278, or the tile itself; DNS the dense value; LDT the elements read; SCL the elements of the dense tile or
of U times the scalar. The saved entries of a restored team enter the engine's queue together, in their order, once there is room (R279, R367). -/
def Obligations.TheEnginePerforms : Prop :=
  (
    ∀ (s : State) (core : Nat) (e : EngEnt) (rest : List EngEnt), s.engines.get core = e :: rest → (∀ n ∈ rest, n.id ≠ e.id) →
      (s.teams.get e.tid).exits < (s.teams.get e.tid).ngroup → ∀ p ∈ engineOps core, blkOpc (wordAt e.words 0) = p.1 →
        let w := wordAt e.words 0
        let z := blkDz w
        let tm := s.teams.get e.tid
        let dz := tm.tiles.get z
        let c := ((contentOf s e).run e.flg).1
        let fl := ((contentOf s e).run e.flg).2
        let stays := (p.1 = 4 ∨ p.1 = 5) ∧ blkAz w = z ∧ (dz.dense = true ∨ c.2.1 = 4)
        let runs := skipTile s e = none ∧ e.badRow = none ∧ p.1 ≠ 7 ∧ ¬stays
        let src := !dz.res && (sourcesOf w false).contains z
        let room := roomFor tm z c.1.gran src
        let status := fun (t : State) => ((List.range 8).map (fun k => (t.teams.get e.tid).sh.get (e.blk / 64 * 64 + 56 + k)))
        ∃ t, exec p.2 s = .next t ∧ t.engines.get core = rest ∧ t.groups = s.groups ∧ (p.1 ≠ 7 → t.h = s.h) ∧
          (runs → c.1.dense = true ∨ c.1.rank ≤ e.rcap → room = true →
            let new := (t.teams.get e.tid).tiles.get z
            new.dense = c.1.dense ∧ new.int = c.1.int ∧ new.rank = c.1.rank ∧ new.d = c.1.d ∧ new.u = c.1.u ∧ new.v = c.1.v ∧ new.tok = dz.tok ∧
            new.res = false ∧ new.nextk = 0 ∧ new.flt = dz.flt ∧
            status t = toBytes 8 (c.2.1 * 2 ^ 56 + (if c.1.dense then 0 else c.1.rank) * 2 ^ 32 + fl.toNat)) ∧
          (skipTile s e = none → e.badRow = none → stays → (t.teams.get e.tid).tiles.get z = dz ∧
            status t = toBytes 8 (c.2.1 * 2 ^ 56 + (if dz.dense then 0 else dz.rank) * 2 ^ 32 + fl.toNat)) ∧
          (runs → c.1.dense = false → e.rcap < c.1.rank → e.dfall = true →
            (roomFor tm z 8 src = true → let new := (t.teams.get e.tid).tiles.get z
              new.dense = true ∧ new.int = false ∧ new.flt = dz.flt ∧
              ∀ i < 64, ∀ j < 64, new.d.get (64 * i + j) = (valueOf (c.1.firnRow i)).getD j 0) ∧
            (roomFor tm z 8 src = false → (t.teams.get e.tid).tiles.get z = { dz with flt := 2, fblk := e.blk / 64 })) ∧
          (runs → c.1.dense = false → e.rcap < c.1.rank → e.dfall = false → (t.teams.get e.tid).tiles.get z = { dz with flt := 1, fblk := e.blk / 64 }) ∧
          (runs → c.1.dense = true ∨ c.1.rank ≤ e.rcap → room = false → (t.teams.get e.tid).tiles.get z = { dz with flt := 2, fblk := e.blk / 64 }) ∧
          (p.1 = 7 → skipTile s e = none → e.badRow = none →
            let a := tm.tiles.get (blkAz w)
            let am := omapOf e.amap
            let bm := omapOf e.bmap
            let plain := fun (m : OMap) => fmtScaled m.fmt = false ∧ m.ef.width % 8 = 0
            let row := fun i j => if a.dense then a.d.get (64 * i + j) else (valueOf (a.firnRow i)).getD j 0
            let atStatus := fun x => e.blk / 64 * 64 + 56 ≤ x ∧ x < e.blk / 64 * 64 + 64
            let sh' := (t.teams.get e.tid).sh
            (t.teams.get e.tid).tiles = tm.tiles ∧
            (blkGlb w = false → t.h = s.h) ∧
            (blkGlb w = false → blkFirn w = false → plain am → OnlyBytes tm.sh sh' (placedBytes am 64 row) atStatus) ∧
            (blkGlb w = false → blkFirn w = true → a.dense = true → OnlyBytes tm.sh sh' [] atStatus) ∧
            (blkGlb w = false → blkFirn w = true → a.dense = false →
              am.beyond a.rank (4096 * tm.shm) = true ∨ bm.beyond a.rank (4096 * tm.shm) = true →
              OnlyBytes tm.sh sh' [] atStatus ∧ status t = toBytes 8 (6 * 2 ^ 56)) ∧
            (blkGlb w = false → blkFirn w = true → a.dense = false → plain am → plain bm →
              am.beyond a.rank (4096 * tm.shm) = false → bm.beyond a.rank (4096 * tm.shm) = false →
              OnlyBytes tm.sh sh' (placedBytes am a.rank (fun i l => a.u.get (64 * l + i)) ++ placedBytes bm a.rank (fun j l => a.v.get (64 * l + j)))
                atStatus) ∧
            (blkGlb w = true → OnlyBytes tm.sh sh' [] atStatus ∧
              ∀ pa : Nat → Nat, alarmed s = false → (∀ k, keyIx s k = 0) → (∀ i < 64, ∃ q, glbRowParts s e.xl e.words i = [q] ∧ q.n = 64 ∧
                q.leaf.fmt = 1 ∧ pa i = q.leaf.pa + 4 * q.first) →
                OnlyBytes s.h.bytes t.h.bytes ((List.range 64).flatMap (fun i => (List.range 64).flatMap (fun j => (List.range 4).map (fun k =>
                  (pa i + 4 * j + k, BitVec.ofNat 8 ((row i j).toNat / 256 ^ k)))))) (fun _ => False)))) ∧
  (
    ∀ (s : State) (e : EngEnt),
      let w := wordAt e.words 0
      let tm := s.teams.get e.tid
      let a := tm.tiles.get (blkAz w)
      let b := tm.tiles.get (blkBz w)
      let dz := tm.tiles.get (blkDz w)
      let c := (valueOf (contentOf s e)).1
      let out := (valueOf (contentOf s e)).2.1
      let am := omapOf e.amap
      let bm := omapOf e.bmap
      let rowOf := fun (t : Tile) (i : Nat) => (List.range 64).map (fun j => val32 (t.d.get (64 * i + j)))
      let colOf := fun (t : Tile) (j : Nat) => (List.range 64).map (fun i => val32 (t.d.get (64 * i + j)))
      let uCol := fun (t : Tile) (l : Nat) => (List.range 64).map (fun i => val32 (t.u.get (64 * l + i)))
      let vRow := fun (t : Tile) (l : Nat) => (List.range 64).map (fun j => val32 (t.v.get (64 * l + j)))
      let uRow := fun (t : Tile) (i : Nat) => (List.range t.rank).map (fun l => val32 (t.u.get (64 * l + i)))
      let vCol := fun (t : Tile) (j : Nat) => (List.range t.rank).map (fun l => val32 (t.v.get (64 * l + j)))
      let dt := fun x y => valueOf (dot x y)
      let keepsU := fun (t : Tile) => ∀ l < t.rank, ∀ i < 64, c.u.get (64 * l + i) = t.u.get (64 * l + i)
      let keepsV := fun (t : Tile) => ∀ l < t.rank, ∀ i < 64, c.v.get (64 * l + i) = t.v.get (64 * l + i)
      (blkOpc w = 0 → (c.dense = !blkFirn w) ∧ c.rank = 0 ∧ c.int = false ∧ ∀ k, c.d.get k = 0 ∧ c.u.get k = 0 ∧ c.v.get k = 0) ∧
      (blkOpc w = 2 → a.dense = false → b.dense = false → c.dense = false ∧ c.rank = a.rank + b.rank ∧
        ∀ i < 64, (∀ l < a.rank, c.u.get (64 * l + i) = a.u.get (64 * l + i) ∧ c.v.get (64 * l + i) = a.v.get (64 * l + i)) ∧
          (∀ l < b.rank, c.u.get (64 * (a.rank + l) + i) = (if blkSub w then b.u.get (64 * l + i) ^^^ 0x80000000#32 else b.u.get (64 * l + i)) ∧
            c.v.get (64 * (a.rank + l) + i) = b.v.get (64 * l + i))) ∧
      (blkOpc w = 3 → a.dense = true → b.dense = true → c.dense = true ∧ c.int = false ∧
        ∀ i < 64, ∀ j < 64, c.d.get (64 * i + j) = bits32 (dt (rowOf a i) (colOf b j))) ∧
      (blkOpc w = 3 → a.dense = true → b.dense = false → c.dense = false ∧ c.rank = b.rank ∧ keepsV b ∧
        ∀ l < b.rank, ∀ i < 64, c.u.get (64 * l + i) = bits32 (dt (uCol b l) (rowOf a i))) ∧
      (blkOpc w = 3 → a.dense = false → b.dense = true → c.dense = false ∧ c.rank = a.rank ∧ keepsU a ∧
        ∀ l < a.rank, ∀ j < 64, c.v.get (64 * l + j) = bits32 (dt (vRow a l) (colOf b j))) ∧
      (blkOpc w = 3 → a.dense = false → b.dense = false → a.rank ≤ b.rank → c.dense = false ∧ c.rank = a.rank ∧ keepsU a ∧
        ∀ l < a.rank, ∀ j < 64, c.v.get (64 * l + j) = bits32 (dt ((List.range b.rank).map (fun k => dt (vRow a l) (uCol b k))) (vCol b j))) ∧
      (blkOpc w = 3 → a.dense = false → b.dense = false → b.rank < a.rank → c.dense = false ∧ c.rank = b.rank ∧ keepsV b ∧
        ∀ k < b.rank, ∀ i < 64, c.u.get (64 * k + i) = bits32 (dt ((List.range a.rank).map (fun l => dt (vRow a l) (uCol b k))) (uRow a i))) ∧
      (blkOpc w = 4 → a.dense = true ∨ a.rank = 0 → SameContent c a ∧ out = 0) ∧
      (blkOpc w = 4 → a.dense = false → (∃ l < a.rank, ∃ i < 64, ∃ x ∈ [val32 (a.u.get (64 * l + i)), val32 (a.v.get (64 * l + i))],
        x.isNan = true ∨ x.isInf = true) → SameContent c a ∧ out = 4) ∧
      (blkOpc w = 4 → a.dense = false → 0 < a.rank → (∀ l < a.rank, ∀ i < 64, ∀ x ∈ [val32 (a.u.get (64 * l + i)), val32 (a.v.get (64 * l + i))],
          x.isNan = false ∧ x.isInf = false) →
        let qu := valueOf (qr ((List.range a.rank).map (uCol a)))
        let qv := valueOf (qr ((List.range a.rank).map (vRow a)))
        let m := qv.1.map (fun x => qu.1.map (dt x))
        let eye := (List.range a.rank).map (fun j => (List.range a.rank).map (fun i => if i = j then Val.ofInt 1 else Val.zero false))
        let mw := valueOf (sweepPairs ((List.replicate 6 (pairsOf a.rank)).flatten) (m, eye))
        let sg := mw.1.map (fun x => valueOf (sqrt32 (dt x x)))
        let bad := ∃ x ∈ sg, x.isNan = true ∨ x.isInf = true
        let order := (List.range a.rank).foldl (fun l j => placeSigma sg j l) []
        let tau := valueOf (mul32 (val32 e.tol) (sg.getD (order.headD 0) default))
        let kept := order.takeWhile (fun j => !(sg.getD j default).isZero && (tau.isNan || (sg.getD j default).cmp tau != .lt))
        (bad → SameContent c a ∧ out = 4) ∧
        (¬bad → c.dense = false ∧ c.int = false ∧ c.rank = kept.length ∧ out = 0 ∧ ∀ l j, kept[l]? = some j → ∀ i < 64,
          c.u.get (64 * l + i) = bits32 ((valueOf (applyQ qu.2 (mw.1.getD j []))).getD i default) ∧
          c.v.get (64 * l + i) = bits32 ((valueOf (applyQ qv.2 (mw.2.getD j []))).getD i default))) ∧
      (blkOpc w = 5 → a.dense = true → SameContent c a) ∧
      (blkOpc w = 5 → a.dense = false → c.dense = true ∧ c.int = false ∧ c.rank = 0 ∧
        ∀ i < 64, ∀ j < 64, c.d.get (64 * i + j) = bits32 (dt (uRow a i) (vCol a j))) ∧
      (blkOpc w = 6 → blkGlb w = false → blkFirn w = false → c.dense = true ∧ (c.int = true ↔ am.fmt = 13) ∧
        ∀ i < 64, ∀ j < 64, c.d.get (64 * i + j) = asLoaded (am.fmt == 13) (readSide tm am i j)) ∧
      (blkOpc w = 6 → blkGlb w = false → blkFirn w = true → c.dense = false ∧ c.rank = (wordAt e.words 4).toNat % 32 ∧
        ∀ l < c.rank, ∀ i < 64, c.u.get (64 * l + i) = asLoaded false (readSide tm am i l) ∧
          c.v.get (64 * l + i) = asLoaded false (readSide tm bm i l)) ∧
      (blkOpc w = 6 → blkGlb w = true → c.dense = true ∧ c.int = glbInt s e ∧
        ∀ i < 64, (glbRowElems s e i).length = 64 → (∀ k < i, (glbRowElems s e k).length = 64) → ∀ j < 64,
          c.d.get (64 * i + j) = asLoaded (glbInt s e) ((glbRowElems s e i).getD j default)) ∧
      (blkOpc w = 8 →
        let x := val32 ((wordAt e.words 2).setWidth 32)
        let by' := fun (b : BitVec 32) => bits32 (valueOf (mul32 (val32 b) x))
        (a.dense = true → c.dense = true ∧ c.int = false ∧ ∀ k < 4096, c.d.get k = by' (a.d.get k)) ∧
        (a.dense = false → c.dense = false ∧ c.rank = a.rank ∧ keepsV a ∧ ∀ k < 64 * a.rank, c.u.get k = by' (a.u.get k))) ∧
      (blkOpc w = 1 → (omapOf e.amap).fmt = 13 → (omapOf e.bmap).fmt = 13 → (omapOf e.amap).sp = false → (omapOf e.bmap).sp = false → dz.nextk = 0 →
        dz.res = false → (blkAcc w = true → dz.dense = true) → c.dense = true ∧ c.int = true ∧ ∀ i < 64, ∀ j < 64,
          c.d.get (64 * i + j) = (if blkAcc w then dz.d.get (64 * i + j) else 0) + BitVec.ofInt 32 (((List.range (blkK w)).map (fun k =>
            intOf (readSide tm (omapOf e.amap) i k).val * intOf (readSide tm (omapOf e.bmap) j k).val)).sum))) ∧
  (
    ∀ (s : State) (tid : Nat),
      let core := (s.teams.get tid).core
      let es := s.reentry.get tid
      es ≠ [] → (s.ctxs.get (s.teams.get tid).ctx).st ≠ .saving → (s.engines.get core).length + es.length ≤ 16 →
        ∃ t, exec (.engineEntryReentry tid) s = .next t ∧ t = { s with engines := t.engines, reentry := t.reentry } ∧ t.reentry.get tid = [] ∧
          (t.engines.get core).map (·.id) = (s.engines.get core).map (·.id) ++ es.map (·.id) ∧ (∀ k, k ≠ core → t.engines.get k = s.engines.get k) ∧
          ∀ k e, es[k]? = some e → blkGlb (wordAt e.words 0) = false → (t.engines.get core)[(s.engines.get core).length + k]? = some e)

-- ===== the fabric words (chapter 14) =====

/-- The fabric words on a compartment of the issuing context (R309 to R315): FSTAT reads, FSTOP.kill abandons a running graph, FSTOP.unload empties a
loaded one, FSTOP.save freezes one and returns when its save is written, FCONST rewrites a constant. In another state they return STATE; on another
context's compartment they trap. -/
def Obligations.FabricWords : Prop :=
  ∀ (s : State) (g : Nat) (d a : Opd) (n : BitVec 7) (i1 : BitVec 12),
    let x := s.grp g
    let k := n.toNat
    let c := s.comps.get k
    let mine := x.sup = true ∨ (c.rect.isSome = true ∧ c.grant = x.ctx)
    let other := BitVec.ofNat 64 (2 ^ 56 + k)
    (¬mine → ∀ w ∈ [Instr.fstat d n, .fstopKill d n, .fstopUnload d n, .fstopSave d a n, .fconst d a n i1, .fcfg false d a n, .fcfgRestore false d a n],
      Runs s g w → Traps s g w 0x50 other) ∧
    (mine → Runs s g (.fstat d n) → ∃ t, exec (.fstat d n) s = .next t ∧ Returns s t g d (BitVec.ofNat 64 (fstatWord c x.ctx)) []) ∧
    (mine → Runs s g (.fstopKill d n) → (c.st = .running → ∃ t v, exec (.fstopKill d n) s = .next t ∧ Abandoned s v k 18 ∧ Returns v t g d 0 []) ∧
      (c.st ≠ .running → ∃ t, exec (.fstopKill d n) s = .next t ∧ Returns s t g d 2 [])) ∧
    (mine → Runs s g (.fstopUnload d n) →
      (c.st = .loaded → ∃ t v, exec (.fstopUnload d n) s = .next t ∧ OnlyCmp s v k ∧ (v.comps.get k).st = .empty ∧ (v.comps.get k).planes = {} ∧
        (v.comps.get k).islands = [] ∧ (v.comps.get k).rect = c.rect ∧ (v.comps.get k).grant = c.grant ∧ Returns v t g d 0 []) ∧
      (c.st ≠ .loaded → ∃ t, exec (.fstopUnload d n) s = .next t ∧ Returns s t g d 2 [])) ∧
    (mine → Runs s g (.fconst d a n i1) →
      let v := opVal x .i64 a 0
      (v.poi = true → Traps s g (.fconst d a n i1) 0x18 0) ∧
      (v.poi = false → c.rect.isSome = true → c.st = .loaded ∨ c.st = .running → c.planes.consts.length ≤ i1.toNat →
        ∃ t, exec (.fconst d a n i1) s = .next t ∧ Returns s t g d 13 []) ∧
      (v.poi = false → c.rect.isSome = true → c.st = .loaded ∨ c.st = .running → i1.toNat < c.planes.consts.length →
        ∃ t u, exec (.fconst d a n i1) s = .next t ∧ OnlyCmp s u k ∧ Returns u t g d 0 [.consts k i1.toNat] ∧
          u.comps.get k = { c with switching := (u.comps.get k).switching, planes := { c.planes with consts := c.planes.consts.set i1.toNat v.val } } ∧
          (c.st = .loaded → (u.comps.get k).switching = c.switching))) ∧
    (mine → Runs s g (.fstopSave d a n) → ∀ va, addrOf x a = .ok va → (∃ xl, checkAddr s x.ctx x.sup .store false va 64 = .ok xl) →
      ∀ xl, checkSpan s x.ctx x.sup .store va (2 ^ 19) = .ok xl →
        (c.st ≠ .running → ∃ t, exec (.fstopSave d a n) s = .next t ∧ Returns s t g d 2 []) ∧
        (c.st = .running → ∃ t fl, exec (.fstopSave d a n) s = .next t ∧ (t.comps.get k).st = .freezing ∧ (∀ j, j ≠ k → t.comps.get j = s.comps.get j) ∧
          (t.grp g).inflight = x.inflight ++ [fl] ∧ fl.tag = s.nextId ∧ fl.regs = [opCode x d] ∧ fl.waits = [.save k] ∧ fl.acquire = true ∧
          NextWord x (t.grp g)))

/-- FCFG and its restore check what they read, and hand the load to the loader (R310, R311); FRUN checks its argument block and starts the graph
LOADED under the same CFGID, with its arguments, its barrier and the sequencer at its entry (R313, R314). What is read at issue and what when the load
completes is the model's choice (log 28). A load that its checks pass leaves the configuration LOADED, one that they refuse the state before it and
ERR; a restore leaves the graph RUNNING; a save leaves the compartment EMPTY; the waiting result receives the code (R290, R297, R305, R307, R311). -/
def Obligations.LoadsRunsAndTheLoader : Prop :=
  (
    (∀ (s : State) (g : Nat) (d a : Opd) (n : BitVec 7) (nc : Bool), ∀ p ∈ [(Instr.fcfg nc d a n, false), (.fcfgRestore nc d a n, true)], Runs s g p.1 →
      notOwned s (s.grp g) n.toNat = false → ∀ va, addrOf (s.grp g) a = .ok va →
        let u := headSeen (releaseAt s g .dev) g va
        let x := s.grp g
        let c := u.comps.get n.toNat
        (∀ e, loadChecks u x va p.2 = .error e → TrapsFrom s u g p.1 e.cause e.addr) ∧
        ∀ l, loadChecks u x va p.2 = .ok l →
          (loadable c = false → ∃ t, exec p.1 s = .next t ∧ Returns u t g d 2 []) ∧
          (loadable c = true → ∃ t fl, exec p.1 s = .next t ∧ (t.comps.get n.toNat).st = .loading ∧
            (t.comps.get n.toNat).loading = some {
              prev := c.st, tag := u.nextId, hdr := l.hdr, va := va, xl := l.xl, imgHdr := l.img, imgPoi := l.imgPoi,
              restore := p.2, nocache := nc, sup := x.sup, ctx := x.ctx } ∧ (∀ j, j ≠ n.toNat → t.comps.get j = s.comps.get j) ∧
            (t.grp g).inflight = (u.grp g).inflight ++ [fl] ∧ fl.tag = u.nextId ∧ fl.regs = [opCode x d] ∧ fl.waits = [.load n.toNat] ∧
            NextWord (u.grp g) (t.grp g))) ∧
    (∀ (s : State) (g : Nat) (d a : Opd), Runs s g (.frun d a) →
      let x := (performAll s g).grp g
      ∀ b va w, addrOf x d = .ok b → addrOf x a = .ok va →
        let u := seenRange (performAll s g) g va 64
        let r := blockSeen u g va
        (∀ e, readBlock u g va = .error e → TrapsFrom s r g (.frun d a) e.cause e.addr) ∧
        (readBlock u g va = .ok w →
          let n := field (wordAt w 0) 32 7
          let v := releaseAt r g .dev
          let c := v.comps.get n
          (notOwned r x n = true → TrapsFrom s r g (.frun d a) 0x50 (fabTrap 1 va).addr) ∧
          (notOwned r x n = false → ∀ bx, checkAddr r x.ctx x.sup .store false b 64 = .ok bx →
            (∃ xl, firstErr ((blockOuts w).map (fun o => checkSpan r x.ctx x.sup .store o.1 o.2.toNat)) = .ok xl) →
            (c.st ≠ .loaded → TrapsFrom s v g (.frun d a) 0x50 (fabTrap 2 va).addr) ∧
            (c.rect.isSome = true → c.st = .loaded → field (wordAt w 0) 0 32 ≠ c.planes.cfgid → TrapsFrom s v g (.frun d a) 0x50 (fabTrap 10 va).addr) ∧
            (c.rect.isSome = true → c.st = .loaded → field (wordAt w 0) 0 32 = c.planes.cfgid → ∃ t, exec (.frun d a) s = .next t ∧
              t.grp g = stepOn (v.grp g) ∧ (∀ k, k ≠ g → t.grp k = v.grp k) ∧ (∀ j, j ≠ n → t.comps.get j = s.comps.get j) ∧
              t.comps.get n = { c with
                bufs := [], units := [], switching := [], sl := [], quiet := 0, st := .running, args := w, flg := 0, err := 0,
                bar := b, barAt := (bx.pa, bx.key), sup := x.sup, seq := { pc := wordAt w 1, on := true } }))))) ∧
  (
    ∀ (s : State) (n : Nat),
      let c := s.comps.get n
      (∀ ld, c.loading = some ld → c.st = .loading → ld.restore = false →
        let r := loadImage s n ld.nocache ld.hdr ld.va ld.xl false
        ∃ t, exec (.configLoadComplete n) s = .next t ∧ Answered s t ld.tag r.code ∧ (∀ k, k ≠ n → t.comps.get k = s.comps.get k) ∧ t.h = s.h ∧
          (r.code = 0 → (t.comps.get n).st = .loaded ∧ (t.comps.get n).planes = r.planes ∧ (t.comps.get n).bufs = [] ∧ (t.comps.get n).loading = none) ∧
          (r.code ≠ 0 → t.comps.get n = { c with st := ld.prev, err := r.code, loading := none })) ∧
      (∀ ld, c.loading = some ld → c.st = .loading → ld.restore = true →
        let bs := savedBytes s ld
        ∃ t, exec (.compartmentRestoreDone n) s = .next t ∧ (∀ k, k ≠ n → t.comps.get k = s.comps.get k) ∧ t.h = s.h ∧
          (∀ k, restoreFrom s n ld ld.hdr bs.1 bs.2 = .code k → Answered s t ld.tag k ∧ t.comps.get n = { c with st := ld.prev, err := k, loading := none }) ∧
          (∀ r p, restoreFrom s n ld ld.hdr bs.1 bs.2 = .ok r p → Answered s t ld.tag 0 ∧ (t.comps.get n).st = .running ∧ (t.comps.get n).loading = none)) ∧
      (∀ sv, c.saving = some sv → c.st = .freezing → ∃ t, exec (.saveComplete n) s = .next t ∧ Answered s t sv.tag 0 ∧ (t.comps.get n).st = .empty ∧
        (t.comps.get n).saving = none ∧ (t.comps.get n).planes = {} ∧ (t.comps.get n).rect = c.rect ∧ (∀ k, k ≠ n → t.comps.get k = s.comps.get k) ∧
        (sv.phys = none → t.h = (writeIn s sv.xl sv.va.toNat (saveBytes c) false).h)))

-- ===== units and streams =====

/-- An element-wise unit consumes one token from each fed port and emits its result on every output, when its heads agree and the outputs have room
(R299): integers add, subtract and multiply exactly, wrapped or clamped. Heads that do not agree abandon the graph with MISMATCH (R304). An island
that holds a one-element vector takes a one-element row and emits their product in FP32 (R302). -/
def Obligations.UnitsAndIslandsFire : Prop :=
  (
    ∀ (s : State) (m n : Nat) (ts : List Token),
      let c := s.comps.get m
      let e := nodeAt c.planes n
      let o := ndOpc e
      graphLive s m = true → n < c.planes.nodes.length → o ∉ [16, 17, 18, 20, 21, 22, 23, 26, 27, 30] → headsOf c n = some ts → outsFree c n = true →
        (tokensAgree ts = false → ∃ t, exec (.unitFire m n) s = .next t ∧ Abandoned s t m 14) ∧
        (tokensAgree ts = true → ∃ t, exec (.unitFire m n) s = .next t ∧ OnlyCmp s t m ∧
          ((ts.headD default).valid = false → t.comps.get m = { emitAll (popAll c n) n { ends := (ts.headD default).ends, poi := ts.any (·.poi) } with quiet := 0 }) ∧
          ((ts.headD default).valid = true → ∃ v fl, t.comps.get m = { emitAll (addFlg (popAll c n) fl) n
              { data := BitVec.ofNat 64 v, valid := true, ends := (ts.headD default).ends, poi := ts.any (·.poi) } with quiet := 0 } ∧
            (o ≤ 2 → ndFmt e ≤ 1 → hasConst e = false → ∀ a b, ts = [a, b] →
              let w := widthBits (ndW e)
              let uns := ndFmt e == 1
              let x := toInt w uns (a.data.toNat % 2 ^ w)
              let y := toInt w uns (b.data.toNat % 2 ^ w)
              let r := if o = 0 then x + y else if o = 1 then x - y else x * y
              v = intBits w uns (ndSat e) r ∧ fl = intFlags w uns (ndSat e) r)))) ∧
  (
    ∀ (s : State) (m n i j : Nat) (a b : Token),
      let c := s.comps.get m
      let e := nodeAt c.planes n
      let u := c.units.get n
      let f := ndEF (ndFmt e) 1
      graphLive s m = true → n < c.planes.nodes.length → isIsland e = true → inEdge c.planes n 0 = some i → inEdge c.planes n 1 = some j → i ≠ j →
        edMx (edgeAt c.planes i) = false → edMx (edgeAt c.planes j) = false → c.bufs.get i = [a] → c.bufs.get j = [] → u.queue = [b] →
        a.valid = true → a.scale = false → b.valid = true → b.scale = false → b.ends ≠ 0 → a.ends = b.ends → outsFree c n = true →
        let r := (dot [f.decode (a.data.toNat % 256)] [f.decode (b.data.toNat % 256)]).run 0
        let last := ndParam e ≤ u.burst
        ∃ t, exec (.islandDot m n) s = .next t ∧ OnlyCmp s t m ∧
          t.comps.get m = { emitAt (addFlg { popTok c i with units := c.units.set n (if last then {} else { u with queue := [b], burst := u.burst + 1 }) } r.2) n 0
            { data := (bits32 r.1).setWidth 64, valid := true, ends := if last then b.ends else 0, poi := a.poi || b.poi } with quiet := 0 })

/-- A read sluice reads the next element of its walk at H and emits its token; a write sluice stores its head token's bits at the next place, all
other bits as they were; either then goes on, or completes its record and runs the next (R321, R322, R326, R327). A place that fails its checks stalls
the sluice and halts the context (R328, R329). A graph ends (R304, R330, R335): with its sequencer halted and every record done it is LOADED again and
arrives at its barrier; after 2^20 quiet clocks it is abandoned with STALL. SL_RESUME lets the named sluices and the sequencer go on. Quiet clocks
count only while nothing can move (log 29). -/
def Obligations.StreamsAndTheEndOfGraphs : Prop :=
  (
    ∀ (s : State) (m i ei : Nat) (r : StreamRec),
      let c := s.comps.get m
      let x := c.sl.get i
      let edge := edgeAt c.planes ei
      let goes := fun (t : State) => let y := (t.comps.get m).sl.get i
        (x.posn + 1 < walkLen r.counts → y.posn = x.posn + 1 ∧ y.active = x.active ∧ y.waiting = x.waiting) ∧
        (walkLen r.counts ≤ x.posn + 1 → y.active = x.waiting.head? ∧ y.waiting = x.waiting.drop 1 ∧ y.posn = 0)
      graphLive s m = true → x.active = some r → x.stalled = false → sluiceEdge c.planes i = some ei → r.dmode = 0 → walkBare r.counts = false →
        (r.write = false → (c.bufs.get ei).length < edgeDepth c.planes ei →
          (∀ p, placeOf s m .load r edge x.posn = .found p → ∃ t, exec (.sluiceReadElement m i) s = .next t ∧ goes t ∧
            (t.comps.get m).bufs.get ei = c.bufs.get ei ++ [{
              data := BitVec.ofNat 64 (readPlace s p).1, valid := true, ends := walkEnds r.counts x.posn, poi := (readPlace s p).2 }] ∧ t.h.bytes = s.h.bytes ∧ (∀ k, k ≠ m → t.comps.get k = s.comps.get k)) ∧
          (∀ e, placeOf s m .load r edge x.posn = .fault e → ∃ t, exec (.sluiceReadElement m i) s = .next t ∧ ((t.comps.get m).sl.get i).stalled = true ∧
            ((t.comps.get m).sl.get i).posn = x.posn ∧ (t.comps.get m).bufs = c.bufs ∧ ((s.ctxs.get c.grant).st = .active → (t.ctxs.get c.grant).st = .halted))) ∧
        (r.write = true → ∀ tk q p, c.bufs.get ei = tk :: q → tk.valid = true → tk.scale = false → tk.ends = walkEnds r.counts x.posn →
          placeOf s m .store r edge x.posn = .found p → ∃ t, exec (.sluiceWriteToken m i) s = .next t ∧ goes t ∧ (t.comps.get m).bufs.get ei = q ∧
            (∀ k, k ≠ m → t.comps.get k = s.comps.get k) ∧
            (alarmed s = false → p.key = 0 → p.pa % 64 + (p.sh + p.w + 7) / 8 ≤ 64 →
              hNat t 0 p.pa ((p.sh + p.w + 7) / 8) / 2 ^ p.sh % 2 ^ p.w = tk.data.toNat % 2 ^ p.w ∧
              hNat t 0 p.pa ((p.sh + p.w + 7) / 8) % 2 ^ p.sh = hNat s 0 p.pa ((p.sh + p.w + 7) / 8) % 2 ^ p.sh ∧
              ∀ a, a < p.pa ∨ p.pa + (p.sh + p.w + 7) / 8 ≤ a → t.h.bytes.get a = s.h.bytes.get a))) ∧
  (
    ∀ (s : State) (n : Nat),
      let c := s.comps.get n
      (graphLive s n = true → c.seq.halted = true → (∀ e ∈ c.sl, e.2.active = none) → ∃ t, exec (.graphCompletion n) s = .next t ∧
        (t.comps.get n).st = .loaded ∧ (t.comps.get n).planes = c.planes ∧ (t.comps.get n).bufs = [] ∧ (t.comps.get n).seq = {} ∧
        (∀ k, k ≠ n → t.comps.get k = s.comps.get k) ∧ t.groups = s.groups ∧
        (alarmed s = false → c.barAt.2 = 0 → c.barAt.1 % 64 = 0 → Arrived s t c.barAt.1 1)) ∧
      (stallDue c = true → ∃ t, exec (.stallTimeout n) s = .next t ∧ Abandoned s t n 15) ∧
      (∀ st v r, s.regs.slPend.get st = v :: r → ∃ t, exec (.slResume st) s = .next t ∧
        let k := 8 * st + field v 32 3
        t = { s with comps := t.comps, regs := t.regs } ∧ t.regs.slPend.get st = r ∧ (∀ j, j ≠ k → t.comps.get j = s.comps.get j) ∧
        (t.comps.get k).seq.stalled = ((s.comps.get k).seq.stalled && !v.getLsbD 35) ∧
        ∀ i < 32, ((t.comps.get k).sl.get i).stalled = (((s.comps.get k).sl.get i).stalled && !v.getLsbD i) ∧
          ((t.comps.get k).sl.get i).active = ((s.comps.get k).sl.get i).active))

-- ===== sequencers (chapter 14) =====

/-- The words of a sequencer that may execute (R331 to R334), and the end of its waits: registers, branches, arguments, records handed to a sluice,
waits, constants, arrivals, events and HALT. The TIME of a record is log 23. -/
def Obligations.SequencerWords : Prop :=
  (∀ (s : State) (n : Nat), s.cur = .seqr n → seqReady s n = true →
    let c := s.comps.get n
    let q := c.seq
    let r := fun (k : BitVec 4) => if k = 0 then 0#64 else q.d.get k.toNat
    let puts := fun (i : Instr) (rd : BitVec 4) (v : BitVec 64) => ∃ t, exec i s = .next t ∧
      SeqIs s t n { q with pc := q.pc + 4, d := if rd = 0 then q.d else q.d.set rd.toNat v }
    let goes := fun (i : Instr) (by' : BitVec 64) => ∃ t, exec i s = .next t ∧ SeqIs s t n { q with pc := q.pc + by' }
    let waits := fun (i : Instr) (w : SeqWait) => ∃ t, exec i s = .next t ∧ SeqIs s t n { q with wait := w }
    let fails := fun (i : Instr) (code : Nat) => ∃ t, exec i s = .next t ∧ Abandoned s t n code
    let stalls := fun (i : Instr) (wr : Bool) (e : Trap) => ∃ t, exec i s = .next t ∧ SeqStalls s t n wr e
    (∀ (rd ra rb : BitVec 4) (imm : BitVec 22) (im8 off : BitVec 18) (o26 : BitVec 26),
      puts (.seqLi rd imm) rd (imm.signExtend 64) ∧ puts (.seqAdd rd ra rb) rd (r ra + r rb) ∧ puts (.seqAddi rd ra im8) rd (r ra + im8.signExtend 64) ∧
      puts (.seqSub rd ra rb) rd (r ra - r rb) ∧ puts (.seqShl rd ra rb) rd (r ra <<< ((r rb).toNat % 64)) ∧
      puts (.seqShr rd ra rb) rd (r ra >>> ((r rb).toNat % 64)) ∧ puts (.seqAnd rd ra rb) rd (r ra &&& r rb) ∧ puts (.seqOr rd ra rb) rd (r ra ||| r rb) ∧
      goes (.seqBeq ra rb off) (if r ra = r rb then 4 * off.signExtend 64 else 4) ∧ goes (.seqBne ra rb off) (if r ra = r rb then 4 else 4 * off.signExtend 64) ∧
      goes (.seqBlt ra rb off) (if (r ra).toInt < (r rb).toInt then 4 * off.signExtend 64 else 4) ∧ goes (.seqJ o26) (4 * o26.signExtend 64)) ∧
    (∀ (rd : BitVec 4) (k : BitVec 6), (k.toNat < (wordAt c.args 2).toNat % 64 → puts (.seqArg rd k) rd (wordAt c.args (8 + k.toNat))) ∧
      ((wordAt c.args 2).toNat % 64 ≤ k.toNat → fails (.seqArg rd k) 11)) ∧
    (∀ (ra rb : BitVec 4) (ovr : Bool),
      let va := r ra
      let w := Instr.seqRec ra rb ovr
      (va.toNat % 16 ≠ 0 → fails w 11) ∧ (va.toNat % 16 = 0 → ∀ e, seqRead s n va 16 = .error e → stalls w false e) ∧
      (va.toNat % 16 = 0 → ∀ bs, seqRead s n va 16 = .ok (bs, true) → fails w 16) ∧
      (va.toNat % 16 = 0 → ∀ bs ds, seqRead s n va 16 = .ok (bs, false) →
        let lo := wordAt (toWords bs) 0
        let hi := wordAt (toWords bs) 1
        (seqRead s n (va + 16) (16 * (field hi 52 2 + 1)) = .ok (ds, true) → fails w 16) ∧
        (seqRead s n (va + 16) (16 * (field hi 52 2 + 1)) = .ok (ds, false) → headFits c lo hi = false → fails w 11)) ∧
      (va.toNat % 16 = 0 → ∀ bs ds ei, seqRead s n va 16 = .ok (bs, false) →
        let lo := wordAt (toWords bs) 0
        let hi := wordAt (toWords bs) 1
        let x := c.sl.get (rcSlc hi)
        let rec' := recOf (if ovr then r rb else lo) hi (wordPairs ds)
        headFits c lo hi = true → seqRead s n (va + 16) (16 * (field hi 52 2 + 1)) = .ok (ds, false) →
        (∀ d < (wordPairs ds).length, dimOk d ((wordPairs ds).getD d default).2 = true) → sluiceEdge c.planes (rcSlc hi) = some ei →
        (∀ k, sluiceW c.planes (edgeAt c.planes ei) = some k → k = rec'.ew) →
        (x.active ≠ none → 4 ≤ x.waiting.length → waits w (.room (rcSlc hi))) ∧
        (x.active = none ∨ x.waiting.length < 4 → ∃ t, exec w s = .next t ∧ OnlyCmp s t n ∧
          t.comps.get n = { c with sl := (t.comps.get n).sl, quiet := 0, seq := { q with pc := q.pc + 4 } } ∧
          (t.comps.get n).sl.get (rcSlc hi) = (if x.active = none then { active := some rec' } else { x with waiting := x.waiting ++ [rec'] }) ∧
          ∀ j, j ≠ rcSlc hi → (t.comps.get n).sl.get j = c.sl.get j))) ∧
    (∀ ra : BitVec 4,
      let m := (r ra).setWidth 32
      let done := ∀ i < 32, m.getLsbD i = true → c.slmask.getLsbD i = true → (c.sl.get i).active = none
      (done → goes (.seqPwait ra) 4) ∧ (¬done → waits (.seqPwait ra) (.done m))) ∧
    (∀ (ra : BitVec 4) (i : BitVec 12),
      let d := putConst c i.toNat (r ra)
      (c.planes.consts.length ≤ i.toNat → fails (.seqCnst ra i) 13) ∧
      (i.toNat < c.planes.consts.length → d.planes = { c.planes with consts := c.planes.consts.set i.toNat (r ra) } ∧
        ∃ t, exec (.seqCnst ra i) s = .next t ∧ OnlyCmp s t n ∧
          t.comps.get n = { d with quiet := 0, seq := if d.switching.any (fun w => w.entry == i.toNat) then { q with wait := .consts i.toNat }
            else { q with pc := q.pc + 4 } })) ∧
    (∀ (ra : BitVec 4) (w : BitVec 16), (w = 0 → fails (.seqArrv ra w) 11) ∧
      (w ≠ 0 → ∀ e, checkAddr s c.grant c.sup .store false (r ra) 64 = .error e → stalls (.seqArrv ra w) true e) ∧
      (w ≠ 0 → ∀ x, checkAddr s c.grant c.sup .store false (r ra) 64 = .ok x → ∃ t, exec (.seqArrv ra w) s = .next t ∧
        t = { s with comps := t.comps, h := t.h, regs := t.regs } ∧ (∀ k, k ≠ n → t.comps.get k = s.comps.get k) ∧
        t.comps.get n = { c with quiet := 0, seq := { q with pc := q.pc + 4 } } ∧
        (alarmed s = false → x.key = 0 → x.pa % 64 = 0 → Arrived s t x.pa w.toNat))) ∧
    (∀ ra : BitVec 4, ∃ t, exec (.seqEvt ra) s = .next t ∧ t = { s with comps := t.comps, ctxs := t.ctxs } ∧
      (∀ k, k ≠ n → t.comps.get k = s.comps.get k) ∧ t.comps.get n = { c with quiet := 0, seq := { q with pc := q.pc + 4 } } ∧
      t.ctxs.get c.grant = { s.ctxs.get c.grant with frecs := (s.ctxs.get c.grant).frecs ++
        [recordBytes (BitVec.ofNat 64 (3 + 2 ^ 16 * n)) (r ra) q.pc (BitVec.ofNat 64 (s.clock * 10 / 36))] }) ∧
    (∃ t, exec .seqHalt s = .next t ∧ SeqIs s t n { q with halted := true })) ∧
  (∀ (s : State) (n : Nat), graphLive s n = true →
    let c := s.comps.get n
    let ended := match c.seq.wait with
      | .none => False
      | .room i => (c.sl.get i).active = none ∨ (c.sl.get i).waiting.length < 4
      | .done m => ∀ i < 32, m.getLsbD i = true → c.slmask.getLsbD i = true → (c.sl.get i).active = none
      | .consts i => ∀ w ∈ c.switching, w.entry ≠ i
    ended → ∃ t, exec (.seqWaitEnd n) s = .next t ∧
      SeqIs s t n { c.seq with wait := .none, pc := c.seq.pc + (match c.seq.wait with | .consts _ => 4 | _ => 0) })

-- ===== control transfers (chapter 05) =====

/-- BRA transfers every live lane; BRM decides once for the whole entry (R96, R97). Either is decided at its word, and changes nothing else. -/
def Obligations.BranchesAreDecided : Prop :=
  ∀ (s : State) (g : Nat) (msk : Msk) (prio : BitVec 12) (off : BitVec 33) (cond : BitVec 2),
    let x := s.grp g
    let live := liveOf x msk
    let aims := fun (m : BitVec 32) => (lanes m).map (fun l => (l, runPc x + 8 * off.signExtend 64, prio.toNat, (runEnt x).depth))
    let holds := match cond.toNat with
      | 0 => True
      | 1 => live ≠ 0
      | 2 => live = active x
      | _ => live = 0
    (Runs s g (.bra msk prio off) → ∃ t, exec (.bra msk prio off) s = .next t ∧ OnlyGroup s t g ∧
      t.grp g = deciding x { (runState x).xfer with jump := aims live }) ∧
    (Runs s g (.brm cond msk prio off) → ∃ t, exec (.brm cond msk prio off) s = .next t ∧ OnlyGroup s t g ∧
      (holds → t.grp g = deciding x { (runState x).xfer with jump := aims (active x) }) ∧
      (¬holds → t.grp g = deciding x { (runState x).xfer with jump := [] }))

/-- CALL and CALLI push the return entry of each live lane, spilling the oldest of its four levels from depth 5 on; RET pops it, refilling (R98 to R100,
R104 to R106); at depth 0 it traps. EXIT and YIELD are decided at their words (R101, R102). What CALL and CALLI do without a live lane is log 32. -/
def Obligations.CallsReturnsAndExits : Prop :=
  (∀ (s : State) (g : Nat) (msk : Msk) (prio : BitVec 12) (off : BitVec 33) (o : Opd),
    let x := s.grp g
    let ls := lanes (liveOf x msk)
    let d := (runEnt x).depth + 1
    ∀ p ∈ [(Instr.call msk prio off, ls.map (fun l => (l, (⟨runPc x + 8 * off.signExtend 64, false⟩ : PV))), prio.toNat),
           (.calli msk o, ls.map (fun l => (l, opVal x .i64 o l)), 0xFFF)],
      Runs s g p.1 →
      let tg := p.2.1
      let aligned := p.1 = .call msk prio off ∨ ∀ e ∈ tg, e.2.val.toNat % 8 = 0
      let full := 65536 ≤ d ∨ (5 ≤ d ∧ x.spr.stkLimit.toNat < x.spr.stkBase.toNat + 256 * (d - 4))
      let jump := tg.map (fun e => (e.1, e.2.val, p.2.2, d))
      ((∃ e ∈ tg, e.2.poi = true) → Traps s g p.1 0x18 0) ∧
      ((∀ e ∈ tg, e.2.poi = false) →
        (∀ e, p.1 = .calli msk o → tg.find? (fun e => e.2.val.toNat % 8 != 0) = some e → Traps s g p.1 0x13 e.2.val) ∧
        (tg = [] → ∃ t, exec p.1 s = .next t ∧ OnlyGroup s t g ∧ t.grp g = deciding x { (runState x).xfer with jump := [] }) ∧
        (aligned → tg ≠ [] → full → Traps s g p.1 0x20 0) ∧
        (aligned → tg ≠ [] → ¬full → ∀ w, fetchWord s x (runPc x + 8) = .ok w →
          let ret := returnWord (runPc x + 16) (w.extractLsb' 40 12).toNat
          let pushed := fun (t : State) => ∀ l < 32, (t.grp g).rstk.get l = if l ∈ ls then (ret :: x.rstk.get l).take 4 else x.rstk.get l
          (d < 5 → ∃ t, exec p.1 s = .next t ∧ OnlyGroup s t g ∧ pushed t ∧
            t.grp g = { deciding x { (runState x).xfer with jump := jump } with rstk := (t.grp g).rstk }) ∧
          (5 ≤ d → (∀ e, firstTrap (ls.map (checkSlot s x .store (d - 4))) = .error e → Traps s g p.1 e.cause e.addr) ∧
            ∀ as, firstTrap (ls.map (checkSlot s x .store (d - 4))) = .ok as → inCompat s x = false → ∃ t, exec p.1 s = .next t ∧ OnlyGroup s t g ∧
              pushed t ∧ t.grp g = { deciding x { (runState x).xfer with jump := jump } with rstk := (t.grp g).rstk, iq := (t.grp g).iq } ∧
              (t.grp g).iq = ((enqueueStores s g false .grp .rlx as (spilled x)).grp g).iq)))) ∧
  (∀ (s : State) (g : Nat) (msk : Msk), Runs s g (.ret msk) →
    let x := s.grp g
    let ls := lanes (liveOf x msk)
    let d := (runEnt x).depth
    let top := fun l => ((x.rstk.get l).headD 0).toNat
    let jump := ls.map (fun l => (l, BitVec.ofNat 64 (top l % 2 ^ 52 * 8), top l / 2 ^ 52 % 2 ^ 12, d - 1))
    (d = 0 → Traps s g (.ret msk) 0x20 0) ∧
    (ls = [] → 0 < d → ∃ t, exec (.ret msk) s = .next t ∧ OnlyGroup s t g ∧ t.grp g = deciding x { (runState x).xfer with jump := [] }) ∧
    (ls ≠ [] → 0 < d → d < 5 → ∃ t, exec (.ret msk) s = .next t ∧ OnlyGroup s t g ∧
      t.grp g = { deciding x { (runState x).xfer with jump := jump } with rstk := (t.grp g).rstk } ∧
      ∀ l < 32, (t.grp g).rstk.get l = if l ∈ ls then (x.rstk.get l).drop 1 else x.rstk.get l) ∧
    (ls ≠ [] → 5 ≤ d → (∀ e, firstTrap (ls.map (checkSlot s x .load (d - 4))) = .error e → Traps s g (.ret msk) e.cause e.addr) ∧
      ∀ as, firstTrap (ls.map (checkSlot s x .load (d - 4))) = .ok as →
        let u := slotsSeen s g as
        (∀ a, as.find? (fun a => (slotBytes u g a).2) = some a → TrapsFrom s u g (.ret msk) 0x18 a.va) ∧
        ((∀ a ∈ as, (slotBytes u g a).2 = false) → ∃ t, exec (.ret msk) s = .next t ∧ OnlyGroup u t g ∧
          t.grp g = { deciding (u.grp g) { (runState x).xfer with jump := jump } with rstk := (t.grp g).rstk } ∧
          (∀ a ∈ as, (t.grp g).rstk.get a.lane = ((x.rstk.get a.lane ++ List.replicate 4 0).take 4).drop 1 ++ [BitVec.ofNat 64 (ofBytes (slotBytes u g a).1)]) ∧
          ∀ l < 32, l ∉ ls → (t.grp g).rstk.get l = x.rstk.get l))) ∧
  (∀ (s : State) (g : Nat) (msk : Msk),
    let x := s.grp g
    (Runs s g (.exit msk) → mayPass s x → ∃ t, exec (.exit msk) s = .next t ∧ OnlyGroup s t g ∧
      t.grp g = deciding (passed s x) { (runState x).xfer with exits := liveOf x msk }) ∧
    (Runs s g (.yield msk) → ∃ t, exec (.yield msk) s = .next t ∧ OnlyGroup s t g ∧
      t.grp g = deciding x { (runState x).xfer with yield := liveOf x msk != 0 }))

/-- A trailer parks the group while a named result is pending, ends an invalid attempt, and else ends the run (R69, R94): the frontier gathers the
lanes that transfer and those that fall through, F flushes the atomic buffer, a YIELD with a live lane loads the budget anew (R345), and a group with
no lane left leaves the machine once its results have returned (R101). The order of the park, the validation and the flush is the model's choice (log
32). -/
def Obligations.TrailersEndRuns : Prop :=
  ∀ (s : State) (g : Nat) (y f q : Bool) (prio : BitVec 12) (n0 n1 n2 n3 : Option Opd),
    let i := Instr.trl y f q prio n0 n1 n2 n3
    let x := s.grp g
    let names := [n0, n1, n2, n3].filterMap (fun n => n.map (fun o => o.code.toNat))
    let xf := (runState x).xfer
    let u := if f && !x.roundDone then (flushRedo s g).2 else s
    let z := if q then passed u (u.grp g) else u.grp g
    let cs := x.frontier ++ insertions x prio.toNat
    Runs s g i →
      ((∃ c ∈ names, pending x c = true) →
        let v := s.setGrp g { x with life := .parked, parkNames := names.filter (pending x) }
        ∃ t, exec i s = .next t ∧ t = markWants v g ∧ (x.chain = none → OnlyGroup s t g ∧ t.grp g = v.grp g)) ∧
      ((∀ c ∈ names, pending x c = false) → x.tx.act = true → txValid s x = false → ∃ t, exec i s = .next t ∧ OnlyGroup s t g ∧ AttemptFails x (t.grp g) 1) ∧
      ((∀ c ∈ names, pending x c = false) → x.tx.act = false → xf.eret = none → x.chain = none → inHandler x = false → (q = true → mayPass u (u.grp g)) →
        x.frontier.Pairwise (fun e f => ¬SamePlace e f) → (∀ e ∈ x.frontier, e.resume = none) →
        (cs ≠ [] → ∃ t, exec i s = .next t ∧ t = { u with groups := t.groups } ∧ (∀ k, k ≠ g → t.grp k = s.grp k) ∧ Gathers (t.grp g).frontier cs ∧
          t.grp g = { z with
            frontier := (t.grp g).frontier, rstk := (t.grp g).rstk, run := none, life := .ready, safe := y, yielded := xf.yield,
            budget := if xf.yield && x.budgeted then sliceBudget u x else x.budget } ∧
          ∀ l < 32, (t.grp g).rstk.get l = if xf.exits.getLsbD l then [] else x.rstk.get l) ∧
        (cs = [] → x.inflight = [] → ∃ t, exec i s = .next t ∧ t.grp g = default ∧ (∀ k, k ≠ g → t.grp k = s.grp k) ∧
          (∀ e ∈ t.groups, e.1 ≠ g)))

-- ===== supervisor words, LAUNCH and COLL =====

/-- TLBI at supervisor level drops the kept translations it names, and returns when the copies, engine operations, collectives, loads and saves that
use one have completed (R158); launch queues are looked at again (R341). LAUNCH puts a launch record in a queue (R353); COLL hands a rank over (R400,
R402). Which translations are kept, and the release before a TLBI, are the model's choice (log 10). -/
def Obligations.TranslationsLaunchesAndCollectives : Prop :=
  (∀ (s : State) (g : Nat) (d a : Opd) (c : BitVec 6),
    let va := addrOf (s.grp g) a
    let page := fun (v : BitVec 64) (n vpn : Nat) => n == c.toNat && vpn / 8192 == v.toNat / 2 ^ 29
    ∀ p ∈ [(Instr.tlbiPage d a c, va, page), (.tlbiCtx d c, .ok 0, fun _ n _ => n == c.toNat), (.tlbiAll d, .ok 0, fun _ _ _ => true)], Runs s g p.1 →
      (∀ e, p.2.1 = .error e → Traps s g p.1 e.cause e.addr) ∧
      ∀ v, p.2.1 = .ok v →
        let hit := p.2.2 v
        let r := releaseAt s g .dev
        let uses := fun (n : Nat) (xl : List (Nat × Leaf)) => xl.any (fun e => hit n e.1)
        ∃ t u ls, exec p.1 s = .next t ∧ u = { r with tlb := r.tlb.filter (fun e => !hit e.ctx e.vpn), ctxs := u.ctxs } ∧
          (∀ n, u.ctxs.get n = lookAgain (r.ctxs.get n)) ∧
          Returns u t g d 0 ([.copies ((r.copies.filter (fun c => uses c.ctx c.xl)).map (·.id)),
            .engine ((r.engines.flatMap (fun e => e.2.filter (fun n => uses n.ctx n.xl))).map (·.id)),
            .ranks ((r.ranks.filter (fun k => !k.done && uses k.ctx k.xl)).map (·.id))] ++ ls) ∧
          ∀ w, w ∈ ls ↔ (∃ e ∈ r.comps, ∃ l, e.2.loading = some l ∧ uses l.ctx l.xl = true ∧ w = .load e.1) ∨
            ∃ e ∈ r.comps, ∃ l, e.2.saving = some l ∧ uses e.2.grant l.xl = true ∧ w = .save e.1) ∧
  (∀ (s : State) (g : Nat) (d a r : Opd), Runs s g (.launch d a r) →
    let i := Instr.launch d a r
    let x := (performAll s g).grp g
    (∀ e, addrOf x a = .error e → Traps s g i e.cause e.addr) ∧
    ∀ va, addrOf x a = .ok va →
      (∀ e, addrOf x r = .error e → Traps s g i e.cause e.addr) ∧
      ∀ rv, addrOf x r = .ok rv →
        let u := seenRange (performAll s g) g rv 128
        let v := releaseAt u g .dev
        (rv.toNat % 64 ≠ 0 → Traps s g i 0x13 rv) ∧ (rv.toNat % 64 = 0 → ∀ e, readRange u g rv 128 = .error e → TrapsFrom s u g i e.cause e.addr) ∧
        (rv.toNat % 64 = 0 → ∀ bs p, readRange u g rv 128 = .ok (bs, some p) → TrapsFrom s u g i 0x18 rv) ∧
        (rv.toNat % 64 = 0 → x.tx.act = false → ∀ bs, readRange u g rv 128 = .ok (bs, none) → ∀ w q, queueFound v g .store va = some (w, q) →
          (q.lnch = false ∨ q.cclosed = true → TrapsFrom s w g i 0x40 va) ∧
          (q.lnch = true → q.cclosed = false → q.cap < q.count + 2 → ∃ t, exec i s = .next t ∧ Returns w t g d 0 []) ∧
          (q.lnch = true → q.cclosed = false → q.count + 2 ≤ q.cap → ∀ sl, qSlots w (gAcc x) .store q q.put 2 = .ok sl →
            ∃ t, exec i s = .next t ∧ Returns (qPush (settleSlots w g sl) q sl [bs.take 64, bs.drop 64]) t g d 1 []))) ∧
  (∀ (s : State) (g : Nat) (d a : Opd), Runs s g (.coll d a) →
    let i := Instr.coll d a
    let x := (performAll s g).grp g
    (∀ e, addrOf x a = .error e → Traps s g i e.cause e.addr) ∧
    ∀ va, addrOf x a = .ok va →
      let u := seenRange (performAll s g) g va 64
      (∀ e, readDesc u g va 64 64 = .error e → TrapsFrom s u g i e.cause e.addr) ∧
      ∀ w, readDesc u g va 64 64 = .ok w →
        let r0 := rankOfDesc w x g
        let bad := descBad w r0 || (r0.k != 0 && !hasCap u 2)
        (bad = true → TrapsFrom s u g i 0x40 va) ∧
        (bad = false → (∀ e, collChecks u r0 = .error e → TrapsFrom s u g i e.cause e.addr) ∧
          ∀ xl, collChecks u r0 = .ok xl →
            (r0.k ≠ 0 → resInSram xl r0 = false → TrapsFrom s u g i 0x40 va) ∧
            (r0.k = 0 ∨ resInSram xl r0 = true →
              let k := if r0.op = 0 then u else seenRange u g (wordAt w 7) (2 * r0.p)
              (∀ e, readIds k g r0 (wordAt w 7) = .error e → TrapsFrom s k g i e.cause e.addr) ∧
              ∀ ids, readIds k g r0 (wordAt w 7) = .ok ids →
                let r := { r0 with ids := ids, xl := xl }
                let v := releaseAt k g (if ids.all (· == u.regs.devId) then .dev else .sys)
                ((∃ n ∈ remoteNeighbours k r, linkTo k n = none) → TrapsFrom s k g i 0x40 va) ∧
                ((∀ n ∈ remoteNeighbours k r, linkTo k n ≠ none) →
                  ((v.ranks.filter (fun r => !r.done)).length < 64 → ∃ t, exec i s = .next t ∧ Returns (acceptRank v r) t g d 1 []) ∧
                  (64 ≤ (v.ranks.filter (fun r => !r.done)).length → ∃ t, exec i s = .next t ∧ Returns v t g d 0 [])))))

-- ===== the life of a group =====

/-- At selection the entry with the greatest call depth issues, among those of the greatest priority, and among those of the lowest pc (R92); inside a
transaction or a handler the choice is among the entries of its lanes (R196, R378, log 15). The entry leaves the frontier, its mask is the active
lanes of the run, and STK_DEPTH reads its depth. -/
def Obligations.SelectionTakesTheTopEntry : Prop :=
  ∀ (s : State) (g : Nat),
    let x := s.grp g
    x.life = .ready → MayBeSelected s x → (s.ctxs.get x.ctx).st = .active ∨ x.safe = false → x.run = none →
      (∃ e ∈ x.frontier, selectable x e = true) → ∃ t e, exec (.selection g) s = .next t ∧ OnlyGroup s t g ∧ e ∈ x.frontier ∧ selectable x e = true ∧
        (∀ f ∈ x.frontier, selectable x f = true → ¬Outranks f e) ∧
        t.grp g = { x with
          life := .issuing, safe := false, yielded := false, stopWait := false, frontier := x.frontier.erase e,
          run := some { ent := { e with resume := none }, pc := e.pc, rs := e.resume.getD {} } } ∧
        active (t.grp g) = e.mask ∧ ∀ p ∈ specials t g, p.1 = 0x1E → ∀ l, p.2 l = BitVec.ofNat 64 e.depth

/-- A group is placed with its first entry, which acquires (R350), selected again within a run that it stopped in, woken, at any time (log 34), but
not before the round of a quantum boundary that it waits at (R184), and stopped when its budget is spent (R79 to R81, R209, R345). -/
def Obligations.GroupsArePlacedAndWoken : Prop :=
  ∀ (s : State) (g : Nat),
    let x := s.grp g
    (∀ k, (∃ e ∈ s.groups, e.1 = g) → x.life = .unborn → s.kernels.find? (fun k => k.grid == x.spr.grid) = some k →
      (s.ctxs.get x.ctx).st = .active ∨ (s.ctxs.get x.ctx).st = .saving → x.xblk ≤ poolFree s (g / 48) → ∃ t, exec (.placement g) s = .next t ∧
        t = { s with groups := t.groups, cv := t.cv, dv := t.dv } ∧ (∀ k, k ≠ g → t.grp k = s.grp k) ∧
        (∀ c, t.cv.get c = if c = g / 48 then (s.cv.get c).filter (·.dirty) else s.cv.get c) ∧
        (∀ d, t.dv.get d = if d = g / 48 / 96 then (s.dv.get d).filter (·.dirty) else s.dv.get d) ∧
        t.grp g = { x with life := .ready, blocks := x.xblk, frontier := [{ pc := k.entry, prio := 0, depth := 0, mask := 0xFFFFFFFF }] }) ∧
    (x.life = .ready → MayBeSelected s x → x.run.isSome = true →
      ∃ t, exec (.selection g) s = .next t ∧ OnlyGroup s t g ∧ t.grp g = { x with life := .issuing, safe := false, yielded := false, stopWait := false }) ∧
    (x.life = .waiting → awaitsRound x = false → ∃ t, exec (.wake g) s = .next t ∧ OnlyGroup s t g ∧ t.grp g = { x with life := .ready, thaw := [] }) ∧
    (x.life = .parked → awaitsRound x = false → (∀ c ∈ x.parkNames, pending x c = false) → ∃ t, exec (.wake g) s = .next t ∧ OnlyGroup s t g ∧
      t.grp g = { x with life := .ready, parkNames := [] }) ∧
    (awaitsRound x = true → exec (.wake g) s = .next s) ∧
    (∀ y, startRun x = some y →
     let v := s.setGrp g { y with atBoundary := false, roundDone := false, pastWord := false, parkNames := [] }
     (∃ e ∈ s.groups, e.1 = g) → x.budgeted = true → x.budget = 0 → (x.life = .issuing ∨ x.life = .ready ∨ x.life = .parked) →
      x.tx.act = false → CanSettle v g → ((settled v g).grp g).tx.act = false → ∃ t w, exec (.budgetExhaustion g) s = .next t ∧
        TrapTaken (settled v g) w g 0x38 0 (standsAtTrl v y) ∧ t = { w with groups := t.groups, kernels := t.kernels } ∧ t.grp g = w.grp g ∧
        t.kernels = w.kernels.map (fun k => if k.grid == x.spr.grid then { k with slices := k.slices.set x.slice .held } else k) ∧
        ∀ k, k ≠ g → (∃ e ∈ w.groups, e.1 = k) → t.grp k = if (w.grp k).spr.grid = x.spr.grid ∧ (w.grp k).slice = x.slice
          then { w.grp k with stopWait := true } else w.grp k)

/-- The round of a team in compatibility mode commits every lane buffer and lets the groups at their boundaries go on (R184); a group stops into a
free record of its kind, USED with the code of its state, and comes back from it, or stays where no record is free (R71, R79, R363 to R366). Where
records keep some of the state is the model's choice (log 26); YWAIT counts the time of log 23. -/
def Obligations.RoundsStopsAndReturns : Prop :=
  (∀ (s : State) (tid : Nat),
    let gs := teamGroups s tid
    let u := gs.foldl commitGroup s
    let atomic := fun (g : Nat) => match fetchWord u (s.grp g) (runPc (s.grp g)) with
      | .ok w => (match decodeWord w with | .amo _ => True | .cas _ => True | .redo _ => True | _ => False)
      | .error _ => False
    gs ≠ [] → (∀ f ∈ s.frozen, f.x.tid ≠ tid) → (∀ g ∈ gs, inCompat s (s.grp g) = true ∧
      ((s.grp g).life = .waiting ∨ awaitsRound (s.grp g) = true ∨
        ((s.grp g).life = .issuing ∧ (s.grp g).atBoundary = true ∧ (s.grp g).roundDone = false))) →
    ∃ t, exec (.compatRound tid) s = .next t ∧
      ((∀ g ∈ gs, (s.grp g).life = .issuing → ¬atomic g) → t = { u with groups := t.groups } ∧
        ∀ g ∈ gs, (t.grp g).cbuf = [] ∧ (t.grp g).run = (s.grp g).run ∧
          ((s.grp g).pastWord = true → (t.grp g).atBoundary = false ∧ (t.grp g).roundDone = false ∧ (t.grp g).pastWord = false) ∧
          ((s.grp g).pastWord = false → (s.grp g).life = .issuing → (t.grp g).life = .issuing ∧ (t.grp g).roundDone = true) ∧
          ((s.grp g).life = .waiting → (t.grp g).life = .waiting ∨ (t.grp g).life = .ready))) ∧
  (∀ (s : State) (g : Nat) (w : FrozenBy) (pa : Nat) (rest : List Nat),
    let x := s.grp g
    let u := performAll s g
    stopWhy s g = some w → x.chain = none → CanSettle s g → freeRecs u x.ctx (grpRecs u x.ctx) = pa :: rest →
      ∃ t, exec (.groupStop g) s = .next t ∧ Gone t g ∧ (∃ f, t.frozen = s.frozen ++ [f] ∧ f.pa = pa ∧ f.ctx = x.ctx ∧ f.why = w ∧ f.due = (w == .yield) ∧
        f.x.frontier = x.frontier ∧ f.x.run = x.run ∧ f.x.life = ((settled s g).grp g).life) ∧
      (alarmed s = false → recKey s x.ctx = 0 → pa % 64 = 0 → x.blocks < 8 → hNat t 0 pa 8 = 2 ^ 63 + 2 ^ 57 * x.blocks +
        2 ^ 60 * (match x.life with | .parked => 2 | .waiting => 3 | .trapped => 4 | _ => 1))) ∧
  (∀ (s : State) (g : Nat) (w : FrozenBy),
    let x := s.grp g
    let u := performAll s g
    stopWhy s g = some w → x.chain = none → freeRecs u x.ctx (grpRecs u x.ctx) = [] → ∃ t, exec (.groupStop g) s = .next t ∧ OnlyGroup s t g ∧
      t.grp g = if w = .yield then { x with stopWait := true } else x) ∧
  (∀ (s : State) (c : Nat), (s.ctxs.get c).st = .saving → (s.ctxs.get c).saveClock * 10 / 36 + (s.ctxs.get c).ywait ≤ (timen s).toNat →
    ∃ t, exec (.ywaitExpiry c) s = .next t ∧ t = { s with groups := t.groups } ∧
      ∀ k, (∃ e ∈ s.groups, e.1 = k) → t.grp k = if (s.grp k).ctx = c then { s.grp k with stopWait := true } else s.grp k) ∧
  (∀ (s : State) (c rec' g pa : Nat) (f : Frozen),
    let x := f.x
    (grpRecs s c)[rec']? = some pa → s.frozen.find? (fun f => f.pa == pa && f.ctx == c && f.due) = some f → f.why = .save →
      (s.ctxs.get c).st = .restoring ∨ (s.ctxs.get c).st = .active → (∀ e ∈ s.groups, e.1 ≠ g) → g / 48 = (s.teams.get x.tid).core →
      x.blocks ≤ poolFree s (g / 48) → x.tx.act = false → x.chain = none →
      ∃ t, exec (.groupRestore c rec' g) s = .next t ∧ t = { s with groups := t.groups, frozen := t.frozen, h := t.h, regs := t.regs, poolPos := t.poolPos } ∧
        t.grp g = { x with stopWait := sliceHeld s x, yielded := false, safe := false } ∧ (∀ k, k ≠ g → t.grp k = s.grp k) ∧
        t.frozen = s.frozen.filter (fun h => !(h.pa == pa && h.ctx == c)) ∧
        (alarmed s = false → recKey s c = 0 → pa % 64 = 0 → hNat t 0 pa 8 = hNat s 0 pa 8 % 2 ^ 63))

-- ===== dispatch, faults and homes =====

/-- The dispatcher pops launch records into kernels, clusters are placed and stolen, kernels complete, fault records are pushed, and homes serve their
requests (R338 to R351, R371, R372, R374). Which free slots and slices are taken first is the model's choice (log 20), and the TIME of records log 23.
-/
def Obligations.DispatchAndHomes : Prop :=
  (∀ (s : State) (c : Nat) (r : List Byte) (rest : List (List Byte)), (s.ctxs.get c).frecs = r :: rest →
    (faultQueue s c = none → ∃ t, exec (.faultRecordPush c) s = .next t ∧ t = { s with ctxs := t.ctxs, regs := t.regs } ∧
      t.ctxs.get c = { s.ctxs.get c with frecs := rest } ∧
      (t.regs.hbStat.get (if inMemory (s.ctxs.get c).fq then stackOf (s.ctxs.get c).fq else 0)).getLsbD 5 = true) ∧
    (∀ q sl, faultQueue s c = some q → q.count < q.cap → qSlots s (faultAcc c) .store q q.put 1 = .ok sl → ∃ t n out, exec (.faultRecordPush c) s = .next t ∧
      t = { s with ctxs := t.ctxs, h := t.h, hostOut := (0, n + 1) :: out } ∧ t.h = (qPush s q sl [r]).h ∧
      t.ctxs.get c = { s.ctxs.get c with frecs := rest } ∧ ∀ k, k ≠ c → t.ctxs.get k = s.ctxs.get k)) ∧
  (∀ (s : State) (c : Nat) (lq : BitVec 2) (q : QDesc) (sl : List (List (Nat × Nat × Nat))),
    let x := s.ctxs.get c
    let va := x.lqs.getD lq.toNat 0
    let u := { s with ctxs := s.ctxs.upd c (fun c => { c with badq := c.badq.filter (fun b => b.lq != lq.toNat) }) }
    x.st = .active → va ≠ 0 → lqLook s x lq.toNat = true → openLq s c va = some q → 2 ≤ q.count → qSlots u (dispAcc s c) .load q q.get 2 = .ok sl →
      let bs := getPieces u sl.flatten
      let w := toWords bs.1
      let v := qPop u q 2
      let k := kernelOf c (BitVec.ofNat 64 (c * 2 ^ 58 + x.popped % 2 ^ 58)) w
      ∃ t, exec (.dispatcherPop c lq) s = .next t ∧ t = { v with kernels := t.kernels, ctxs := t.ctxs } ∧ (t.ctxs.get c).popped = x.popped + 1 ∧
        k.entry = wordAt w 1 ∧ k.argp = wordAt w 2 ∧ k.ngroup = (wordAt w 4).toNat / 2 ^ 38 % 2 ^ 6 ∧
        (bs.2 = false → recordBad w k = false → noSlots v k = false → t.kernels = s.kernels ++ [{ k with snap := v.h.bytes }] ∧ (t.ctxs.get c).frecs = x.frecs) ∧
        ((bs.2 || recordBad w k || noSlots v k) = true → t.kernels = s.kernels ++ [{ k with st := .refused }] ∧
          (t.ctxs.get c).frecs = x.frecs ++ [recordBytes 4 (q.slot q.get) va (BitVec.ofNat 64 (s.clock * 10 / 36))]) ∧
        (alarmed s = false → q.key = 0 → q.pa % 64 = 0 → hNat t 0 (q.pa + 8) 8 = (q.get + 2).toNat)) ∧
  (∀ (s : State) (grid : BitVec 64) (die : BitVec 2) (slot sl : Nat) (k0 : Kernel) (r : Range) (o : Nat × Nat),
    let k := handOut s k0 sl
    let n := k0.crows * k0.ccols
    let core := fun (i : Nat) => 96 * die.toNat + 12 * (o.1 + i / k0.ccols) + (o.2 + i % k0.ccols)
    s.kernels.find? (fun k => k.grid == grid && k.st == .running) = some k0 → (s.ctxs.get k0.ctx).st = .active → slotFits s k0 die.toNat slot = true →
      sliceFor s k0 die.toNat slot = some sl → nothingEarlier s k0 sl = true → rangeAt (k.ranges.filter (fun r => r.slice == sl)) die.toNat slot = some r →
      (dieSlots s k0 die.toNat)[slot]? = some o → k0.ngroup ≤ 48 → ∃ t, exec (.clusterPlacement grid die slot) s = .next t ∧
        t = { s with groups := t.groups, teams := t.teams, nextTeam := s.nextTeam + n, kernels := t.kernels } ∧
        t.kernels = s.kernels.map (fun q => if q.grid == grid then startCluster k sl r else q) ∧ (startCluster k sl r).placed = k0.placed + 1 ∧
        (∀ e ∈ s.groups, t.grp e.1 = s.grp e.1) ∧
        ∀ i < n,
          let team := r.first * n + i
          (t.teams.get (s.nextTeam + i)).core = core i ∧ (t.teams.get (s.nextTeam + i)).ngroup = k0.ngroup ∧ (t.teams.get (s.nextTeam + i)).shm = k0.shm ∧
          ∀ j < k0.ngroup, ∃ p < 48, (∀ e ∈ s.groups, e.1 ≠ 48 * core i + p) ∧
            let y := t.grp (48 * core i + p)
            let stk := k0.stkbase + BitVec.ofNat 64 (team * k0.ngroup + j) * k0.stkper
            y.life = .unborn ∧ y.ctx = k0.ctx ∧ y.tid = s.nextTeam + i ∧ y.blocks = 0 ∧ y.xblk = k0.xblk ∧ y.spr.group = BitVec.ofNat 64 j ∧
              y.spr.team = BitVec.ofNat 64 team ∧ y.spr.cluster = BitVec.ofNat 64 r.first ∧ y.spr.grid = k0.grid ∧ y.spr.argp = k0.argp ∧
              y.spr.uvec = k0.uvec ∧ y.spr.stkBase = stk ∧ y.spr.stkLimit = stk + k0.stkper ∧ y.budget = k0.budget) ∧
  (∀ (s : State) (k : Kernel) (die : BitVec 2) (sl i j first n : Nat), s.kernels.find? (fun q => q.grid == k.grid && q.st == .running) = some k →
    k.rep = false → (s.ctxs.get k.ctx).st = .active → die.toNat ∈ eligibleDies s k → i ≠ j → i < (dieSlots s k die.toNat).length →
    j < (dieSlots s k die.toNat).length → runnable k sl = true → k.ranges = [⟨sl, die.toNat, some i, first, n⟩] → 2 ≤ n → sl * k.slen ≤ first →
    first + n ≤ (sl + 1) * k.slen →
    ∃ t, exec (.steal k.grid die (some j)) s = .next t ∧ t = { s with kernels := t.kernels } ∧
      let kept : List Range := (List.range (n - n / 2)).map (fun e => ⟨sl, die.toNat, some i, first + e, 1⟩)
      let taken : List Range := (List.range (n / 2)).map (fun e => ⟨sl, die.toNat, some j, first + (n - n / 2) + e, 1⟩)
      t.kernels = s.kernels.map (fun q => if q.grid == k.grid then { k with ranges := kept ++ taken } else q)) ∧
  (∀ (s : State) (grid : BitVec 64) (k : Kernel), s.kernels.find? (fun k => k.grid == grid && k.st == .settling) = some k →
    (∀ p ∈ s.flights, p.grid ≠ grid) →
    let mine := s.staged.filter (fun p => p.grid == grid)
    ∃ t, exec (.kernelSettled grid) s = .next t ∧ t.staged.filter (fun p => p.grid == grid) = [] ∧
      t.kernels = s.kernels.map (fun k => if k.grid == grid then { k with st := .complete, snap := [], ranges := [] } else k) ∧ t.groups = s.groups ∧
      (k.bar = 0 → t.h = (settleAll s mine).h) ∧
      (k.bar ≠ 0 → mine = [] → ∀ x, checkAddr s k.ctx (s.ctxs.get k.ctx).sup .store false k.bar 64 = .ok x → alarmed s = false → x.key = 0 →
        x.pa % 64 = 0 → Arrived s t x.pa 1)) ∧
  (∀ (s : State) (stack c : Nat) (r : HReq),
    let h := s.homes.get stack
    let served := fun (t : State) (r : HReq) (c : Nat) (h : Home) => t = { s with homes := t.homes } ∧ (∀ k, k ≠ stack → t.homes.get k = s.homes.get k) ∧
      t.homes.get stack = { h with reqs := h.reqs.erase r, deficit := h.deficit.set c (h.deficit.get c - (r.cost : Int)), served := h.served + r.cost }
    let ahead := r.core = false ∧ r.cls < 64 ∧ ∃ e ∈ h.reqs, expired s e = true
    headOf s h c = some r →
      (h.cur = some c → (r.cost : Int) ≤ h.deficit.get c → ¬ahead → ∃ t, exec (.homeService stack) s = .next t ∧ served t r c h) ∧
      (∀ d, h.cur = some d → fitsNow s h d = false → nextClass s (some d) = c → (r.cost : Int) ≤ h.deficit.get c + quantum s c → ¬ahead →
        ∃ t, exec (.homeService stack) s = .next t ∧ served t r c { h with deficit := h.deficit.set c (h.deficit.get c + quantum s c), cur := some c }) ∧
      (h.cur = some c → (r.cost : Int) ≤ h.deficit.get c → ahead → ∃ t e, exec (.latencyBoundExpiry stack) s = .next t ∧ e ∈ h.reqs ∧ expired s e = true ∧
        (∀ q ∈ h.reqs, expired s q = true → e.arrived ≤ q.arrived) ∧ served t e (classOf s e) h))

-- ===== the commands of the supervisor =====

/-- The commands of CTX_CMD move a context between its states, or answer with STATUS (R356 to R362, R364, R369, R375); the events that complete a
save, a restore and an end. Corners of saves and restores are the model's (log 27, log 38). -/
def Obligations.ContextCommands : Prop :=
  (∀ (s : State) (v : BitVec 64) (rest : List (BitVec 64)), s.regs.ctxPend = v :: rest →
    let n := v.toNat / 2 ^ 38 % 64
    let op := v.toNat / 2 ^ 44 % 16
    let c := s.ctxs.get n
    let u := { s with regs := { s.regs with ctxPend := rest } }
    let only := fun (t : State) => t = { s with ctxs := t.ctxs, regs := t.regs } ∧ ∀ k, k ≠ n → t.ctxs.get k = s.ctxs.get k
    (∀ p ∈ [(1, Instr.ctxCreate, [CtxState.free]), (2, .ctxHalt, [.active]), (3, .ctxResume, [.halted]), (4, .ctxSave, [.active, .halted]),
            (5, .ctxRestore, [.saved]), (6, .ctxEnd, [.active, .halted, .saved, .quarantined])],
      op = p.1 → c.st ∉ p.2.2 → ∃ t, exec p.2.1 s = .next t ∧ t = { s with regs := t.regs } ∧ CtxAnswers s t rest 1) ∧
    (op = 1 → c.st = .free →
      let r := readCtx { u with ctxs := s.ctxs.set n {} } n
      (r.1 = 0 → r.2.root = hNat s 0 s.regs.ctxDesc.toNat 8 ∧ ∃ t, exec .ctxCreate s = .next t ∧ CtxAnswers s t rest 0 ∧
        t = { s with ctxs := t.ctxs, regs := t.regs, kernels := s.kernels.filter (fun k => k.ctx != n) } ∧ (∀ k, k ≠ n → t.ctxs.get k = s.ctxs.get k) ∧
        t.ctxs.get n = { r.2 with st := .active }) ∧
      (r.1 ≠ 0 → ∃ t, exec .ctxCreate s = .next t ∧ t = { s with regs := t.regs } ∧ CtxAnswers s t rest r.1)) ∧
    (op = 2 → c.st = .active → ∃ t, exec .ctxHalt s = .next t ∧ only t ∧ CtxAnswers s t rest 0 ∧ t.ctxs.get n = { c with st := .halted, hcause := 3 }) ∧
    (op = 3 → c.st = .halted → ∃ t, exec .ctxResume s = .next t ∧ only t ∧ CtxAnswers s t rest 0 ∧
      t.ctxs.get n = { c with st := .active, badq := c.badq.map (fun b => { b with again := true }) }) ∧
    (op = 4 → c.st = .active ∨ c.st = .halted →
      let enough := (s.groups.filter (fun e => e.2.ctx == n)).length ≤ (freeRecs u n (grpRecs u n)).length ∧
        (ctxTeams s n).length ≤ (freeRecs u n (teamRecs u n)).length ∧ (heldComps s n).length ≤ (freeRecs u n (compRecs u n)).length
      (¬enough → ∃ t, exec .ctxSave s = .next t ∧ t = { s with regs := t.regs } ∧ CtxAnswers s t rest 4) ∧
      (enough → (∃ e ∈ s.groups, e.2.ctx = n) → ∃ t, exec .ctxSave s = .next t ∧ CtxAnswers s t rest 0 ∧
        t = { s with ctxs := t.ctxs, regs := t.regs, groups := t.groups } ∧
        t.ctxs.get n = { c with st := .saving, wasHalted := c.st == .halted, saveClock := s.clock } ∧
        ∀ k, (∃ e ∈ s.groups, e.1 = k) → t.grp k = if (s.grp k).ctx = n ∧ (c.ywait = 0 ∨ c.st = .halted ∨ (s.grp k).life = .parked ∨
          (s.grp k).life = .waiting ∨ (s.grp k).life = .trapped) then { s.grp k with stopWait := true } else s.grp k)) ∧
    (op = 5 → c.st = .saved →
      let r := readCtx u n
      let w := { u with ctxs := s.ctxs.upd n (fun _ => r.2) }
      (r.1 ≠ 0 → ∃ t, exec .ctxRestore s = .next t ∧ t = { s with regs := t.regs } ∧ CtxAnswers s t rest r.1) ∧
      (r.1 = 0 → (∀ pa ∈ grpRecs w n ++ teamRecs w n ++ compRecs w n, recUsed w n pa = false) → ∃ t, exec .ctxRestore s = .next t ∧ only t ∧
        CtxAnswers s t rest 0 ∧ t.ctxs.get n = { lookAgain r.2 with st := .restoring })) ∧
    (op = 6 → c.st ∈ [CtxState.active, .halted, .saved, .quarantined] → ∃ t, exec .ctxEnd s = .next t ∧ (t.ctxs.get n).st = .ending ∧
      t.regs.ctxCmd.toNat / 2 ^ 48 % 256 = 0 ∧ (∀ e ∈ t.groups, e.2.ctx ≠ n) ∧ (∀ e ∈ t.teams, e.2.ctx = n → e.2.tiles = [] ∧ teamCopying s e.1 = true) ∧ (∀ e ∈ t.chains, e.2.ctx ≠ n) ∧
      (∀ e ∈ t.comps, e.2.rect.isSome = true → e.2.grant ≠ n) ∧ (∀ p ∈ t.flights ++ t.staged, p.ctx ≠ n) ∧ (∀ e ∈ t.tlb, e.ctx ≠ n) ∧
      (∀ k ∈ t.kernels, k.ctx = n → k.st ≠ .running ∧ k.st ≠ .settling))) ∧
  (∀ (s : State) (n : Nat),
    let c := s.ctxs.get n
    let put := fun (i : Instr) (d : Ctx) => ∃ t, exec i s = .next t ∧ OnlyCtx s t n ∧ t.ctxs.get n = d
    (c.st = .saving → (∀ e ∈ s.groups, e.2.ctx ≠ n) → (∀ e ∈ s.teams, e.2.live = true → e.2.ctx ≠ n) →
      (∀ e ∈ s.comps, e.2.rect.isSome = true → e.2.grant = n → e.2.st = .empty) → (∀ e ∈ s.copies, e.ctx ≠ n) → put (.contextSaved n) { c with st := .saved }) ∧
    (c.st = .restoring → (∀ f ∈ s.frozen, f.ctx = n → f.due = true → f.why ≠ .save) → (∀ e ∈ s.comps, e.2.grant = n → e.2.st ≠ .loading) →
      put (.contextRestored n) { c with st := .active }) ∧
    (c.st = .ending → (∀ e ∈ s.copies, e.ctx ≠ n) → c.frecs = [] → ∃ t, exec (.contextEnded n) s = .next t ∧
      t = { s with ctxs := t.ctxs, tlb := s.tlb.filter (fun e => e.ctx != n) } ∧ t.ctxs.get n = {} ∧ ∀ k, k ≠ n → t.ctxs.get k = s.ctxs.get k))

/-- The commands of TRAP_CMD on a TRAPPED group (R382): RESUME and SKIP return it to its trapped run, REFLECT enters its handler, TERMINATE ends it; a
command that names no TRAPPED group answers STATE. A TERMINATE after BUDGET ends its slice (log 38). -/
def Obligations.TrapCommands : Prop :=
  ∀ (s : State) (v : BitVec 64) (rest : List (BitVec 64)), s.regs.trapPend = v :: rest →
    let op := v.toNat / 2 ^ 60 % 8
    let core := v.toNat / 2 ^ 32 % 2 ^ 9
    let place := v.toNat % 16
    let g := 48 * core + 12 * (v.toNat / 16 % 4) + place
    let x := s.grp g
    let named := place < 12 ∧ core < 384 ∧ (∃ e ∈ s.groups, e.1 = g) ∧ x.life = .trapped ∧ x.ctx = v.toNat / 2 ^ 48 % 64
    let spent := x.budgeted = true ∧ x.budget = 0
    let only := fun (t : State) => t = { s with regs := t.regs, groups := t.groups } ∧ ∀ k, k ≠ g → t.grp k = s.grp k
    (∀ p ∈ [(1, Instr.trapCmdResume), (2, .trapCmdSkip), (3, .trapCmdReflect), (4, .trapCmdTerminate)], op = p.1 → ¬named →
      ∃ t, exec p.2 s = .next t ∧ t = { s with regs := t.regs } ∧ TrapAnswers s t rest 1) ∧
    (∀ p ∈ [(1, Instr.trapCmdResume, 0#64), (2, .trapCmdSkip, 8)], op = p.1 → named → ¬spent → x.tx.act = false →
      (∀ ts, ¬(x.spr.trapCause.getLsbD 8 = true ∧ inHandler x = true ∧ x.escS ≠ none) → x.trapS = some ts → ts.lanes ≠ 0 →
        ∃ t, exec p.2.1 s = .next t ∧ only t ∧ TrapAnswers s t rest 0 ∧ (t.grp g).life = .ready ∧ (t.grp g).trapS = none ∧ inHandler (t.grp g) = false ∧
          (t.grp g).spr.poisonInfo = 0 ∧ (t.grp g).s = x.s ∧ (t.grp g).v = x.v ∧
          let back := x.spr.trapPc + p.2.2
          Inserted x.frontier (t.grp g).frontier {
            pc := back, prio := ts.prio, depth := ts.depth, mask := ts.lanes
            resume := if back = ts.pc then some ts.rs
              else if back = ts.pc + 8 ∧ ts.trl = false then some { ts.rs with pos := ts.rs.pos + 1 } else none }) ∧
      (∀ ts, x.spr.trapCause.getLsbD 8 = true → inHandler x = true → x.escS = some ts → ts.lanes ≠ 0 →
        ∃ t, exec p.2.1 s = .next t ∧ only t ∧ TrapAnswers s t rest 0 ∧ (t.grp g).life = .ready ∧ (t.grp g).escS = none ∧ (t.grp g).trapS = x.trapS ∧
          inHandler (t.grp g) = true ∧ (t.grp g).spr.trapCause.getLsbD 8 = false ∧ (t.grp g).spr.poisonInfo = 0 ∧
          Inserted x.frontier (t.grp g).frontier {
            pc := ts.pc + p.2.2, prio := ts.prio, depth := ts.depth, mask := ts.lanes
            resume := if p.2.2 = 0 then some ts.rs else if ts.trl = false then some { ts.rs with pos := ts.rs.pos + 1 } else none })) ∧
    (op = 3 → named →
      (x.trapS = none ∨ inHandler x = true ∨ x.spr.uvec = 0 → ∃ t, exec .trapCmdReflect s = .next t ∧ t = { s with regs := t.regs } ∧ TrapAnswers s t rest 2) ∧
      (∀ ts, x.trapS = some ts → inHandler x = false → x.spr.uvec ≠ 0 → ts.lanes ≠ 0 → ¬spent → ∃ t, exec .trapCmdReflect s = .next t ∧ only t ∧
        TrapAnswers s t rest 0 ∧ (t.grp g).life = .ready ∧ inHandler (t.grp g) = true ∧ (t.grp g).trapS = x.trapS ∧
        (t.grp g).spr.trapCause.toNat % 256 = x.spr.trapCause.toNat % 256 ∧
        ∃ e ∈ (t.grp g).frontier, e.pc = x.spr.uvec ∧ e.depth = ts.depth ∧ within ts.lanes e.mask = true ∧ 0xFFF ≤ e.prio)) ∧
    (op = 4 → named → x.chain = none → ¬spent → ∃ t, exec .trapCmdTerminate s = .next t ∧ Gone t g ∧
      t.regs.trapPend = rest ∧ t.regs.trapCmd.toNat / 2 ^ 58 % 4 = 0)

-- ===== grants, frames and keys =====

/-- GRANT and WITHDRAW set a compartment's owner or answer REF (R370); the controllers store frames plain or compressed without touching their
contents (R147, R148); KEY_CMD loads a slot from a wrapped key that it then erases (one that it cannot read is refused, log 38), sets it plain, or
disables it (R373, R417). -/
def Obligations.GrantsFramesAndKeys : Prop :=
  (∀ (s : State) (stack : Nat) (v : BitVec 64) (rest : List (BitVec 64)), s.regs.plPend.get stack = v :: rest →
    let u := { s with regs := { s.regs with plPend := s.regs.plPend.set stack rest } }
    let n := 8 * stack + v.toNat / 2 ^ 53 % 8
    let ref := fun (t : State) => (t.regs.plGrant.get stack).getLsbD 38
    let only := fun (t : State) => t = { s with comps := t.comps, regs := { s.regs with plPend := s.regs.plPend.set stack rest, plGrant := t.regs.plGrant } } ∧
      ∀ k, k ≠ n → t.comps.get k = s.comps.get k
    (v.getLsbD 62 = true → ∃ t, exec (.grant stack) s = .next t ∧ only t ∧ ref t = grantRefused u stack v ∧
      t.comps.get n = if grantRefused u stack v then s.comps.get n else
        { rect := some (v.toNat / 2 ^ 50 % 8, v.toNat / 2 ^ 47 % 8, v.toNat / 2 ^ 43 % 16, v.toNat / 2 ^ 39 % 16), grant := v.toNat / 2 ^ 56 % 64,
          slmask := v.setWidth 32 }) ∧
    (v.getLsbD 62 = false → ((s.comps.get n).st = .empty ∨ (s.comps.get n).st = .loaded → ∃ t, exec (.withdraw stack) s = .next t ∧ only t ∧
        ref t = false ∧ t.comps.get n = {}) ∧
      ((s.comps.get n).st ≠ .empty → (s.comps.get n).st ≠ .loaded → ∃ t, exec (.withdraw stack) s = .next t ∧ only t ∧ ref t = true ∧
        t.comps.get n = s.comps.get n))) ∧
  (∀ (s : State) (stack : Nat) (v : BitVec 64) (rest : List (BitVec 64)), s.regs.mcPend.get stack = v :: rest →
    ∀ p ∈ [(0, Instr.cpStorePlain stack), (1, .cpStoreCompressed stack)], v.toNat / 2 ^ 61 % 4 = p.1 → ∃ t, exec p.2 s = .next t ∧
      t = { s with compressed := t.compressed, regs := { s.regs with mcPend := s.regs.mcPend.set stack rest } } ∧
      ∀ f, f ∈ t.compressed ↔ if f = v.toNat % 2 ^ 36 then p.1 = 1 else f ∈ s.compressed) ∧
  (∀ (s : State) (v : BitVec 64) (ag : RegAgent) (rest : List (BitVec 64 × RegAgent)), s.regs.keyPend = (v, ag) :: rest →
    let u := { s with regs := { s.regs with keyPend := rest } }
    let op := v.toNat / 2 ^ 61 % 4
    let pa := 512 * (v.toNat % 2 ^ 43)
    let slot := v.toNat / 2 ^ 43 % 2 ^ 9
    let only := fun (t : State) => t = { s with keys := t.keys, h := t.h, regs := { s.regs with keyPend := rest, keyCmd := t.regs.keyCmd } } ∧
      ∀ k, k ≠ slot → t.keys.get k = s.keys.get k
    let ref := fun (t : State) => t.regs.keyCmd.getLsbD 60
    (op = 1 → loadedKey u ag pa = none → ∃ t, exec .keyLoad s = .next t ∧ only t ∧ ref t = true ∧ t.keys = s.keys ∧ t.h = s.h) ∧
    (op = 1 → ∀ k, loadedKey u ag pa = some k → ∃ t, exec .keyLoad s = .next t ∧ only t ∧ ref t = false ∧ t.keys.get slot = .key k ∧
      (alarmed s = false → ∀ a, t.h.bytes.get a = if pa ≤ a ∧ a < pa + 72 then 0 else s.h.bytes.get a)) ∧
    (op = 3 → ∃ t, exec .keyLoadPlain s = .next t ∧ only t ∧ t.h = s.h ∧ ref t = (ag == .super) ∧
      t.keys.get slot = if ag = .super then s.keys.get slot else .plain) ∧
    (op = 2 → ∃ t, exec .keyErase s = .next t ∧ only t ∧ t.h = s.h ∧ ref t = false ∧ t.keys.get slot = .disabled))

-- ===== links and collectives (chapter 18) =====

/-- The states of a link and its flits (R393 to R396), the transfers on it (R226, R397, R403), the peers' accesses through windows (R176, R387, R398),
and the completion of a rank, whose values and those of its collective's other ranks on this device are at their homes first, and which acquires
(R180, R402 to R405): an all-reduce of integers gives every rank the sums modulo 2^32. The SOURCE of an arrival, the order of checks and the lines
that a failed attempt leaves new are the model's (log 13, log 39). -/
def Obligations.LinksAndCollectives : Prop :=
  (∀ (s : State) (n : BitVec 5) (lanes : Nat) (peer : BitVec 16) (flit : List Byte) (seq : BitVec 12),
    let l := s.links.get n.toNat
    let becomes := fun (i : Instr) (m : Link) => ∃ t, exec i s = .next t ∧ OnlyLink s t n.toNat ∧ t.links.get n.toNat = m
    let fresh : Link := { l with txSeq := 0, rxSeq := 0, unacked := [], crcFails := 0, naked := false }
    let trains := l.st = 1 ∨ l.st = 4
    let up := l.st = 2 ∨ l.st = 3
    becomes (.linkEnable n) (if l.st = 0 then { fresh with en := true, st := 1 } else { l with en := true }) ∧
    (∃ t, exec (.linkDisable n) s = .next t ∧ t.links.get n.toNat = { fresh with en := false, st := 0 } ∧ ∀ x ∈ t.transfers, x.link ≠ n.toNat) ∧
    (trains → 4 ≤ lanes → becomes (.linkTrained n lanes peer) { l with st := if 8 ≤ lanes then 2 else 3, peer := peer, crcFails := 0 }) ∧
    (trains → ∃ t, exec (.trainingFailed n) s = .next t ∧ t.links.get n.toNat = { fresh with st := 5 } ∧ ∀ x ∈ t.transfers, x.link ≠ n.toNat) ∧
    (up → becomes (.errorBurst n) { l with st := 4 }) ∧
    (up → flitOk flit = false → becomes (.flitReceive n flit) { l with
      crcFails := l.crcFails + 1, naked := true, st := if 16 ≤ l.crcFails + 1 then 4 else l.st }) ∧
    (up → flitOk flit = true → flitSeq flit = l.rxSeq → becomes (.flitReceive n flit) { l with rxSeq := l.rxSeq + 1, crcFails := 0, naked := false }) ∧
    (up → becomes (.nakReplay n seq) { l with replay := min 0xFFFF (l.replay + (l.unacked.dropWhile (fun f => flitSeq f != seq)).length) })) ∧
  (∀ (s : State) (id : Nat) (fresh : List Nat) (x : Transfer) (r : Rank), s.transfers.find? (fun t => t.id == id) = some x →
    s.ranks.find? (fun r => r.id == x.rank) = some r → (s.links.get x.link).st = 2 ∨ (s.links.get x.link).st = 3 →
    let ended := s.transfers.filter (fun y => y.id != id)
    let again := s.transfers.map (fun y => if y.id == id then { y with tries := y.tries + 1 } else y)
    let sent : PeerOp := .write x.peerAddr x.data ((lineParts (x.peerAddr.toNat % 2 ^ 56) x.data.length).map (fun p => x.poiLines.contains (p.1 / 64)))
    let lands := fun (u : State) => (r.op = 0 ∨ r.written = true ∨ fresh = [] ∨ contribs s r = none → u = s) ∧
      ∀ cs, r.op ≠ 0 → r.written = false → contribs s r = some cs →
        u = { s with h := u.h, regs := u.regs } ∧ u.h = (writeLines s r r.dst (dtSize r.dt) (collDst cs r) fresh.contains).h ∧
        ∀ a, (∀ p ∈ lineParts r.dst.toNat ((collDst cs r).length * dtSize r.dt), fresh.contains (p.1 / 64) = true → a / 64 ≠ paIn r.xl p.1 / 64) →
          u.h.bytes.get a = s.h.bytes.get a
    (∃ t u, exec (.transferComplete id .agrees fresh) s = .next t ∧ lands u ∧ (r.op ≠ 0 → t = { u with transfers := ended }) ∧
      (r.op = 0 → t = { s with transfers := ended, peerOut := (if r.res = 0 then [] else [(x.link, .arrive r.res)]) ++ (x.link, sent) :: s.peerOut })) ∧
    (x.tries < 8 → ∃ t u, exec (.transferComplete id .mismatch fresh) s = .next t ∧ lands u ∧ t = { u with transfers := again }) ∧
    (∀ p ∈ [(XferEnd.mismatch, 8), (.refused, 0)], p.2 ≤ x.tries → r.op ≠ 0 → (∃ m ∈ instanceRanks s r, m.id = r.id) →
      ∃ t, exec (.transferComplete id p.1 fresh) s = .next t ∧ (∀ y ∈ t.ranks, ∀ m ∈ instanceRanks s r, y.id ≠ m.id) ∧
        ∀ y ∈ t.transfers, ∀ m ∈ instanceRanks s r, m.done = false → y.rank ≠ m.id) ∧
    (∀ p ∈ [(XferEnd.mismatch, 8), (.refused, 0)], p.2 ≤ x.tries → r.op = 0 → ∃ t, exec (.transferComplete id p.1 fresh) s = .next t ∧
      (∀ y ∈ t.ranks, y.id ≠ r.id) ∧ (∀ y ∈ t.transfers, y.rank ≠ r.id) ∧
      (alarmed s = false → (rankBar s r).1 = 0 → (rankBar s r).2 % 64 = 0 → s.h.poi.get ((rankBar s r).2 / 64) = false →
        barBroken (hNat s 0 (rankBar s r).2 8) = false →
        barBroken (hNat t 0 (rankBar s r).2 8) = true ∧ hNat t 0 ((rankBar s r).2 + 8) 8 % 2 ^ 16 = x.link % 256 * 256 + 1))) ∧
  (∀ (s : State) (n : BitVec 5) (addr : BitVec 64) (len wd : Nat) (data : List Byte) (marks : List Bool) (o : BitVec 4) (val : BitVec 64),
    let l := n.toNat
    let refused := fun (op : PeerOp) => ∃ t, exec (.peerAccess n op) s = .next t ∧ Replied s t 2 []
    linkUp (s.links.get l) = true →
      (peerSpan s l addr len .load false = none → refused (.read addr len)) ∧
      (peerSpan s l addr data.length .store true = none → refused (.write addr data marks)) ∧
      (peerSpan s l addr wd .store true = none → refused (.atomic addr wd o val)) ∧ (peerSpan s l addr 64 .store true = none → refused (.arrive addr)) ∧
      (∀ va xl, peerSpan s l addr len .load false = some (va, xl) → ∃ t, exec (.peerAccess n (.read addr len)) s = .next t ∧
        t = { s with regs := { s.regs with dbStat := t.regs.dbStat }, replies := ((lineParts va.toNat len).map (fun p =>
          (if (readIn s xl p.1 p.2).2 then 1 else 0) :: (readIn s xl p.1 p.2).1)).reverse ++ s.replies }) ∧
      (∀ va xl, peerSpan s l addr data.length .store true = some (va, xl) → ∃ t, exec (.peerAccess n (.write addr data marks)) s = .next t ∧
        Replied (writeMarked s (linkDie l) xl va.toNat data marks) t 0 [] ∧
        (va.toNat % 65536 + data.length ≤ 65536 → alarmed s = false → keyIx s (leafIn xl va.toNat).key = 0 →
          let pa := paIn xl va.toNat
          (∀ a, t.h.bytes.get a = if pa ≤ a ∧ a < pa + data.length then data.getD (a - pa) 0 else s.h.bytes.get a) ∧
          ∀ j p, (lineParts pa data.length)[j]? = some p → t.h.poi.get (p.1 / 64) = (marks.getD j false || (s.h.poi.get (p.1 / 64) && p.2 < 64)))) ∧
      (∀ va xl, peerSpan s l addr wd .store true = some (va, xl) → (wd = 4 ∨ wd = 8) → o.toNat < 12 → va.toNat % wd = 0 →
        let key := keyIx s (leafIn xl va.toNat).key
        let pa := paIn xl va.toNat
        (hPoi s (pa / 64) = true → ∃ t, exec (.peerAccess n (.atomic addr wd o val)) s = .next t ∧
          t = { s with regs := { s.regs with dbStat := t.regs.dbStat }, replies := (1 :: toBytes wd (hNat s key pa wd)) :: s.replies }) ∧
        (hPoi s (pa / 64) = false → ∃ t v, exec (.peerAccess n (.atomic addr wd o val)) s = .next t ∧ OutsideAtomic s t key pa wd o val v)) ∧
      (∀ va xl, peerSpan s l addr 64 .store true = some (va, xl) → va.toNat % 64 = 0 → ∃ t, exec (.peerAccess n (.arrive addr)) s = .next t ∧
        t = { s with h := t.h, regs := t.regs, replies := [0] :: s.replies } ∧
        (alarmed s = false → keyIx s (leafIn xl va.toNat).key = 0 → paIn xl va.toNat % 64 = 0 → Arrived s t (paIn xl va.toNat) 1))) ∧
  (∀ (s : State) (n : BitVec 5) (addr : BitVec 64),
    (peerSpan s n.toNat addr 64 .store true = none → exec (.peerAccess n (.fail addr)) s = .next s) ∧
    (∀ va xl, peerSpan s n.toNat addr 64 .store true = some (va, xl) → va.toNat % 64 = 0 →
      let pa := paIn xl va.toNat
      alarmed s = false → keyIx s (leafIn xl va.toNat).key = 0 → pa % 64 = 0 → s.h.poi.get (pa / 64) = false → barBroken (hNat s 0 pa 8) = false →
        ∃ t, exec (.peerAccess n (.fail addr)) s = .next t ∧ t = { s with h := t.h, regs := t.regs } ∧
          barBroken (hNat t 0 pa 8) = true ∧ hNat t 0 (pa + 8) 8 % 2 ^ 16 = n.toNat * 256 + 1)) ∧
  (∀ (s : State) (id : Nat) (r : Rank), s.ranks.find? (fun r => r.id == id && !r.done) = some r → (∀ t ∈ s.transfers, t.rank ≠ id) → r.k = 0 →
    let u := writeAll s r
    (r.op = 0 → r.ids.getD 1 0 ≠ s.regs.devId → ∃ t, exec (.collRankComplete id) s = .next t ∧ (∀ x ∈ t.ranks, x.id ≠ id) ∧ t.groups = s.groups ∧
      (alarmed s = false → (rankBar s r).1 = 0 → (rankBar s r).2 % 64 = 0 → Arrived s t (rankBar s r).2 1)) ∧
    (r.op ≠ 0 → (localRank s r.tag r.p r.rank).map (·.id) = some id → ∀ cs, contribs s r = some cs → ∃ t, exec (.collRankComplete id) s = .next t ∧
      (∀ x ∈ t.ranks, x.id = id → x.done = true) ∧ t.groups = s.groups ∧
      (instanceRanks s r = [r] → r.written = false → u.h = (writeLines s r r.dst (dtSize r.dt) (collDst cs r) (fun _ => true)).h) ∧
      (∀ m ∈ instanceRanks s r, m.written = false → contribs s m ≠ none → ∀ x ∈ u.ranks, x.id = m.id → x.written = true) ∧
      (∀ e ∈ t.cv.get (r.gid / 48), e.dirty = false → inRange r.xl r.dst.toNat (collDstLen r) e.line = false) ∧
      (alarmed s = false → (rankBar u r).1 = 0 → (rankBar u r).2 % 64 = 0 → Arrived u t (rankBar u r).2 1))) ∧
  (∀ (cs : List Contrib) (r : Rank), r.op = 1 → r.dt = 2 → r.rop = 0 → r.p = cs.length → 0 < r.p →
    (∀ c ∈ cs, c.els.length = r.count ∧ ∀ e ∈ c.els, e < 2 ^ 32) →
    collDst cs r = (List.range r.count).map (fun e => ((cs.map (fun c => c.els.getD e 0)).sum % 2 ^ 32, cs.any (fun c => c.poi.get e))))

-- ===== the network, the host and the management port =====

/-- Frames enter their binding's queue or a receive ring, and leave from a send ring (R352, R406 to R408, R413); the host reads and writes memory
(R412); the management port and the supervisor read and write registers (R409, R410, R414); PLDM and SPDM answer (R414, R418, R419). The layout of
frames is presumed (log 12). -/
def Obligations.NetworkHostAndManagement : Prop :=
  (∀ (s : State) (port : BitVec 2) (f : List Byte) (b : Nat) (pay : List Byte), bindingOf s port.toNat f = some (b, pay) →
    let v := s.regs.ncBind.get b
    let c := v.toNat / 2 ^ 53 % 64
    let seq := ofBytes (pay.take 8)
    let old := s.regs.ncDrop.get b
    let fits := pay.length = 164 ∧ (s.ctxs.get c).st ≠ .free ∧ (s.ctxs.get c).st ≠ .quarantined ∧ tagOk s c pay = true ∧ s.regs.ncSeq.get b < seq
    let push := intakePush s c (v.toNat / 2 ^ 51 % 4) ((pay.drop 20).take 128)
    (¬fits ∨ push = none → ∃ t, exec (.frameReceive port f) s = .next t ∧ t = { s with regs := { s.regs with ncDrop := t.regs.ncDrop } } ∧
      t.regs.ncDrop.get b = (if old = 0xFFFFFFFFFFFFFFFF#64 then old else old + 1) ∧ ∀ k, k ≠ b → t.regs.ncDrop.get k = s.regs.ncDrop.get k) ∧
    (fits → ∀ u, push = some u → ∃ t, exec (.frameReceive port f) s = .next t ∧ t = { u with regs := { u.regs with ncSeq := t.regs.ncSeq } } ∧
      t.regs.ncSeq.get b = seq)) ∧
  (∀ (s : State) (port : BitVec 2) (f : List Byte), bindingOf s port.toNat f = none →
    let old := s.regs.netDrop.get port.toNat
    (netRing s (s.regs.netRx.get port.toNat) = none → ∃ t, exec (.frameReceive port f) s = .next t ∧
      t = { s with regs := { s.regs with netDrop := t.regs.netDrop } } ∧
      t.regs.netDrop.get port.toNat = if old = 0xFFFFFFFFFFFFFFFF#64 then old else old + 1) ∧
    (∀ q a n q1 w, netRing s (s.regs.netRx.get port.toNat) = some q → q.count ≠ 0 → ringHead s q = some (a, n) → f.length ≤ n → f ≠ [] →
      bufferOk a f.length = true →
      let u := qPop (hWriteSpan s 0 a.toNat f false) q 1
      netRing u (s.regs.netRx.get port.toNat) = some q1 → qPushAs u netAcc q1 [toBytes 8 a.toNat ++ toBytes 8 f.length] = .ok (some w) →
        ∃ t k out, exec (.frameReceive port f) s = .next t ∧ t = { w with hostOut := (port.toNat + 1, k + 1) :: out })) ∧
  (∀ (s : State) (port : BitVec 2) (q : QDesc) (a : BitVec 64) (n : Nat), netRing s (s.regs.netTx.get port.toNat) = some q → q.count ≠ 0 →
    ringHead s q = some (a, n) → 0 < n → bufferOk a n = true → hPoiSpan s a.toNat n = false → ∃ t, exec (.netTransmit port) s = .next t ∧
      t = { qPop s q 1 with frames := t.frames } ∧ t.frames.get port.toNat = s.frames.get port.toNat ++ [hRead s 0 a.toNat n]) ∧
  (∀ (s : State) (b : BitVec 6) (v : BitVec 64), ∃ t, exec (.ncBindWrite b v) s = .next t ∧
    t = { s with regs := { s.regs with ncBind := t.regs.ncBind, ncSeq := t.regs.ncSeq } } ∧ t.regs.ncBind.get b.toNat = v &&& 0xFFF800000000FFFF#64 ∧
    t.regs.ncSeq.get b.toNat = 0 ∧ ∀ k, k ≠ b.toNat → t.regs.ncBind.get k = s.regs.ncBind.get k ∧ t.regs.ncSeq.get k = s.regs.ncSeq.get k) ∧
  (∀ (s : State) (pa n wd : Nat) (data : List Byte) (poi : Bool) (o : BitVec 4) (val : BitVec 64),
    let there := fun (n : Nat) => 0 < n ∧ pa + n ≤ 0x10080000000
    let stays := fun (u t : State) => t = { u with regs := { u.regs with dbStat := t.regs.dbStat }, replies := t.replies }
    (there n → ∃ t, exec (.hostMemAccess (.read pa n)) s = .next t ∧ stays s t ∧
      t.replies = ((if hPoiSpan s pa n then 1 else 0) :: hRead s 0 pa n) :: s.replies) ∧
    (there data.length → ∃ t, exec (.hostMemAccess (.write pa data poi)) s = .next t ∧ stays (hWriteSpan s 0 pa data poi) t ∧ t.replies = [0] :: s.replies) ∧
    (there wd → wd = 4 ∨ wd = 8 → o.toNat < 12 → pa % wd = 0 → hPoi s (pa / 64) = false → ∃ t v, exec (.hostMemAccess (.atomic pa wd o val)) s = .next t ∧
      OutsideAtomic s t 0 pa wd o val v) ∧
    (there wd → wd = 4 ∨ wd = 8 → o.toNat < 12 → pa % wd = 0 → hPoi s (pa / 64) = true → ∃ t, exec (.hostMemAccess (.atomic pa wd o val)) s = .next t ∧
      stays s t ∧ t.replies = (1 :: toBytes wd (hNat s 0 pa wd)) :: s.replies) ∧
    (¬there n → ∃ t, exec (.hostMemAccess (.read pa n)) s = .next t ∧ Replied s t 2 []) ∧
    (pa + 8 ≤ 2 ^ 32 →
      (∃ t, exec (.hostMemAccess (.bar0Read pa 8)) s = .next t ∧ Replied s t 0 (toBytes 8 (devReadN s (0x20000000000 + pa) 8).toNat)) ∧
      ∃ t, exec (.hostMemAccess (.bar0Write pa 8 val)) s = .next t ∧ Replied (devWriteN s .host (0x20000000000 + pa) 8 val) t 0 [])) ∧
  (∀ (s : State) (pa : Nat) (v : BitVec 64) (ag : RegAgent),
    let inside := 0x20000000000 ≤ pa ∧ pa < 0x20100000000
    (inside → ∃ t, exec (.mctpRegisterAccess pa none) s = .next t ∧ Replied s t 0 (toBytes 8 (devReadN s pa 8).toNat)) ∧
    (inside → ∃ t, exec (.mctpRegisterAccess pa (some v)) s = .next t ∧ Replied (devWriteN s .mgmt pa 8 v) t 0 []) ∧
    (¬inside → ∀ w, ∃ t, exec (.mctpRegisterAccess pa w) s = .next t ∧ Replied s t 2 []) ∧
    (¬inside → exec (.registerWrite ag pa v) s = .next s) ∧
    exec (.registerWrite ag pa v) s = .next (devWriteN s ag pa 8 v) ∧
    devWriteN s .mgmt 0x20000000000 8 v = { s with regs := { s.regs with devId := v.setWidth 16 } } ∧
    (ag ≠ .mgmt → devWriteN s ag 0x20000000000 8 v = s) ∧
    devWriteN s ag 0x20000000018 8 v = { s with regs := { s.regs with ctxDesc := v &&& 0x000FFFFFFFFFFF00#64 } } ∧
    devReadN s 0x20000000038 8 = BitVec.ofNat 64 s.regs.bootStat ∧
    (∀ n < 16, ∃ t, exec (.statusClear ag (0x20000100000 + 0x1000 * n + 0x20) v) s = .next t ∧
      t = { s with regs := { s.regs with hbStat := t.regs.hbStat } } ∧ (∀ k, k ≠ n → t.regs.hbStat.get k = s.regs.hbStat.get k) ∧
      (∀ i < 6, (t.regs.hbStat.get n).getLsbD i = ((s.regs.hbStat.get n).getLsbD i && !v.getLsbD i)) ∧
      (t.regs.hbStat.get n).toNat / 2 ^ 32 % 2 ^ 16 = if v.getLsbD 0 then 0 else (s.regs.hbStat.get n).toNat / 2 ^ 32 % 2 ^ 16)) ∧
  (∀ (s : State) (img key sig : List Byte) (ver idx : Nat),
    (∃ t r, exec .pldmSensors s = .next t ∧ t = { s with tick := t.tick, replies := (0 :: r) :: s.replies }) ∧
    exec (.pldmFirmwareUpdate img ver (key, sig)) s = .next { s with fwNext := some ⟨img, ver, key, sig⟩ } ∧
    (∃ (t : State) (m sg : List Byte), exec (.getMeasurements idx) s = .next t ∧
      t = { s with tick := t.tick, replies := (0 :: (m ++ sg)) :: s.replies } ∧ sg.length = 64 ∧ (idx ∈ [1, 2, 3] → m.length = 32) ∧
      (idx = 2 → beNat m = s.fwDigest.toNat)) ∧
    (key.length = 32 → ∀ p ∈ [(RegAgent.host, 0), (RegAgent.mgmt, 1)], ∃ t, exec (.securedSession p.1 key) s = .next t ∧
      t = { s with sessions := t.sessions } ∧ t.sessions.get p.2 = some key ∧ ∀ k, k ≠ p.2 → t.sessions.get k = s.sessions.get k))

/-- An uncorrectable error marks what it destroys (R385), a corrected one is counted (R390); the alarm disables the slots and quarantines the
contexts, after which memory reads poisoned and takes no write (R376, R420); a reset of the function ends the contexts; a cold reset leaves the device
OFF, and its stages bring it by way of the verification of a new image to READY or RECOVERY (R418, R419, R421). Poisoned data that the host reads
marks every boundary on its way, along the row and then along the column (R7, R391). The bits that an error leaves are free (log 21), and what a reset
keeps of the model's own state and in what steps it comes back is log 40. -/
def Obligations.ErrorsAlarmsAndResets : Prop :=
  (∀ (s : State) (g n lane core team z : Nat) (pl : Nat),
    (pl < 0x10080000000 → ∃ t, exec (.uncorrectableError (.line pl)) s = .next t ∧ t = { s with h := t.h, regs := t.regs, tick := t.tick } ∧
      t.h.poi.get (pl / 64) = true ∧ (t.regs.hbStat.get (stackOf (64 * (pl / 64)))).getLsbD 1 = true ∧
      (∀ a, a / 64 ≠ pl / 64 → t.h.bytes.get a = s.h.bytes.get a) ∧ ∀ l, l ≠ pl / 64 → t.h.poi.get l = s.h.poi.get l) ∧
    (∃ t, exec (.uncorrectableError (.l1 core)) s = .next t ∧ t = { s with cv := t.cv } ∧ t.cv.get core = (s.cv.get core).filter (·.dirty)) ∧
    ((s.teams.get team).live = true → n < 512 * (s.teams.get team).shm → ∃ t, exec (.uncorrectableError (.shared team n)) s = .next t ∧
      (t.teams.get team).shPoi.get n = true ∧ (∀ o, o < 8 * n ∨ 8 * n + 8 ≤ o → (t.teams.get team).sh.get o = (s.teams.get team).sh.get o) ∧
      t = { s with teams := t.teams, tick := t.tick }) ∧
    ((∃ e ∈ s.groups, e.1 = g) → n < 32 * ((s.grp g).blocks + 1) → n < 0x100 → lane < 32 → ∃ t, exec (.uncorrectableError (.vreg g n lane)) s = .next t ∧
      OnlyGroup s t g ∧ t.grp g = { s.grp g with v := (t.grp g).v } ∧ (rget (t.grp g) n lane).poi = true ∧
      ∀ c l, c < 0x100 → l < 32 → (c, l) ≠ (n, lane) → rget (t.grp g) c l = rget (s.grp g) c l) ∧
    ((∃ e ∈ s.groups, e.1 = g) → n < 64 → ∃ t, exec (.uncorrectableError (.sreg g n)) s = .next t ∧ OnlyGroup s t g ∧
      t.grp g = { s.grp g with s := (t.grp g).s } ∧ ((t.grp g).s.get n).poi = true ∧ ∀ k, k ≠ n → (t.grp g).s.get k = (s.grp g).s.get k) ∧
    ((s.teams.get team).live = true → z < 16 → ∃ t, exec (.uncorrectableError (.tile team z)) s = .next t ∧ t = { s with teams := t.teams } ∧
      (t.teams.get team).tiles.get z = { (s.teams.get team).tiles.get z with poi := true }) ∧
    ((∃ e ∈ s.groups, e.1 = g) → z < 4 → n < 16 → ∃ t, exec (.uncorrectableError (.table g z n)) s = .next t ∧ OnlyGroup s t g ∧
      t.grp g = { s.grp g with ptabPoi := (s.grp g).ptabPoi.set (16 * z + n) true }) ∧
    ((s.comps.get core).st = .running → ∃ t, exec (.uncorrectableError (.fabric core)) s = .next t ∧ Abandoned s t core 17) ∧
    ((s.comps.get core).st = .loaded → ∃ t, exec (.uncorrectableError (.fabric core)) s = .next t ∧ OnlyCmp s t core ∧ (t.comps.get core).st = .empty) ∧
    (n < 4 → ∃ t, exec (.uncorrectableError (.boundary n)) s = .next t ∧ t = { s with regs := { s.regs with dbStat := t.regs.dbStat } } ∧
      t.regs.dbStat.get n = s.regs.dbStat.get n ||| 2) ∧
    (n < 16 → ∃ t, exec (.correctedError n) s = .next t ∧ t = { s with regs := { s.regs with hbStat := t.regs.hbStat } } ∧
      (t.regs.hbStat.get n).getLsbD 0 = true ∧
      (t.regs.hbStat.get n).toNat / 2 ^ 32 % 2 ^ 16 = min 0xFFFF ((s.regs.hbStat.get n).toNat / 2 ^ 32 % 2 ^ 16 + 1)) ∧
    (n < 4 → ∃ t, exec (.correctedError (16 + n)) s = .next t ∧ t.regs.dbStat.get n = s.regs.dbStat.get n ||| 1)) ∧
  (∀ (s : State) (which : BitVec 3), which ≠ 0 → ∃ t, exec (.securityAlarm which) s = .next t ∧ alarmed t = true ∧
    t.regs = { s.regs with alarm := s.regs.alarm ||| which.setWidth 64 } ∧ t.h = s.h ∧ t.groups = s.groups ∧
    (alarmed s = false → t.keys = [] ∧ ∀ e ∈ t.ctxs, e.2.st = .free ∨ e.2.st = .quarantined)) ∧
  (∀ (s : State) (key line : Nat) (bs : SMap (Option Byte)) (poi : Bool), alarmed s = true → hPoi s line = true ∧ hWrite s key line bs poi = s) ∧
  (∀ s : State, ∃ t, exec .functionLevelReset s = .next t ∧ t.keys = [] ∧ t.regs.ncBind = [] ∧ t.regs.ncSeq = [] ∧ t.regs.win = [] ∧ t.regs.haMap = [] ∧
    ∀ k, (∃ e ∈ s.ctxs, e.1 = k) → (s.ctxs.get k).st ≠ .free → (t.ctxs.get k).st = .ending) ∧
  (∀ s : State, exec .coldReset s = .next { State.reset with
      agenda := s.agenda, tick := s.tick, hostMem := s.hostMem, fwVersion := s.fwVersion, fwKey := s.fwKey, fwDigest := s.fwDigest, fwNext := s.fwNext,
      replies := s.replies, frames := s.frames, hostOut := s.hostOut, peerOut := s.peerOut,
      regs := { State.reset.regs with capHead := s.regs.capHead, caps := s.regs.caps, bootStat := 0 } }) ∧
  (∀ s : State,
    let at' := fun (u : State) (n : Nat) => bootStep s = { u with regs := { u.regs with bootStat := n } }
    let verified := fun (f : FwImage) => sha256 f.key = s.fwKey ∧ signedBy f.key f.sig f.image = true ∧ s.fwVersion ≤ f.ver
    act s .bootStep = .next (bootStep s) ∧ (s.regs.bootStat = 0 → at' s 1) ∧ (s.regs.bootStat = 3 → at' s 4) ∧ (s.regs.bootStat = 4 → at' s 5) ∧
    (s.regs.bootStat = 1 → (s.fwNext = none → at' s 3) ∧ ∀ f, s.fwNext = some f →
      (verified f → at' { s with fwDigest := sha256 f.image, fwNext := none } 3) ∧ (¬verified f → at' s 2)) ∧
    (s.regs.bootStat = 2 ∨ 5 ≤ s.regs.bootStat → bootStep s = s)) ∧
  (∀ (s : State) (pa n : Nat), 0 < n → pa + n ≤ 0x10080000000 →
    let die := stackOf pa / 4
    let way := if die = 1 then [0] else if die = 2 then [2] else if die = 3 then [1, 2] else []
    ∃ t, exec (.hostMemAccess (.read pa n)) s = .next t ∧
      ∀ b, t.regs.dbStat.get b = if hPoiSpan s pa n = true ∧ b ∈ way then s.regs.dbStat.get b ||| 2 else s.regs.dbStat.get b)

-- ===== the machine as a whole =====

/-- The state after reset is that of R421: memory of zeros without poison, compression off, every key slot disabled, every context FREE, the links
DOWN, bindings, windows and `HA_MAP` clear, and BOOT_STAT READY. -/
def Obligations.ResetState : Prop :=
  let s := State.reset
  s.regs.bootStat = 5 ∧ (∀ key pa, hByte s key pa = 0) ∧ (∀ line, hPoi s line = false) ∧ s.compressed = [] ∧ (∀ k, s.keys.get k = .disabled) ∧
  (∀ n, (s.ctxs.get n).st = .free) ∧ (∀ n, (s.links.get n).st = 0) ∧ (∀ n, s.regs.ncBind.get n = 0) ∧ (∀ n, s.regs.win.get n = 0) ∧
  ∀ n, s.regs.haMap.get n = 0

/-- What every step keeps: home memory in its canonical form, and whole frames in the kept translations. -/
def Obligations.ResetMeetsTheInvariant : Prop := Memory.wf State.reset.h = true ∧ FramesAligned State.reset

/-- Every step keeps them, from every state that has them. -/
def Obligations.StepsKeepTheInvariant : Prop :=
  ∀ s t : State, Memory.wf s.h = true → FramesAligned s → step s = .next t → Memory.wf t.h = true ∧ FramesAligned t
end

