-- ==== Sys2Proof/Laws/Cipher.lean ====
section
/-!
SUPPORT. The ciphers in a form that Lean's kernel evaluates in seconds: tables for the field operations, and every round's bytes computed before the
next round reads them. Each form is proved equal to the model's definition; the tests use them where a statement's hypothesis needs a tag, a CRC or a
wrapped key that is right.
-/

set_option Elab.async false

namespace Sys2Proof.Machine

-- ===== evaluation in order =====

/-- A number is evaluated before it is used. -/
def force {α : Type} (n : Nat) (k : Nat → α) : α := match n with | 0 => k 0 | m + 1 => k (m + 1)
theorem force_eq {α : Type} (n : Nat) (k : Nat → α) : force n k = k n := by cases n <;> rfl

theorem toBytes_ofBytes (l : List Byte) : toBytes l.length (ofBytes l) = l := by
  induction l with
  | nil => rfl
  | cons b r ih =>
    have h : ofBytes (b :: r) = b.toNat + 256 * ofBytes r := rfl
    have hb : b.toNat < 256 := b.isLt
    simp only [List.length_cons, toBytes, h]
    rw [show (b.toNat + 256 * ofBytes r) / 256 = ofBytes r by omega, ih]
    congr 1
    apply BitVec.eq_of_toNat_eq
    simp only [BitVec.toNat_ofNat]
    omega

/-- Bytes are evaluated before they are used. -/
def strict {α : Type} (l : List Byte) (k : List Byte → α) : α := force l.length (fun m => force (ofBytes l) (fun n => k (toBytes m n)))
theorem strict_eq {α : Type} (l : List Byte) (k : List Byte → α) : strict l k = k l := by
  rw [strict, force_eq, force_eq, toBytes_ofBytes]

/-- The cells of a list are evaluated before it is used. -/
def spine {α β : Type} : List β → (List β → α) → α
  | [], k => k []
  | x :: r, k => spine r (fun y => k (x :: y))
theorem spine_eq {α β : Type} (l : List β) (k : List β → α) : spine l k = k l := by
  induction l generalizing k with
  | nil => rfl
  | cons x r ih => rw [spine, ih]

-- ===== tables =====

/-- A table of 256 bytes in one number. -/
def tab (t : Nat) (x : Byte) : Byte := BitVec.ofNat 8 (t >>> (8 * x.toNat))

/-- The inverses in GF(2^8), the S-box and the inverse S-box (FIPS 197). -/
def ginvN : Nat := 0x1C411ACDA07D9CDD8C0346683438235BB31E505DE3D74E08ADCF0EC6EBD60DB16B90F89DD5C48B94EAE2DBC563AE077AE6ACFC1B045327A90FE4D4DAA32F280B5786BCBD3D768EA571787511EF1FE00C62D2E7CE4A12C8264865B88FC32E7CFB9A89DCF9889F142A72848AD86D326ADEA4B902F7D9959E9B56BE7396807F7E838281FAA106D070B63CBAB5108597B7793B219333DF9147F44336A649D3AF5E161761EC51F0223E18BF87244CCA055CED09E9255413AB64A769F5312D6737FE1D1959BB776F2035F2426639F36C92452CC2A2443015980AC1C9A84D55F15A6E3AB2EE40FFCCFD3F585F602B994BAAB474C7E5E1B0C0294FE8D17B52CBF68D0100
def sbN : Nat := 0x16BB54B00F2D99416842E6BF0D89A18CDF2855CEE9871E9B948ED9691198F8E19E1DC186B95735610EF6034866B53E708A8BBD4B1F74DDE8C6B4A61C2E2578BA08AE7A65EAF4566CA94ED58D6D37C8E779E4959162ACD3C25C2406490A3A32E0DB0B5EDE14B8EE4688902A22DC4F816073195D643D7EA7C41744975FEC130CCDD2F3FF1021DAB6BCF5389D928F40A351A89F3C507F02F94585334D43FBAAEFD0CF584C4A39BECB6A5BB1FC20ED00D153842FE329B3D63B52A05A6E1B1A2C830975B227EBE28012079A059618C323C7041531D871F1E5A534CCF73F362693FDB7C072A49CAFA2D4ADF04759FA7DC982CA76ABD7FE2B670130C56F6BF27B777C63
def siN : Nat := 0x7D0C2155631469E126D677BA7E042B17619953833CBBEBC8B0F52AAE4D3BE0A0EF9CC9939F7AE52D0D4AB519A97F51605FEC8027591012B131C7078833A8DD1FF45ACD78FEC0DB9A2079D2C64B3E56FC1BBE18AA0E62B76F89C5291D711AF1476EDF751CE837F9E28535ADE72274AC9673E6B4F0CECFF297EADC674F4111913A6B8A130103BDAFC1020F3FCA8F1E2CD00645B3B80558E4F70AD3BC8C00ABD890849D8DA75746155EDAB9EDFD5048706C92B6655DCC5CA4D41698688664F6F87225D18B6D49A25B76B224D92866A12E084EC3FA420B954CEE3D23C2A632947B54CBE9DEC444438E3487FF2F9B8239E37CFBD7F3819EA340BF38A53630D56A0952
theorem ginv_tab : ∀ x : Byte, ginv x = tab ginvN x := by decide +kernel
theorem sbox_tab : sbox = tab sbN := by
  funext x
  have h : ∀ x : Byte, (let b := tab ginvN x; b ^^^ rotl8 b 1 ^^^ rotl8 b 2 ^^^ rotl8 b 3 ^^^ rotl8 b 4 ^^^ 0x63) = tab sbN x := by decide +kernel
  rw [sbox, ginv_tab, h]
theorem sboxInv_tab : sboxInv = tab siN := by
  funext x
  have h : ∀ x : Byte, tab ginvN (rotl8 x 1 ^^^ rotl8 x 3 ^^^ rotl8 x 6 ^^^ 0x05) = tab siN x := by decide +kernel
  rw [sboxInv, ginv_tab, h]

/-- Products with the coefficients of the inverse MixColumns. -/
def mulTab (c : Byte) : Byte → Byte :=
  if c = 14 then tab 0x8D83919FB5BBA9A7FDF3E1EFC5CBD9D76D63717F555B49471D13010F252B393756584A446E60727C26283A341E10020CB6B8AAA48E80929CC6C8DAD4FEF0E2EC202E3C321816040A505E4C426866747AC0CEDCD2F8F6E4EAB0BEACA28886949AFBF5E7E9C3CDDFD18B859799B3BDAFA11B150709232D3F316B657779535D4F41CCC2D0DEF4FAE8E6BCB2A0AE848A98962C22303E141A08065C52404E646A787617190B052F21333D67697B755F51434DF7F9EBE5CFC1D3DD87899B95BFB1A3AD616F7D735957454B111F0D032927353B818F9D93B9B7A5ABF1FFEDE3C9C7D5DBBAB4A6A8828C9E90CAC4D6D8F2FCEEE05A544648626C7E702A243638121C0E00
  else if c = 11 then tab 0xA3A8B5BE8F849992FBF0EDE6D7DCC1CA1318050E3F3429224B405D56676C717AD8D3CEC5F4FFE2E9808B969DACA7BAB168637E75444F5259303B262D1C170A01555E434879726F640D061B10212A373CE5EEF3F8C9C2DFD4BDB6ABA0919A878C2E2538330209141F767D606B5A514C479E958883B2B9A4AFC6CDD0DBEAE1FCF7545F424978736E650C071A11202B363DE4EFF2F9C8C3DED5BCB7AAA1909B868D2F2439320308151E777C616A5B504D469F948982B3B8A5AEC7CCD1DAEBE0FDF6A2A9B4BF8E859893FAF1ECE7D6DDC0CB1219040F3E3528234A415C57666D707BD9D2CFC4F5FEE3E8818A979CADA6BBB069627F74454E5358313A272C1D160B00
  else if c = 13 then tab 0x979A8D80A3AEB9B4FFF2E5E8CBC6D1DC474A5D50737E69642F2235381B16010C2C21363B1815020F44495E53707D6A67FCF1E6EBC8C5D2DF94998E83A0ADBAB7FAF7E0EDCEC3D4D9929F8885A6ABBCB12A27303D1E130409424F5855767B6C61414C5B5675786F622924333E1D10070A919C8B86A5A8BFB2F9F4E3EECDC0D7DA4D40575A7974636E25283F32111C0B069D90878AA9A4B3BEF5F8EFE2C1CCDBD6F6FBECE1C2CFD8D59E938489AAA7B0BD262B3C31121F08054E4354597A77606D202D3A3714190E034845525F7C71666BF0FDEAE7C4C9DED39895828FACA1B6BB9B96818CAFA2B5B8F3FEE9E4C7CADDD04B46515C7F726568232E3934171A0D00
  else if c = 9 then tab 0x464F545D626B70790E071C152A233831D6DFC4CDF2FBE0E99E978C85BAB3A8A17D746F6659504B42353C272E1118030AEDE4FFF6C9C0DBD2A5ACB7BE8188939A3039222B141D060F78716A635C554E47A0A9B2BB848D969FE8E1FAF3CCC5DED70B0219102F263D34434A5158676E757C9B928980BFB6ADA4D3DAC1C8F7FEE5ECAAA3B8B18E879C95E2EBF0F9C6CFD4DD3A3328211E170C05727B6069565F444D9198838AB5BCA7AED9D0CBC2FDF4EFE60108131A252C373E49405B526D647F76DCD5CEC7F8F1EAE3949D868FB0B9A2AB4C455E5768617A73040D161F2029323BE7EEF5FCC3CAD1D8AFA6BDB48B829990777E656C535A41483F362D241B120900
  else gmul c
theorem gmul_tab (c x : Byte) : gmul c x = mulTab c x := by
  have h : ∀ x : Byte, gmul 14 x = mulTab 14 x ∧ gmul 11 x = mulTab 11 x ∧ gmul 13 x = mulTab 13 x ∧ gmul 9 x = mulTab 9 x := by decide +kernel
  by_cases h1 : c = 14
  · rw [h1, (h x).1]
  by_cases h2 : c = 11
  · rw [h2, (h x).2.1]
  by_cases h3 : c = 13
  · rw [h3, (h x).2.2.1]
  by_cases h4 : c = 9
  · rw [h4, (h x).2.2.2]
  rw [mulTab, if_neg h1, if_neg h2, if_neg h3, if_neg h4]

-- ===== decryption and unwrapping =====

def mixTab (s : List Byte) : List Byte :=
  (List.range 16).map fun i =>
    (List.range 4).foldl (fun acc j => acc ^^^ mulTab (List.getD [14, 11, 13, 9] ((j + 4 - i % 4) % 4) 0) (s.getD (4 * (i / 4) + j) 0)) 0

/-- One round on the sixteen bytes of a state. -/
def decRound (s k : List Byte) : List Byte :=
  match s, k with
  | [s0, s1, s2, s3, s4, s5, s6, s7, s8, s9, s10, s11, s12, s13, s14, s15],
    [k0, k1, k2, k3, k4, k5, k6, k7, k8, k9, k10, k11, k12, k13, k14, k15] =>
    let t0 := tab siN s0 ^^^ k0
    let t1 := tab siN s13 ^^^ k1
    let t2 := tab siN s10 ^^^ k2
    let t3 := tab siN s7 ^^^ k3
    let t4 := tab siN s4 ^^^ k4
    let t5 := tab siN s1 ^^^ k5
    let t6 := tab siN s14 ^^^ k6
    let t7 := tab siN s11 ^^^ k7
    let t8 := tab siN s8 ^^^ k8
    let t9 := tab siN s5 ^^^ k9
    let t10 := tab siN s2 ^^^ k10
    let t11 := tab siN s15 ^^^ k11
    let t12 := tab siN s12 ^^^ k12
    let t13 := tab siN s9 ^^^ k13
    let t14 := tab siN s6 ^^^ k14
    let t15 := tab siN s3 ^^^ k15
    [0 ^^^ mulTab 14 t0 ^^^ mulTab 11 t1 ^^^ mulTab 13 t2 ^^^ mulTab 9 t3, 0 ^^^ mulTab 9 t0 ^^^ mulTab 14 t1 ^^^ mulTab 11 t2 ^^^ mulTab 13 t3, 0 ^^^ mulTab 13 t0 ^^^ mulTab 9 t1 ^^^ mulTab 14 t2 ^^^ mulTab 11 t3, 0 ^^^ mulTab 11 t0 ^^^ mulTab 13 t1 ^^^ mulTab 9 t2 ^^^ mulTab 14 t3,
     0 ^^^ mulTab 14 t4 ^^^ mulTab 11 t5 ^^^ mulTab 13 t6 ^^^ mulTab 9 t7, 0 ^^^ mulTab 9 t4 ^^^ mulTab 14 t5 ^^^ mulTab 11 t6 ^^^ mulTab 13 t7, 0 ^^^ mulTab 13 t4 ^^^ mulTab 9 t5 ^^^ mulTab 14 t6 ^^^ mulTab 11 t7, 0 ^^^ mulTab 11 t4 ^^^ mulTab 13 t5 ^^^ mulTab 9 t6 ^^^ mulTab 14 t7,
     0 ^^^ mulTab 14 t8 ^^^ mulTab 11 t9 ^^^ mulTab 13 t10 ^^^ mulTab 9 t11, 0 ^^^ mulTab 9 t8 ^^^ mulTab 14 t9 ^^^ mulTab 11 t10 ^^^ mulTab 13 t11, 0 ^^^ mulTab 13 t8 ^^^ mulTab 9 t9 ^^^ mulTab 14 t10 ^^^ mulTab 11 t11, 0 ^^^ mulTab 11 t8 ^^^ mulTab 13 t9 ^^^ mulTab 9 t10 ^^^ mulTab 14 t11,
     0 ^^^ mulTab 14 t12 ^^^ mulTab 11 t13 ^^^ mulTab 13 t14 ^^^ mulTab 9 t15, 0 ^^^ mulTab 9 t12 ^^^ mulTab 14 t13 ^^^ mulTab 11 t14 ^^^ mulTab 13 t15, 0 ^^^ mulTab 13 t12 ^^^ mulTab 9 t13 ^^^ mulTab 14 t14 ^^^ mulTab 11 t15, 0 ^^^ mulTab 11 t12 ^^^ mulTab 13 t13 ^^^ mulTab 9 t14 ^^^ mulTab 14 t15]
  | _, _ => mixTab (xorBytes ((shiftRowsInv s).map (tab siN)) k)
theorem decRound_eq (s k : List Byte) : decRound s k = mixTab (xorBytes ((shiftRowsInv s).map (tab siN)) k) := by
  unfold decRound; split <;> rfl

def decRounds : List (List Byte) → List Byte → List Byte
  | [], s => s
  | k :: r, s => strict (decRound s k) (decRounds r)
def aesDecT (rk : List (List Byte)) (blk : List Byte) : List Byte :=
  strict (decRounds ((rk.drop 1).take 13).reverse (xorBytes blk (rk.getD 14 []))) fun st => xorBytes ((shiftRowsInv st).map (tab siN)) (rk.headD [])
theorem aesDec_tab (key blk : List Byte) : aesDec key blk = aesDecT (roundKeys key) blk := by
  have h : ∀ ks s, decRounds ks s = ks.foldl (fun s k => mixWith [14, 11, 13, 9] (xorBytes ((shiftRowsInv s).map sboxInv) k)) s := by
    intro ks
    induction ks with
    | nil => intro s; rfl
    | cons k r ih => intro s; rw [decRounds, strict_eq, decRound_eq, ih, List.foldl_cons, mixTab, mixWith, sboxInv_tab]; simp only [gmul_tab]
  rw [aesDec, aesDecT, strict_eq, h, sboxInv_tab]

def unwrapT (rk : List (List Byte)) : Nat → List Byte → List (List Byte) → List Byte × List (List Byte)
  | 0, a, r => (a, r)
  | t + 1, a, r => strict (aesDecT rk (xorBytes a (toBytes 8 (t + 1)).reverse ++ r.getD (t % r.length) [])) fun b =>
    spine (r.set (t % r.length) (b.drop 8)) fun q => strict (b.take 8) fun a => unwrapT rk t a q
theorem unwrapSteps_tab (kek : List Byte) : ∀ n a r, unwrapSteps kek n a r = unwrapT (roundKeys kek) n a r := by
  intro n
  induction n with
  | zero => intro a r; rfl
  | succ t ih => intro a r; rw [unwrapSteps, unwrapT, strict_eq, spine_eq, strict_eq, aesDec_tab, ih]
/-- The first steps of an unwrapping that has n left. -/
def unwrapN (rk : List (List Byte)) : Nat → Nat → List Byte × List (List Byte) → List Byte × List (List Byte)
  | 0, _, p => p
  | j + 1, n, p => strict (aesDecT rk (xorBytes p.1 (toBytes 8 n).reverse ++ p.2.getD ((n - 1) % p.2.length) [])) fun b =>
    spine (p.2.set ((n - 1) % p.2.length) (b.drop 8)) fun q => strict (b.take 8) fun a => unwrapN rk j (n - 1) (a, q)
theorem unwrapT_first (rk : List (List Byte)) : ∀ j n p, unwrapT rk (n + j) p.1 p.2 = unwrapT rk n (unwrapN rk j (n + j) p).1 (unwrapN rk j (n + j) p).2 := by
  intro j
  induction j with
  | zero => intro n p; rfl
  | succ j ih => intro n p; rw [← Nat.add_assoc, unwrapT, unwrapN]; simp only [strict_eq, spine_eq, Nat.add_sub_cancel]; exact ih n (_, _)

-- ===== encryption, tags and CRCs =====

def encRounds : List (List Byte) → List Byte → List Byte
  | [], s => s
  | k :: r, s => strict (xorBytes (mixWith [2, 3, 1, 1] (shiftRows (s.map (tab sbN)))) k) (encRounds r)
def aesEncT (rk : List (List Byte)) (blk : List Byte) : List Byte :=
  strict (encRounds ((rk.drop 1).take 13) (xorBytes blk (rk.headD []))) fun st => xorBytes (shiftRows (st.map (tab sbN))) (rk.getD 14 [])
theorem aesEnc_tab (key blk : List Byte) : aesEnc key blk = aesEncT (roundKeys key) blk := by
  have h : ∀ ks s, encRounds ks s = ks.foldl (fun s k => xorBytes (mixWith [2, 3, 1, 1] (shiftRows (s.map sbox))) k) s := by
    intro ks
    induction ks with
    | nil => intro s; rfl
    | cons k r ih => intro s; rw [encRounds, strict_eq, ih, List.foldl_cons, sbox_tab]
  rw [aesEnc, aesEncT, strict_eq, h, sbox_tab]

def ghashFold (hk : Nat) : List (List Byte) → Nat → Nat
  | [], y => y
  | b :: r, y => force (y ^^^ beNat b) fun x => force (ghashMul 128 x hk) (ghashFold hk r)
def gmacT (rk : List (List Byte)) (iv msg : List Byte) : List Byte :=
  let nb := (msg.length + 15) / 16
  force (beNat (aesEncT rk (List.replicate 16 0))) fun hk =>
    force (ghashFold hk (chunks 16 nb (msg ++ List.replicate (16 * nb - msg.length) 0)) 0 ^^^ (8 * msg.length * 2 ^ 64)) fun y =>
      force (ghashMul 128 y hk) fun z => xorBytes (toBytes 16 z).reverse (aesEncT rk (iv ++ [0, 0, 0, 1]))
theorem gmac_tab (key iv msg : List Byte) : gmac key iv msg = gmacT (roundKeys key) iv msg := by
  have h : ∀ hk bs y, ghashFold hk bs y = bs.foldl (fun y b => ghashMul 128 (y ^^^ beNat b) hk) y := by
    intro hk bs
    induction bs with
    | nil => intro y; rfl
    | cons b r ih => intro y; rw [ghashFold, force_eq, force_eq, ih, List.foldl_cons]
  simp only [gmac, gmacT, force_eq, h, aesEnc_tab]

def crcFold : List Byte → Nat → Nat
  | [], c => c
  | b :: r, c => force (crcBits 8 (BitVec.ofNat 32 c ^^^ b.setWidth 32)).toNat (crcFold r)
theorem crc32_fold (bs : List Byte) : crc32 bs = ~~~BitVec.ofNat 32 (crcFold bs 0xFFFFFFFF) := by
  have h : ∀ bs c, BitVec.ofNat 32 (crcFold bs c) = bs.foldl (fun c b => crcBits 8 (c ^^^ b.setWidth 32)) (BitVec.ofNat 32 c) := by
    intro bs
    induction bs with
    | nil => intro c; rfl
    | cons b r ih => intro c; rw [crcFold, force_eq, ih, List.foldl_cons, BitVec.ofNat_toNat, BitVec.setWidth_eq]
  rw [crc32, h]

-- ===== the key of zeros =====

/-- The round keys of the key of 32 zero bytes. -/
def zeroKeys : List (List Byte) :=
  [0x0,
   0x0,
   0x63636362636363626363636263636362,
   0xfbfbfbaafbfbfbaafbfbfbaafbfbfbaa,
   0xac0f0f0dcf6c6c6fac0f0f0dcf6c6c6f,
   0x917676d76a8d8d7d917676d76a8d8d7d,
   0xe81383ca28e37316de25b5ec1ed5453,
   0xab0c07eb3a7a713c50f7fc41c1818a96,
   0xe962fecde7e3c6f1456df1c0288faa9e,
   0x1eaabbbdb5a6bc568fdccd6adf2b312b,
   0x1911cf98f07331551790f7a452fd0664,
   0x2f7971ec31d3ca51847576070ba9bb6d,
   0x621ab98e7b0b76168b7847439ce8b0e7,
   0x3bd420ce14ad5122257e9b73a10bed74,
   0x856370cbe779c9459c72bf53170af810].map (toBytes 16)
theorem roundKeys_zero : roundKeys (List.replicate 32 0) = zeroKeys := by decide +kernel

end Sys2Proof.Machine
end

