-- ==== Sys2Proof/Laws/Encode.lean ====
section
/-!
SUPPORT. The codes and the formats: a field that has been encoded is read back as it was.
-/

namespace Sys2Proof

open BitVec (extractLsb'_append_eq_of_le extractLsb'_append_eq_of_add_le extractLsb'_setWidth_of_le)

-- ===== codes =====

theorem opdOf_code (o : Opd) : opdOf? o.code = some o := by
  cases o with
  | v n => revert n; decide
  | s n => revert n; decide
  | k n => revert n; decide
  | m n => revert n; decide
  | ic n => revert n; decide
  | fc n => revert n; decide
  | ind n => revert n; decide

theorem shapeOf_code (s : Shape) : shapeOf? (BitVec.ofNat 4 s.code).toNat = some s := by cases s <;> rfl
theorem mskOf_code (m : Msk) : mskOf? m.code.toNat = some m := by cases m <;> rfl
theorem rndOf_code (m : Rnd) : rndOf? m.code.toNat = some m := by cases m <;> rfl
theorem routeOf_code (m : Route) : routeOf m.code = m := by cases m <;> rfl
theorem scopeOf_code (m : Scope) : scopeOf? m.code.toNat = some m := by cases m <;> rfl
theorem orderOf_code (m : MOrder) : orderOf m.code = m := by cases m <;> rfl
theorem partOf_code (p : TilePart) : partOf? p.code.toNat = some p := by cases p <;> rfl
theorem bit1_eq (b : Bool) : (bit1 b == 1) = b := by cases b <;> rfl

theorem nameOf_code (o : Option Opd) (h : nameOk o = true) : nameOf? (nameCode o) = some o := by
  cases o with
  | none => rfl
  | some o =>
    have h1 : o.code ≠ 0x1FF#9 := by
      cases o with
      | ind n => revert h; revert n; decide
      | v n => revert n; decide
      | s n => revert n; decide
      | k n => revert n; decide
      | m n => revert n; decide
      | ic n => revert n; decide
      | fc n => revert n; decide
    simp [nameOf?, nameCode, h1, opdOf_code]

-- ===== formats =====

theorem splitA_packA (r : RawA) : splitA (packA r) = r := by
  simp (disch := omega) only [splitA, packA, extractLsb'_append_eq_of_le, extractLsb'_append_eq_of_add_le, extractLsb'_setWidth_of_le]
  simp
theorem splitX_packX (r : RawX) : splitX (packX r) = r := by
  simp (disch := omega) only [splitX, packX, extractLsb'_append_eq_of_le, extractLsb'_append_eq_of_add_le, extractLsb'_setWidth_of_le]
  simp
theorem splitB_packB (r : RawB) : splitB (packB r) = r := by
  simp (disch := omega) only [splitB, packB, extractLsb'_append_eq_of_le, extractLsb'_append_eq_of_add_le, extractLsb'_setWidth_of_le]
  simp
theorem splitT_packT (r : RawT) : splitT (packT r) = r := by
  simp (disch := omega) only [splitT, packT, extractLsb'_append_eq_of_le, extractLsb'_append_eq_of_add_le, extractLsb'_setWidth_of_le]
  simp

theorem fmtA_low (f : FmtA) : f.low.extractLsb' 18 9 = f.b.code ∧ f.low.extractLsb' 9 9 = f.c.code ∧ f.low.extractLsb' 6 3 = f.rnd.code ∧
    f.low.extractLsb' 5 1 = bit1 f.sat ∧ f.low.extractLsb' 3 2 = f.rt.code ∧ f.low.extractLsb' 0 3 = f.fam := by
  simp (disch := omega) only [FmtA.low, extractLsb'_append_eq_of_le, extractLsb'_append_eq_of_add_le]
  simp
theorem fmtC_low (f : FmtC) : f.low.extractLsb' 18 9 = f.b.code ∧ f.low.extractLsb' 9 9 = f.ctl ∧ f.low.extractLsb' 6 3 = f.rnd.code ∧
    f.low.extractLsb' 5 1 = bit1 f.sat ∧ f.low.extractLsb' 3 2 = 0 ∧ f.low.extractLsb' 0 3 = f.fam := by
  simp (disch := omega) only [FmtC.low, extractLsb'_append_eq_of_le, extractLsb'_append_eq_of_add_le]
  simp
theorem fmtM_low (f : FmtM) : f.low.extractLsb' 24 3 = f.scope.code ∧ f.low.extractLsb' 22 2 = f.order.code ∧ f.low.extractLsb' 20 2 = f.ch ∧
    f.low.extractLsb' 0 20 = f.off := by
  simp (disch := omega) only [FmtM.low, extractLsb'_append_eq_of_le, extractLsb'_append_eq_of_add_le]
  simp
theorem fmtAt_low (f : FmtAt) : f.low.extractLsb' 24 3 = f.scope.code ∧ f.low.extractLsb' 22 2 = f.order.code ∧ f.low.extractLsb' 20 2 = 0 ∧
    f.low.extractLsb' 16 4 = f.op ∧ f.low.extractLsb' 0 16 = f.off := by
  simp (disch := omega) only [FmtAt.low, extractLsb'_append_eq_of_le, extractLsb'_append_eq_of_add_le]
  simp

theorem fmtA_encA (maj min : Nat) (f : FmtA) : fmtA? (encA maj min f) = some f := by
  obtain ⟨hb, hc, hr, hs, ht, hf⟩ := fmtA_low f
  simp only [fmtA?, encA, splitA_packA, hb, hc, hr, hs, ht, hf, opdOf_code, shapeOf_code, mskOf_code, rndOf_code, routeOf_code, bit1_eq, bind,
    Option.bind]
theorem fmtC_encC (maj min : Nat) (f : FmtC) : fmtC? (encC maj min f) = some f := by
  obtain ⟨hb, hc, hr, hs, ht, hf⟩ := fmtC_low f
  simp only [fmtC?, encC, splitA_packA, hb, hc, hr, hs, ht, hf, opdOf_code, shapeOf_code, mskOf_code, rndOf_code, bit1_eq, bind, Option.bind]
  simp
theorem fmtI_encI (maj min : Nat) (f : FmtI) : fmtI? (encI maj min f) = some f := by
  simp only [fmtI?, encI, splitA_packA, opdOf_code, shapeOf_code, mskOf_code, bind, Option.bind]
theorem fmtM_encM (min : Nat) (f : FmtM) : fmtM? (encM min f) = some f := by
  obtain ⟨h1, h2, h3, h4⟩ := fmtM_low f
  simp only [fmtM?, encM, splitA_packA, h1, h2, h3, h4, opdOf_code, mskOf_code, scopeOf_code, orderOf_code, bind, Option.bind]
theorem fmtAt_encAt (min : Nat) (f : FmtAt) : fmtAt? (encAt min f) = some f := by
  obtain ⟨h1, h2, h3, h4, h5⟩ := fmtAt_low f
  simp only [fmtAt?, encAt, splitA_packA, h1, h2, h3, h4, h5, opdOf_code, mskOf_code, scopeOf_code, orderOf_code, bind, Option.bind]
  simp

-- ===== the opcode fields of an encoded word =====

theorem maj_packA (r : RawA) : (packA r).extractLsb' 57 7 = r.maj := congrArg RawA.maj (splitA_packA r)
theorem min_packA (r : RawA) : (packA r).extractLsb' 52 5 = r.min := congrArg RawA.min (splitA_packA r)
theorem maj_packX (r : RawX) : (packX r).extractLsb' 57 7 = r.maj := congrArg RawX.maj (splitX_packX r)
theorem maj_packB (r : RawB) : (packB r).extractLsb' 57 7 = r.maj := congrArg RawB.maj (splitB_packB r)
theorem maj_packT (r : RawT) : (packT r).extractLsb' 57 7 = r.maj := congrArg RawT.maj (splitT_packT r)

/-- A word whose raw reading is an instruction that keeps its field rules decodes to it. -/
theorem decodeWord_of_raw {w : BitVec 64} {i : Instr} (h0 : w.extractLsb' 57 7 ≠ 0) (h : decodeRaw w = some i) (hf : fieldRules i = true) :
    decodeWord w = i := by
  unfold decodeWord
  rw [if_neg h0, h]
  simp [checked, hf]

-- QNT and its scale mode share a code: MOD[2] tells them apart (R124)

theorem qnt_fam (f : FmtC) (h : fieldRules (.qnt f) = true) : f.fam.toNat < 4 := by
  unfold fieldRules ruleCvt at h
  rw [Bool.and_eq_true] at h
  have h2 := h.2
  clear h
  split at h2
  · cases h2
  · rw [Bool.and_eq_true] at h2
    rw [eq_of_beq h2.2]; decide
theorem qntScl_fam (f : FmtC) (h : fieldRules (.qntScl f) = true) : ¬ f.fam.toNat < 4 := by
  unfold fieldRules ruleCvt at h
  rw [Bool.and_eq_true] at h
  have h2 := h.2
  clear h
  split at h2
  · cases h2
  · rw [Bool.and_eq_true, Bool.and_eq_true, Bool.and_eq_true] at h2
    have := of_decide_eq_true h2.1.1.2
    omega

end Sys2Proof
end

