-- ==== Sys2Proof/Laws/SMap.lean ====
section
/-!
SUPPORT. The laws of the finite maps: a read after a write, writes to other keys, and the canonical form that every operation keeps.
-/

namespace Sys2Proof.Machine

theorem SMap.get_put_self [Inhabited α] (m : SMap α) (n : Nat) (x : α) : SMap.get (SMap.put m n x) n = x := by
  induction m with
  | nil => simp [put, get]
  | cons e r ih =>
    unfold put
    split
    · simp [get]
    · split
      · simp [get]
      · rename_i h1 h2
        simp [get, h2, ih]

theorem SMap.get_put_other [Inhabited α] (m : SMap α) {n k : Nat} (x : α) (h : k ≠ n) : SMap.get (SMap.put m n x) k = SMap.get m k := by
  induction m with
  | nil => simp [put, get, h]
  | cons e r ih =>
    unfold put
    split
    · simp [get, h]
    · split
      · rename_i h1 h2
        simp [get, h, ← h2]
      · simp [get, ih]

theorem SMap.get_del_self [Inhabited α] (m : SMap α) (n : Nat) : SMap.get (SMap.del m n) n = default := by
  induction m with
  | nil => rfl
  | cons e r ih =>
    by_cases h : e.1 = n
    · simpa [del, h] using ih
    · have h' : ¬ n = e.1 := fun c => h c.symm
      simpa [del, h, get, h'] using ih

theorem SMap.get_del_other [Inhabited α] (m : SMap α) {n k : Nat} (h : k ≠ n) : SMap.get (SMap.del m n) k = SMap.get m k := by
  induction m with
  | nil => rfl
  | cons e r ih =>
    by_cases h1 : e.1 = n
    · have h2 : ¬ k = e.1 := by omega
      simpa [del, h1, get, h] using ih
    · simp only [del] at ih
      simp [del, h1, get, ih]

/-- A read after a write to the same key gives the value written. -/
@[simp] theorem SMap.get_set_self [Inhabited α] [DecidableEq α] (m : SMap α) (n : Nat) (x : α) : SMap.get (SMap.set m n x) n = x := by
  unfold set
  split
  · rename_i h; rw [get_del_self, h]
  · exact get_put_self m n x

/-- A write leaves every other key alone. -/
theorem SMap.get_set_other [Inhabited α] [DecidableEq α] (m : SMap α) {n k : Nat} (x : α) (h : k ≠ n) :
    SMap.get (SMap.set m n x) k = SMap.get m k := by
  unfold set
  split
  · exact get_del_other m h
  · exact get_put_other m x h

theorem SMap.get_set [Inhabited α] [DecidableEq α] (m : SMap α) (n k : Nat) (x : α) :
    SMap.get (SMap.set m n x) k = if k = n then x else SMap.get m k := by
  split
  · rename_i h; subst h; simp
  · rename_i h; exact get_set_other m x h

@[simp] theorem SMap.get_upd_self [Inhabited α] [DecidableEq α] (m : SMap α) (n : Nat) (f : α → α) :
    SMap.get (SMap.upd m n f) n = f (SMap.get m n) := get_set_self m n _

theorem SMap.get_upd_other [Inhabited α] [DecidableEq α] (m : SMap α) {n k : Nat} (f : α → α) (h : k ≠ n) :
    SMap.get (SMap.upd m n f) k = SMap.get m k := get_set_other m _ h

-- ===== the canonical form =====

theorem SMap.above_mono {m : SMap α} {a b : Nat} (h : SMap.above m b = true) (hab : a ≤ b) : SMap.above m a = true := by
  cases m with
  | nil => rfl
  | cons e r =>
    simp only [above, Bool.and_eq_true, decide_eq_true_eq] at h ⊢
    exact ⟨by omega, h.2⟩

theorem SMap.above_put (m : SMap α) {n lo : Nat} (x : α) (h : SMap.above m lo = true) (hn : lo ≤ n) : SMap.above (SMap.put m n x) lo = true := by
  induction m generalizing lo with
  | nil => simp [put, above, hn]
  | cons e r ih =>
    simp only [above, Bool.and_eq_true, decide_eq_true_eq] at h
    unfold put
    split
    · rename_i h1
      simp only [above, Bool.and_eq_true, decide_eq_true_eq]
      exact ⟨hn, by omega, h.2⟩
    · split
      · rename_i h1 h2
        simp only [above, Bool.and_eq_true, decide_eq_true_eq]
        exact ⟨hn, h2 ▸ h.2⟩
      · rename_i h1 h2
        simp only [above, Bool.and_eq_true, decide_eq_true_eq]
        exact ⟨h.1, ih h.2 (by omega)⟩

theorem SMap.above_filter (m : SMap α) (p : Nat × α → Bool) {lo : Nat} (h : SMap.above m lo = true) : SMap.above (m.filter p) lo = true := by
  induction m generalizing lo with
  | nil => rfl
  | cons e r ih =>
    simp only [above, Bool.and_eq_true, decide_eq_true_eq] at h
    simp only [List.filter_cons]
    split
    · simp only [above, Bool.and_eq_true, decide_eq_true_eq]
      exact ⟨h.1, ih h.2⟩
    · exact above_mono (ih h.2) (by omega)

theorem SMap.mem_put {m : SMap α} {n : Nat} {x : α} {e : Nat × α} (h : e ∈ SMap.put m n x) : e = (n, x) ∨ e ∈ m := by
  induction m with
  | nil => simpa [put] using h
  | cons f r ih =>
    unfold put at h
    split at h
    · simpa using h
    · split at h
      · rcases List.mem_cons.1 h with h | h
        · exact .inl h
        · exact .inr (List.mem_cons_of_mem _ h)
      · rcases List.mem_cons.1 h with h | h
        · exact .inr (h ▸ List.mem_cons_self ..)
        · exact (ih h).imp id (List.mem_cons_of_mem _)

/-- A filtered map is canonical. -/
theorem SMap.wf_filter [Inhabited α] [DecidableEq α] {m : SMap α} (p : Nat × α → Bool) (h : m.wf = true) :
    SMap.wf (List.filter p m) = true := by
  simp only [wf, Bool.and_eq_true, List.all_eq_true] at h ⊢
  exact ⟨above_filter m p h.1, fun e he => h.2 e (List.mem_filter.1 he).1⟩

/-- A write keeps the canonical form. -/
theorem SMap.wf_set [Inhabited α] [DecidableEq α] {m : SMap α} (n : Nat) (x : α) (h : m.wf = true) : (m.set n x).wf = true := by
  unfold set
  split
  · exact wf_filter _ h
  · rename_i hx
    simp only [wf, Bool.and_eq_true, List.all_eq_true] at h ⊢
    refine ⟨above_put m x h.1 (by omega), fun e he => ?_⟩
    rcases mem_put he with he | he
    · subst he; simpa using hx
    · exact h.2 e he

theorem SMap.wf_upd [Inhabited α] [DecidableEq α] {m : SMap α} (n : Nat) (f : α → α) (h : m.wf = true) : (m.upd n f).wf = true := wf_set n _ h
theorem SMap.wf_del [Inhabited α] [DecidableEq α] {m : SMap α} (n : Nat) (h : m.wf = true) : (m.del n).wf = true := wf_filter _ h
theorem SMap.wf_clear [Inhabited α] [DecidableEq α] {m : SMap α} (lo n : Nat) (h : m.wf = true) : (m.clear lo n).wf = true := wf_filter _ h

theorem SMap.get_of_above [Inhabited α] {m : SMap α} {lo n : Nat} (h : SMap.above m lo = true) (hn : n < lo) : SMap.get m n = default := by
  induction m generalizing lo with
  | nil => rfl
  | cons e r ih =>
    simp only [above, Bool.and_eq_true, decide_eq_true_eq] at h
    simp only [get, if_neg (show ¬ n = e.1 by omega)]
    exact ih h.2 (by omega)

/-- Equal maps are equal lists: canonical maps that read alike are one list. -/
theorem SMap.ext_of_wf [Inhabited α] [DecidableEq α] {m k : SMap α} (hm : m.wf = true) (hk : k.wf = true)
    (h : ∀ n, SMap.get m n = SMap.get k n) : m = k := by
  have key : ∀ (m k : SMap α) (lo : Nat), SMap.above m lo = true → SMap.above k lo = true → (∀ e ∈ m, e.2 ≠ default) →
      (∀ e ∈ k, e.2 ≠ default) → (∀ n, SMap.get m n = SMap.get k n) → m = k := by
    intro m
    induction m with
    | nil =>
      intro k lo _ hk _ dk h
      cases k with
      | nil => rfl
      | cons e r =>
        have := h e.1
        simp only [get, if_true] at this
        exact absurd this.symm (dk e (List.mem_cons_self ..))
    | cons d q ih =>
      intro k lo hm hk dm dk h
      cases k with
      | nil =>
        have := h d.1
        simp only [get, if_true] at this
        exact absurd this (dm d (List.mem_cons_self ..))
      | cons e r =>
        simp only [above, Bool.and_eq_true, decide_eq_true_eq] at hm hk
        have hd := dm d (List.mem_cons_self ..)
        have he := dk e (List.mem_cons_self ..)
        have hde : d.1 = e.1 := by
          rcases Nat.lt_trichotomy d.1 e.1 with c | c | c
          · exfalso
            have h1 := h d.1
            simp only [get, if_true, if_neg (show ¬ d.1 = e.1 by omega)] at h1
            rw [get_of_above hk.2 (by omega)] at h1
            exact hd h1
          · exact c
          · exfalso
            have h1 := h e.1
            simp only [get, if_true, if_neg (show ¬ e.1 = d.1 by omega)] at h1
            rw [get_of_above hm.2 (by omega)] at h1
            exact he h1.symm
        have hv : d.2 = e.2 := by
          have h1 := h d.1
          simpa only [get, if_true, hde] using h1
        have ht : q = r := by
          refine ih r (d.1 + 1) hm.2 (hde ▸ hk.2) (fun a ha => dm a (List.mem_cons_of_mem _ ha)) (fun a ha => dk a (List.mem_cons_of_mem _ ha)) fun n => ?_
          by_cases c : n = d.1
          · rw [c, get_of_above hm.2 (by omega), hde, get_of_above hk.2 (by omega)]
          · have h1 := h n
            simpa only [get, if_neg c, if_neg (show ¬ n = e.1 by omega)] using h1
        rw [ht, show d = e from Prod.ext hde hv]
  simp only [wf, Bool.and_eq_true, List.all_eq_true] at hm hk
  exact key m k 0 hm.1 hk.1 (fun e he => by simpa using hm.2 e he) (fun e he => by simpa using hk.2 e he) h

end Sys2Proof.Machine
end

