-- ==== Sys2Proof/Laws/Home.lean ====
section
/-!
SUPPORT. The laws of home memory: a read after a write, writes to other bytes, and the canonical form (`Memory.wf`) that every operation that
writes home memory keeps. A step of the machine touches home memory by these operations alone.
-/

namespace Sys2Proof.Machine

-- ===== storing bytes =====

theorem putBytes_wf {m : SMap Byte} (h : m.wf = true) (pa : Nat) (bs : List Byte) : (putBytes m pa bs).wf = true := by
  induction bs generalizing m pa with
  | nil => exact h
  | cons b r ih => exact ih (SMap.wf_set pa b h) (pa + 1)

theorem putOffsets_wf {m : SMap Byte} (h : m.wf = true) (base : Nat) (bs : SMap (Option Byte)) : (putOffsets m base bs).wf = true := by
  induction bs generalizing m with
  | nil => exact h
  | cons e r ih =>
    obtain ⟨o, b | b⟩ := e
    · exact ih h
    · exact ih (SMap.wf_set _ b h)

/-- Bytes outside the span are as before. -/
theorem putBytes_get_other (m : SMap Byte) (pa : Nat) (bs : List Byte) {a : Nat} (h : a < pa ∨ pa + bs.length ≤ a) :
    SMap.get (putBytes m pa bs) a = SMap.get m a := by
  induction bs generalizing m pa with
  | nil => rfl
  | cons b r ih =>
    simp only [List.length_cons] at h
    rw [putBytes, ih (m.set pa b) (pa + 1) (by omega), SMap.get_set_other m b (by omega)]

/-- Bytes of the span are the bytes stored. -/
theorem putBytes_get (m : SMap Byte) (pa : Nat) (bs : List Byte) {i : Nat} (h : i < bs.length) :
    SMap.get (putBytes m pa bs) (pa + i) = bs[i] := by
  induction bs generalizing m pa i with
  | nil => exact absurd h (Nat.not_lt_zero i)
  | cons b r ih =>
    cases i with
    | zero => rw [putBytes, putBytes_get_other _ _ _ (by omega)]; simp
    | succ j =>
      have := ih (m.set pa b) (pa + 1) (i := j) (by simpa using h)
      rw [show pa + (j + 1) = pa + 1 + j by omega]
      simpa [putBytes] using this

/-- Bytes at no offset of the list are as before. -/
theorem putOffsets_get_other (m : SMap Byte) (base : Nat) (bs : SMap (Option Byte)) {a : Nat} (h : ∀ e ∈ bs, a ≠ base + e.1) :
    SMap.get (putOffsets m base bs) a = SMap.get m a := by
  induction bs generalizing m with
  | nil => rfl
  | cons e r ih =>
    obtain ⟨o, b | b⟩ := e
    · exact ih m (fun e he => h e (List.mem_cons_of_mem _ he))
    · rw [putOffsets, ih _ (fun e he => h e (List.mem_cons_of_mem _ he)), SMap.get_set_other m b (h _ (List.mem_cons_self ..))]

-- ===== the canonical form =====

theorem Memory.wf_iff {h : HMem} : Memory.wf h = true ↔ h.bytes.wf = true ∧ h.poi.wf = true ∧ h.pos.wf = true := by
  simp [Memory.wf, and_assoc]

/-- Three canonical maps make a canonical home memory. -/
theorem Memory.wf_mk {b : SMap Byte} {p : SMap Bool} {q : SMap Nat} (hb : b.wf = true) (hp : p.wf = true) (hq : q.wf = true) :
    Memory.wf ⟨b, p, q⟩ = true := Memory.wf_iff.2 ⟨hb, hp, hq⟩

@[simp] theorem hbSet_h (s : State) (stack : Nat) (b : BitVec 64) : (hbSet s stack b).h = s.h := rfl
@[simp] theorem hbSet_tlb (s : State) (stack : Nat) (b : BitVec 64) : (hbSet s stack b).tlb = s.tlb := rfl

/-- What one write at a home can do: nothing where the alarm is set; else the line's bytes, its mark and its position are written, and nothing else of
home memory. -/
theorem hWrite_h (s : State) (key line : Nat) (bs : SMap (Option Byte)) (poi : Bool) :
    (hWrite s key line bs poi).h = s.h ∨
    ∃ mem : SMap Byte, (s.h.bytes.wf = true → mem.wf = true) ∧
      (hWrite s key line bs poi).h = ⟨mem, s.h.poi.set line (poiAfter (s.h.poi.get line) bs.length poi), s.h.pos.set line (s.h.pos.get line + 1)⟩ := by
  unfold hWrite
  split
  · exact .inl rfl
  · refine .inr ⟨match keyOf s key with
      | none => putOffsets s.h.bytes (64 * line) bs
      | some k => putBytes s.h.bytes (64 * line) (xtsEnc k line (mergeLine (xtsDec k line (hStored s line)) bs)), fun h => ?_, ?_⟩
    · split
      · exact putOffsets_wf h _ _
      · exact putBytes_wf h _ _
    · cases poi <;> rfl

@[simp] theorem hWrite_tlb (s : State) (key line : Nat) (bs : SMap (Option Byte)) (poi : Bool) : (hWrite s key line bs poi).tlb = s.tlb := by
  unfold hWrite
  split
  · rfl
  · cases poi <;> rfl

theorem hWrite_wf {s : State} (h : Memory.wf s.h = true) (key line : Nat) (bs : SMap (Option Byte)) (poi : Bool) :
    Memory.wf (hWrite s key line bs poi).h = true := by
  obtain ⟨h1, h2, h3⟩ := Memory.wf_iff.1 h
  rcases hWrite_h s key line bs poi with e | ⟨mem, hm, e⟩
  · rwa [e]
  · rw [e]; exact Memory.wf_mk (hm h1) (SMap.wf_set line _ h2) (SMap.wf_set line _ h3)

/-- A fold of steps that each keep the form keeps it. -/
theorem foldl_wf {α : Type} (f : State → α → State) (hf : ∀ s a, Memory.wf s.h = true → Memory.wf (f s a).h = true) (l : List α) {s : State}
    (h : Memory.wf s.h = true) : Memory.wf (l.foldl f s).h = true := by
  induction l generalizing s with
  | nil => exact h
  | cons a r ih => exact ih (hf s a h)

/-- A fold of steps that each leave the kept translations alone leaves them alone. -/
theorem foldl_tlb {α : Type} (f : State → α → State) (hf : ∀ s a, (f s a).tlb = s.tlb) (l : List α) (s : State) : (l.foldl f s).tlb = s.tlb := by
  induction l generalizing s with
  | nil => rfl
  | cons a r ih => exact (ih (f s a)).trans (hf s a)

theorem hWriteSpan_wf {s : State} (h : Memory.wf s.h = true) (key pa : Nat) (data : List Byte) (poi : Bool) :
    Memory.wf (hWriteSpan s key pa data poi).h = true :=
  foldl_wf _ (fun s a hs => by split <;> [exact hs; exact hWrite_wf hs ..]) _ h

@[simp] theorem hWriteSpan_tlb (s : State) (key pa : Nat) (data : List Byte) (poi : Bool) : (hWriteSpan s key pa data poi).tlb = s.tlb :=
  foldl_tlb _ (fun s a => by split <;> simp) _ s

-- ===== traffic between dies =====

/-- Traffic that crosses boundaries sets status bits of boundaries, and nothing else. -/
theorem crossed_eq (s : State) (a b : Nat) (poi : Bool) :
    crossed s a b poi = { s with regs := { s.regs with dbStat := (crossed s a b poi).regs.dbStat } } := by
  unfold crossed; split <;> rfl

@[simp] theorem crossed_h (s : State) (a b : Nat) (poi : Bool) : (crossed s a b poi).h = s.h := by rw [crossed_eq]
@[simp] theorem crossed_tlb (s : State) (a b : Nat) (poi : Bool) : (crossed s a b poi).tlb = s.tlb := by rw [crossed_eq]
@[simp] theorem crossed_groups (s : State) (a b : Nat) (poi : Bool) : (crossed s a b poi).groups = s.groups := by rw [crossed_eq]
@[simp] theorem crossed_teams (s : State) (a b : Nat) (poi : Bool) : (crossed s a b poi).teams = s.teams := by rw [crossed_eq]
@[simp] theorem crossed_clean (s : State) (a b : Nat) : crossed s a b false = s := rfl
@[simp] theorem crossed_home (s : State) (d : Nat) (poi : Bool) : crossed s d d poi = s := by
  cases poi
  · rfl
  · have : route d d = [] := by
      have e : 2 * dieRow d + dieCol d = d := by simp only [dieRow, dieCol]; omega
      simp [route, boundaryOf, e]
    simp [crossed, this]
@[simp] theorem arrives_h (s : State) (d pa n : Nat) : (arrives s d pa n).h = s.h := crossed_h ..
@[simp] theorem arrives_tlb (s : State) (d pa n : Nat) : (arrives s d pa n).tlb = s.tlb := crossed_tlb ..
@[simp] theorem hSend_h (s : State) (d key line : Nat) (bs : SMap (Option Byte)) (poi : Bool) :
    (hSend s d key line bs poi).h = (hWrite s key line bs poi).h := crossed_h ..
@[simp] theorem hSend_tlb (s : State) (d key line : Nat) (bs : SMap (Option Byte)) (poi : Bool) : (hSend s d key line bs poi).tlb = s.tlb := by
  simp [hSend]
@[simp] theorem hSendSpan_h (s : State) (d key pa : Nat) (data : List Byte) (poi : Bool) :
    (hSendSpan s d key pa data poi).h = (hWriteSpan s key pa data poi).h := crossed_h ..
@[simp] theorem hSendSpan_tlb (s : State) (d key pa : Nat) (data : List Byte) (poi : Bool) : (hSendSpan s d key pa data poi).tlb = s.tlb := by
  simp [hSendSpan]

theorem hSend_wf {s : State} (h : Memory.wf s.h = true) (d key line : Nat) (bs : SMap (Option Byte)) (poi : Bool) :
    Memory.wf (hSend s d key line bs poi).h = true := by rw [hSend_h]; exact hWrite_wf h ..
theorem hSendSpan_wf {s : State} (h : Memory.wf s.h = true) (d key pa : Nat) (data : List Byte) (poi : Bool) :
    Memory.wf (hSendSpan s d key pa data poi).h = true := by rw [hSendSpan_h]; exact hWriteSpan_wf h ..

/-- A route never crosses more than two boundaries (R7). -/
theorem route_length (a b : Nat) : (route a b).length ≤ 2 := by
  unfold route
  rw [List.length_append]
  have h (o : Option Nat) : o.toList.length ≤ 1 := by cases o <;> simp
  exact Nat.add_le_add (h _) (h _)

theorem hMark_wf {s : State} (h : Memory.wf s.h = true) (line : Nat) : Memory.wf (hMark s line).h = true := by
  obtain ⟨h1, h2, h3⟩ := Memory.wf_iff.1 h
  exact Memory.wf_mk h1 (SMap.wf_set line true h2) h3

theorem freeLine_wf {s : State} (h : Memory.wf s.h = true) (line : Nat) : Memory.wf (freeLine s line).h = true := by
  obtain ⟨h1, h2, h3⟩ := Memory.wf_iff.1 h
  exact Memory.wf_mk (putBytes_wf h1 _ _) h2 h3

/-- Marks that a covered line loses. -/
theorem clearCovered_wf {s : State} (h : Memory.wf s.h = true) (c : Copy) (line : Nat) (before now : BitVec 64) (bad : Bool) :
    Memory.wf (clearCovered s c line before now bad).h = true := by
  obtain ⟨h1, h2, h3⟩ := Memory.wf_iff.1 h
  unfold clearCovered
  dsimp only
  by_cases c1 : (now != (if c.dkind = 0 then 0xFF#64 else 0xFFFFFFFFFFFFFFFF#64) || before == (if c.dkind = 0 then 0xFF#64 else 0xFFFFFFFFFFFFFFFF#64) || bad ||
      alarmed s) = true
  · rw [if_pos c1]; exact h
  · rw [if_neg c1]
    split
    · exact h
    · exact Memory.wf_mk h1 (SMap.wf_set line false h2) h3

theorem glbClear_wf {s : State} (h : Memory.wf s.h = true) (ls : List (Nat × BitVec 64)) : Memory.wf (glbClear s ls).h = true := by
  unfold glbClear
  dsimp only
  split
  · exact h
  · obtain ⟨h1, h2, h3⟩ := Memory.wf_iff.1 h
    refine Memory.wf_mk h1 ?_ h3
    show SMap.wf (List.foldl _ s.h.poi _) = true
    generalize (ls.foldl (fun (m : SMap (BitVec 64)) l => m.upd l.1 (· ||| l.2)) []) = cov
    generalize s.h.poi = p at h2
    clear h h1 h3
    induction cov generalizing p with
    | nil => exact h2
    | cons a r ih =>
      refine ih _ ?_
      dsimp only
      split
      · exact SMap.wf_set _ _ h2
      · exact h2

/-- Memory right after reset is in the canonical form. -/
theorem reset_memory_wf : Memory.wf State.reset.h = true := rfl

/-- No translation is kept right after reset. -/
theorem reset_tlb : State.reset.tlb = [] := rfl

-- ===== leaves =====

/-- A leaf of a walk maps a whole frame where its page starts a whole number of frames after its entry's start. -/
theorem leafOf_aligned (e : BitVec 64) {off : Nat} (h : off % 65536 = 0) : (leafOf e off).pa % 65536 = 0 := by
  simp only [leafOf]; omega

end Sys2Proof.Machine
end

