-- ==== Sys2Proof/Laws/State.lean ====
section
/-!
SUPPORT. The updates of the state: what each one leaves as it was.
-/

namespace Sys2Proof.Machine

@[simp] theorem State.setGrp_agenda (s : State) (g : Nat) (x : Group) : (s.setGrp g x).agenda = s.agenda := rfl
@[simp] theorem State.setGrp_tick (s : State) (g : Nat) (x : Group) : (s.setGrp g x).tick = s.tick := rfl
@[simp] theorem State.setGrp_cur (s : State) (g : Nat) (x : Group) : (s.setGrp g x).cur = s.cur := rfl
@[simp] theorem State.setGrp_nextId (s : State) (g : Nat) (x : Group) : (s.setGrp g x).nextId = s.nextId := rfl
@[simp] theorem State.setGrp_h (s : State) (g : Nat) (x : Group) : (s.setGrp g x).h = s.h := rfl
@[simp] theorem State.setGrp_cv (s : State) (g : Nat) (x : Group) : (s.setGrp g x).cv = s.cv := rfl
@[simp] theorem State.setGrp_dv (s : State) (g : Nat) (x : Group) : (s.setGrp g x).dv = s.dv := rfl
@[simp] theorem State.setGrp_tlb (s : State) (g : Nat) (x : Group) : (s.setGrp g x).tlb = s.tlb := rfl
@[simp] theorem State.setGrp_oldWords (s : State) (g : Nat) (x : Group) : (s.setGrp g x).oldWords = s.oldWords := rfl
@[simp] theorem State.setGrp_clock (s : State) (g : Nat) (x : Group) : (s.setGrp g x).clock = s.clock := rfl
@[simp] theorem State.setGrp_teams (s : State) (g : Nat) (x : Group) : (s.setGrp g x).teams = s.teams := rfl
@[simp] theorem State.setGrp_nextTeam (s : State) (g : Nat) (x : Group) : (s.setGrp g x).nextTeam = s.nextTeam := rfl
@[simp] theorem State.setGrp_poolPos (s : State) (g : Nat) (x : Group) : (s.setGrp g x).poolPos = s.poolPos := rfl
@[simp] theorem State.setGrp_engines (s : State) (g : Nat) (x : Group) : (s.setGrp g x).engines = s.engines := rfl
@[simp] theorem State.setGrp_reentry (s : State) (g : Nat) (x : Group) : (s.setGrp g x).reentry = s.reentry := rfl
@[simp] theorem State.setGrp_copies (s : State) (g : Nat) (x : Group) : (s.setGrp g x).copies = s.copies := rfl
@[simp] theorem State.setGrp_poiLines (s : State) (g : Nat) (x : Group) : (s.setGrp g x).poiLines = s.poiLines := rfl
@[simp] theorem State.setGrp_flights (s : State) (g : Nat) (x : Group) : (s.setGrp g x).flights = s.flights := rfl
@[simp] theorem State.setGrp_staged (s : State) (g : Nat) (x : Group) : (s.setGrp g x).staged = s.staged := rfl
@[simp] theorem State.setGrp_chains (s : State) (g : Nat) (x : Group) : (s.setGrp g x).chains = s.chains := rfl
@[simp] theorem State.setGrp_nextChain (s : State) (g : Nat) (x : Group) : (s.setGrp g x).nextChain = s.nextChain := rfl
@[simp] theorem State.setGrp_comps (s : State) (g : Nat) (x : Group) : (s.setGrp g x).comps = s.comps := rfl
@[simp] theorem State.setGrp_keptRuns (s : State) (g : Nat) (x : Group) : (s.setGrp g x).keptRuns = s.keptRuns := rfl
@[simp] theorem State.setGrp_cache (s : State) (g : Nat) (x : Group) : (s.setGrp g x).cache = s.cache := rfl
@[simp] theorem State.setGrp_kernels (s : State) (g : Nat) (x : Group) : (s.setGrp g x).kernels = s.kernels := rfl
@[simp] theorem State.setGrp_ctxs (s : State) (g : Nat) (x : Group) : (s.setGrp g x).ctxs = s.ctxs := rfl
@[simp] theorem State.setGrp_frozen (s : State) (g : Nat) (x : Group) : (s.setGrp g x).frozen = s.frozen := rfl
@[simp] theorem State.setGrp_keys (s : State) (g : Nat) (x : Group) : (s.setGrp g x).keys = s.keys := rfl
@[simp] theorem State.setGrp_sessions (s : State) (g : Nat) (x : Group) : (s.setGrp g x).sessions = s.sessions := rfl
@[simp] theorem State.setGrp_links (s : State) (g : Nat) (x : Group) : (s.setGrp g x).links = s.links := rfl
@[simp] theorem State.setGrp_transfers (s : State) (g : Nat) (x : Group) : (s.setGrp g x).transfers = s.transfers := rfl
@[simp] theorem State.setGrp_ranks (s : State) (g : Nat) (x : Group) : (s.setGrp g x).ranks = s.ranks := rfl
@[simp] theorem State.setGrp_remotes (s : State) (g : Nat) (x : Group) : (s.setGrp g x).remotes = s.remotes := rfl
@[simp] theorem State.setGrp_homes (s : State) (g : Nat) (x : Group) : (s.setGrp g x).homes = s.homes := rfl
@[simp] theorem State.setGrp_compressed (s : State) (g : Nat) (x : Group) : (s.setGrp g x).compressed = s.compressed := rfl
@[simp] theorem State.setGrp_regs (s : State) (g : Nat) (x : Group) : (s.setGrp g x).regs = s.regs := rfl
@[simp] theorem State.setGrp_hostMem (s : State) (g : Nat) (x : Group) : (s.setGrp g x).hostMem = s.hostMem := rfl
@[simp] theorem State.setGrp_frames (s : State) (g : Nat) (x : Group) : (s.setGrp g x).frames = s.frames := rfl
@[simp] theorem State.setGrp_peerOut (s : State) (g : Nat) (x : Group) : (s.setGrp g x).peerOut = s.peerOut := rfl
@[simp] theorem State.setGrp_hostOut (s : State) (g : Nat) (x : Group) : (s.setGrp g x).hostOut = s.hostOut := rfl
@[simp] theorem State.setGrp_fwVersion (s : State) (g : Nat) (x : Group) : (s.setGrp g x).fwVersion = s.fwVersion := rfl
@[simp] theorem State.setGrp_fwKey (s : State) (g : Nat) (x : Group) : (s.setGrp g x).fwKey = s.fwKey := rfl
@[simp] theorem State.setGrp_fwDigest (s : State) (g : Nat) (x : Group) : (s.setGrp g x).fwDigest = s.fwDigest := rfl
@[simp] theorem State.setGrp_fwNext (s : State) (g : Nat) (x : Group) : (s.setGrp g x).fwNext = s.fwNext := rfl
@[simp] theorem State.setGrp_replies (s : State) (g : Nat) (x : Group) : (s.setGrp g x).replies = s.replies := rfl
@[simp] theorem State.setGrp_groups (s : State) (g : Nat) (x : Group) : (s.setGrp g x).groups = s.groups.set g x := rfl
@[simp] theorem State.updGrp_agenda (s : State) (g : Nat) (f : Group → Group) : (s.updGrp g f).agenda = s.agenda := rfl
@[simp] theorem State.updGrp_tick (s : State) (g : Nat) (f : Group → Group) : (s.updGrp g f).tick = s.tick := rfl
@[simp] theorem State.updGrp_cur (s : State) (g : Nat) (f : Group → Group) : (s.updGrp g f).cur = s.cur := rfl
@[simp] theorem State.updGrp_nextId (s : State) (g : Nat) (f : Group → Group) : (s.updGrp g f).nextId = s.nextId := rfl
@[simp] theorem State.updGrp_h (s : State) (g : Nat) (f : Group → Group) : (s.updGrp g f).h = s.h := rfl
@[simp] theorem State.updGrp_cv (s : State) (g : Nat) (f : Group → Group) : (s.updGrp g f).cv = s.cv := rfl
@[simp] theorem State.updGrp_dv (s : State) (g : Nat) (f : Group → Group) : (s.updGrp g f).dv = s.dv := rfl
@[simp] theorem State.updGrp_tlb (s : State) (g : Nat) (f : Group → Group) : (s.updGrp g f).tlb = s.tlb := rfl
@[simp] theorem State.updGrp_oldWords (s : State) (g : Nat) (f : Group → Group) : (s.updGrp g f).oldWords = s.oldWords := rfl
@[simp] theorem State.updGrp_clock (s : State) (g : Nat) (f : Group → Group) : (s.updGrp g f).clock = s.clock := rfl
@[simp] theorem State.updGrp_teams (s : State) (g : Nat) (f : Group → Group) : (s.updGrp g f).teams = s.teams := rfl
@[simp] theorem State.updGrp_nextTeam (s : State) (g : Nat) (f : Group → Group) : (s.updGrp g f).nextTeam = s.nextTeam := rfl
@[simp] theorem State.updGrp_poolPos (s : State) (g : Nat) (f : Group → Group) : (s.updGrp g f).poolPos = s.poolPos := rfl
@[simp] theorem State.updGrp_engines (s : State) (g : Nat) (f : Group → Group) : (s.updGrp g f).engines = s.engines := rfl
@[simp] theorem State.updGrp_reentry (s : State) (g : Nat) (f : Group → Group) : (s.updGrp g f).reentry = s.reentry := rfl
@[simp] theorem State.updGrp_copies (s : State) (g : Nat) (f : Group → Group) : (s.updGrp g f).copies = s.copies := rfl
@[simp] theorem State.updGrp_poiLines (s : State) (g : Nat) (f : Group → Group) : (s.updGrp g f).poiLines = s.poiLines := rfl
@[simp] theorem State.updGrp_flights (s : State) (g : Nat) (f : Group → Group) : (s.updGrp g f).flights = s.flights := rfl
@[simp] theorem State.updGrp_staged (s : State) (g : Nat) (f : Group → Group) : (s.updGrp g f).staged = s.staged := rfl
@[simp] theorem State.updGrp_chains (s : State) (g : Nat) (f : Group → Group) : (s.updGrp g f).chains = s.chains := rfl
@[simp] theorem State.updGrp_nextChain (s : State) (g : Nat) (f : Group → Group) : (s.updGrp g f).nextChain = s.nextChain := rfl
@[simp] theorem State.updGrp_comps (s : State) (g : Nat) (f : Group → Group) : (s.updGrp g f).comps = s.comps := rfl
@[simp] theorem State.updGrp_keptRuns (s : State) (g : Nat) (f : Group → Group) : (s.updGrp g f).keptRuns = s.keptRuns := rfl
@[simp] theorem State.updGrp_cache (s : State) (g : Nat) (f : Group → Group) : (s.updGrp g f).cache = s.cache := rfl
@[simp] theorem State.updGrp_kernels (s : State) (g : Nat) (f : Group → Group) : (s.updGrp g f).kernels = s.kernels := rfl
@[simp] theorem State.updGrp_ctxs (s : State) (g : Nat) (f : Group → Group) : (s.updGrp g f).ctxs = s.ctxs := rfl
@[simp] theorem State.updGrp_frozen (s : State) (g : Nat) (f : Group → Group) : (s.updGrp g f).frozen = s.frozen := rfl
@[simp] theorem State.updGrp_keys (s : State) (g : Nat) (f : Group → Group) : (s.updGrp g f).keys = s.keys := rfl
@[simp] theorem State.updGrp_sessions (s : State) (g : Nat) (f : Group → Group) : (s.updGrp g f).sessions = s.sessions := rfl
@[simp] theorem State.updGrp_links (s : State) (g : Nat) (f : Group → Group) : (s.updGrp g f).links = s.links := rfl
@[simp] theorem State.updGrp_transfers (s : State) (g : Nat) (f : Group → Group) : (s.updGrp g f).transfers = s.transfers := rfl
@[simp] theorem State.updGrp_ranks (s : State) (g : Nat) (f : Group → Group) : (s.updGrp g f).ranks = s.ranks := rfl
@[simp] theorem State.updGrp_remotes (s : State) (g : Nat) (f : Group → Group) : (s.updGrp g f).remotes = s.remotes := rfl
@[simp] theorem State.updGrp_homes (s : State) (g : Nat) (f : Group → Group) : (s.updGrp g f).homes = s.homes := rfl
@[simp] theorem State.updGrp_compressed (s : State) (g : Nat) (f : Group → Group) : (s.updGrp g f).compressed = s.compressed := rfl
@[simp] theorem State.updGrp_regs (s : State) (g : Nat) (f : Group → Group) : (s.updGrp g f).regs = s.regs := rfl
@[simp] theorem State.updGrp_hostMem (s : State) (g : Nat) (f : Group → Group) : (s.updGrp g f).hostMem = s.hostMem := rfl
@[simp] theorem State.updGrp_frames (s : State) (g : Nat) (f : Group → Group) : (s.updGrp g f).frames = s.frames := rfl
@[simp] theorem State.updGrp_peerOut (s : State) (g : Nat) (f : Group → Group) : (s.updGrp g f).peerOut = s.peerOut := rfl
@[simp] theorem State.updGrp_hostOut (s : State) (g : Nat) (f : Group → Group) : (s.updGrp g f).hostOut = s.hostOut := rfl
@[simp] theorem State.updGrp_fwVersion (s : State) (g : Nat) (f : Group → Group) : (s.updGrp g f).fwVersion = s.fwVersion := rfl
@[simp] theorem State.updGrp_fwKey (s : State) (g : Nat) (f : Group → Group) : (s.updGrp g f).fwKey = s.fwKey := rfl
@[simp] theorem State.updGrp_fwDigest (s : State) (g : Nat) (f : Group → Group) : (s.updGrp g f).fwDigest = s.fwDigest := rfl
@[simp] theorem State.updGrp_fwNext (s : State) (g : Nat) (f : Group → Group) : (s.updGrp g f).fwNext = s.fwNext := rfl
@[simp] theorem State.updGrp_replies (s : State) (g : Nat) (f : Group → Group) : (s.updGrp g f).replies = s.replies := rfl
@[simp] theorem State.updGrp_groups (s : State) (g : Nat) (f : Group → Group) : (s.updGrp g f).groups = s.groups.set g (f (s.grp g)) := rfl

@[simp] theorem State.grp_setGrp_self (s : State) (g : Nat) (x : Group) : (s.setGrp g x).grp g = x := SMap.get_set_self ..
theorem State.grp_setGrp_other (s : State) {g k : Nat} (x : Group) (h : k ≠ g) : (s.setGrp g x).grp k = s.grp k := SMap.get_set_other _ _ h
@[simp] theorem State.grp_updGrp_self (s : State) (g : Nat) (f : Group → Group) : (s.updGrp g f).grp g = f (s.grp g) := SMap.get_set_self ..
theorem State.grp_updGrp_other (s : State) {g k : Nat} (f : Group → Group) (h : k ≠ g) : (s.updGrp g f).grp k = s.grp k := SMap.get_set_other _ _ h

end Sys2Proof.Machine
end

