-- ==== Sys2Proof/Laws/Ops.lean ====
section
/-!
SUPPORT. The driver of every word: what `issue` answers once the checks have passed, what the end of a word leaves alone, and that a word of an
issuing group always goes on.
-/

namespace Sys2Proof.Machine

/-- A word that passes its checks has its own meaning. -/
theorem issue_ok {i : Instr} {body : State → Nat → Eff} {s : State} {g : Nat} (hg : issuer s = some g) (h : precheck s g i = .ok) :
    issue i body s = .next (finish s (body s g) g (isTrl i)) := by
  simp only [issue, hg, issueAt, h]

/-- A word whose checks find a trap takes it. -/
theorem issue_trap {i : Instr} {body : State → Nat → Eff} {s : State} {g : Nat} {t : Trap} (hg : issuer s = some g) (h : precheck s g i = .trap t) :
    issue i body s = .next (trapOr s s g t (isTrl i)) := by
  simp only [issue, hg, issueAt, h]

/-- A word of an issuing group goes on. -/
theorem issue_next {i : Instr} {body : State → Nat → Eff} {s : State} {g : Nat} (hg : issuer s = some g) : ∃ t, issue i body s = .next t :=
  ⟨issueAt i body s g, by simp only [issue, hg]⟩

/-- The checks of a word that is an instruction, in their order (R75). -/
theorem precheck_word {s : State} {g : Nat} {i : Instr} (h1 : ∀ w, i ≠ .illegalWord w) (h2 : ∀ w, i ≠ .unassignedWord w) :
    precheck s g i = match posBad s (s.grp g) (info (s.grp g).chain.isSome i) with
      | some t => .trap t
      | none => if usesTs8 i && !hasCap s 4 then .unassigned else checkInfo s (s.grp g) (info (s.grp g).chain.isSome i) := by
  unfold precheck
  split
  · exact absurd rfl (h1 _)
  · exact absurd rfl (h2 _)
  · rfl

/-- The issuing group is the agent, issues, and has a run. -/
theorem issuer_eq {s : State} {g : Nat} : issuer s = some g ↔ s.cur = .group g ∧ (s.grp g).life = .issuing ∧ (s.grp g).run.isSome = true := by
  unfold issuer
  split
  · rename_i k hk
    rw [hk]
    simp only [Agent.group.injEq]
    constructor
    · intro h
      split at h
      · rename_i hc
        cases h
        simpa using hc
      · cases h
    · rintro ⟨rfl, hl, hr⟩
      simp [hl, hr]
  · rename_i hn
    constructor
    · intro h; cases h
    · rintro ⟨h, _⟩; exact absurd h (hn g)

/-- The end of a word whose effect is done: the run stands at the next word. -/
@[simp] theorem finish_done (s0 s : State) (g : Nat) (trl : Bool) : finish s0 (.done s) g trl = advance s g := rfl
@[simp] theorem finish_moved (s0 s : State) (g : Nat) (trl : Bool) : finish s0 (.moved s) g trl = s := rfl
@[simp] theorem finish_trap (s0 s : State) (g : Nat) (t : Trap) (trl : Bool) : finish s0 (.trap s t) g trl = trapOr s0 s g t trl := rfl

/-- Advancing changes only the run's position. -/
theorem advance_grp (s : State) (g : Nat) :
    (advance s g).grp g = updRun (s.grp g) (fun r => { r with pc := r.pc + 8, rs := { r.rs with pos := r.rs.pos + 1 } }) := by
  simp [advance]
theorem advance_grp_other (s : State) {g k : Nat} (h : k ≠ g) : (advance s g).grp k = s.grp k := by
  simp [advance, State.grp_updGrp_other _ _ h]

@[simp] theorem updRun_life (x : Group) (f : Issue → Issue) : (updRun x f).life = x.life := rfl
@[simp] theorem updRun_ctx (x : Group) (f : Issue → Issue) : (updRun x f).ctx = x.ctx := rfl
@[simp] theorem updRun_v (x : Group) (f : Issue → Issue) : (updRun x f).v = x.v := rfl
@[simp] theorem updRun_s (x : Group) (f : Issue → Issue) : (updRun x f).s = x.s := rfl
@[simp] theorem updRun_m (x : Group) (f : Issue → Issue) : (updRun x f).m = x.m := rfl
@[simp] theorem updRun_spr (x : Group) (f : Issue → Issue) : (updRun x f).spr = x.spr := rfl

-- ===== what a word that passes its checks knows =====

theorem checkInfo_ok {s : State} {x : Group} {n : Info} (h : checkInfo s x n = .ok) :
    n.illegal = false ∧ (x.tx.act && n.tx == .refused) = false ∧ (n.priv && !x.sup) = false ∧ regChecks s x n = none := by
  unfold checkInfo at h
  split at h
  · cases h
  · split at h
    · cases h
    · split at h
      · cases h
      · split at h
        · cases h
        · simp_all

theorem precheck_ok {s : State} {g : Nat} {i : Instr} (h : precheck s g i = .ok) (h1 : ∀ w, i ≠ .illegalWord w) (h2 : ∀ w, i ≠ .unassignedWord w) :
    posBad s (s.grp g) (info (s.grp g).chain.isSome i) = none ∧ checkInfo s (s.grp g) (info (s.grp g).chain.isSome i) = .ok := by
  rw [precheck_word h1 h2] at h
  split at h
  · cases h
  · split at h
    · cases h
    · exact ⟨by assumption, h⟩

theorem regChecks_none {s : State} {x : Group} {n : Info} (h : regChecks s x n = none) :
    (∀ o ∈ n.reads ++ n.writes ++ n.names, regBad s x o = none) ∧ (∀ o ∈ n.reads, tempBad x o = none) := by
  unfold regChecks at h
  simp only at h
  split at h
  · cases h
  · rename_i h1
    split at h
    · cases h
    · rename_i h2
      have h3 : (n.reads ++ n.writes ++ n.names).findSome? (regBad s x) = none := by
        cases hh : (n.reads ++ n.writes ++ n.names).findSome? (regBad s x) with
        | none => rfl
        | some t => rw [hh] at h1; simp [Option.orElse] at h1
      exact ⟨List.findSome?_eq_none_iff.mp h3, List.findSome?_eq_none_iff.mp h2⟩

/-- An indirect operand that passed the checks names a register with a number of at most 255, and is not poisoned. -/
theorem regBad_ind {s : State} {x : Group} {n : BitVec 6} (h : regBad s x (.ind n) = none) :
    (x.s.get n.toNat).val.toNat ≤ 255 ∧ (x.s.get n.toNat).poi = false := by
  simp only [regBad] at h
  split at h
  · cases h
  · split at h
    · cases h
    · rename_i hp
      split at h
      · cases h
      · rename_i hq
        simp at hp hq
        exact ⟨hq.1.1, hp⟩

end Sys2Proof.Machine
end

