-- ==== Sys2Proof/Laws/Lanes.lean ====
section
/-!
SUPPORT. Registers by code and the writing of destinations: a read after a write, what the lanes of one word leave in their destination, and what
an element-wise word of class F does as a whole.
-/

namespace Sys2Proof.Machine

-- ===== lanes =====

theorem mem_lanes {m : BitVec 32} {l : Nat} : l ∈ lanes m ↔ l < 32 ∧ m.getLsbD l = true := by simp [lanes]
theorem lanes_nodup (m : BitVec 32) : (lanes m).Nodup := List.Nodup.filter _ List.nodup_range
theorem workLanes_nodup (x : Group) (msk : Msk) (d : Opd) : (workLanes x msk d).Nodup := by
  unfold workLanes
  split
  · exact (lanes_nodup _).sublist (List.take_sublist _ _)
  · exact lanes_nodup _
theorem workLanes_lt {x : Group} {msk : Msk} {d : Opd} {l : Nat} (h : l ∈ workLanes x msk d) : l < 32 := by
  unfold workLanes at h
  split at h
  · exact (mem_lanes.mp (List.mem_of_mem_take h)).1
  · exact (mem_lanes.mp h).1
theorem workLanes_scalar {x : Group} {msk : Msk} {d : Opd} (h : opIsS d = true) : (workLanes x msk d).length ≤ 1 := by
  simp [workLanes, h]

-- ===== registers by code =====

/-- From one group to another only v, s registers and the run's temporaries differ. -/
def RegStep (x y : Group) : Prop :=
  y = { x with v := y.v, s := y.s, run := y.run } ∧ y.run = x.run.map (fun r => { r with rs := { r.rs with temps := (runState y).temps } })

theorem RegStep.refl (x : Group) : RegStep x x := by
  refine ⟨rfl, ?_⟩
  unfold runState
  cases x.run <;> rfl
theorem RegStep.trans {x y z : Group} (h : RegStep x y) (k : RegStep y z) : RegStep x z := by
  obtain ⟨h1, h2⟩ := h
  obtain ⟨k1, k2⟩ := k
  refine ⟨by rw [k1, h1], ?_⟩
  rw [k2, h2, Option.map_map]
  cases x.run <;> rfl

theorem runState_rset (x : Group) (c l : Nat) (p : PV) (h : ¬ (0x140 ≤ c ∧ c < 0x144)) : runState (rset x c l p) = runState x := by
  unfold rset
  split
  · rfl
  · split
    · rfl
    · split
      · omega
      · unfold setMreg; split <;> rfl

theorem RegStep.rset (x : Group) {c : Nat} (l : Nat) (p : PV) (hc : c < 0x144) : RegStep x (rset x c l p) := by
  unfold Machine.rset
  split
  · refine ⟨rfl, ?_⟩
    unfold runState; cases x.run <;> rfl
  · split
    · refine ⟨rfl, ?_⟩
      unfold runState; cases x.run <;> rfl
    · refine ⟨rfl, ?_⟩
      simp only [updRs, updRun, runState]
      cases x.run <;> rfl

/-- A read after a write of a register in a lane. -/
theorem rget_rset (x : Group) {c c' l l' : Nat} (p : PV) (hc : c < 0x144) (hc' : c' < 0x14C) (hl : l < 32) (hl' : l' < 32)
    (hr : x.run.isSome = true) :
    rget (rset x c l p) c' l' = if c' = c ∧ (l' = l ∨ (0x100 ≤ c ∧ c < 0x140)) then p else rget x c' l' := by
  obtain ⟨r, hr⟩ := Option.isSome_iff_exists.mp hr
  unfold rget rset
  by_cases h1 : c < 0x100
  · rw [if_pos h1]
    by_cases k1 : c' < 0x100
    · simp only [if_pos k1, SMap.get_set]
      congr 1
      apply propext; omega
    · have : ¬ (c' = c ∧ (l' = l ∨ (0x100 ≤ c ∧ c < 0x140))) := by omega
      simp only [if_neg k1, this, if_false]
      rfl
  · rw [if_neg h1]
    by_cases h2 : c < 0x140
    · rw [if_pos h2]
      by_cases k1 : c' < 0x100
      · have : ¬ (c' = c ∧ (l' = l ∨ (0x100 ≤ c ∧ c < 0x140))) := by omega
        simp only [if_pos k1, this, if_false]
      · by_cases k2 : c' < 0x140
        · simp only [if_neg k1, if_pos k2, SMap.get_set]
          congr 1
          apply propext; omega
        · have : ¬ (c' = c ∧ (l' = l ∨ (0x100 ≤ c ∧ c < 0x140))) := by omega
          simp only [if_neg k1, if_neg k2, this, if_false]
          rfl
    · rw [if_neg h2, if_pos hc]
      by_cases k1 : c' < 0x100
      · have : ¬ (c' = c ∧ (l' = l ∨ (0x100 ≤ c ∧ c < 0x140))) := by omega
        simp only [if_pos k1, this, if_false]
        rfl
      · by_cases k2 : c' < 0x140
        · have : ¬ (c' = c ∧ (l' = l ∨ (0x100 ≤ c ∧ c < 0x140))) := by omega
          simp only [if_neg k1, if_pos k2, this, if_false]
          rfl
        · by_cases k3 : c' < 0x144
          · simp only [if_neg k1, if_neg k2, if_pos k3, updRs, updRun, runState, hr, Option.map_some, SMap.get_set]
            congr 1
            apply propext; omega
          · have : ¬ (c' = c ∧ (l' = l ∨ (0x100 ≤ c ∧ c < 0x140))) := by omega
            simp only [if_neg k1, if_neg k2, if_neg k3, this, if_false]
            rfl

theorem RegStep.isSome {x y : Group} (h : RegStep x y) : y.run.isSome = x.run.isSome := by rw [h.2]; simp

/-- A register's content after one lane's write. -/
def mergeLane (old : PV) (w : LaneW) : PV :=
  ⟨(old.val &&& ~~~w.care) ||| (w.val &&& w.care), w.poi || (old.poi && w.care != 0xFFFFFFFFFFFFFFFF#64)⟩

/-- What the writes of one word leave: each lane merged, every other register and lane as before. -/
theorem applyLanes (c : Nat) (hc : c < 0x144) (ws : List LaneW) : ∀ (x : Group), x.run.isSome = true → (ws.map LaneW.lane).Nodup →
    (∀ w ∈ ws, w.lane < 32) → (0x100 ≤ c → c < 0x140 → ws.length ≤ 1) →
    RegStep x (ws.foldl (fun x w => applyLane x c w) x) ∧
    (∀ w ∈ ws, rget (ws.foldl (fun x w => applyLane x c w) x) c w.lane = mergeLane (rget x c w.lane) w) ∧
    (∀ c' l', c' < 0x14C → l' < 32 → (c' = c → (∀ w ∈ ws, w.lane ≠ l') ∧ (ws = [] ∨ ¬ (0x100 ≤ c ∧ c < 0x140))) →
      rget (ws.foldl (fun x w => applyLane x c w) x) c' l' = rget x c' l') := by
  induction ws with
  | nil => intro x _ _ _ _; exact ⟨RegStep.refl x, by simp, by simp⟩
  | cons w r ih =>
    intro x hx hn hw hs
    have hstep : RegStep x (applyLane x c w) := RegStep.rset x _ _ hc
    simp only [List.map_cons, List.nodup_cons] at hn
    have hw0 : w.lane < 32 := hw w (by simp)
    obtain ⟨h1, h2, h3⟩ := ih (applyLane x c w) (by rw [hstep.isSome]; exact hx) hn.2 (fun v hv => hw v (by simp [hv]))
      (fun a b => by rw [show r = [] by simpa using hs a b]; simp)
    have hr : ∀ c' l', c' < 0x14C → l' < 32 → rget (applyLane x c w) c' l' =
        if c' = c ∧ (l' = w.lane ∨ (0x100 ≤ c ∧ c < 0x140)) then mergeLane (rget x c w.lane) w else rget x c' l' :=
      fun c' l' a b => rget_rset x _ hc a hw0 b hx
    have hnil : 0x100 ≤ c → c < 0x140 → r = [] := fun a b => by have := hs a b; simpa using this
    refine ⟨hstep.trans h1, ?_, ?_⟩
    · intro v hv
      simp only [List.mem_cons] at hv
      simp only [List.foldl_cons]
      rcases hv with rfl | hv
      · rw [h3 c v.lane (by omega) hw0 (fun _ => ⟨fun u hu he => hn.1 (by rw [← he]; exact List.mem_map_of_mem hu), ?_⟩), hr c v.lane (by omega) hw0]
        · simp
        · by_cases h : 0x100 ≤ c ∧ c < 0x140
          · exact .inl (hnil h.1 h.2)
          · exact .inr h
      · rw [h2 v hv, hr c v.lane (by omega) (hw v (by simp [hv]))]
        have : ¬ (0x100 ≤ c ∧ c < 0x140) := fun h => by rw [hnil h.1 h.2] at hv; simp at hv
        have hne : v.lane ≠ w.lane := fun he => hn.1 (by rw [← he]; exact List.mem_map_of_mem hv)
        simp [this, hne]
    · intro c' l' a b h
      simp only [List.foldl_cons]
      rw [h3 c' l' a b (fun e => ⟨fun v hv => (h e).1 v (by simp [hv]), ?_⟩), hr c' l' a b]
      · split
        · rename_i hh
          obtain ⟨rfl, hh⟩ := hh
          have h0 := h rfl
          rcases hh with rfl | hh
          · exact absurd rfl (h0.1 w (by simp))
          · rcases h0.2 with h0 | h0
            · simp at h0
            · exact absurd hh h0
        · rfl
      · rcases (h e).2 with h0 | h0
        · simp at h0
        · exact .inr h0

-- ===== sub-elements =====

theorem testBit_subOf (w i v k : Nat) : (subOf w i v).testBit k = (decide (k < w) && v.testBit (w * i + k)) := by
  simp [subOf, Nat.testBit_mod_two_pow, Nat.testBit_div_two_pow, Nat.add_comm]

theorem bit_place (w i v k : Nat) : (v % 2 ^ w * 2 ^ (w * i)).testBit k = (decide (w * i ≤ k ∧ k < w * i + w) && v.testBit (k - w * i)) := by
  rw [Nat.testBit_mul_two_pow, Nat.testBit_mod_two_pow, Bool.eq_iff_iff]
  simp only [Bool.and_eq_true, decide_eq_true_eq]
  constructor
  · rintro ⟨a, b, c⟩; exact ⟨⟨a, by omega⟩, c⟩
  · rintro ⟨⟨a, b⟩, c⟩; exact ⟨a, by omega, c⟩

theorem careBits_bit (w : Nat) (is : List Nat) (k : Nat) (hk : k < 64) :
    (careBits w is).getLsbD k = is.any (fun i => decide (w * i ≤ k ∧ k < w * i + w)) := by
  suffices h : ∀ m : BitVec 64, (is.foldl (fun m i => m ||| BitVec.ofNat 64 ((2 ^ w - 1) * 2 ^ (w * i))) m).getLsbD k =
      (m.getLsbD k || is.any (fun i => decide (w * i ≤ k ∧ k < w * i + w))) by
    rw [careBits, h]; simp
  induction is with
  | nil => simp
  | cons i r ih =>
    intro m
    rw [List.foldl_cons, ih, BitVec.getLsbD_or, BitVec.getLsbD_ofNat, Nat.testBit_mul_two_pow, Nat.testBit_two_pow_sub_one, List.any_cons,
      Bool.eq_iff_iff]
    simp only [Bool.or_eq_true, Bool.and_eq_true, decide_eq_true_eq]
    constructor
    · rintro ((a | ⟨_, a, b⟩) | c)
      · exact .inl a
      · exact .inr (.inl ⟨a, by omega⟩)
      · exact .inr (.inr c)
    · rintro (a | ⟨a, b⟩ | c)
      · exact .inl (.inl a)
      · exact .inl (.inr ⟨hk, a, by omega⟩)
      · exact .inr c

theorem placeSubs_bit (w : Nat) (ps : List (Nat × Nat)) (k : Nat) (hk : k < 64) :
    (placeSubs w ps).getLsbD k = ps.any (fun p => decide (w * p.1 ≤ k ∧ k < w * p.1 + w) && p.2.testBit (k - w * p.1)) := by
  suffices h : ∀ m : BitVec 64, (ps.foldl (fun m p => m ||| BitVec.ofNat 64 (p.2 % 2 ^ w * 2 ^ (w * p.1))) m).getLsbD k =
      (m.getLsbD k || ps.any (fun p => decide (w * p.1 ≤ k ∧ k < w * p.1 + w) && p.2.testBit (k - w * p.1))) by
    rw [placeSubs, h]; simp
  induction ps with
  | nil => simp
  | cons p r ih =>
    intro m
    rw [List.foldl_cons, ih, BitVec.getLsbD_or, BitVec.getLsbD_ofNat, bit_place, List.any_cons]
    simp [hk, Bool.or_assoc]

/-- Two places of one width meet only where they are the same. -/
theorem place_unique {w i j k : Nat} (h1 : w * i ≤ k) (h2 : k < w * i + w) (h3 : w * j ≤ k) (h4 : k < w * j + w) : i = j := by
  rcases Nat.lt_trichotomy i j with h | h | h
  · have := Nat.mul_le_mul_left w (show i + 1 ≤ j from h); rw [Nat.mul_add] at this; omega
  · exact h
  · have := Nat.mul_le_mul_left w (show j + 1 ≤ i from h); rw [Nat.mul_add] at this; omega

/-- The sub-elements of a merged register. -/
theorem subOf_merge (w : Nat) (old : BitVec 64) (ps : List (Nat × Nat)) (hn : (ps.map Prod.fst).Nodup) (i : Nat) (hi : w * i + w ≤ 64) :
    (∀ v, (i, v) ∈ ps →
      subOf w i ((old &&& ~~~careBits w (ps.map Prod.fst)) ||| (placeSubs w ps &&& careBits w (ps.map Prod.fst))).toNat = v % 2 ^ w) ∧
    (i ∉ ps.map Prod.fst →
      subOf w i ((old &&& ~~~careBits w (ps.map Prod.fst)) ||| (placeSubs w ps &&& careBits w (ps.map Prod.fst))).toNat = subOf w i old.toNat) := by
  have key : ∀ k, k < w → (w * i + k) < 64 → (((old &&& ~~~careBits w (ps.map Prod.fst)) ||| (placeSubs w ps &&& careBits w (ps.map Prod.fst))).getLsbD
      (w * i + k)) = if i ∈ ps.map Prod.fst then (placeSubs w ps).getLsbD (w * i + k) else old.getLsbD (w * i + k) := by
    intro k hk h64
    have hc : (careBits w (ps.map Prod.fst)).getLsbD (w * i + k) = decide (i ∈ ps.map Prod.fst) := by
      rw [careBits_bit _ _ _ h64, Bool.eq_iff_iff, List.any_eq_true, decide_eq_true_eq]
      constructor
      · rintro ⟨j, hj, hp⟩
        simp only [decide_eq_true_eq] at hp
        rw [place_unique (i := i) (j := j) (k := w * i + k) (by omega) (by omega) hp.1 hp.2]; exact hj
      · intro hm; exact ⟨i, hm, by simp only [decide_eq_true_eq]; omega⟩
    rw [BitVec.getLsbD_or, BitVec.getLsbD_and, BitVec.getLsbD_and, BitVec.getLsbD_not, hc]
    split <;> rename_i hm
    · simp [hm]
    · simp [hm, h64]
  constructor
  · intro v hv
    have hm : i ∈ ps.map Prod.fst := List.mem_map_of_mem (f := Prod.fst) hv
    apply Nat.eq_of_testBit_eq
    intro k
    rw [testBit_subOf, Nat.testBit_mod_two_pow]
    by_cases hk : k < w
    · simp only [hk, decide_true, Bool.true_and]
      rw [BitVec.testBit_toNat, key k hk (by omega), if_pos hm, placeSubs_bit _ _ _ (by omega), Bool.eq_iff_iff, List.any_eq_true]
      constructor
      · rintro ⟨⟨j, u⟩, hj, hp⟩
        simp only [Bool.and_eq_true, decide_eq_true_eq] at hp
        have e := place_unique (i := i) (j := j) (k := w * i + k) (by omega) (by omega) hp.1.1 hp.1.2
        subst e
        have : u = v := by
          have := List.inj_on_of_nodup_map hn hj hv rfl
          exact (Prod.mk.inj this).2
        subst this
        have : w * i + k - w * i = k := by omega
        rw [this] at hp; exact hp.2
      · intro hb
        refine ⟨(i, v), hv, ?_⟩
        have : w * i + k - w * i = k := by omega
        simp only [Bool.and_eq_true, decide_eq_true_eq, this]
        exact ⟨by omega, hb⟩
    · simp [hk]
  · intro hm
    apply Nat.eq_of_testBit_eq
    intro k
    rw [testBit_subOf, testBit_subOf]
    by_cases hk : k < w
    · rw [BitVec.testBit_toNat, key k hk (by omega), if_neg hm, BitVec.testBit_toNat]
    · simp [hk]

/-- All sub-elements of a shape together are the whole register. -/
theorem careBits_full {shp : Shape} {is : List Nat} (hn : is.Nodup) (hlt : ∀ i ∈ is, i < shp.count) :
    (careBits shp.width is != 0xFFFFFFFFFFFFFFFF#64) = decide (is.length < shp.count) := by
  have hw : 0 < shp.width := by cases shp <;> decide
  have h64 : shp.width * shp.count = 64 := by cases shp <;> decide
  rw [Bool.eq_iff_iff, bne_iff_ne, decide_eq_true_eq]
  constructor
  · intro h
    by_contra hge
    apply h
    have hall : ∀ i < shp.count, i ∈ is := by
      have hsub : is.toFinset ⊆ Finset.range shp.count := by
        intro i hi; rw [List.mem_toFinset] at hi; exact Finset.mem_range.mpr (hlt i hi)
      have hcard : is.toFinset.card = is.length := List.toFinset_card_of_nodup hn
      have heq := Finset.eq_of_subset_of_card_le hsub (by rw [hcard, Finset.card_range]; omega)
      intro i hi
      rw [← List.mem_toFinset, heq]; exact Finset.mem_range.mpr hi
    apply BitVec.eq_of_getLsbD_eq
    intro k hk
    rw [careBits_bit _ _ _ hk]
    have hd : k / shp.width < shp.count := by
      rw [Nat.div_lt_iff_lt_mul hw, Nat.mul_comm, h64]; exact hk
    have h1 : is.any (fun i => decide (shp.width * i ≤ k ∧ k < shp.width * i + shp.width)) = true := by
      rw [List.any_eq_true]
      refine ⟨_, hall _ hd, ?_⟩
      simp only [decide_eq_true_eq]
      have := Nat.div_add_mod k shp.width
      have := Nat.mod_lt k hw
      omega
    rw [h1, show (0xFFFFFFFFFFFFFFFF#64) = BitVec.allOnes 64 from rfl, BitVec.getLsbD_allOnes]; simp [hk]
  · intro hlen he
    obtain ⟨i, hi, hm⟩ : ∃ i < shp.count, i ∉ is := by
      by_contra hc
      push Not at hc
      have hsub : Finset.range shp.count ⊆ is.toFinset := by
        intro i hi; rw [List.mem_toFinset]; exact hc i (Finset.mem_range.mp hi)
      have := Finset.card_le_card hsub
      rw [List.toFinset_card_of_nodup hn, Finset.card_range] at this
      omega
    have hle : shp.width * i + shp.width ≤ 64 := by
      rw [← h64]; have := Nat.mul_le_mul_left shp.width (show i + 1 ≤ shp.count from hi); rw [Nat.mul_add] at this; omega
    have hb := careBits_bit shp.width is (shp.width * i) (by omega)
    rw [he, show (0xFFFFFFFFFFFFFFFF#64) = BitVec.allOnes 64 from rfl, BitVec.getLsbD_allOnes] at hb
    have : is.any (fun j => decide (shp.width * j ≤ shp.width * i ∧ shp.width * i < shp.width * j + shp.width)) = true := by
      rw [← hb]; simp; omega
    rw [List.any_eq_true] at this
    obtain ⟨j, hj, hp⟩ := this
    simp only [decide_eq_true_eq] at hp
    rw [place_unique (k := shp.width * i) (i := i) (j := j) (by omega) (by omega) hp.1 hp.2] at hm
    exact hm hj

-- ===== one group alone =====

theorem OnlyGroup.refl (s : State) (g : Nat) : OnlyGroup s s g := ⟨rfl, fun _ _ => rfl⟩
theorem OnlyGroup.trans {s t u : State} {g : Nat} (h : OnlyGroup s t g) (k : OnlyGroup t u g) : OnlyGroup s u g := by
  refine ⟨?_, fun n hn => (k.2 n hn).trans (h.2 n hn)⟩
  rw [k.1, h.1]
theorem OnlyGroup.setGrp (s : State) (g : Nat) (x : Group) : OnlyGroup s (s.setGrp g x) g := ⟨rfl, fun _ hk => State.grp_setGrp_other s x hk⟩
theorem OnlyGroup.updGrp (s : State) (g : Nat) (f : Group → Group) : OnlyGroup s (s.updGrp g f) g := OnlyGroup.setGrp s g _

-- ===== destinations =====

/-- A destination that the checks before a word have let pass. -/
def DestOk (x : Group) (d : Opd) : Prop := opIsC d = false ∧ opIsM d = false ∧ ∀ n, d = .ind n → (x.s.get n.toNat).val.toNat ≤ 255

theorem DestOk.code {x : Group} {d : Opd} (h : DestOk x d) : opCode x d < 0x144 := by
  obtain ⟨h1, h2, h3⟩ := h
  cases d <;> simp_all [opCode, Opd.code, opIsC, opIsM] <;> omega

theorem DestOk.scalar {x : Group} {d : Opd} (h : DestOk x d) : (0x100 ≤ opCode x d ∧ opCode x d < 0x140) ↔ opIsS d = true := by
  obtain ⟨h1, h2, h3⟩ := h
  cases d <;> simp_all [opCode, Opd.code, opIsC, opIsM, opIsS] <;> omega

theorem DestOk.temp {x : Group} {d : Opd} (h : DestOk x d) : (0x140 ≤ opCode x d) ↔ opIsK d = true := by
  obtain ⟨h1, h2, h3⟩ := h
  cases d <;> simp_all [opCode, Opd.code, opIsC, opIsM, opIsK] <;> omega

/-- Like `RegStep`, with the set of written temporaries. -/
def RegStepT (x y : Group) : Prop :=
  y = { x with v := y.v, s := y.s, run := y.run } ∧
  y.run = x.run.map (fun r => { r with rs := { r.rs with temps := (runState y).temps, tdef := (runState y).tdef } })

theorem RegStep.toT {x y : Group} (h : RegStep x y) : RegStepT x y ∧ (runState y).tdef = (runState x).tdef := by
  obtain ⟨h1, h2⟩ := h
  have : (runState y).tdef = (runState x).tdef := by unfold runState; rw [h2]; cases x.run <;> rfl
  refine ⟨⟨h1, ?_⟩, this⟩
  rw [h2, this]
  unfold runState
  cases x.run <;> rfl

theorem RegStepT.trans {x y z : Group} (h : RegStepT x y) (k : RegStepT y z) : RegStepT x z := by
  obtain ⟨h1, h2⟩ := h
  obtain ⟨k1, k2⟩ := k
  refine ⟨by rw [k1, h1], ?_⟩
  rw [k2, h2, Option.map_map]
  cases x.run <;> rfl

theorem RegStepT.isSome {x y : Group} (h : RegStepT x y) : y.run.isSome = x.run.isSome := by rw [h.2]; simp

theorem rget_tdef (x : Group) (f : BitVec 4 → BitVec 4) (c l : Nat) : rget (updRs x (fun r => { r with tdef := f r.tdef })) c l = rget x c l := by
  unfold rget
  split
  · rfl
  · split
    · rfl
    · split
      · simp only [runState, updRs, updRun]; cases x.run <;> rfl
      · rfl

/-- The free content that a temporary's first write leaves in the lanes and parts that it does not write. -/
theorem bornTemp_spec (s : State) (g : Nat) (k : BitVec 2) (whole : BitVec 32) (hx : (s.grp g).run.isSome = true) :
    OnlyGroup s (bornTemp s g k.toNat whole) g ∧
    RegStepT (s.grp g) ((bornTemp s g k.toNat whole).grp g) ∧
    (∀ c l, c < 0x14C → l < 32 → (c ≠ 0x140 + k.toNat ∨ fresh (s.grp g) (.k k) = false) →
      rget ((bornTemp s g k.toNat whole).grp g) c l = rget (s.grp g) c l) ∧
    (∀ l < 32, fresh (s.grp g) (.k k) = true → whole.getLsbD l = false → (rget ((bornTemp s g k.toNat whole).grp g) (0x140 + k.toNat) l).poi = false) ∧
    (∀ n < 4, n ≠ k.toNat → (runState ((bornTemp s g k.toNat whole).grp g)).tdef.getLsbD n = (runState (s.grp g)).tdef.getLsbD n) := by
  unfold bornTemp
  by_cases hd : (runState (s.grp g)).tdef.getLsbD k.toNat = true
  · simp only [hd, if_true]
    exact ⟨OnlyGroup.refl s g, (RegStep.refl _).toT.1, by simp, by simp [fresh, hd], by simp⟩
  · simp only [hd]
    simp only [Bool.false_eq_true, if_false]
    have hk : 0x140 + k.toNat < 0x144 := by have := k.isLt; omega
    generalize hf : (lanes (~~~whole)).foldl (fun y l => rset y (0x140 + k.toNat) l ⟨Config.freeTemp (s.tick + l), false⟩) (s.grp g) = y
    have main : ∀ (ls : List Nat) (x : Group), x.run.isSome = true → (∀ l ∈ ls, l < 32) →
        RegStep x (ls.foldl (fun y l => rset y (0x140 + k.toNat) l ⟨Config.freeTemp (s.tick + l), false⟩) x) ∧
        (∀ c l, c < 0x14C → l < 32 → c ≠ 0x140 + k.toNat →
          rget (ls.foldl (fun y l => rset y (0x140 + k.toNat) l ⟨Config.freeTemp (s.tick + l), false⟩) x) c l = rget x c l) ∧
        (∀ l < 32, (l ∈ ls ∨ (rget x (0x140 + k.toNat) l).poi = false) →
          (rget (ls.foldl (fun y l => rset y (0x140 + k.toNat) l ⟨Config.freeTemp (s.tick + l), false⟩) x) (0x140 + k.toNat) l).poi = false) := by
      intro ls
      induction ls with
      | nil => intro x _ _; exact ⟨RegStep.refl x, by simp, by simp⟩
      | cons a r ih =>
        intro x hx hl
        have hs := RegStep.rset x a ⟨Config.freeTemp (s.tick + a), false⟩ hk
        obtain ⟨i1, i2, i3⟩ := ih _ (by rw [hs.isSome]; exact hx) (fun l h => hl l (by simp [h]))
        have hr : ∀ c l, c < 0x14C → l < 32 → rget (rset x (0x140 + k.toNat) a ⟨Config.freeTemp (s.tick + a), false⟩) c l = _ :=
          fun c l h1 h2 => rget_rset x _ hk h1 (hl a (by simp)) h2 hx
        refine ⟨hs.trans i1, ?_, ?_⟩
        · intro c l h1 h2 h3
          rw [List.foldl_cons, i2 c l h1 h2 h3, hr c l h1 h2, if_neg (by simp [h3])]
        · intro l h2 h
          rw [List.foldl_cons]
          refine i3 l h2 ?_
          rw [hr _ l (by omega) h2]
          rcases h with h | h
          · simp only [List.mem_cons] at h
            rcases h with rfl | h
            · exact .inr (by rw [if_pos (by simp)])
            · exact .inl h
          · right
            split
            · rfl
            · exact h
    obtain ⟨m1, m2, m3⟩ := main (lanes (~~~whole)) (s.grp g) hx (fun l h => (mem_lanes.mp h).1)
    rw [hf] at m1 m2 m3
    have hy : y.run.isSome = true := by rw [m1.isSome]; exact hx
    have hg : State.grp { s.setGrp g (updRs y (fun r => { r with tdef := r.tdef ||| 1#4 <<< k.toNat })) with tick := s.tick + 32 } g =
        updRs y (fun r => { r with tdef := r.tdef ||| 1#4 <<< k.toNat }) := State.grp_setGrp_self ..
    have hrs : runState (updRs y (fun r => { r with tdef := r.tdef ||| 1#4 <<< k.toNat })) =
        { runState y with tdef := (runState y).tdef ||| 1#4 <<< k.toNat } := by
      obtain ⟨r, hr⟩ := Option.isSome_iff_exists.mp hy
      simp [runState, updRs, updRun, hr]
    rw [hg]
    refine ⟨⟨rfl, fun k hk => State.grp_setGrp_other s _ hk⟩, m1.toT.1.trans ⟨rfl, ?_⟩, ?_, ?_, ?_⟩
    · rw [hrs]
      simp only [updRs, updRun]
      unfold runState
      cases y.run <;> rfl
    · intro c l h1 h2 h3
      rw [rget_tdef y (fun t => t ||| 1#4 <<< k.toNat) c l]
      refine m2 c l h1 h2 ?_
      rcases h3 with h | h
      · exact h
      · simp [fresh, hd] at h
    · intro l h2 _ hw
      rw [rget_tdef y (fun t => t ||| 1#4 <<< k.toNat)]
      exact m3 l h2 (.inl (mem_lanes.mpr ⟨h2, by rw [BitVec.getLsbD_not, hw]; simp [h2]⟩))
    · intro n hn hne
      rw [hrs]
      simp only [BitVec.getLsbD_or, m1.toT.2]
      have h1 : (1#4 <<< k.toNat).getLsbD n = false := by
        rw [BitVec.getLsbD_shiftLeft, BitVec.getLsbD_one]
        simp; omega
      rw [h1, Bool.or_false]

/-- What the writes of a word to its destination do. -/
theorem writeLanes_spec (s : State) (g : Nat) (d : Opd) (ws : List LaneW) (hx : (s.grp g).run.isSome = true) (hd : DestOk (s.grp g) d)
    (hn : (ws.map LaneW.lane).Nodup) (hl : ∀ w ∈ ws, w.lane < 32) (hs : opIsS d = true → ws.length ≤ 1) :
    OnlyGroup s (writeLanes s g d ws) g ∧ RegStepT (s.grp g) ((writeLanes s g d ws).grp g) ∧
    (∀ w ∈ ws, ∃ old : PV, (fresh (s.grp g) d = false → old = rget (s.grp g) (opCode (s.grp g) d) w.lane) ∧
      (fresh (s.grp g) d = true → w.care ≠ 0xFFFFFFFFFFFFFFFF#64 → old.poi = false) ∧
      rget ((writeLanes s g d ws).grp g) (opCode (s.grp g) d) w.lane = mergeLane old w) ∧
    (∀ c l, c < 0x14C → l < 32 → (c ≠ opCode (s.grp g) d ∨
        ((∀ w ∈ ws, w.lane ≠ l) ∧ (ws = [] ∨ (opIsS d = false ∧ fresh (s.grp g) d = false)))) →
      rget ((writeLanes s g d ws).grp g) c l = rget (s.grp g) c l) ∧
    (∀ n < 4, 0x140 + n ≠ d.code.toNat → (runState ((writeLanes s g d ws).grp g)).tdef.getLsbD n = (runState (s.grp g)).tdef.getLsbD n) := by
  by_cases he : ws = []
  · subst he
    simp only [writeLanes, List.isEmpty_nil, if_true]
    exact ⟨OnlyGroup.refl s g, (RegStep.refl _).toT.1, by simp, by simp, by simp⟩
  · have hne : ws.isEmpty = false := by cases ws <;> simp_all
    unfold writeLanes
    simp only [hne, Bool.false_eq_true, if_false]
    have hsc : 0x100 ≤ opCode (s.grp g) d → opCode (s.grp g) d < 0x140 → ws.length ≤ 1 := fun a b => hs (hd.scalar.mp ⟨a, b⟩)
    by_cases hk : ∃ k, d = .k k
    · obtain ⟨k, rfl⟩ := hk
      have hc : opCode (s.grp g) (.k k) = 0x140 + k.toNat := by simp [opCode, Opd.code]; omega
      simp only [bornDest]
      generalize hwh : maskOf ((ws.filter (fun (w : LaneW) => w.care == 0xFFFFFFFFFFFFFFFF#64)).map LaneW.lane) = whole
      obtain ⟨b1, b2, b3, b4, b5⟩ := bornTemp_spec s g k whole hx
      have hc1 : opCode ((bornTemp s g k.toNat whole).grp g) (.k k) = 0x140 + k.toNat := by simp [opCode, Opd.code]; omega
      rw [hc1]
      have hx1 : ((bornTemp s g k.toNat whole).grp g).run.isSome = true := by rw [b2.isSome]; exact hx
      obtain ⟨a1, a2, a3⟩ := applyLanes (0x140 + k.toNat) (by omega) ws _ hx1 hn hl (by omega)
      have ht := a1.toT
      refine ⟨b1.trans (OnlyGroup.updGrp _ _ _), ?_, ?_, ?_, ?_⟩
      · rw [State.grp_updGrp_self]; exact b2.trans ht.1
      · intro w hw
        rw [State.grp_updGrp_self, hc]
        refine ⟨_, ?_, ?_, a2 w hw⟩
        · intro hf; exact b3 _ _ (by omega) (hl w hw) (.inr hf)
        · intro hf hcare
          refine b4 _ (hl w hw) hf ?_
          rw [← hwh]
          have hm : ∀ (ls : List Nat) (m : BitVec 32), (ls.foldl (fun m l => m ||| bitOf l) m).getLsbD w.lane = (m.getLsbD w.lane || ls.any (· == w.lane)) := by
            intro ls
            induction ls with
            | nil => simp
            | cons a r ih =>
              intro m
              rw [List.foldl_cons, ih, BitVec.getLsbD_or, List.any_cons, bitOf, BitVec.getLsbD_shiftLeft, BitVec.getLsbD_one, Bool.or_assoc]
              congr 2
              rw [Bool.eq_iff_iff]
              have := hl w hw
              simp
              omega
          rw [maskOf, hm]
          rw [show (0 : BitVec 32).getLsbD w.lane = false from by simp, Bool.false_or, Bool.eq_false_iff]
          intro ha
          rw [List.any_eq_true] at ha
          obtain ⟨a, ha, hb⟩ := ha
          rw [List.mem_map] at ha
          obtain ⟨v, hv, rfl⟩ := ha
          rw [List.mem_filter] at hv
          have hvw := List.inj_on_of_nodup_map hn hv.1 hw (by simpa using hb)
          subst hvw
          exact hcare (by simpa using hv.2)
      · intro c l h1 h2 h3
        rw [State.grp_updGrp_self, a3 c l h1 h2, b3 c l h1 h2]
        · rw [hc] at h3
          rcases h3 with h | h
          · exact .inl h
          · rcases h.2 with h | h
            · exact absurd h he
            · exact .inr h.2
        · intro hce
          rw [hc] at h3
          rcases h3 with h | h
          · exact absurd hce h
          · exact ⟨h.1, .inr (by omega)⟩
      · intro n h1 h2
        rw [State.grp_updGrp_self, ht.2]
        refine b5 n h1 ?_
        intro h; subst h
        apply h2
        simp [Opd.code]; omega
    · have hf : fresh (s.grp g) d = false := by cases d <;> simp_all [fresh]
      have hm : bornDest s g d ws = s := by
        unfold bornDest
        split
        · exact absurd ⟨_, rfl⟩ hk
        · rfl
      rw [hm]
      obtain ⟨a1, a2, a3⟩ := applyLanes (opCode (s.grp g) d) hd.code ws _ hx hn hl hsc
      have ht := a1.toT
      refine ⟨OnlyGroup.updGrp _ _ _, ?_, ?_, ?_, ?_⟩
      · rw [State.grp_updGrp_self]; exact ht.1
      · intro w hw
        rw [State.grp_updGrp_self]
        exact ⟨_, fun _ => rfl, fun h => by simp [hf] at h, a2 w hw⟩
      · intro c l h1 h2 h3
        rw [State.grp_updGrp_self]
        refine a3 c l h1 h2 (fun hce => ?_)
        rcases h3 with h | h
        · exact absurd hce h
        · refine ⟨h.1, h.2.imp id (fun h hh => ?_)⟩
          rw [hd.scalar.mp hh] at h; simp at h
      · intro n h1 h2
        rw [State.grp_updGrp_self, ht.2]

-- ===== stochastic states and flags =====

theorem xorshift32_ne_zero {r : BitVec 32} (h : r ≠ 0) : xorshift32 r ≠ 0 := by
  have shl : ∀ (a : BitVec 32) (k : Nat), 0 < k → a ^^^ (a <<< k) = 0 → a = 0 := by
    intro a k hk ha
    have e : a = a <<< k := by
      have := congrArg (· ^^^ (a <<< k)) ha
      simpa [BitVec.xor_assoc] using this
    apply BitVec.eq_of_getLsbD_eq
    intro i hi
    induction i using Nat.strong_induction_on with
    | _ i ih =>
      rw [e, BitVec.getLsbD_shiftLeft]
      by_cases hik : i < k
      · simp [hik]
      · rw [ih (i - k) (by omega) (by omega)]; simp
  have shr : ∀ (a : BitVec 32) (k : Nat), 0 < k → a ^^^ (a >>> k) = 0 → a = 0 := by
    intro a k hk ha
    have e : a = a >>> k := by
      have := congrArg (· ^^^ (a >>> k)) ha
      simpa [BitVec.xor_assoc] using this
    apply BitVec.eq_of_getLsbD_eq
    intro i hi
    have aux : ∀ n i, 32 - i = n → a.getLsbD i = false := by
      intro n
      induction n using Nat.strong_induction_on with
      | _ n ih =>
        intro i hn
        by_cases hi : i < 32
        · rw [e, BitVec.getLsbD_ushiftRight]
          exact ih (32 - (k + i)) (by omega) _ rfl
        · exact BitVec.getLsbD_of_ge a i (by omega)
    rw [aux _ i rfl]; simp
  intro h0
  unfold xorshift32 at h0
  simp only at h0
  exact h (shl _ 13 (by omega) (shr _ 17 (by omega) (shl _ 5 (by omega) h0)))

theorem nthRng_ne_zero {r : BitVec 32} (h : r ≠ 0) (n : Nat) : nthRng n r ≠ 0 := by
  induction n with
  | zero => exact h
  | succ n ih => exact xorshift32_ne_zero ih

theorem rngOf_ne_zero (x : Group) (l : Nat) : rngOf x l ≠ 0 := by
  unfold rngOf
  split
  · unfold seedState
    simp only
    split
    · decide
    · assumption
  · assumption

theorem orAll_from (fs : List (BitVec 5)) : ∀ a, fs.foldl (· ||| ·) a = a ||| orAll fs := by
  induction fs with
  | nil => intro a; simp [orAll]
  | cons f r ih => intro a; simp only [orAll, List.foldl_cons]; rw [ih, ih (0 ||| f)]; simp [BitVec.or_assoc]
theorem orAll_cons (f : BitVec 5) (fs : List (BitVec 5)) : orAll (f :: fs) = f ||| orAll fs := by
  rw [orAll, List.foldl_cons, orAll_from]; simp
theorem orAll_append (fs gs : List (BitVec 5)) : orAll (fs ++ gs) = orAll fs ||| orAll gs := by
  induction fs with
  | nil => simp [orAll]
  | cons f r ih => rw [List.cons_append, orAll_cons, orAll_cons, ih, BitVec.or_assoc]

theorem orAll_zero (is : List Nat) : orAll (is.map (fun _ => (0 : BitVec 5))) = 0 := by
  induction is with
  | nil => rfl
  | cons a r ih => rw [List.map_cons, orAll_cons, ih]; rfl

theorem outFlags_eq (os : List LaneOut) : outFlags os = orAll (os.map (·.flags)) := by
  suffices h : ∀ a, os.foldl (fun f (o : LaneOut) => f ||| o.flags) a = (os.map (·.flags)).foldl (· ||| ·) a from h 0
  induction os with
  | nil => simp
  | cons o r ih => intro a; rw [List.foldl_cons, List.map_cons, List.foldl_cons, ih]

/-- The stochastic states that a word leaves. -/
theorem setRngs_spec (x : Group) (os : List LaneOut) (hn : (os.map (·.w.lane)).Nodup) :
    setRngs x os = { x with rng := (setRngs x os).rng } ∧
    (∀ l, (∀ o ∈ os, o.w.lane ≠ l) → (setRngs x os).rng.get l = x.rng.get l) ∧
    (∀ o ∈ os, (setRngs x os).rng.get o.w.lane = o.rng.getD (x.rng.get o.w.lane)) := by
  induction os generalizing x with
  | nil => exact ⟨rfl, by simp [setRngs], by simp⟩
  | cons o r ih =>
    simp only [List.map_cons, List.nodup_cons] at hn
    obtain ⟨h1, h2, h3⟩ := ih (match o.rng with | some v => { x with rng := x.rng.set o.w.lane v } | none => x) hn.2
    have e : setRngs x (o :: r) = setRngs (match o.rng with | some v => { x with rng := x.rng.set o.w.lane v } | none => x) r := rfl
    have hg : ∀ l, (match o.rng with | some v => ({ x with rng := x.rng.set o.w.lane v } : Group) | none => x).rng.get l =
        if l = o.w.lane then o.rng.getD (x.rng.get l) else x.rng.get l := by
      intro l
      cases o.rng with
      | none => simp
      | some v => simp [SMap.get_set]
    refine ⟨?_, ?_, ?_⟩
    · rw [e, h1]
      cases o.rng <;> rfl
    · intro l hl
      rw [e, h2 l (fun v hv => hl v (by simp [hv])), hg, if_neg (fun h => hl o (by simp) h.symm)]
    · intro v hv
      rw [e]
      simp only [List.mem_cons] at hv
      rcases hv with rfl | hv
      · rw [h2 _ (fun u hu he => hn.1 (by rw [← he]; exact List.mem_map_of_mem (f := fun o : LaneOut => o.w.lane) hu)), hg, if_pos rfl]
      · rw [h3 v hv, hg, if_neg]
        intro he
        exact hn.1 (by rw [← he]; exact List.mem_map_of_mem (f := fun o : LaneOut => o.w.lane) hv)

-- ===== class F =====

theorem sticky_high (a : BitVec 64) (f : BitVec 5) : (a ||| f.setWidth 64) &&& ~~~0x1F#64 = a &&& ~~~0x1F#64 := by
  apply BitVec.eq_of_getLsbD_eq
  intro i hi
  have h : (0x1F#64).getLsbD i = decide (i < 5) := by
    rw [show (0x1F#64) = BitVec.ofNat 64 (2 ^ 5 - 1) from rfl, BitVec.getLsbD_ofNat, Nat.testBit_two_pow_sub_one]; simp [hi]
  simp only [BitVec.getLsbD_and, BitVec.getLsbD_or, BitVec.getLsbD_not, BitVec.getLsbD_setWidth, h]
  by_cases h5 : i < 5
  · simp [h5]
  · simp [h5, hi, BitVec.getLsbD_of_ge f i (by omega)]

theorem rget_of_eq {x y : Group} (hv : y.v = x.v) (hs : y.s = x.s) (hm : y.m = x.m) (hr : (runState y).temps = (runState x).temps) (c l : Nat) :
    rget y c l = rget x c l := by
  unfold rget mreg; rw [hv, hs, hm, hr]

/-- What a class-F word does whose lanes' results are given: `r` holds a lane's sub-elements, flags and last stochastic state. -/
theorem commitF_did {s : State} {g : Nat} {d : Opd} {shp : Shape} (hx : (s.grp g).run.isSome = true) (hd : DestOk (s.grp g) d)
    {ls is : List Nat} {r : Nat → LaneRes} {poi : Nat → Bool} {r0 : Nat → BitVec 32} {val : Nat → Nat → Nat} {flg : Nat → Nat → BitVec 5}
    {draws : Nat} (hn : ls.Nodup) (hl : ∀ l ∈ ls, l < 32) (hs : opIsS d = true → ls.length ≤ 1) (hin : is.Nodup) (hil : ∀ i ∈ is, i < shp.count)
    (hsub : ∀ l ∈ ls, (r l).subs = is.map (fun i => (i, val l i))) (hval : ∀ l ∈ ls, ∀ i ∈ is, val l i < 2 ^ shp.width)
    (hflg : ∀ l ∈ ls, laneFlags (poi l) (r l).flags = orAll (is.map (flg l)))
    (hrng : ∀ l ∈ ls, ((r l).rng = r0 l ∧ nthRng draws (rngOf (s.grp g) l) = rngOf (s.grp g) l) ∨
      (r0 l = rngOf (s.grp g) l ∧ (r l).rng = nthRng draws (rngOf (s.grp g) l))) :
    OnlyGroup s (advance (commitF s g d (ls.map (fun l => laneOut shp l (poi l) (r0 l) (r l)))) g) g ∧
    DidF (s.grp g) ((advance (commitF s g d (ls.map (fun l => laneOut shp l (poi l) (r0 l) (r l)))) g).grp g) d shp ls is val flg poi draws := by
  generalize hos : ls.map (fun l => laneOut shp l (poi l) (r0 l) (r l)) = os
  have hlane : os.map (·.w.lane) = ls := by
    rw [← hos, List.map_map]
    exact (List.map_congr_left (fun l _ => rfl)).trans (List.map_id _)
  have hwl : (os.map (·.w)).map LaneW.lane = ls := by rw [List.map_map]; exact hlane
  have hmem : ∀ w ∈ os.map (·.w), w.lane ∈ ls := fun w hw => by rw [← hwl]; exact List.mem_map_of_mem hw
  obtain ⟨w1, w2, w3, w4, w5⟩ := writeLanes_spec s g d (os.map (·.w)) hx hd (by rw [hwl]; exact hn) (fun w hw => hl _ (hmem w hw))
    (fun h => by have := hs h; rw [← hwl] at this; simpa using this)
  generalize hs1 : writeLanes s g d (os.map (·.w)) = s1 at w1 w2 w3 w4 w5
  obtain ⟨q1, q2, q3⟩ := setRngs_spec (s1.grp g) os (by rw [hlane]; exact hn)
  have hcom : commitF s g d os = orFlags (s1.updGrp g (fun x => setRngs x os)) g (outFlags os) := by rw [commitF, hs1]
  generalize hy : (advance (commitF s g d os) g).grp g = y
  have hyeq : y = updRun { (setRngs (s1.grp g) os) with
      spr := { (setRngs (s1.grp g) os).spr with fpmode := (setRngs (s1.grp g) os).spr.fpmode ||| (outFlags os).setWidth 64 } }
      (fun r => { r with pc := r.pc + 8, rs := { r.rs with pos := r.rs.pos + 1 } }) := by
    rw [← hy, advance_grp, hcom, orFlags, State.grp_updGrp_self, State.grp_updGrp_self]
  obtain ⟨u, hu⟩ := Option.isSome_iff_exists.mp hx
  have hrun1 : (s1.grp g).run = some { u with rs := { u.rs with temps := (runState (s1.grp g)).temps, tdef := (runState (s1.grp g)).tdef } } := by
    rw [w2.2, hu]; rfl
  have hyrun : y.run = some { u with pc := u.pc + 8, rs := { u.rs with temps := (runState (s1.grp g)).temps, tdef := (runState (s1.grp g)).tdef, pos := u.rs.pos + 1 } } := by
    rw [hyeq, q1]; simp only [updRun, hrun1, Option.map_some]
  have hget : ∀ c l, rget y c l = rget (s1.grp g) c l := by
    intro c l
    refine rget_of_eq ?_ ?_ ?_ ?_ c l
    · rw [hyeq, q1]; rfl
    · rw [hyeq, q1]; rfl
    · rw [hyeq, q1]; rfl
    · rw [show runState y = (match y.run with | some r => r.rs | none => {}) from rfl, hyrun]
  have hspr : y.spr = { (s.grp g).spr with fpmode := (s.grp g).spr.fpmode ||| (outFlags os).setWidth 64 } := by
    rw [hyeq, q1, w2.1]; rfl
  have hm : y.m = (s.grp g).m := by rw [hyeq, q1, w2.1]; rfl
  have hrs : runState (s.grp g) = u.rs := by simp [runState, hu]
  have hrs1 : runState y = { u.rs with temps := (runState (s1.grp g)).temps, tdef := (runState (s1.grp g)).tdef, pos := u.rs.pos + 1 } := by
    rw [show runState y = (match y.run with | some r => r.rs | none => {}) from rfl, hyrun]
  refine ⟨?_, ?_, ?_, ?_, ?_, ?_, ?_, ?_⟩
  · rw [hcom]
    exact ((w1.trans (OnlyGroup.updGrp _ _ _)).trans (OnlyGroup.updGrp _ _ _)).trans (OnlyGroup.updGrp _ _ _)
  · refine ⟨?_, ?_⟩
    · rw [hyeq, q1, w2.1]; rfl
    · rw [hspr]; exact sticky_high _ _
  · intro c l h1 h2 h3
    rw [hget]; exact w4 c l h1 h2 (.inl h3)
  · refine ⟨?_, ?_, ?_, ?_, ?_⟩
    · simp [runPc, hyrun, hu]
    · rw [hrs, hrs1]
    · simp [runEnt, hyrun, hu]
    · rw [hrs, hrs1]
    · rw [hyeq, q1, w2.1]; rfl
  · refine ⟨by rw [hrs, hrs1], hm, by rw [hyeq, q1, w2.1]; rfl, ?_⟩
    intro n h1 h2
    rw [hrs1]
    exact w5 n h1 h2
  · refine ⟨?_, ?_⟩
    · intro l hls
      have hmw : (laneOut shp l (poi l) (r0 l) (r l)).w ∈ os.map (·.w) := by
        rw [← hos]; exact List.mem_map_of_mem (f := (·.w)) (List.mem_map_of_mem (f := fun l => laneOut shp l (poi l) (r0 l) (r l)) hls)
      obtain ⟨old, o1, o2, o3⟩ := w3 _ hmw
      have hlane0 : (laneOut shp l (poi l) (r0 l) (r l)).w.lane = l := rfl
      rw [hlane0] at o1 o3
      have hfst : (r l).subs.map Prod.fst = is := by rw [hsub l hls, List.map_map]; exact (List.map_congr_left (fun _ _ => rfl)).trans (List.map_id _)
      have hcare : ((laneOut shp l (poi l) (r0 l) (r l)).w.care != 0xFFFFFFFFFFFFFFFF#64) = decide (is.length < shp.count) := by
        show (careBits shp.width ((r l).subs.map (·.1)) != _) = _
        rw [hfst]; exact careBits_full hin hil
      have hbnd : ∀ i < shp.count, shp.width * i + shp.width ≤ 64 := by
        intro i hi
        have h64 : shp.width * shp.count = 64 := by cases shp <;> decide
        rw [← h64]; have := Nat.mul_le_mul_left shp.width (show i + 1 ≤ shp.count from hi); rw [Nat.mul_add] at this; omega
      have hnd : ((r l).subs.map Prod.fst).Nodup := by rw [hfst]; exact hin
      refine ⟨?_, ?_, ?_⟩
      · intro i hi
        rw [subAt, hget, o3]
        have := (subOf_merge shp.width old.val (r l).subs hnd i (hbnd i (hil i hi))).1 (val l i) (by rw [hsub l hls]; exact List.mem_map_of_mem hi)
        rw [Nat.mod_eq_of_lt (hval l hls i hi)] at this
        exact this
      · intro i hi hni hf
        rw [subAt, hget, o3, subAt, ← o1 hf]
        exact (subOf_merge shp.width old.val (r l).subs hnd i (hbnd i hi)).2 (by rw [hfst]; exact hni)
      · rw [hget, o3]
        show (poi l || (old.poi && (laneOut shp l (poi l) (r0 l) (r l)).w.care != _)) = _
        by_cases hf : fresh (s.grp g) d = true
        · rw [hf]
          by_cases hc : (laneOut shp l (poi l) (r0 l) (r l)).w.care = 0xFFFFFFFFFFFFFFFF#64
          · rw [hc]; simp
          · rw [o2 hf hc]; simp
        · simp only [Bool.not_eq_true] at hf
          rw [← o1 hf, hcare, hf]
          simp
    · intro l h1 h2 h3
      rw [hget]
      refine w4 _ l (by have := hd.code; omega) h1 (.inr ⟨?_, h3.imp ?_ id⟩)
      · intro w hw he; exact h2 (by rw [← he]; exact hmem w hw)
      · intro he
        rw [← hos, he]; rfl
  · rw [NewFlags, hspr]
    rw [outFlags_eq, ← hos, List.map_map]
    have : ∀ ks : List Nat, (∀ l ∈ ks, l ∈ ls) → orAll (ks.map ((·.flags) ∘ fun l => laneOut shp l (poi l) (r0 l) (r l))) =
        orAll (ks.flatMap (fun l => is.map (flg l))) := by
      intro ks
      induction ks with
      | nil => intro _; rfl
      | cons a k ih =>
        intro hk
        rw [List.map_cons, orAll_cons, ih (fun l h => hk l (by simp [h])), List.flatMap_cons, orAll_append, ← hflg a (hk a (by simp))]
        rfl
    rw [this ls (fun _ h => h)]
  · intro l hl32
    have hyr : y.rng = (setRngs (s1.grp g) os).rng := by rw [hyeq]; rfl
    have hr1 : (s1.grp g).rng = (s.grp g).rng := by rw [w2.1]
    by_cases hls : l ∈ ls
    · rw [if_pos hls]
      have ho : laneOut shp l (poi l) (r0 l) (r l) ∈ os := by rw [← hos]; exact List.mem_map_of_mem hls
      have h3 := q3 _ ho
      have hlane0 : (laneOut shp l (poi l) (r0 l) (r l)).w.lane = l := rfl
      rw [hlane0, hr1] at h3
      have hne := nthRng_ne_zero (rngOf_ne_zero (s.grp g) l) draws
      rw [show rngOf y l = if y.rng.get l = 0 then seedState 0 l else y.rng.get l from rfl, hyr, h3]
      show (if (if (r l).rng = r0 l then none else some (r l).rng).getD ((s.grp g).rng.get l) = 0 then _ else
        (if (r l).rng = r0 l then none else some (r l).rng).getD ((s.grp g).rng.get l)) = _
      rcases hrng l hls with ⟨e1, e2⟩ | ⟨e1, e2⟩
      · rw [if_pos e1, e2]; rfl
      · by_cases he : (r l).rng = r0 l
        · rw [if_pos he, ← e2, he, e1]; rfl
        · rw [if_neg he]
          simp only [Option.getD_some]
          rw [e2, if_neg hne]
    · rw [if_neg hls]
      rw [show rngOf y l = if y.rng.get l = 0 then seedState 0 l else y.rng.get l from rfl, hyr, q2 l, hr1]
      · rfl
      · intro o ho he
        exact hls (by rw [← he, ← hlane]; exact List.mem_map_of_mem (f := fun o : LaneOut => o.w.lane) ho)

/-- The destination of a word that passed its checks. -/
theorem destOk_of_ok {s : State} {x : Group} {n : Info} {d : Opd} (h : checkInfo s x n = .ok) (hm : d ∈ n.writes) (hb : dstBad d = false) :
    DestOk x d := by
  obtain ⟨_, _, _, h4⟩ := checkInfo_ok h
  simp only [dstBad, Bool.or_eq_false_iff] at hb
  refine ⟨hb.1, hb.2, fun k hk => ?_⟩
  subst hk
  exact (regBad_ind ((regChecks_none h4).1 _ (by simp [hm]))).1

/-- The sub-elements of a lane in ascending order, where each draws one stochastic state or none. -/
theorem laneSubs_range (f : BitVec 32 → Nat → SubRes) (b : Bool) (hf : ∀ r i, (f r i).rng = if b then xorshift32 r else r) (r0 : BitVec 32) (n : Nat) :
    laneSubs f (List.range n) r0 = ⟨(List.range n).map (fun i => (i, (f (nthRng (if b then i else 0) r0) i).bits)),
      orAll ((List.range n).map (fun i => (f (nthRng (if b then i else 0) r0) i).flags)), nthRng (if b then n else 0) r0⟩ := by
  induction n with
  | zero => cases b <;> rfl
  | succ n ih =>
    unfold laneSubs at ih ⊢
    rw [List.range_succ, List.foldl_append, ih]
    simp only [List.foldl_cons, List.foldl_nil, List.map_append, List.map_cons, List.map_nil, orAll_append, hf]
    cases b
    · simp [orAll, nthRng]
    · simp [orAll, nthRng]

theorem written_range (shp : Shape) (rt : Route) : ∃ n, written shp rt = List.range n ∧ n ≤ shp.count := by
  unfold written
  split
  · exact ⟨1, rfl, by cases shp <;> decide⟩
  · exact ⟨_, rfl, le_refl _⟩

theorem subOf_lt (w i v : Nat) : subOf w i v < 2 ^ w := Nat.mod_lt _ (Nat.two_pow_pos w)

/-- The three sub-elements that a computed sub-element of a lane reads. -/
def subA (shp : Shape) (rt : Route) (o : Ops3) (i : Nat) : Nat := subOf shp.width (routeA rt i) o.a.toNat
def subB (shp : Shape) (rt : Route) (o : Ops3) (i : Nat) : Nat := subOf shp.width (routeB rt i) o.b.toNat
def subC (shp : Shape) (o : Ops3) (i : Nat) : Nat := subOf shp.width i o.c.toNat

/-- A class-F element-wise word that passed its checks completes with the results of its function. -/
theorem elemF_completes {s : State} {g : Nat} {i : Instr} {shp : Shape} {msk : Msk} {d : Opd} {rt : Route}
    {f : Group → BitVec 32 → Nat → Nat → Nat → SubRes} {o : Group → Nat → Ops3} (b : Bool) {val : Nat → Nat → Nat} {flg : Nat → Nat → BitVec 5}
    (he : ∀ s, exec i s = issue i (elemF shp msk d rt f o) s) (hr : Runs s g i) (hd : DestOk (s.grp g) d)
    (hf : ∀ r u v w, (f (s.grp g) r u v w).rng = if b then xorshift32 r else r)
    (hv : ∀ l ∈ workLanes (s.grp g) msk d, ∀ j ∈ written shp rt,
      (f (s.grp g) (nthRng (if b then j else 0) (rngOf (s.grp g) l)) (subA shp rt (o (s.grp g) l) j) (subB shp rt (o (s.grp g) l) j)
        (subC shp (o (s.grp g) l) j)) =
      ⟨val l j, flg l j, (f (s.grp g) (nthRng (if b then j else 0) (rngOf (s.grp g) l)) (subA shp rt (o (s.grp g) l) j)
        (subB shp rt (o (s.grp g) l) j) (subC shp (o (s.grp g) l) j)).rng⟩ ∧ val l j < 2 ^ shp.width) :
    CompletesF s g i d shp (workLanes (s.grp g) msk d) (written shp rt) val (unlessPoi (fun l => (o (s.grp g) l).poi) flg) (fun l => (o (s.grp g) l).poi)
      (if b then (written shp rt).length else 0) := by
  obtain ⟨hg, hp⟩ := hr
  have hx := (issuer_eq.mp hg).2.2
  obtain ⟨n, hw, hnc⟩ := written_range shp rt
  refine ⟨_, by rw [he]; exact issue_ok hg hp, ?_⟩
  simp only [elemF, finish_done]
  refine commitF_did (r := fun l => laneSubs (fun r j => f (s.grp g) r (subA shp rt (o (s.grp g) l) j) (subB shp rt (o (s.grp g) l) j)
        (subC shp (o (s.grp g) l) j)) (written shp rt) (rngOf (s.grp g) l)) (poi := fun l => (o (s.grp g) l).poi) (r0 := rngOf (s.grp g))
      hx hd (workLanes_nodup _ _ _) (fun l h => workLanes_lt h) workLanes_scalar ?_ ?_ ?_ ?_ ?_ ?_
  · rw [hw]; exact List.nodup_range
  · rw [hw]; intro j hj; rw [List.mem_range] at hj; omega
  · intro l hl
    rw [hw, laneSubs_range _ b (fun r j => hf r _ _ _)]
    refine List.map_congr_left (fun j hj => ?_)
    rw [← hw] at hj
    rw [(hv l hl j hj).1]
  · intro l hl j hj
    exact (hv l hl j hj).2
  · intro l hl
    rw [hw, laneSubs_range _ b (fun r j => hf r _ _ _)]
    have hu : unlessPoi (fun l => (o (s.grp g) l).poi) flg l = if (o (s.grp g) l).poi then fun _ => 0 else flg l := by
      funext j; simp only [unlessPoi]; split <;> rfl
    rw [hu, laneFlags]
    split
    · exact (orAll_zero _).symm
    · show orAll (List.map _ _) = orAll (List.map _ _)
      congr 1
      refine List.map_congr_left (fun j hj => ?_)
      rw [← hw] at hj
      rw [(hv l hl j hj).1]
  · intro l hl
    right
    refine ⟨rfl, ?_⟩
    rw [hw, laneSubs_range _ b (fun r j => hf r _ _ _)]
    simp

end Sys2Proof.Machine
end

