-- ==== Sys2Proof/Laws/Order.lean ====
section
/-!
SUPPORT. What the ordering machine can do: its steps move bytes between store buffers, views, home memory and shared stores, and deliver results;
nothing else of the state changes.
-/

namespace Sys2Proof.Machine

/-- A group without what the ordering machine works on. -/
def bare (x : Group) : Group := { x with iq := [], sb := [], shsb := [], inflight := [] }
/-- A team without its shared store. -/
def bareTeam (t : Team) : Team := { t with sh := [], shPoi := [] }

/-- What two groups share that differ in no more than those buffers. -/
theorem bare_fields {x y : Group} (h : bare x = bare y) : x.life = y.life ∧ x.run = y.run ∧ x.spr = y.spr ∧ x.trapS = y.trapS ∧ x.escS = y.escS ∧
    x.v = y.v ∧ x.s = y.s ∧ x.m = y.m ∧ x.frontier = y.frontier ∧ x.tx = y.tx ∧ x.ctx = y.ctx ∧ x.tid = y.tid ∧ x.sup = y.sup ∧ x.chain = y.chain :=
  ⟨(congrArg Group.life h :), (congrArg Group.run h :), (congrArg Group.spr h :), (congrArg Group.trapS h :), (congrArg Group.escS h :),
    (congrArg Group.v h :), (congrArg Group.s h :), (congrArg Group.m h :), (congrArg Group.frontier h :), (congrArg Group.tx h :),
    (congrArg Group.ctx h :), (congrArg Group.tid h :), (congrArg Group.sup h :), (congrArg Group.chain h :)⟩

/-- Nothing differs but home memory, the views, the words that a lost update goes back to, the status of homes and boundaries, the counter of free
values, the buffers and results in flight of groups and the shared stores of teams. -/
def Flows (s t : State) : Prop :=
  t = { s with h := t.h, cv := t.cv, dv := t.dv, groups := t.groups, teams := t.teams, tick := t.tick, oldWords := t.oldWords,
               regs := { s.regs with hbStat := t.regs.hbStat, dbStat := t.regs.dbStat } } ∧
  (∀ k, bare (t.grp k) = bare (s.grp k)) ∧ (∀ k, bareTeam (t.teams.get k) = bareTeam (s.teams.get k))

theorem Flows.refl (s : State) : Flows s s := ⟨rfl, fun _ => rfl, fun _ => rfl⟩

theorem Flows.trans {s t u : State} (h : Flows s t) (k : Flows t u) : Flows s u := by
  refine ⟨?_, fun n => (k.2.1 n).trans (h.2.1 n), fun n => (k.2.2 n).trans (h.2.2 n)⟩
  have h1 := h.1
  have k1 := k.1
  rw [h1] at k1
  exact k1

theorem Flows.foldl {β : Type} {f : State → β → State} (h : ∀ s b, Flows s (f s b)) (l : List β) (s : State) : Flows s (l.foldl f s) := by
  induction l generalizing s with
  | nil => exact Flows.refl s
  | cons b r ih => exact (h s b).trans (ih _)

theorem Flows.ite {c : Prop} [Decidable c] {s t u : State} (h : Flows s t) (k : Flows s u) : Flows s (if c then t else u) := by
  split <;> assumption

/-- A change of a group's buffers. -/
theorem Flows.updGrp (s : State) (g : Nat) (f : Group → Group) (h : bare (f (s.grp g)) = bare (s.grp g)) : Flows s (s.updGrp g f) := by
  refine ⟨rfl, fun k => ?_, fun _ => rfl⟩
  by_cases e : k = g
  · subst e; simpa using h
  · rw [State.grp_updGrp_other _ _ e]

theorem flows_hbSet (s : State) (n : Nat) (b : BitVec 64) : Flows s (hbSet s n b) := ⟨rfl, fun _ => rfl, fun _ => rfl⟩

theorem flows_hWrite (s : State) (key line : Nat) (bs : SMap (Option Byte)) (poi : Bool) : Flows s (hWrite s key line bs poi) := by
  unfold hWrite
  split
  · exact Flows.refl s
  · dsimp only
    split
    · exact Flows.trans (t := { s with h := _ }) ⟨rfl, fun _ => rfl, fun _ => rfl⟩ (flows_hbSet _ _ _)
    · exact ⟨rfl, fun _ => rfl, fun _ => rfl⟩

theorem flows_crossed (s : State) (a b : Nat) (poi : Bool) : Flows s (crossed s a b poi) := by
  unfold crossed
  exact Flows.ite ⟨rfl, fun _ => rfl, fun _ => rfl⟩ (Flows.refl s)

theorem flows_arrives (s : State) (d pa n : Nat) : Flows s (arrives s d pa n) := flows_crossed _ _ _ _

theorem flows_hSend (s : State) (d key line : Nat) (bs : SMap (Option Byte)) (poi : Bool) : Flows s (hSend s d key line bs poi) :=
  (flows_hWrite _ _ _ _ _).trans (flows_crossed _ _ _ _)

theorem flows_keepOld (s : State) (w : OldWord) : Flows s (keepOld s w) := ⟨rfl, fun _ => rfl, fun _ => rfl⟩

theorem flows_setEnts (s : State) (lvl inst : Nat) (l : List MEnt) : Flows s (setEnts s lvl inst l) := by
  unfold setEnts
  split
  · exact Flows.updGrp _ _ _ rfl
  · exact ⟨rfl, fun _ => rfl, fun _ => rfl⟩
  · exact ⟨rfl, fun _ => rfl, fun _ => rfl⟩
  · exact Flows.updGrp _ _ _ rfl

theorem flows_passDv (s : State) (d : Nat) (e : MEnt) : Flows s (passDv s d e) := by
  unfold passDv
  exact Flows.trans (t := { s with dv := _ }) ⟨rfl, fun _ => rfl, fun _ => rfl⟩ (flows_hSend _ _ _ _ _ _)

theorem flows_enterDv (s : State) (d : Nat) (e : MEnt) : Flows s (enterDv s d e) := by
  unfold enterDv
  exact (Flows.foldl (fun s x => flows_passDv s d x) _ s).trans ⟨rfl, fun _ => rfl, fun _ => rfl⟩

theorem flows_passCv (s : State) (c : Nat) (e : MEnt) : Flows s (passCv s c e) := by
  unfold passCv
  exact Flows.trans (t := { s with cv := _ }) ⟨rfl, fun _ => rfl, fun _ => rfl⟩ (flows_enterDv _ _ _)

theorem flows_enterCv (s : State) (c : Nat) (e : MEnt) : Flows s (enterCv s c e) := by
  unfold enterCv
  exact (Flows.foldl (fun s x => flows_passCv s c x) _ s).trans ⟨rfl, fun _ => rfl, fun _ => rfl⟩

theorem flows_passSb (s : State) (g : Nat) (e : MEnt) : Flows s (passSb s g e) := by
  unfold passSb
  exact (Flows.updGrp _ _ _ rfl).trans (flows_enterCv _ _ _)

theorem flows_enterSb (s : State) (g : Nat) (e : MEnt) : Flows s (enterSb s g e) := by
  unfold enterSb
  exact (Flows.foldl (fun s x => flows_passSb s g x) _ s).trans (Flows.updGrp _ _ _ rfl)

theorem flows_shWord (s : State) (tid word : Nat) (bs : SMap (Option Byte)) (poi : Bool) : Flows s (shWord s tid word bs poi) := by
  refine ⟨rfl, fun _ => rfl, fun k => ?_⟩
  unfold shWord
  by_cases e : k = tid
  · subst e; simp only [SMap.get_upd_self]; rfl
  · simp only [SMap.get_upd_other _ _ e]

theorem flows_passSh (s : State) (g : Nat) (e : MEnt) : Flows s (passSh s g e) := by
  unfold passSh
  exact (Flows.updGrp _ _ _ rfl).trans (flows_shWord _ _ _ _ _)

theorem flows_passEnt (s : State) (lvl inst : Nat) (e : MEnt) : Flows s (passEnt s lvl inst e) := by
  unfold passEnt
  split
  · exact flows_passSb _ _ _
  · exact flows_passCv _ _ _
  · exact flows_passDv _ _ _
  · exact flows_passSh _ _ _

theorem flows_passIx (s : State) (lvl inst ix : Nat) : Flows s (passIx s lvl inst ix) := by
  unfold passIx
  split
  · exact Flows.ite (flows_passEnt _ _ _ _) (Flows.refl s)
  · exact Flows.refl s

theorem flows_dropIx (s : State) (lvl inst ix : Nat) : Flows s (dropIx s lvl inst ix) := by
  unfold dropIx
  split
  · split
    · exact Flows.ite (Flows.refl s) (flows_setEnts _ _ _ _)
    · exact Flows.refl s
  · exact Flows.refl s

theorem flows_passWhere (s : State) (lvl inst : Nat) (p : MEnt → Bool) : Flows s (passWhere s lvl inst p) :=
  Flows.foldl (fun s e => flows_passEnt s lvl inst e) _ s

theorem flows_passOwn (s : State) (g upto : Nat) (p : MEnt → Bool) : Flows s (passOwn s g upto p) :=
  Flows.foldl (fun s lvl => flows_passWhere s lvl _ _) _ s

theorem flows_dropClean (s : State) (g upto : Nat) (p : MEnt → Bool) : Flows s (dropClean s g upto p) := by
  unfold dropClean
  refine Flows.trans (t := if 1 < upto then _ else s) (Flows.ite (flows_setEnts _ _ _ _) (Flows.refl s)) (Flows.ite (flows_setEnts _ _ _ _) (Flows.refl _))

theorem flows_passClash (s : State) (g key line : Nat) : Flows s (passClash s g key line) :=
  Flows.foldl (fun s lvl => flows_passWhere s lvl _ _) _ s

theorem flows_dropMixed (s : State) (g key pa n start ign : Nat) : Flows s (dropMixed s g key pa n start ign) := by
  unfold dropMixed
  exact Flows.ite (Flows.refl s) (flows_dropClean _ _ _ _)

theorem flows_fillFrom (s : State) (g key pa cp : Nat) (fs : List Found) : Flows s (fillFrom s g key pa cp fs) := by
  unfold fillFrom
  exact Flows.trans (Flows.ite (Flows.refl s) (flows_setEnts _ _ _ _)) (Flows.ite (Flows.refl _) (flows_setEnts _ _ _ _))

theorem flows_deliver (s : State) (g tag : Nat) (ws : List RegWrite) (fl : BitVec 5) (pi : List (Nat × BitVec 64)) :
    Flows s (s.updGrp g (fun x => deliver x tag ws fl pi)) := Flows.updGrp _ _ _ rfl

theorem flows_tick (s : State) (n : Nat) : Flows s { s with tick := n } := ⟨rfl, fun _ => rfl, fun _ => rfl⟩

theorem flows_performLoad (s : State) (g : Nat) (o : MemOp) (ext : Ext) (fill : Bool) : Flows s (performLoad s g o ext fill) := by
  unfold performLoad
  dsimp only
  refine Flows.trans ?_ (flows_deliver _ _ _ _ _ _)
  refine Flows.trans ?_ (flows_crossed _ _ _ _)
  refine Flows.trans ?_ (Flows.ite (flows_tick _ _) (Flows.refl _))
  refine Flows.trans ?_ (Flows.ite (flows_dropClean _ _ _ _) (Flows.ite (flows_dropClean _ _ _ _) (Flows.refl _)))
  exact (flows_dropMixed _ _ _ _ _ _ _).trans (Flows.ite (flows_fillFrom _ _ _ _ _ _) (Flows.refl _))

theorem flows_performLoadSh (s : State) (g : Nat) (o : MemOp) (ext : Ext) : Flows s (performLoadSh s g o ext) := by
  unfold performLoadSh
  exact flows_deliver _ _ _ _ _ _

theorem flows_performStore (s : State) (g : Nat) (o : MemOp) : Flows s (performStore s g o) := by
  unfold performStore
  split
  · exact Flows.updGrp _ _ _ rfl
  · exact Flows.ite (flows_enterSb _ _ _) (((flows_enterSb _ _ _).trans (flows_passOwn _ _ _ _)).trans (flows_dropClean _ _ _ _))

theorem flows_atomWrite (s : State) (g : Nat) (o : MemOp) (r : AtomReq) : Flows s (atomWrite s g o r) := by
  unfold atomWrite
  dsimp only
  have h := ((Flows.ite (c := casFails s g o r = true) (Flows.refl s) (flows_passOwn s g (atomAt o) (fun e => e.holds o.pa o.n))).trans
    (flows_dropMixed _ g o.key o.pa o.n (atomAt o) 0)).trans (flows_dropClean _ g (atomAt o) (fun e => e.holds o.pa o.n))
  split
  · exact (h.trans (flows_fillFrom _ _ _ _ _ _)).trans (flows_crossed _ _ _ _)
  · split
    · refine (h.trans ?_).trans (flows_hWrite _ _ _ _ _)
      exact Flows.ite ⟨rfl, fun _ => rfl, fun _ => rfl⟩ (flows_keepOld _ _)
    · split
      · exact h.trans (flows_enterDv _ _ _)
      · exact h.trans (flows_enterCv _ _ _)

theorem flows_performAtomic (s : State) (g : Nat) (o : MemOp) (r : AtomReq) : Flows s (performAtomic s g o r) := by
  unfold performAtomic
  refine Flows.trans ?_ (flows_deliver _ _ _ _ _ _)
  refine Flows.trans ?_ (Flows.ite (flows_tick _ _) (Flows.refl _))
  exact (flows_atomWrite _ _ _ _).trans (Flows.ite (flows_dropClean _ _ _ _) (Flows.refl _))

theorem flows_performOp (s : State) (g : Nat) (o : MemOp) (fill : Bool) : Flows s (performOp s g o fill) := by
  unfold performOp
  split
  · exact Flows.ite (flows_performLoadSh _ _ _ _) (flows_performLoad _ _ _ _ _)
  · exact flows_performStore _ _ _
  · exact flows_performAtomic _ _ _ _
  · exact Flows.ite (flows_dropClean _ _ _ _) (Flows.refl _)

theorem flows_dequeue (s : State) (g id : Nat) : Flows s (dequeue s g id) := Flows.updGrp _ _ _ rfl

theorem flows_performId (s : State) (g id : Nat) (fill : Bool) : Flows s (performId s g id fill) := by
  unfold performId
  split
  · exact Flows.refl s
  · exact Flows.ite ((flows_dequeue _ _ _).trans (flows_performOp _ _ _ _)) (Flows.refl s)

theorem flows_passFor (s : State) (g : Nat) (o : MemOp) : Flows s (passFor s g o) := by
  unfold passFor
  dsimp only
  exact Flows.trans (t := if needsPass s g o then _ else s)
    (Flows.ite ((flows_passOwn _ _ _ _).trans (flows_passWhere _ _ _ _)) (Flows.refl s)) (Flows.ite (flows_passClash _ _ _ _) (Flows.refl _))

theorem flows_force (s : State) (g : Nat) (o : MemOp) : Flows s (performOp (passFor (dequeue s g o.id) g o) g o false) :=
  ((flows_dequeue s g o.id).trans (flows_passFor (dequeue s g o.id) g o)).trans (flows_performOp (passFor (dequeue s g o.id) g o) g o false)

/-- Every queued operation of a group performs, and nothing but memory, buffers and results in flight changes. -/
theorem flows_performAll (s : State) (g : Nat) : Flows s (performAll s g) := by
  have h := Flows.foldl (β := MemOp) (f := fun s o => performOp (passFor (dequeue s g o.id) g o) g o false) (flows_force · g ·)
  exact h (s.grp g).iq s

theorem flows_passAll (s : State) (g : Nat) : Flows s (passAll s g) := by
  unfold passAll
  exact (flows_passOwn _ _ _ _).trans (flows_passWhere _ _ _ _)

/-- A releasing step. -/
theorem flows_releaseAt (s : State) (g : Nat) (sc : Scope) : Flows s (releaseAt s g sc) := by
  unfold releaseAt
  exact ((flows_performAll s g).trans (flows_passOwn _ _ _ _)).trans (flows_passWhere _ _ _ _)

/-- An acquiring step. -/
theorem flows_acquireAt (s : State) (g : Nat) (sc : Scope) : Flows s (acquireAt s g sc) := flows_dropClean _ _ _ _

/-- A step that reads a line at its home. -/
theorem flows_settleLine (s : State) (g key line : Nat) : Flows s (settleLine s g key line) := by
  unfold settleLine
  exact ((((flows_performAll s g).trans (flows_passOwn _ _ _ _)).trans (flows_passClash _ _ _ _)).trans (flows_dropClean _ _ _ _)).trans (flows_arrives _ _ _ _)

/-- A read of a range. -/
theorem flows_seenSpan (s : State) (g key pa n cp : Nat) : Flows s (seenSpan s g key pa n cp) := by
  unfold seenSpan
  refine Flows.trans ?_ (flows_crossed _ _ _ _)
  refine Flows.trans ?_ (Flows.ite (flows_dropClean _ _ _ _) (Flows.refl _))
  refine Flows.trans (t := List.foldl (fun s j => passClash s g key (pa / 64 + j)) s (List.range ((pa % 64 + n + 63) / 64))) ?_ ?_
  · exact Flows.foldl (f := fun s j => passClash s g key (pa / 64 + j)) (fun s j => flows_passClash s g key (pa / 64 + j)) _ s
  · exact Flows.foldl (f := fun s (c : Nat × Nat) => dropMixed s g key c.1 c.2 0 (relaxedIgn cp)) (fun s c => flows_dropMixed s g key c.1 c.2 0 _) _ _

/-- A read of a range of virtual addresses. -/
theorem flows_seenRange (s : State) (g : Nat) (va : BitVec 64) (n : Nat) : Flows s (seenRange s g va n) := by
  unfold seenRange
  dsimp only
  split
  · exact Flows.refl s
  · exact Flows.foldl (fun s p => flows_seenSpan s g _ _ _ _) _ s

end Sys2Proof.Machine
end

