-- ==== Sys2Proof/Laws/PerInstr.lean ====
section
/-!
SUPPORT. The statement made of every instruction: a well-formed word decodes to the instruction that was encoded.
-/

namespace Sys2Proof.Laws.Encoding

open BitVec (extractLsb'_append_eq_of_le extractLsb'_append_eq_of_add_le)

set_option Elab.async false
set_option linter.unusedSimpArgs false

/-- What decoding gives back of a well-formed instruction: itself, whether it is a word of the cores or of a sequencer. An event has no encoding. -/
def Statement (i : Instr) : Prop :=
  WellFormed i → (∀ w, encodeWord i = some w → decodeWord w = i) ∧ (∀ w, encodeSeq i = some w → decodeSeq w = some i)

/-- A word of the cores. -/
theorem core {i : Instr} {w : BitVec 64} (hw : encodeWord i = some w) (hs : encodeSeq i = none) (h : WellFormed i → decodeWord w = i) : Statement i := by
  intro hi
  refine ⟨fun v hv => ?_, fun v hv => ?_⟩
  · rw [hw] at hv; cases hv; exact h hi
  · rw [hs] at hv; cases hv

/-- A word of a sequencer. -/
theorem seqr {i : Instr} {w : BitVec 32} (hw : encodeWord i = none) (hs : encodeSeq i = some w) (h : WellFormed i → decodeSeq w = some i) : Statement i := by
  intro hi
  refine ⟨fun v hv => ?_, fun v hv => ?_⟩
  · rw [hw] at hv; cases hv
  · rw [hs] at hv; cases hv; exact h hi

/-- An event. -/
theorem event {i : Instr} (hw : encodeWord i = none) (hs : encodeSeq i = none) : Statement i := by
  intro _
  refine ⟨fun v hv => ?_, fun v hv => ?_⟩
  · rw [hw] at hv; cases hv
  · rw [hs] at hv; cases hv

/-- A word whose raw reading does not depend on its field rules. -/
theorem raw {i : Instr} {w : BitVec 64} (hw : encodeWord i = some w) (hs : encodeSeq i = none) (h0 : w.extractLsb' 57 7 ≠ 0) (hr : decodeRaw w = some i)
    (hf : WellFormed i → fieldRules i = true) : Statement i :=
  core hw hs fun h => decodeWord_of_raw h0 hr (hf h)

theorem iadd (f : FmtA) : Statement (.iadd f) :=
  raw rfl rfl (by simp only [encA, maj_packA]; decide) (by simp only [decodeRaw, encA, maj_packA, min_packA]; exact congrArg (Option.bind · _) (fmtA_encA _ _ f)) id
theorem iaddI (f : FmtI) : Statement (.iaddI f) :=
  raw rfl rfl (by simp only [encI, maj_packA]; decide) (by simp only [decodeRaw, encI, maj_packA, min_packA]; exact congrArg (Option.bind · _) (fmtI_encI _ _ f)) id
theorem isub (f : FmtA) : Statement (.isub f) :=
  raw rfl rfl (by simp only [encA, maj_packA]; decide) (by simp only [decodeRaw, encA, maj_packA, min_packA]; exact congrArg (Option.bind · _) (fmtA_encA _ _ f)) id
theorem isubI (f : FmtI) : Statement (.isubI f) :=
  raw rfl rfl (by simp only [encI, maj_packA]; decide) (by simp only [decodeRaw, encI, maj_packA, min_packA]; exact congrArg (Option.bind · _) (fmtI_encI _ _ f)) id
theorem imul (f : FmtA) : Statement (.imul f) :=
  raw rfl rfl (by simp only [encA, maj_packA]; decide) (by simp only [decodeRaw, encA, maj_packA, min_packA]; exact congrArg (Option.bind · _) (fmtA_encA _ _ f)) id
theorem imulI (f : FmtI) : Statement (.imulI f) :=
  raw rfl rfl (by simp only [encI, maj_packA]; decide) (by simp only [decodeRaw, encI, maj_packA, min_packA]; exact congrArg (Option.bind · _) (fmtI_encI _ _ f)) id
theorem imulh (f : FmtA) : Statement (.imulh f) :=
  raw rfl rfl (by simp only [encA, maj_packA]; decide) (by simp only [decodeRaw, encA, maj_packA, min_packA]; exact congrArg (Option.bind · _) (fmtA_encA _ _ f)) id
theorem imulhI (f : FmtI) : Statement (.imulhI f) :=
  raw rfl rfl (by simp only [encI, maj_packA]; decide) (by simp only [decodeRaw, encI, maj_packA, min_packA]; exact congrArg (Option.bind · _) (fmtI_encI _ _ f)) id
theorem imad (f : FmtA) : Statement (.imad f) :=
  raw rfl rfl (by simp only [encA, maj_packA]; decide) (by simp only [decodeRaw, encA, maj_packA, min_packA]; exact congrArg (Option.bind · _) (fmtA_encA _ _ f)) id
theorem imadI (f : FmtI) : Statement (.imadI f) :=
  raw rfl rfl (by simp only [encI, maj_packA]; decide) (by simp only [decodeRaw, encI, maj_packA, min_packA]; exact congrArg (Option.bind · _) (fmtI_encI _ _ f)) id
theorem imin (f : FmtA) : Statement (.imin f) :=
  raw rfl rfl (by simp only [encA, maj_packA]; decide) (by simp only [decodeRaw, encA, maj_packA, min_packA]; exact congrArg (Option.bind · _) (fmtA_encA _ _ f)) id
theorem iminI (f : FmtI) : Statement (.iminI f) :=
  raw rfl rfl (by simp only [encI, maj_packA]; decide) (by simp only [decodeRaw, encI, maj_packA, min_packA]; exact congrArg (Option.bind · _) (fmtI_encI _ _ f)) id
theorem imax (f : FmtA) : Statement (.imax f) :=
  raw rfl rfl (by simp only [encA, maj_packA]; decide) (by simp only [decodeRaw, encA, maj_packA, min_packA]; exact congrArg (Option.bind · _) (fmtA_encA _ _ f)) id
theorem imaxI (f : FmtI) : Statement (.imaxI f) :=
  raw rfl rfl (by simp only [encI, maj_packA]; decide) (by simp only [decodeRaw, encI, maj_packA, min_packA]; exact congrArg (Option.bind · _) (fmtI_encI _ _ f)) id
theorem iabs (f : FmtA) : Statement (.iabs f) :=
  raw rfl rfl (by simp only [encA, maj_packA]; decide) (by simp only [decodeRaw, encA, maj_packA, min_packA]; exact congrArg (Option.bind · _) (fmtA_encA _ _ f)) id
theorem iabsI (f : FmtI) : Statement (.iabsI f) :=
  raw rfl rfl (by simp only [encI, maj_packA]; decide) (by simp only [decodeRaw, encI, maj_packA, min_packA]; exact congrArg (Option.bind · _) (fmtI_encI _ _ f)) id
theorem and (f : FmtA) : Statement (.and f) :=
  raw rfl rfl (by simp only [encA, maj_packA]; decide) (by simp only [decodeRaw, encA, maj_packA, min_packA]; exact congrArg (Option.bind · _) (fmtA_encA _ _ f)) id
theorem andI (f : FmtI) : Statement (.andI f) :=
  raw rfl rfl (by simp only [encI, maj_packA]; decide) (by simp only [decodeRaw, encI, maj_packA, min_packA]; exact congrArg (Option.bind · _) (fmtI_encI _ _ f)) id
theorem or (f : FmtA) : Statement (.or f) :=
  raw rfl rfl (by simp only [encA, maj_packA]; decide) (by simp only [decodeRaw, encA, maj_packA, min_packA]; exact congrArg (Option.bind · _) (fmtA_encA _ _ f)) id
theorem orI (f : FmtI) : Statement (.orI f) :=
  raw rfl rfl (by simp only [encI, maj_packA]; decide) (by simp only [decodeRaw, encI, maj_packA, min_packA]; exact congrArg (Option.bind · _) (fmtI_encI _ _ f)) id
theorem xor (f : FmtA) : Statement (.xor f) :=
  raw rfl rfl (by simp only [encA, maj_packA]; decide) (by simp only [decodeRaw, encA, maj_packA, min_packA]; exact congrArg (Option.bind · _) (fmtA_encA _ _ f)) id
theorem xorI (f : FmtI) : Statement (.xorI f) :=
  raw rfl rfl (by simp only [encI, maj_packA]; decide) (by simp only [decodeRaw, encI, maj_packA, min_packA]; exact congrArg (Option.bind · _) (fmtI_encI _ _ f)) id
theorem andn (f : FmtA) : Statement (.andn f) :=
  raw rfl rfl (by simp only [encA, maj_packA]; decide) (by simp only [decodeRaw, encA, maj_packA, min_packA]; exact congrArg (Option.bind · _) (fmtA_encA _ _ f)) id
theorem andnI (f : FmtI) : Statement (.andnI f) :=
  raw rfl rfl (by simp only [encI, maj_packA]; decide) (by simp only [decodeRaw, encI, maj_packA, min_packA]; exact congrArg (Option.bind · _) (fmtI_encI _ _ f)) id
theorem shl (f : FmtA) : Statement (.shl f) :=
  raw rfl rfl (by simp only [encA, maj_packA]; decide) (by simp only [decodeRaw, encA, maj_packA, min_packA]; exact congrArg (Option.bind · _) (fmtA_encA _ _ f)) id
theorem shlI (f : FmtI) : Statement (.shlI f) :=
  raw rfl rfl (by simp only [encI, maj_packA]; decide) (by simp only [decodeRaw, encI, maj_packA, min_packA]; exact congrArg (Option.bind · _) (fmtI_encI _ _ f)) id
theorem shr (f : FmtA) : Statement (.shr f) :=
  raw rfl rfl (by simp only [encA, maj_packA]; decide) (by simp only [decodeRaw, encA, maj_packA, min_packA]; exact congrArg (Option.bind · _) (fmtA_encA _ _ f)) id
theorem shrI (f : FmtI) : Statement (.shrI f) :=
  raw rfl rfl (by simp only [encI, maj_packA]; decide) (by simp only [decodeRaw, encI, maj_packA, min_packA]; exact congrArg (Option.bind · _) (fmtI_encI _ _ f)) id
theorem sar (f : FmtA) : Statement (.sar f) :=
  raw rfl rfl (by simp only [encA, maj_packA]; decide) (by simp only [decodeRaw, encA, maj_packA, min_packA]; exact congrArg (Option.bind · _) (fmtA_encA _ _ f)) id
theorem sarI (f : FmtI) : Statement (.sarI f) :=
  raw rfl rfl (by simp only [encI, maj_packA]; decide) (by simp only [decodeRaw, encI, maj_packA, min_packA]; exact congrArg (Option.bind · _) (fmtI_encI _ _ f)) id
theorem popc (f : FmtA) : Statement (.popc f) :=
  raw rfl rfl (by simp only [encA, maj_packA]; decide) (by simp only [decodeRaw, encA, maj_packA, min_packA]; exact congrArg (Option.bind · _) (fmtA_encA _ _ f)) id
theorem popcI (f : FmtI) : Statement (.popcI f) :=
  raw rfl rfl (by simp only [encI, maj_packA]; decide) (by simp only [decodeRaw, encI, maj_packA, min_packA]; exact congrArg (Option.bind · _) (fmtI_encI _ _ f)) id
theorem clz (f : FmtA) : Statement (.clz f) :=
  raw rfl rfl (by simp only [encA, maj_packA]; decide) (by simp only [decodeRaw, encA, maj_packA, min_packA]; exact congrArg (Option.bind · _) (fmtA_encA _ _ f)) id
theorem clzI (f : FmtI) : Statement (.clzI f) :=
  raw rfl rfl (by simp only [encI, maj_packA]; decide) (by simp only [decodeRaw, encI, maj_packA, min_packA]; exact congrArg (Option.bind · _) (fmtI_encI _ _ f)) id
theorem bfx (f : FmtA) : Statement (.bfx f) :=
  raw rfl rfl (by simp only [encA, maj_packA]; decide) (by simp only [decodeRaw, encA, maj_packA, min_packA]; exact congrArg (Option.bind · _) (fmtA_encA _ _ f)) id
theorem bfxI (f : FmtI) : Statement (.bfxI f) :=
  raw rfl rfl (by simp only [encI, maj_packA]; decide) (by simp only [decodeRaw, encI, maj_packA, min_packA]; exact congrArg (Option.bind · _) (fmtI_encI _ _ f)) id
theorem bfi (f : FmtA) : Statement (.bfi f) :=
  raw rfl rfl (by simp only [encA, maj_packA]; decide) (by simp only [decodeRaw, encA, maj_packA, min_packA]; exact congrArg (Option.bind · _) (fmtA_encA _ _ f)) id
theorem bfiI (f : FmtI) : Statement (.bfiI f) :=
  raw rfl rfl (by simp only [encI, maj_packA]; decide) (by simp only [decodeRaw, encI, maj_packA, min_packA]; exact congrArg (Option.bind · _) (fmtI_encI _ _ f)) id
theorem lea (f : FmtA) : Statement (.lea f) :=
  raw rfl rfl (by simp only [encA, maj_packA]; decide) (by simp only [decodeRaw, encA, maj_packA, min_packA]; exact congrArg (Option.bind · _) (fmtA_encA _ _ f)) id
theorem leaI (f : FmtI) : Statement (.leaI f) :=
  raw rfl rfl (by simp only [encI, maj_packA]; decide) (by simp only [decodeRaw, encI, maj_packA, min_packA]; exact congrArg (Option.bind · _) (fmtI_encI _ _ f)) id
theorem fadd (f : FmtA) : Statement (.fadd f) :=
  raw rfl rfl (by simp only [encA, maj_packA]; decide) (by simp only [decodeRaw, encA, maj_packA, min_packA]; exact congrArg (Option.bind · _) (fmtA_encA _ _ f)) id
theorem faddI (f : FmtI) : Statement (.faddI f) :=
  raw rfl rfl (by simp only [encI, maj_packA]; decide) (by simp only [decodeRaw, encI, maj_packA, min_packA]; exact congrArg (Option.bind · _) (fmtI_encI _ _ f)) id
theorem fsub (f : FmtA) : Statement (.fsub f) :=
  raw rfl rfl (by simp only [encA, maj_packA]; decide) (by simp only [decodeRaw, encA, maj_packA, min_packA]; exact congrArg (Option.bind · _) (fmtA_encA _ _ f)) id
theorem fsubI (f : FmtI) : Statement (.fsubI f) :=
  raw rfl rfl (by simp only [encI, maj_packA]; decide) (by simp only [decodeRaw, encI, maj_packA, min_packA]; exact congrArg (Option.bind · _) (fmtI_encI _ _ f)) id
theorem fmul (f : FmtA) : Statement (.fmul f) :=
  raw rfl rfl (by simp only [encA, maj_packA]; decide) (by simp only [decodeRaw, encA, maj_packA, min_packA]; exact congrArg (Option.bind · _) (fmtA_encA _ _ f)) id
theorem fmulI (f : FmtI) : Statement (.fmulI f) :=
  raw rfl rfl (by simp only [encI, maj_packA]; decide) (by simp only [decodeRaw, encI, maj_packA, min_packA]; exact congrArg (Option.bind · _) (fmtI_encI _ _ f)) id
theorem ffma (f : FmtA) : Statement (.ffma f) :=
  raw rfl rfl (by simp only [encA, maj_packA]; decide) (by simp only [decodeRaw, encA, maj_packA, min_packA]; exact congrArg (Option.bind · _) (fmtA_encA _ _ f)) id
theorem ffmaI (f : FmtI) : Statement (.ffmaI f) :=
  raw rfl rfl (by simp only [encI, maj_packA]; decide) (by simp only [decodeRaw, encI, maj_packA, min_packA]; exact congrArg (Option.bind · _) (fmtI_encI _ _ f)) id
theorem fmin (f : FmtA) : Statement (.fmin f) :=
  raw rfl rfl (by simp only [encA, maj_packA]; decide) (by simp only [decodeRaw, encA, maj_packA, min_packA]; exact congrArg (Option.bind · _) (fmtA_encA _ _ f)) id
theorem fminI (f : FmtI) : Statement (.fminI f) :=
  raw rfl rfl (by simp only [encI, maj_packA]; decide) (by simp only [decodeRaw, encI, maj_packA, min_packA]; exact congrArg (Option.bind · _) (fmtI_encI _ _ f)) id
theorem fmax (f : FmtA) : Statement (.fmax f) :=
  raw rfl rfl (by simp only [encA, maj_packA]; decide) (by simp only [decodeRaw, encA, maj_packA, min_packA]; exact congrArg (Option.bind · _) (fmtA_encA _ _ f)) id
theorem fmaxI (f : FmtI) : Statement (.fmaxI f) :=
  raw rfl rfl (by simp only [encI, maj_packA]; decide) (by simp only [decodeRaw, encI, maj_packA, min_packA]; exact congrArg (Option.bind · _) (fmtI_encI _ _ f)) id
theorem fabs (f : FmtA) : Statement (.fabs f) :=
  raw rfl rfl (by simp only [encA, maj_packA]; decide) (by simp only [decodeRaw, encA, maj_packA, min_packA]; exact congrArg (Option.bind · _) (fmtA_encA _ _ f)) id
theorem fabsI (f : FmtI) : Statement (.fabsI f) :=
  raw rfl rfl (by simp only [encI, maj_packA]; decide) (by simp only [decodeRaw, encI, maj_packA, min_packA]; exact congrArg (Option.bind · _) (fmtI_encI _ _ f)) id
theorem fneg (f : FmtA) : Statement (.fneg f) :=
  raw rfl rfl (by simp only [encA, maj_packA]; decide) (by simp only [decodeRaw, encA, maj_packA, min_packA]; exact congrArg (Option.bind · _) (fmtA_encA _ _ f)) id
theorem fnegI (f : FmtI) : Statement (.fnegI f) :=
  raw rfl rfl (by simp only [encI, maj_packA]; decide) (by simp only [decodeRaw, encI, maj_packA, min_packA]; exact congrArg (Option.bind · _) (fmtI_encI _ _ f)) id
theorem frnd (f : FmtA) : Statement (.frnd f) :=
  raw rfl rfl (by simp only [encA, maj_packA]; decide) (by simp only [decodeRaw, encA, maj_packA, min_packA]; exact congrArg (Option.bind · _) (fmtA_encA _ _ f)) id
theorem frndI (f : FmtI) : Statement (.frndI f) :=
  raw rfl rfl (by simp only [encI, maj_packA]; decide) (by simp only [decodeRaw, encI, maj_packA, min_packA]; exact congrArg (Option.bind · _) (fmtI_encI _ _ f)) id
theorem frcp (f : FmtA) : Statement (.frcp f) :=
  raw rfl rfl (by simp only [encA, maj_packA]; decide) (by simp only [decodeRaw, encA, maj_packA, min_packA]; exact congrArg (Option.bind · _) (fmtA_encA _ _ f)) id
theorem frcpI (f : FmtI) : Statement (.frcpI f) :=
  raw rfl rfl (by simp only [encI, maj_packA]; decide) (by simp only [decodeRaw, encI, maj_packA, min_packA]; exact congrArg (Option.bind · _) (fmtI_encI _ _ f)) id
theorem frsq (f : FmtA) : Statement (.frsq f) :=
  raw rfl rfl (by simp only [encA, maj_packA]; decide) (by simp only [decodeRaw, encA, maj_packA, min_packA]; exact congrArg (Option.bind · _) (fmtA_encA _ _ f)) id
theorem frsqI (f : FmtI) : Statement (.frsqI f) :=
  raw rfl rfl (by simp only [encI, maj_packA]; decide) (by simp only [decodeRaw, encI, maj_packA, min_packA]; exact congrArg (Option.bind · _) (fmtI_encI _ _ f)) id
theorem fsqrt (f : FmtA) : Statement (.fsqrt f) :=
  raw rfl rfl (by simp only [encA, maj_packA]; decide) (by simp only [decodeRaw, encA, maj_packA, min_packA]; exact congrArg (Option.bind · _) (fmtA_encA _ _ f)) id
theorem fsqrtI (f : FmtI) : Statement (.fsqrtI f) :=
  raw rfl rfl (by simp only [encI, maj_packA]; decide) (by simp only [decodeRaw, encI, maj_packA, min_packA]; exact congrArg (Option.bind · _) (fmtI_encI _ _ f)) id
theorem fexp2 (f : FmtA) : Statement (.fexp2 f) :=
  raw rfl rfl (by simp only [encA, maj_packA]; decide) (by simp only [decodeRaw, encA, maj_packA, min_packA]; exact congrArg (Option.bind · _) (fmtA_encA _ _ f)) id
theorem fexp2I (f : FmtI) : Statement (.fexp2I f) :=
  raw rfl rfl (by simp only [encI, maj_packA]; decide) (by simp only [decodeRaw, encI, maj_packA, min_packA]; exact congrArg (Option.bind · _) (fmtI_encI _ _ f)) id
theorem flog2 (f : FmtA) : Statement (.flog2 f) :=
  raw rfl rfl (by simp only [encA, maj_packA]; decide) (by simp only [decodeRaw, encA, maj_packA, min_packA]; exact congrArg (Option.bind · _) (fmtA_encA _ _ f)) id
theorem flog2I (f : FmtI) : Statement (.flog2I f) :=
  raw rfl rfl (by simp only [encI, maj_packA]; decide) (by simp only [decodeRaw, encI, maj_packA, min_packA]; exact congrArg (Option.bind · _) (fmtI_encI _ _ f)) id
theorem ftanh (f : FmtA) : Statement (.ftanh f) :=
  raw rfl rfl (by simp only [encA, maj_packA]; decide) (by simp only [decodeRaw, encA, maj_packA, min_packA]; exact congrArg (Option.bind · _) (fmtA_encA _ _ f)) id
theorem ftanhI (f : FmtI) : Statement (.ftanhI f) :=
  raw rfl rfl (by simp only [encI, maj_packA]; decide) (by simp only [decodeRaw, encI, maj_packA, min_packA]; exact congrArg (Option.bind · _) (fmtI_encI _ _ f)) id
theorem icmp (f : FmtA) : Statement (.icmp f) :=
  raw rfl rfl (by simp only [encA, maj_packA]; decide) (by simp only [decodeRaw, encA, maj_packA, min_packA]; exact congrArg (Option.bind · _) (fmtA_encA _ _ f)) id
theorem icmpI (f : FmtI) : Statement (.icmpI f) :=
  raw rfl rfl (by simp only [encI, maj_packA]; decide) (by simp only [decodeRaw, encI, maj_packA, min_packA]; exact congrArg (Option.bind · _) (fmtI_encI _ _ f)) id
theorem fcmp (f : FmtA) : Statement (.fcmp f) :=
  raw rfl rfl (by simp only [encA, maj_packA]; decide) (by simp only [decodeRaw, encA, maj_packA, min_packA]; exact congrArg (Option.bind · _) (fmtA_encA _ _ f)) id
theorem fcmpI (f : FmtI) : Statement (.fcmpI f) :=
  raw rfl rfl (by simp only [encI, maj_packA]; decide) (by simp only [decodeRaw, encI, maj_packA, min_packA]; exact congrArg (Option.bind · _) (fmtI_encI _ _ f)) id
theorem sel (f : FmtA) : Statement (.sel f) :=
  raw rfl rfl (by simp only [encA, maj_packA]; decide) (by simp only [decodeRaw, encA, maj_packA, min_packA]; exact congrArg (Option.bind · _) (fmtA_encA _ _ f)) id
theorem selI (f : FmtI) : Statement (.selI f) :=
  raw rfl rfl (by simp only [encI, maj_packA]; decide) (by simp only [decodeRaw, encI, maj_packA, min_packA]; exact congrArg (Option.bind · _) (fmtI_encI _ _ f)) id
theorem mop (f : FmtA) : Statement (.mop f) :=
  raw rfl rfl (by simp only [encA, maj_packA]; decide) (by simp only [decodeRaw, encA, maj_packA, min_packA]; exact congrArg (Option.bind · _) (fmtA_encA _ _ f)) id
theorem mopI (f : FmtI) : Statement (.mopI f) :=
  raw rfl rfl (by simp only [encI, maj_packA]; decide) (by simp only [decodeRaw, encI, maj_packA, min_packA]; exact congrArg (Option.bind · _) (fmtI_encI _ _ f)) id
theorem mcnt (f : FmtA) : Statement (.mcnt f) :=
  raw rfl rfl (by simp only [encA, maj_packA]; decide) (by simp only [decodeRaw, encA, maj_packA, min_packA]; exact congrArg (Option.bind · _) (fmtA_encA _ _ f)) id
theorem mcntI (f : FmtI) : Statement (.mcntI f) :=
  raw rfl rfl (by simp only [encI, maj_packA]; decide) (by simp only [decodeRaw, encI, maj_packA, min_packA]; exact congrArg (Option.bind · _) (fmtI_encI _ _ f)) id
theorem mmov (f : FmtA) : Statement (.mmov f) :=
  raw rfl rfl (by simp only [encA, maj_packA]; decide) (by simp only [decodeRaw, encA, maj_packA, min_packA]; exact congrArg (Option.bind · _) (fmtA_encA _ _ f)) id
theorem mmovI (f : FmtI) : Statement (.mmovI f) :=
  raw rfl rfl (by simp only [encI, maj_packA]; decide) (by simp only [decodeRaw, encI, maj_packA, min_packA]; exact congrArg (Option.bind · _) (fmtI_encI _ _ f)) id
theorem cvt (f : FmtC) : Statement (.cvt f) :=
  raw rfl rfl (by simp only [encC, maj_packA]; decide) (by simp only [decodeRaw, encC, maj_packA, min_packA]; exact congrArg (Option.bind · _) (fmtC_encC _ _ f)) id
theorem pack (f : FmtC) : Statement (.pack f) :=
  raw rfl rfl (by simp only [encC, maj_packA]; decide) (by simp only [decodeRaw, encC, maj_packA, min_packA]; exact congrArg (Option.bind · _) (fmtC_encC _ _ f)) id
theorem qnt (f : FmtC) : Statement (.qnt f) :=
  core rfl rfl fun h => by
    have hf : fieldRules (.qnt f) = true := h
    have h4 : f.fam.toNat < 4 := qnt_fam f hf
    refine decodeWord_of_raw (by simp only [encC, maj_packA]; decide) ?_ hf
    simp only [decodeRaw, encC, maj_packA, min_packA]
    exact (congrArg (Option.bind · _) (fmtC_encC _ _ f)).trans (by simp [cvt?, h4])
theorem qntScl (f : FmtC) : Statement (.qntScl f) :=
  core rfl rfl fun h => by
    have hf : fieldRules (.qntScl f) = true := h
    have h4 : ¬ f.fam.toNat < 4 := qntScl_fam f hf
    refine decodeWord_of_raw (by simp only [encC, maj_packA]; decide) ?_ hf
    simp only [decodeRaw, encC, maj_packA, min_packA]
    exact (congrArg (Option.bind · _) (fmtC_encC _ _ f)).trans (by simp [cvt?, h4])
theorem dqnt (f : FmtC) : Statement (.dqnt f) :=
  raw rfl rfl (by simp only [encC, maj_packA]; decide) (by simp only [decodeRaw, encC, maj_packA, min_packA]; exact congrArg (Option.bind · _) (fmtC_encC _ _ f)) id
theorem xperm (f : FmtC) : Statement (.xperm f) :=
  raw rfl rfl (by simp only [encC, maj_packA]; decide) (by simp only [decodeRaw, encC, maj_packA, min_packA]; exact congrArg (Option.bind · _) (fmtC_encC _ _ f)) id
theorem ptld (f : FmtC) : Statement (.ptld f) :=
  raw rfl rfl (by simp only [encC, maj_packA]; decide) (by simp only [decodeRaw, encC, maj_packA, min_packA]; exact congrArg (Option.bind · _) (fmtC_encC _ _ f)) id
theorem shfl (f : FmtC) : Statement (.shfl f) :=
  raw rfl rfl (by simp only [encC, maj_packA]; decide) (by simp only [decodeRaw, encC, maj_packA, min_packA]; exact congrArg (Option.bind · _) (fmtC_encC _ _ f)) id
theorem red (f : FmtC) : Statement (.red f) :=
  raw rfl rfl (by simp only [encC, maj_packA]; decide) (by simp only [decodeRaw, encC, maj_packA, min_packA]; exact congrArg (Option.bind · _) (fmtC_encC _ _ f)) id
theorem scan (f : FmtC) : Statement (.scan f) :=
  raw rfl rfl (by simp only [encC, maj_packA]; decide) (by simp only [decodeRaw, encC, maj_packA, min_packA]; exact congrArg (Option.bind · _) (fmtC_encC _ _ f)) id
theorem rxa (n : BitVec 3) : Statement (.rxa n) :=
  raw rfl rfl (by simp only [encX, maj_packX]; decide) (by
    have h_n := n.isLt
    (simp [decodeRaw, decodeX, encX, maj_packX, splitX_packX, resX, decGroup, opdOf_code, scopeOf?, orderOf, partOf?, Scope.code, MOrder.code, TilePart.code, bit1]; try omega)) id
theorem rxr (n : BitVec 3) : Statement (.rxr n) :=
  raw rfl rfl (by simp only [encX, maj_packX]; decide) (by
    have h_n := n.isLt
    (simp [decodeRaw, decodeX, encX, maj_packX, splitX_packX, resX, decGroup, opdOf_code, scopeOf?, orderOf, partOf?, Scope.code, MOrder.code, TilePart.code, bit1]; try omega)) id
theorem srd (d : Opd) (sr : BitVec 8) : Statement (.srd d sr) :=
  raw rfl rfl (by simp only [encX, maj_packX]; decide) (by
    have h_sr := sr.isLt
    (simp [decodeRaw, decodeX, encX, maj_packX, splitX_packX, resX, decGroup, opdOf_code, scopeOf?, orderOf, partOf?, Scope.code, MOrder.code, TilePart.code, bit1]; try omega)) id
theorem swr (a : Opd) (sr : BitVec 8) : Statement (.swr a sr) :=
  raw rfl rfl (by simp only [encX, maj_packX]; decide) (by
    have h_sr := sr.isLt
    (simp [decodeRaw, decodeX, encX, maj_packX, splitX_packX, resX, decGroup, opdOf_code, scopeOf?, orderOf, partOf?, Scope.code, MOrder.code, TilePart.code, bit1]; try omega)) id
theorem ld (f : FmtM) : Statement (.ld f) :=
  raw rfl rfl (by simp only [encM, maj_packA]; decide) (by simp only [decodeRaw, encM, maj_packA, min_packA]; exact congrArg (Option.bind · _) (fmtM_encM _ f)) id
theorem st (f : FmtM) : Statement (.st f) :=
  raw rfl rfl (by simp only [encM, maj_packA]; decide) (by simp only [decodeRaw, encM, maj_packA, min_packA]; exact congrArg (Option.bind · _) (fmtM_encM _ f)) id
theorem ldsh (f : FmtM) : Statement (.ldsh f) :=
  raw rfl rfl (by simp only [encM, maj_packA]; decide) (by simp only [decodeRaw, encM, maj_packA, min_packA]; exact congrArg (Option.bind · _) (fmtM_encM _ f)) id
theorem stsh (f : FmtM) : Statement (.stsh f) :=
  raw rfl rfl (by simp only [encM, maj_packA]; decide) (by simp only [decodeRaw, encM, maj_packA, min_packA]; exact congrArg (Option.bind · _) (fmtM_encM _ f)) id
theorem ldc (f : FmtM) : Statement (.ldc f) :=
  raw rfl rfl (by simp only [encM, maj_packA]; decide) (by simp only [decodeRaw, encM, maj_packA, min_packA]; exact congrArg (Option.bind · _) (fmtM_encM _ f)) id
theorem prf (f : FmtM) : Statement (.prf f) :=
  raw rfl rfl (by simp only [encM, maj_packA]; decide) (by simp only [decodeRaw, encM, maj_packA, min_packA]; exact congrArg (Option.bind · _) (fmtM_encM _ f)) id
theorem cpy (a : Opd) : Statement (.cpy a) :=
  raw rfl rfl (by simp only [encX, maj_packX]; decide) (by
    (simp [decodeRaw, decodeX, encX, maj_packX, splitX_packX, resX, decCopy, opdOf_code, scopeOf?, orderOf, partOf?, Scope.code, MOrder.code, TilePart.code, bit1]; try omega)) id
theorem drain (d : Opd) (mem : BitVec 3) : Statement (.drain d mem) :=
  raw rfl rfl (by simp only [encX, maj_packX]; decide) (by
    have h_mem := mem.isLt
    (simp [decodeRaw, decodeX, encX, maj_packX, splitX_packX, resX, decCopy, opdOf_code, scopeOf?, orderOf, partOf?, Scope.code, MOrder.code, TilePart.code, bit1]; try omega)) id
theorem amo (f : FmtAt) : Statement (.amo f) :=
  raw rfl rfl (by simp only [encAt, maj_packA]; decide) (by simp only [decodeRaw, encAt, maj_packA, min_packA]; exact congrArg (Option.bind · _) (fmtAt_encAt _ f)) id
theorem cas (f : FmtAt) : Statement (.cas f) :=
  raw rfl rfl (by simp only [encAt, maj_packA]; decide) (by simp only [decodeRaw, encAt, maj_packA, min_packA]; exact congrArg (Option.bind · _) (fmtAt_encAt _ f)) id
theorem redo (f : FmtAt) : Statement (.redo f) :=
  raw rfl rfl (by simp only [encAt, maj_packA]; decide) (by simp only [decodeRaw, encAt, maj_packA, min_packA]; exact congrArg (Option.bind · _) (fmtAt_encAt _ f)) id
theorem fence (sc : Scope) (o : MOrder) : Statement (.fence sc o) :=
  raw rfl rfl (by simp only [encX, maj_packX]; decide) (by
    cases sc <;> cases o <;>
    (simp [decodeRaw, decodeX, encX, maj_packX, splitX_packX, resX, decFence, opdOf_code, scopeOf?, orderOf, partOf?, Scope.code, MOrder.code, TilePart.code, bit1]; try omega)) id
theorem rflush (d : Opd) : Statement (.rflush d) :=
  raw rfl rfl (by simp only [encX, maj_packX]; decide) (by
    (simp [decodeRaw, decodeX, encX, maj_packX, splitX_packX, resX, decFence, opdOf_code, scopeOf?, orderOf, partOf?, Scope.code, MOrder.code, TilePart.code, bit1]; try omega)) id
theorem tbegin : Statement (.tbegin) :=
  raw rfl rfl (by simp only [encX, maj_packX]; decide) (by
    (simp [decodeRaw, decodeX, encX, maj_packX, splitX_packX, resX, decTx, opdOf_code, scopeOf?, orderOf, partOf?, Scope.code, MOrder.code, TilePart.code, bit1]; try omega)) id
theorem tend : Statement (.tend) :=
  raw rfl rfl (by simp only [encX, maj_packX]; decide) (by
    (simp [decodeRaw, decodeX, encX, maj_packX, splitX_packX, resX, decTx, opdOf_code, scopeOf?, orderOf, partOf?, Scope.code, MOrder.code, TilePart.code, bit1]; try omega)) id
theorem retry : Statement (.retry) :=
  raw rfl rfl (by simp only [encX, maj_packX]; decide) (by
    (simp [decodeRaw, decodeX, encX, maj_packX, splitX_packX, resX, decTx, opdOf_code, scopeOf?, orderOf, partOf?, Scope.code, MOrder.code, TilePart.code, bit1]; try omega)) id
theorem otherwise (off : BitVec 27) : Statement (.otherwise off) :=
  raw rfl rfl (by simp only [encX, maj_packX]; decide) (by
    have h_off := off.isLt
    (simp [decodeRaw, decodeX, encX, maj_packX, splitX_packX, resX, decTx, opdOf_code, scopeOf?, orderOf, partOf?, Scope.code, MOrder.code, TilePart.code, bit1]; try omega)) id
theorem tabort : Statement (.tabort) :=
  raw rfl rfl (by simp only [encX, maj_packX]; decide) (by
    (simp [decodeRaw, decodeX, encX, maj_packX, splitX_packX, resX, decTx, opdOf_code, scopeOf?, orderOf, partOf?, Scope.code, MOrder.code, TilePart.code, bit1]; try omega)) id
theorem qbind (a : Opd) (q : BitVec 3) : Statement (.qbind a q) :=
  raw rfl rfl (by simp only [encX, maj_packX]; decide) (by
    have h_q := q.isLt
    (simp [decodeRaw, decodeX, encX, maj_packX, splitX_packX, resX, decQueue, opdOf_code, scopeOf?, orderOf, partOf?, Scope.code, MOrder.code, TilePart.code, bit1]; try omega)) id
theorem qbindFree (q : BitVec 3) : Statement (.qbindFree q) :=
  raw rfl rfl (by simp only [encX, maj_packX]; decide) (by
    have h_q := q.isLt
    (simp [decodeRaw, decodeX, encX, maj_packX, splitX_packX, resX, decQueue, opdOf_code, scopeOf?, orderOf, partOf?, Scope.code, MOrder.code, TilePart.code, bit1]; try omega)) id
theorem put (d : Opd) (a : Opd) (q : BitVec 3) : Statement (.put d a q) :=
  raw rfl rfl (by simp only [encX, maj_packX]; decide) (by
    have h_q := q.isLt
    (simp [decodeRaw, decodeX, encX, maj_packX, splitX_packX, resX, decQueue, opdOf_code, scopeOf?, orderOf, partOf?, Scope.code, MOrder.code, TilePart.code, bit1]; try omega)) id
theorem get (d : Opd) (q : BitVec 3) : Statement (.get d q) :=
  raw rfl rfl (by simp only [encX, maj_packX]; decide) (by
    have h_q := q.isLt
    (simp [decodeRaw, decodeX, encX, maj_packX, splitX_packX, resX, decQueue, opdOf_code, scopeOf?, orderOf, partOf?, Scope.code, MOrder.code, TilePart.code, bit1]; try omega)) id
theorem qcnt (d : Opd) (q : BitVec 3) : Statement (.qcnt d q) :=
  raw rfl rfl (by simp only [encX, maj_packX]; decide) (by
    have h_q := q.isLt
    (simp [decodeRaw, decodeX, encX, maj_packX, splitX_packX, resX, decQueue, opdOf_code, scopeOf?, orderOf, partOf?, Scope.code, MOrder.code, TilePart.code, bit1]; try omega)) id
theorem chload (d : Opd) (a : Opd) : Statement (.chload d a) :=
  raw rfl rfl (by simp only [encX, maj_packX]; decide) (by
    (simp [decodeRaw, decodeX, encX, maj_packX, splitX_packX, resX, decQueue, opdOf_code, scopeOf?, orderOf, partOf?, Scope.code, MOrder.code, TilePart.code, bit1]; try omega)) id
theorem chfold (d : Opd) : Statement (.chfold d) :=
  raw rfl rfl (by simp only [encX, maj_packX]; decide) (by
    (simp [decodeRaw, decodeX, encX, maj_packX, splitX_packX, resX, decQueue, opdOf_code, scopeOf?, orderOf, partOf?, Scope.code, MOrder.code, TilePart.code, bit1]; try omega)) id
theorem chspread (d : Opd) : Statement (.chspread d) :=
  raw rfl rfl (by simp only [encX, maj_packX]; decide) (by
    (simp [decodeRaw, decodeX, encX, maj_packX, splitX_packX, resX, decQueue, opdOf_code, scopeOf?, orderOf, partOf?, Scope.code, MOrder.code, TilePart.code, bit1]; try omega)) id
theorem binit (a : Opd) (n : BitVec 24) : Statement (.binit a n) :=
  raw rfl rfl (by simp only [encX, maj_packX]; decide) (by
    have h_n := n.isLt
    (simp [decodeRaw, decodeX, encX, maj_packX, splitX_packX, resX, decBarrier, opdOf_code, scopeOf?, orderOf, partOf?, Scope.code, MOrder.code, TilePart.code, bit1]; try omega)) id
theorem barv (r : Bool) (sc : Scope) (d : Opd) (a : Opd) (n : BitVec 16) : Statement (.barv r sc d a n) :=
  raw rfl rfl (by simp only [encX, maj_packX]; decide) (by
    have h_n := n.isLt
    cases r <;> cases sc <;>
    (simp [decodeRaw, decodeX, encX, maj_packX, splitX_packX, resX, decBarrier, opdOf_code, scopeOf?, orderOf, partOf?, Scope.code, MOrder.code, TilePart.code, bit1]; try omega)) id
theorem bwait (sc : Scope) (d : Opd) (a : Opd) : Statement (.bwait sc d a) :=
  raw rfl rfl (by simp only [encX, maj_packX]; decide) (by
    cases sc <;>
    (simp [decodeRaw, decodeX, encX, maj_packX, splitX_packX, resX, decBarrier, opdOf_code, scopeOf?, orderOf, partOf?, Scope.code, MOrder.code, TilePart.code, bit1]; try omega)) id
theorem btest (d : Opd) (a : Opd) : Statement (.btest d a) :=
  raw rfl rfl (by simp only [encX, maj_packX]; decide) (by
    (simp [decodeRaw, decodeX, encX, maj_packX, splitX_packX, resX, decBarrier, opdOf_code, scopeOf?, orderOf, partOf?, Scope.code, MOrder.code, TilePart.code, bit1]; try omega)) id
theorem mxacq (d : Opd) (z : BitVec 4) : Statement (.mxacq d z) :=
  raw rfl rfl (by simp only [encX, maj_packX]; decide) (by
    have h_z := z.isLt
    (simp [decodeRaw, decodeX, encX, maj_packX, splitX_packX, resX, decTile, opdOf_code, scopeOf?, orderOf, partOf?, Scope.code, MOrder.code, TilePart.code, bit1]; try omega)) id
theorem mxrel (drop : Bool) (z : BitVec 4) : Statement (.mxrel drop z) :=
  raw rfl rfl (by simp only [encX, maj_packX]; decide) (by
    have h_z := z.isLt
    cases drop <;>
    (simp [decodeRaw, decodeX, encX, maj_packX, splitX_packX, resX, decTile, opdOf_code, scopeOf?, orderOf, partOf?, Scope.code, MOrder.code, TilePart.code, bit1]; try omega)) id
theorem mxiss (d : Opd) (a : Opd) : Statement (.mxiss d a) :=
  raw rfl rfl (by simp only [encX, maj_packX]; decide) (by
    (simp [decodeRaw, decodeX, encX, maj_packX, splitX_packX, resX, decTile, opdOf_code, scopeOf?, orderOf, partOf?, Scope.code, MOrder.code, TilePart.code, bit1]; try omega)) id
theorem mxrank (d : Opd) (z : BitVec 4) : Statement (.mxrank d z) :=
  raw rfl rfl (by simp only [encX, maj_packX]; decide) (by
    have h_z := z.isLt
    (simp [decodeRaw, decodeX, encX, maj_packX, splitX_packX, resX, decTile, opdOf_code, scopeOf?, orderOf, partOf?, Scope.code, MOrder.code, TilePart.code, bit1]; try omega)) id
theorem mxrankSet (d : Opd) (a : Opd) (z : BitVec 4) : Statement (.mxrankSet d a z) :=
  raw rfl rfl (by simp only [encX, maj_packX]; decide) (by
    have h_z := z.isLt
    (simp [decodeRaw, decodeX, encX, maj_packX, splitX_packX, resX, decTile, opdOf_code, scopeOf?, orderOf, partOf?, Scope.code, MOrder.code, TilePart.code, bit1]; try omega)) id
theorem mxrd (p : TilePart) (d : Opd) (a : Opd) (z : BitVec 4) : Statement (.mxrd p d a z) :=
  raw rfl rfl (by simp only [encX, maj_packX]; decide) (by
    have h_z := z.isLt
    cases p <;>
    (simp [decodeRaw, decodeX, encX, maj_packX, splitX_packX, resX, decTile, opdOf_code, scopeOf?, orderOf, partOf?, Scope.code, MOrder.code, TilePart.code, bit1]; try omega)) id
theorem mxwr (p : TilePart) (d : Opd) (a : Opd) (z : BitVec 4) : Statement (.mxwr p d a z) :=
  raw rfl rfl (by simp only [encX, maj_packX]; decide) (by
    have h_z := z.isLt
    cases p <;>
    (simp [decodeRaw, decodeX, encX, maj_packX, splitX_packX, resX, decTile, opdOf_code, scopeOf?, orderOf, partOf?, Scope.code, MOrder.code, TilePart.code, bit1]; try omega)) id
theorem fcfg (nocache : Bool) (d : Opd) (a : Opd) (n : BitVec 7) : Statement (.fcfg nocache d a n) :=
  raw rfl rfl (by simp only [encX, maj_packX]; decide) (by
    have h_n := n.isLt
    cases nocache <;>
    (simp [decodeRaw, decodeX, encX, maj_packX, splitX_packX, resX, decFabric, opdOf_code, scopeOf?, orderOf, partOf?, Scope.code, MOrder.code, TilePart.code, bit1]; try omega)) id
theorem fcfgRestore (nocache : Bool) (d : Opd) (a : Opd) (n : BitVec 7) : Statement (.fcfgRestore nocache d a n) :=
  raw rfl rfl (by simp only [encX, maj_packX]; decide) (by
    have h_n := n.isLt
    cases nocache <;>
    (simp [decodeRaw, decodeX, encX, maj_packX, splitX_packX, resX, decFabric, opdOf_code, scopeOf?, orderOf, partOf?, Scope.code, MOrder.code, TilePart.code, bit1]; try omega)) id
theorem frun (d : Opd) (a : Opd) : Statement (.frun d a) :=
  raw rfl rfl (by simp only [encX, maj_packX]; decide) (by
    (simp [decodeRaw, decodeX, encX, maj_packX, splitX_packX, resX, decFabric, opdOf_code, scopeOf?, orderOf, partOf?, Scope.code, MOrder.code, TilePart.code, bit1]; try omega)) id
theorem fconst (d : Opd) (a : Opd) (n : BitVec 7) (i : BitVec 12) : Statement (.fconst d a n i) :=
  raw rfl rfl (by simp only [encX, maj_packX]; decide) (by
    have h := (i ++ n).isLt
    have h1 : ((i ++ n).setWidth 27).extractLsb' 0 7 = n ∧ ((i ++ n).setWidth 27).extractLsb' 7 12 = i := by
      simp (disch := omega) only [BitVec.extractLsb'_setWidth_of_le, extractLsb'_append_eq_of_le, extractLsb'_append_eq_of_add_le]
      simp
    simp [decodeRaw, decodeX, encX, maj_packX, splitX_packX, resX, decFabric, opdOf_code, h1]; omega) id
theorem fstopKill (d : Opd) (n : BitVec 7) : Statement (.fstopKill d n) :=
  raw rfl rfl (by simp only [encX, maj_packX]; decide) (by
    have h_n := n.isLt
    (simp [decodeRaw, decodeX, encX, maj_packX, splitX_packX, resX, decFabric, opdOf_code, scopeOf?, orderOf, partOf?, Scope.code, MOrder.code, TilePart.code, bit1]; try omega)) id
theorem fstopSave (d : Opd) (a : Opd) (n : BitVec 7) : Statement (.fstopSave d a n) :=
  raw rfl rfl (by simp only [encX, maj_packX]; decide) (by
    have h_n := n.isLt
    (simp [decodeRaw, decodeX, encX, maj_packX, splitX_packX, resX, decFabric, opdOf_code, scopeOf?, orderOf, partOf?, Scope.code, MOrder.code, TilePart.code, bit1]; try omega)) id
theorem fstopUnload (d : Opd) (n : BitVec 7) : Statement (.fstopUnload d n) :=
  raw rfl rfl (by simp only [encX, maj_packX]; decide) (by
    have h_n := n.isLt
    (simp [decodeRaw, decodeX, encX, maj_packX, splitX_packX, resX, decFabric, opdOf_code, scopeOf?, orderOf, partOf?, Scope.code, MOrder.code, TilePart.code, bit1]; try omega)) id
theorem fstat (d : Opd) (n : BitVec 7) : Statement (.fstat d n) :=
  raw rfl rfl (by simp only [encX, maj_packX]; decide) (by
    have h_n := n.isLt
    (simp [decodeRaw, decodeX, encX, maj_packX, splitX_packX, resX, decFabric, opdOf_code, scopeOf?, orderOf, partOf?, Scope.code, MOrder.code, TilePart.code, bit1]; try omega)) id
theorem launch (d : Opd) (a : Opd) (r : Opd) : Statement (.launch d a r) :=
  raw rfl rfl (by simp only [encX, maj_packX]; decide) (by
    have h_r := r.code.isLt
    (simp [decodeRaw, decodeX, encX, maj_packX, splitX_packX, resX, decLaunch, opdOf_code, scopeOf?, orderOf, partOf?, Scope.code, MOrder.code, TilePart.code, bit1]; try omega)) id
theorem coll (d : Opd) (a : Opd) : Statement (.coll d a) :=
  raw rfl rfl (by simp only [encX, maj_packX]; decide) (by
    (simp [decodeRaw, decodeX, encX, maj_packX, splitX_packX, resX, decLaunch, opdOf_code, scopeOf?, orderOf, partOf?, Scope.code, MOrder.code, TilePart.code, bit1]; try omega)) id
theorem eret (next : Bool) : Statement (.eret next) :=
  raw rfl rfl (by simp only [encX, maj_packX]; decide) (by
    cases next <;>
    (simp [decodeRaw, decodeX, encX, maj_packX, splitX_packX, resX, decSystem, opdOf_code, scopeOf?, orderOf, partOf?, Scope.code, MOrder.code, TilePart.code, bit1]; try omega)) id
theorem tlbiPage (d : Opd) (a : Opd) (c : BitVec 6) : Statement (.tlbiPage d a c) :=
  raw rfl rfl (by simp only [encX, maj_packX]; decide) (by
    have h_c := c.isLt
    (simp [decodeRaw, decodeX, encX, maj_packX, splitX_packX, resX, decSystem, opdOf_code, scopeOf?, orderOf, partOf?, Scope.code, MOrder.code, TilePart.code, bit1]; try omega)) id
theorem tlbiCtx (d : Opd) (c : BitVec 6) : Statement (.tlbiCtx d c) :=
  raw rfl rfl (by simp only [encX, maj_packX]; decide) (by
    have h_c := c.isLt
    (simp [decodeRaw, decodeX, encX, maj_packX, splitX_packX, resX, decSystem, opdOf_code, scopeOf?, orderOf, partOf?, Scope.code, MOrder.code, TilePart.code, bit1]; try omega)) id
theorem tlbiAll (d : Opd) : Statement (.tlbiAll d) :=
  raw rfl rfl (by simp only [encX, maj_packX]; decide) (by
    (simp [decodeRaw, decodeX, encX, maj_packX, splitX_packX, resX, decSystem, opdOf_code, scopeOf?, orderOf, partOf?, Scope.code, MOrder.code, TilePart.code, bit1]; try omega)) id
theorem bra (msk : Msk) (prio : BitVec 12) (off : BitVec 33) : Statement (.bra msk prio off) :=
  raw rfl rfl (by simp only [encB, maj_packB]; decide) (by
    have h_prio := prio.isLt
    have h_off := off.isLt
    (simp [decodeRaw, decodeB, encB, maj_packB, splitB_packB, mskOf_code, opdOf_code, scopeOf?, orderOf, partOf?, Scope.code, MOrder.code, TilePart.code, bit1]; try omega)) id
theorem brm (cond : BitVec 2) (msk : Msk) (prio : BitVec 12) (off : BitVec 33) : Statement (.brm cond msk prio off) :=
  raw rfl rfl (by simp only [encB, maj_packB]; decide) (by
    have h_cond := cond.isLt
    have h_prio := prio.isLt
    have h_off := off.isLt
    (simp [decodeRaw, decodeB, encB, maj_packB, splitB_packB, mskOf_code, opdOf_code, scopeOf?, orderOf, partOf?, Scope.code, MOrder.code, TilePart.code, bit1]; try omega)) id
theorem call (msk : Msk) (prio : BitVec 12) (off : BitVec 33) : Statement (.call msk prio off) :=
  raw rfl rfl (by simp only [encB, maj_packB]; decide) (by
    have h_prio := prio.isLt
    have h_off := off.isLt
    (simp [decodeRaw, decodeB, encB, maj_packB, splitB_packB, mskOf_code, opdOf_code, scopeOf?, orderOf, partOf?, Scope.code, MOrder.code, TilePart.code, bit1]; try omega)) id
theorem calli (msk : Msk) (r : Opd) : Statement (.calli msk r) :=
  raw rfl rfl (by simp only [encB, maj_packB]; decide) (by
    have h_r := r.code.isLt
    (simp [decodeRaw, decodeB, encB, maj_packB, splitB_packB, mskOf_code, opdOf_code, scopeOf?, orderOf, partOf?, Scope.code, MOrder.code, TilePart.code, bit1]; try omega)) id
theorem ret (msk : Msk) : Statement (.ret msk) :=
  raw rfl rfl (by simp only [encB, maj_packB]; decide) (by
    (simp [decodeRaw, decodeB, encB, maj_packB, splitB_packB, mskOf_code, opdOf_code, scopeOf?, orderOf, partOf?, Scope.code, MOrder.code, TilePart.code, bit1]; try omega)) id
theorem exit (msk : Msk) : Statement (.exit msk) :=
  raw rfl rfl (by simp only [encB, maj_packB]; decide) (by
    (simp [decodeRaw, decodeB, encB, maj_packB, splitB_packB, mskOf_code, opdOf_code, scopeOf?, orderOf, partOf?, Scope.code, MOrder.code, TilePart.code, bit1]; try omega)) id
theorem yield (msk : Msk) : Statement (.yield msk) :=
  raw rfl rfl (by simp only [encB, maj_packB]; decide) (by
    (simp [decodeRaw, decodeB, encB, maj_packB, splitB_packB, mskOf_code, opdOf_code, scopeOf?, orderOf, partOf?, Scope.code, MOrder.code, TilePart.code, bit1]; try omega)) id
theorem trap (msk : Msk) (n : BitVec 33) : Statement (.trap msk n) :=
  raw rfl rfl (by simp only [encB, maj_packB]; decide) (by
    have h_n := n.isLt
    (simp [decodeRaw, decodeB, encB, maj_packB, splitB_packB, mskOf_code, opdOf_code, scopeOf?, orderOf, partOf?, Scope.code, MOrder.code, TilePart.code, bit1]; try omega)) id
theorem brk (msk : Msk) (n : BitVec 33) : Statement (.brk msk n) :=
  raw rfl rfl (by simp only [encB, maj_packB]; decide) (by
    have h_n := n.isLt
    (simp [decodeRaw, decodeB, encB, maj_packB, splitB_packB, mskOf_code, opdOf_code, scopeOf?, orderOf, partOf?, Scope.code, MOrder.code, TilePart.code, bit1]; try omega)) id
theorem trl (y : Bool) (f : Bool) (q : Bool) (prio : BitVec 12) (n0 : Option Opd) (n1 : Option Opd) (n2 : Option Opd) (n3 : Option Opd) : Statement (.trl y f q prio n0 n1 n2 n3) :=
  core rfl rfl fun h => by
    have hn : nameOk n0 = true ∧ nameOk n1 = true ∧ nameOk n2 = true ∧ nameOk n3 = true := by
      simpa [WellFormed, Instr.wf, Bool.and_eq_true, and_assoc] using h
    refine decodeWord_of_raw (by simp only [maj_packT]; decide) ?_ rfl
    simp [decodeRaw, decodeT, maj_packT, splitT_packT, nameOf_code, hn]
    exact ⟨bit1_eq y, bit1_eq f, bit1_eq q⟩
theorem unassignedWord (w : BitVec 64) : Statement (.unassignedWord w) :=
  core rfl rfl fun h => by simpa [WellFormed, Instr.wf] using h
theorem illegalWord (w : BitVec 64) : Statement (.illegalWord w) :=
  core rfl rfl fun h => by
    have h0 : w.extractLsb' 57 7 = 0 := by simpa [WellFormed, Instr.wf] using h
    unfold decodeWord
    rw [if_pos h0]
theorem seqLi (rd : BitVec 4) (imm : BitVec 22) : Statement (.seqLi rd imm) :=
  seqr rfl rfl fun h => by
    simp (disch := omega) only [decodeSeq, extractLsb'_append_eq_of_le, extractLsb'_append_eq_of_add_le]
    simp
theorem seqAdd (rd : BitVec 4) (ra : BitVec 4) (rb : BitVec 4) : Statement (.seqAdd rd ra rb) :=
  seqr rfl rfl fun h => by
    simp (disch := omega) only [decodeSeq, extractLsb'_append_eq_of_le, extractLsb'_append_eq_of_add_le]
    simp
theorem seqAddi (rd : BitVec 4) (ra : BitVec 4) (imm : BitVec 18) : Statement (.seqAddi rd ra imm) :=
  seqr rfl rfl fun h => by
    simp (disch := omega) only [decodeSeq, extractLsb'_append_eq_of_le, extractLsb'_append_eq_of_add_le]
    simp
theorem seqSub (rd : BitVec 4) (ra : BitVec 4) (rb : BitVec 4) : Statement (.seqSub rd ra rb) :=
  seqr rfl rfl fun h => by
    simp (disch := omega) only [decodeSeq, extractLsb'_append_eq_of_le, extractLsb'_append_eq_of_add_le]
    simp
theorem seqShl (rd : BitVec 4) (ra : BitVec 4) (rb : BitVec 4) : Statement (.seqShl rd ra rb) :=
  seqr rfl rfl fun h => by
    simp (disch := omega) only [decodeSeq, extractLsb'_append_eq_of_le, extractLsb'_append_eq_of_add_le]
    simp
theorem seqShr (rd : BitVec 4) (ra : BitVec 4) (rb : BitVec 4) : Statement (.seqShr rd ra rb) :=
  seqr rfl rfl fun h => by
    simp (disch := omega) only [decodeSeq, extractLsb'_append_eq_of_le, extractLsb'_append_eq_of_add_le]
    simp
theorem seqAnd (rd : BitVec 4) (ra : BitVec 4) (rb : BitVec 4) : Statement (.seqAnd rd ra rb) :=
  seqr rfl rfl fun h => by
    simp (disch := omega) only [decodeSeq, extractLsb'_append_eq_of_le, extractLsb'_append_eq_of_add_le]
    simp
theorem seqOr (rd : BitVec 4) (ra : BitVec 4) (rb : BitVec 4) : Statement (.seqOr rd ra rb) :=
  seqr rfl rfl fun h => by
    simp (disch := omega) only [decodeSeq, extractLsb'_append_eq_of_le, extractLsb'_append_eq_of_add_le]
    simp
theorem seqBeq (ra : BitVec 4) (rb : BitVec 4) (off : BitVec 18) : Statement (.seqBeq ra rb off) :=
  seqr rfl rfl fun h => by
    simp (disch := omega) only [decodeSeq, extractLsb'_append_eq_of_le, extractLsb'_append_eq_of_add_le]
    simp
theorem seqBne (ra : BitVec 4) (rb : BitVec 4) (off : BitVec 18) : Statement (.seqBne ra rb off) :=
  seqr rfl rfl fun h => by
    simp (disch := omega) only [decodeSeq, extractLsb'_append_eq_of_le, extractLsb'_append_eq_of_add_le]
    simp
theorem seqBlt (ra : BitVec 4) (rb : BitVec 4) (off : BitVec 18) : Statement (.seqBlt ra rb off) :=
  seqr rfl rfl fun h => by
    simp (disch := omega) only [decodeSeq, extractLsb'_append_eq_of_le, extractLsb'_append_eq_of_add_le]
    simp
theorem seqJ (off : BitVec 26) : Statement (.seqJ off) :=
  seqr rfl rfl fun h => by
    simp (disch := omega) only [decodeSeq, extractLsb'_append_eq_of_le, extractLsb'_append_eq_of_add_le]
    simp
theorem seqArg (rd : BitVec 4) (n : BitVec 6) : Statement (.seqArg rd n) :=
  seqr rfl rfl fun h => by
    simp (disch := omega) only [decodeSeq, extractLsb'_append_eq_of_le, extractLsb'_append_eq_of_add_le]
    simp
theorem seqRec (ra : BitVec 4) (rb : BitVec 4) (ovr : Bool) : Statement (.seqRec ra rb ovr) :=
  seqr rfl rfl fun h => by
    simp (disch := omega) only [decodeSeq, extractLsb'_append_eq_of_le, extractLsb'_append_eq_of_add_le]
    cases ovr <;> simp [bit1]
theorem seqPwait (ra : BitVec 4) : Statement (.seqPwait ra) :=
  seqr rfl rfl fun h => by
    simp (disch := omega) only [decodeSeq, extractLsb'_append_eq_of_le, extractLsb'_append_eq_of_add_le]
    simp
theorem seqCnst (ra : BitVec 4) (i : BitVec 12) : Statement (.seqCnst ra i) :=
  seqr rfl rfl fun h => by
    simp (disch := omega) only [decodeSeq, extractLsb'_append_eq_of_le, extractLsb'_append_eq_of_add_le]
    simp
theorem seqArrv (ra : BitVec 4) (n : BitVec 16) : Statement (.seqArrv ra n) :=
  seqr rfl rfl fun h => by
    have h0 : n ≠ 0 := by simpa [WellFormed, Instr.wf] using h
    simp (disch := omega) only [decodeSeq, extractLsb'_append_eq_of_le, extractLsb'_append_eq_of_add_le]
    simpa using h0
theorem seqEvt (ra : BitVec 4) : Statement (.seqEvt ra) :=
  seqr rfl rfl fun h => by
    simp (disch := omega) only [decodeSeq, extractLsb'_append_eq_of_le, extractLsb'_append_eq_of_add_le]
    simp
theorem seqHalt : Statement (.seqHalt) :=
  seqr rfl rfl fun h => by
    simp (disch := omega) only [decodeSeq, extractLsb'_append_eq_of_le, extractLsb'_append_eq_of_add_le]
    simp
theorem seqWaitEnd (cmp : Nat) : Statement (.seqWaitEnd cmp) :=
  event rfl rfl
theorem classVResultReturn (g : Nat) (tag : Nat) : Statement (.classVResultReturn g tag) :=
  event rfl rfl
theorem placement (g : Nat) : Statement (.placement g) :=
  event rfl rfl
theorem selection (g : Nat) : Statement (.selection g) :=
  event rfl rfl
theorem wake (g : Nat) : Statement (.wake g) :=
  event rfl rfl
theorem txConflict (g : Nat) : Statement (.txConflict g) :=
  event rfl rfl
theorem compatRound (team : Nat) : Statement (.compatRound team) :=
  event rfl rfl
theorem budgetExhaustion (g : Nat) : Statement (.budgetExhaustion g) :=
  event rfl rfl
theorem groupStop (g : Nat) : Statement (.groupStop g) :=
  event rfl rfl
theorem ywaitExpiry (ctx : Nat) : Statement (.ywaitExpiry ctx) :=
  event rfl rfl
theorem groupRestore (ctx : Nat) (rec : Nat) (g : Nat) : Statement (.groupRestore ctx rec g) :=
  event rfl rfl
theorem copyComplete (id : Nat) : Statement (.copyComplete id) :=
  event rfl rfl
theorem partialStaged (idx : Nat) : Statement (.partialStaged idx) :=
  event rfl rfl
theorem kernelSettled (grid : BitVec 64) : Statement (.kernelSettled grid) :=
  event rfl rfl
theorem barrierArrival (pa : Nat) (n : Nat) (src : BitVec 8) : Statement (.barrierArrival pa n src) :=
  event rfl rfl
theorem chainFold (id : Nat) : Statement (.chainFold id) :=
  event rfl rfl
theorem chainSpread (id : Nat) : Statement (.chainSpread id) :=
  event rfl rfl
theorem tileZero (core : Nat) : Statement (.tileZero core) :=
  event rfl rfl
theorem tileMma (core : Nat) : Statement (.tileMma core) :=
  event rfl rfl
theorem tileAdd (core : Nat) : Statement (.tileAdd core) :=
  event rfl rfl
theorem tileMul (core : Nat) : Statement (.tileMul core) :=
  event rfl rfl
theorem tileRcmp (core : Nat) : Statement (.tileRcmp core) :=
  event rfl rfl
theorem tileDns (core : Nat) : Statement (.tileDns core) :=
  event rfl rfl
theorem tileLdt (core : Nat) : Statement (.tileLdt core) :=
  event rfl rfl
theorem tileStt (core : Nat) : Statement (.tileStt core) :=
  event rfl rfl
theorem tileScl (core : Nat) : Statement (.tileScl core) :=
  event rfl rfl
theorem engineEntryReentry (team : Nat) : Statement (.engineEntryReentry team) :=
  event rfl rfl
theorem configLoadComplete (cmp : Nat) : Statement (.configLoadComplete cmp) :=
  event rfl rfl
theorem compartmentRestoreDone (cmp : Nat) : Statement (.compartmentRestoreDone cmp) :=
  event rfl rfl
theorem saveComplete (cmp : Nat) : Statement (.saveComplete cmp) :=
  event rfl rfl
theorem unitFire (cmp : Nat) (node : Nat) : Statement (.unitFire cmp node) :=
  event rfl rfl
theorem islandDot (cmp : Nat) (node : Nat) : Statement (.islandDot cmp node) :=
  event rfl rfl
theorem stallTimeout (cmp : Nat) : Statement (.stallTimeout cmp) :=
  event rfl rfl
theorem sluiceReadElement (cmp : Nat) (slc : Nat) : Statement (.sluiceReadElement cmp slc) :=
  event rfl rfl
theorem sluiceWriteToken (cmp : Nat) (slc : Nat) : Statement (.sluiceWriteToken cmp slc) :=
  event rfl rfl
theorem graphCompletion (cmp : Nat) : Statement (.graphCompletion cmp) :=
  event rfl rfl
theorem slResume (stack : Nat) : Statement (.slResume stack) :=
  event rfl rfl
theorem faultRecordPush (ctx : Nat) : Statement (.faultRecordPush ctx) :=
  event rfl rfl
theorem dispatcherPop (ctx : Nat) (lq : BitVec 2) : Statement (.dispatcherPop ctx lq) :=
  event rfl rfl
theorem clusterPlacement (grid : BitVec 64) (die : BitVec 2) (slot : Nat) : Statement (.clusterPlacement grid die slot) :=
  event rfl rfl
theorem steal (grid : BitVec 64) (die : BitVec 2) (slot : Option Nat) : Statement (.steal grid die slot) :=
  event rfl rfl
theorem homeService (stack : Nat) : Statement (.homeService stack) :=
  event rfl rfl
theorem latencyBoundExpiry (stack : Nat) : Statement (.latencyBoundExpiry stack) :=
  event rfl rfl
theorem contextSaved (ctx : Nat) : Statement (.contextSaved ctx) :=
  event rfl rfl
theorem contextRestored (ctx : Nat) : Statement (.contextRestored ctx) :=
  event rfl rfl
theorem contextEnded (ctx : Nat) : Statement (.contextEnded ctx) :=
  event rfl rfl
theorem grant (stack : Nat) : Statement (.grant stack) :=
  event rfl rfl
theorem withdraw (stack : Nat) : Statement (.withdraw stack) :=
  event rfl rfl
theorem cpStorePlain (stack : Nat) : Statement (.cpStorePlain stack) :=
  event rfl rfl
theorem cpStoreCompressed (stack : Nat) : Statement (.cpStoreCompressed stack) :=
  event rfl rfl
theorem linkEnable (n : BitVec 5) : Statement (.linkEnable n) :=
  event rfl rfl
theorem linkDisable (n : BitVec 5) : Statement (.linkDisable n) :=
  event rfl rfl
theorem linkTrained (n : BitVec 5) (lanes : Nat) (peer : BitVec 16) : Statement (.linkTrained n lanes peer) :=
  event rfl rfl
theorem trainingFailed (n : BitVec 5) : Statement (.trainingFailed n) :=
  event rfl rfl
theorem errorBurst (n : BitVec 5) : Statement (.errorBurst n) :=
  event rfl rfl
theorem flitReceive (n : BitVec 5) (flit : List Byte) : Statement (.flitReceive n flit) :=
  event rfl rfl
theorem nakReplay (n : BitVec 5) (seq : BitVec 12) : Statement (.nakReplay n seq) :=
  event rfl rfl
theorem transferComplete (id : Nat) (outcome : XferEnd) (fresh : List Nat) : Statement (.transferComplete id outcome fresh) :=
  event rfl rfl
theorem peerAccess (n : BitVec 5) (op : PeerOp) : Statement (.peerAccess n op) :=
  event rfl rfl
theorem collRankComplete (id : Nat) : Statement (.collRankComplete id) :=
  event rfl rfl
theorem frameReceive (port : BitVec 2) (frame : List Byte) : Statement (.frameReceive port frame) :=
  event rfl rfl
theorem netTransmit (port : BitVec 2) : Statement (.netTransmit port) :=
  event rfl rfl
theorem ncBindWrite (b : BitVec 6) (val : BitVec 64) : Statement (.ncBindWrite b val) :=
  event rfl rfl
theorem hostMemAccess (op : HostOp) : Statement (.hostMemAccess op) :=
  event rfl rfl
theorem mctpRegisterAccess (pa : Nat) (val : Option (BitVec 64)) : Statement (.mctpRegisterAccess pa val) :=
  event rfl rfl
theorem statusClear (ag : RegAgent) (pa : Nat) (val : BitVec 64) : Statement (.statusClear ag pa val) :=
  event rfl rfl
theorem registerWrite (ag : RegAgent) (pa : Nat) (val : BitVec 64) : Statement (.registerWrite ag pa val) :=
  event rfl rfl
theorem pldmFirmwareUpdate (image : List Byte) (ver : Nat) (auth : List Byte × List Byte) : Statement (.pldmFirmwareUpdate image ver auth) :=
  event rfl rfl
theorem getMeasurements (idx : Nat) : Statement (.getMeasurements idx) :=
  event rfl rfl
theorem uncorrectableError (pl : ErrPlace) : Statement (.uncorrectableError pl) :=
  event rfl rfl
theorem correctedError (stack : Nat) : Statement (.correctedError stack) :=
  event rfl rfl
theorem securityAlarm (which : BitVec 3) : Statement (.securityAlarm which) :=
  event rfl rfl
theorem securedSession (ag : RegAgent) (key : List Byte) : Statement (.securedSession ag key) :=
  event rfl rfl
theorem ctxCreate : Statement (.ctxCreate) :=
  event rfl rfl
theorem ctxHalt : Statement (.ctxHalt) :=
  event rfl rfl
theorem ctxResume : Statement (.ctxResume) :=
  event rfl rfl
theorem ctxSave : Statement (.ctxSave) :=
  event rfl rfl
theorem ctxRestore : Statement (.ctxRestore) :=
  event rfl rfl
theorem ctxEnd : Statement (.ctxEnd) :=
  event rfl rfl
theorem trapCmdResume : Statement (.trapCmdResume) :=
  event rfl rfl
theorem trapCmdSkip : Statement (.trapCmdSkip) :=
  event rfl rfl
theorem trapCmdReflect : Statement (.trapCmdReflect) :=
  event rfl rfl
theorem trapCmdTerminate : Statement (.trapCmdTerminate) :=
  event rfl rfl
theorem keyLoad : Statement (.keyLoad) :=
  event rfl rfl
theorem keyLoadPlain : Statement (.keyLoadPlain) :=
  event rfl rfl
theorem keyErase : Statement (.keyErase) :=
  event rfl rfl
theorem pldmSensors : Statement (.pldmSensors) :=
  event rfl rfl
theorem coldReset : Statement (.coldReset) :=
  event rfl rfl
theorem functionLevelReset : Statement (.functionLevelReset) :=
  event rfl rfl

end Sys2Proof.Laws.Encoding
end

