-- ==== Sys2Proof/Tests/Slice0.lean ====
section
/-!
SUPPORT. Tests: ill-formed terms that the checks refuse, words written out from the encodings of the spec, single steps with results worked out by
hand from the spec, and for every statement of Obligations.lean a state and operands that meet its hypotheses.
-/

namespace Sys2Proof.Machine

set_option Elab.async false

-- ===== ill-formed terms =====

/-- A format-A, format-C and format-I term whose fields are all the ones that encode as zero. -/
def zA : FmtA := ⟨.i64, .all, .v 0, .v 0, .v 0, .v 0, .rne, false, .elem, 0⟩
def zC : FmtC := ⟨.i64, .all, .v 0, .v 0, .v 0, 0, .rne, false, 0⟩
def zI : FmtI := ⟨.i64, .all, .v 0, .v 0, 0⟩
def zM : FmtM := ⟨0, .all, .v 0, .v 0, .grp, .rlx, 0, 0⟩
def zT : FmtAt := ⟨0, .all, .v 0, .v 0, .grp, .rlx, 0, 0⟩

/-- The integer family refuses a float shape, an unused C, a rounding, an unused B, an unused saturate, a family code beyond `.uns`, BFX's narrow
shapes, and a format-I immediate that is not read (R54, R63, R107, R111). -/
theorem test_wf_integer : [Instr.iadd { zA with shp := .f64 }, .iadd { zA with c := .v 1 }, .isub { zA with rnd := .rz }, .imul { zA with fam := 2 },
    .imulh { zA with sat := true }, .imad { zA with fam := 4 }, .imin { zA with sat := true }, .imax { zA with fam := 2 }, .iabs { zA with b := .v 1 },
    .iabs { zA with fam := 1 }, .and { zA with fam := 1 }, .or { zA with sat := true }, .xor { zA with c := .v 1 }, .andn { zA with fam := 1 },
    .shl { zA with fam := 2 }, .shr { zA with sat := true }, .sar { zA with fam := 1 }, .popc { zA with b := .v 1 }, .clz { zA with sat := true },
    .bfx { zA with shp := .i16x4 }, .bfi { zA with shp := .i8x8 }, .lea { zA with rnd := .dyn }, .iaddI { zI with shp := .f32x2 },
    .imadI { zI with shp := .ts8x8 }, .iabsI { zI with imm := 1 }, .popcI { zI with imm := 1 }, .clzI { zI with shp := .f64 }, .bfxI { zI with shp := .i4x16 },
    .bfiI { zI with shp := .i16x4 }].map Instr.wf = List.replicate 29 false := by decide +kernel

/-- The floating-point family refuses integer shapes, an unused C or B, and a family code (R107, R113). -/
theorem test_wf_float : ([Instr.fadd zA, .fadd { zA with shp := .f64, c := .v 1 }, .ffma { zA with shp := .f64, fam := 1 }, .fabs { zA with shp := .f64, b := .v 1 },
    .frcp { zA with shp := .e4m3x8 }, .faddI zI, .fabsI { zI with shp := .f64, imm := 1 }, .ftanhI { zI with shp := .i64 }].map Instr.wf =
    List.replicate 8 false) := by decide +kernel

/-- The compare and mask family (R116 to R120). -/
theorem test_wf_compare : [Instr.icmp { zA with shp := .f64 }, .icmp { zA with sat := true }, .fcmp zA, .sel { zA with c := .v 1 }, .mop { zA with shp := .i32x2 },
    .mop { zA with fam := 5 }, .mop { zA with fam := 4, b := .m 1 }, .mcnt { zA with fam := 3 }, .mcnt { zA with rt := .bcb }, .mmov { zA with fam := 4 },
    .icmpI { zI with shp := .f64 }, .fcmpI zI, .mopI { zI with imm := 0x5000000 }, .mopI { zI with imm := 0x4000001 }, .mopI { zI with shp := .f64 },
    .mcntI { zI with imm := 0x3000000 }, .mcntI { zI with imm := 1 }, .mmovI { zI with imm := 0x4000000 }, .mmovI { zI with imm := 1 }].map Instr.wf =
    List.replicate 19 false := by decide +kernel

/-- Conversions and the cross-lane family: source shapes, the part rule, element shapes, block lengths and unused fields (R121 to R131). -/
theorem test_wf_conversion : [Instr.cvt { zC with ctl := 0x80 }, .cvt { zC with ctl := 13 }, .cvt { zC with shp := .f16x4, ctl := 0x45 }, .cvt { zC with ctl := 4 },
    .cvt { zC with b := .v 1 }, .cvt { zC with fam := 4 }, .pack zC, .pack { zC with shp := .f16x4, ctl := 0x16 }, .pack { zC with shp := .f16x4, ctl := 6, fam := 4 },
    .qnt { zC with shp := .f16x4, ctl := 6 }, .qnt { zC with shp := .e4m3x8, ctl := 1 }, .qnt { zC with shp := .e4m3x8, ctl := 6, fam := 1 },
    .qntScl { zC with shp := .e4m3x8, ctl := 0x16, fam := 4 }, .qntScl { zC with shp := .e4m3x8, ctl := 6, fam := 4, b := .v 1 },
    .qntScl { zC with shp := .e4m3x8, ctl := 6, fam := 4, rnd := .rz }, .qntScl { zC with shp := .e4m3x8, ctl := 6, fam := 4, sat := true },
    .qntScl { zC with shp := .e4m3x8, ctl := 6, fam := 7 }, .qntScl { zC with shp := .e4m3x8, ctl := 5, fam := 6 },
    .dqnt { zC with shp := .f32x2, ctl := 6 }, .dqnt { zC with shp := .i32x2, ctl := 9 },
    .xperm { zC with ctl := 1 }, .xperm { zC with rnd := .rz }, .xperm { zC with sat := true }, .xperm { zC with fam := 4, shp := .i8x8, b := .v 1 },
    .xperm { zC with fam := 4 }, .ptld { zC with d := .v 1 }, .ptld { zC with shp := .i8x8 }, .ptld { zC with fam := 4 }, .shfl { zC with fam := 5 },
    .shfl { zC with ctl := 1 }, .red { zC with shp := .e4m3x8 }, .red { zC with b := .v 1 }, .red { zC with rnd := .rs }, .scan { zC with ctl := 4 },
    .scan { zC with fam := 6 }, .scan { zC with shp := .f64, fam := 3 }].map Instr.wf = List.replicate 36 false := by decide +kernel

/-- Group, memory, copy, atomic, ordering and barrier words, the trailer's names, words that are none, and ARRV (R58, R74, R84, R86, R151 to R157, R187,
R192, R230, R333). -/
theorem test_wf_others : [Instr.rxa 0, .srd (.v 0) 0x25, .swr (.s 0) 0x25, .ld { zM with shp := 7 }, .ld { zM with order := .rel }, .st { zM with shp := 4 },
    .st { zM with order := .acq }, .ldsh { zM with scope := .dev }, .ldsh { zM with ch := 1 }, .stsh { zM with shp := 4 }, .stsh { zM with order := .ar },
    .ldc { zM with scope := .team }, .ldc { zM with order := .acq }, .prf { zM with shp := 1 }, .prf { zM with ch := 3 }, .prf { zM with d := .v 1 },
    .drain (.s 0) 0, .amo { zT with op := 9 }, .amo { zT with shp := 5, op := 2 }, .amo { zT with op := 12 }, .amo { zT with shp := 2 }, .cas { zT with shp := 5 },
    .cas { zT with op := 1 }, .redo { zT with op := 1 }, .redo { zT with scope := .dev }, .redo { zT with order := .acq }, .fence .dev .rlx, .binit (.s 0) 0,
    .barv false .grp (.v 0) (.s 0) 1, .barv false .dev (.v 0) (.s 0) 0, .barv false .dev (.v 1) (.s 0) 1, .bwait .grp (.s 0) (.s 0),
    .trl false false false 0 (some (.ind 63)) none none none, .trl false false false 0 none none none (some (.ind 63)), .unassignedWord 0x0200003008080000,
    .unassignedWord 1, .illegalWord 0x0200003008080000, .seqArrv 1 0].map Instr.wf = List.replicate 38 false := by decide +kernel

-- ===== decoding =====

/-- The integer family (R53, R73, R111): i32x2, prefix (m1), D v3, A s5, B v7, routing .bcb. -/
theorem test_decode_integer :
    let f : FmtA := ⟨.i32x2, .p1, .v 3, .s 5, .v 7, .v 0, .rne, false, .bcb, 0⟩
    [0x02012038281C0028, 0x02112038281C0008, 0x02212038281C0008, 0x02312038281C0008, 0x02412038281E1208, 0x02512038281C0009,
      0x02612038281C0008, 0x0271203828000008, 0x02812038281C0008, 0x02912038281C0008, 0x02A12038281C0008, 0x02B12038281C0008,
      0x02C12038281C0028, 0x02D12038281C0008, 0x02E12038281C0008, 0x02F1203828000008, 0x0301203828000008, 0x03112038281C0009,
      0x03212038281E1208, 0x03312038281C000B].map decodeWord =
    [.iadd { f with sat := true }, .isub f, .imul f, .imulh f, .imad { f with c := .s 9 }, .imin { f with fam := 1 }, .imax f,
      .iabs { f with b := .v 0 }, .and f, .or f, .xor f, .andn f, .shl { f with sat := true }, .shr f, .sar f, .popc { f with b := .v 0 },
      .clz { f with b := .v 0 }, .bfx { f with fam := 1 }, .bfi { f with c := .s 9 }, .lea { f with fam := 3 }] := by decide +kernel

/-- Its format-I words (R54): i64, prefix (!m2), D k2, A s63, a negative immediate. -/
theorem test_decode_integer_immediate :
    let i : FmtI := ⟨.i64, .n2, .k 2, .s 63, 0x4000123⟩
    [0x0400D429FC000123, 0x0410D429FC000123, 0x0420D429FC000123, 0x0430D429FC000123, 0x0440D429FC000123, 0x0450D429FC000123,
      0x0460D429FC000123, 0x0470D429F8000000, 0x0480D429FC000123, 0x0490D429FC000123, 0x04A0D429FC000123, 0x04B0D429FC000123,
      0x04C0D429FC000123, 0x04D0D429FC000123, 0x04E0D429FC000123, 0x04F0D429F8000000, 0x0500D429F8000000, 0x0510D429FC000123,
      0x0520D429FC000123, 0x0530D429FC000123].map decodeWord =
    [.iaddI i, .isubI i, .imulI i, .imulhI i, .imadI i, .iminI i, .imaxI i, .iabsI { i with imm := 0 }, .andI i, .orI i, .xorI i, .andnI i,
      .shlI i, .shrI i, .sarI i, .popcI { i with imm := 0 }, .clzI { i with imm := 0 }, .bfxI i, .bfiI i, .leaI i] := by decide +kernel

/-- The floating-point family (R73, R113): f16x4, D v128, A v[s5], B the constant π, rounding rs, .sat, routing .bca. -/
theorem test_decode_float :
    let f : FmtA := ⟨.f16x4, .all, .v 128, .ind 5, .fc 13, .v 0, .rs, true, .bca, 0⟩
    [0x1007080E2DF40170, 0x1017080E2DF40170, 0x1027080E2DF40170, 0x1037080E2DF5FF70, 0x1047080E2DF40170, 0x1057080E2DF40170,
      0x1067080E28000170, 0x1077080E28000170, 0x1087080E28000170, 0x1097080E28000170, 0x10A7080E28000170, 0x10B7080E28000170,
      0x10C7080E28000170, 0x10D7080E28000170, 0x10E7080E28000170].map decodeWord =
    [.fadd f, .fsub f, .fmul f, .ffma { f with c := .v 255 }, .fmin f, .fmax f, .fabs { f with b := .v 0 }, .fneg { f with b := .v 0 },
      .frnd { f with b := .v 0 }, .frcp { f with b := .v 0 }, .frsq { f with b := .v 0 }, .fsqrt { f with b := .v 0 },
      .fexp2 { f with b := .v 0 }, .flog2 { f with b := .v 0 }, .ftanh { f with b := .v 0 }] := by decide +kernel

/-- Its format-I words: f32x2, prefix (m3), D v1, A v2, the immediate 1.0 as FP32 bits [31:5]. -/
theorem test_decode_float_immediate :
    let i : FmtI := ⟨.f32x2, .p3, .v 1, .v 2, 0x1FC0000⟩
    [0x1206601011FC0000, 0x1216601011FC0000, 0x1226601011FC0000, 0x1236601011FC0000, 0x1246601011FC0000, 0x1256601011FC0000,
      0x1266601010000000, 0x1276601010000000, 0x1286601010000000, 0x1296601010000000, 0x12A6601010000000, 0x12B6601010000000,
      0x12C6601010000000, 0x12D6601010000000, 0x12E6601010000000].map decodeWord =
    [.faddI i, .fsubI i, .fmulI i, .ffmaI i, .fminI i, .fmaxI i, .fabsI { i with imm := 0 }, .fnegI { i with imm := 0 },
      .frndI { i with imm := 0 }, .frcpI { i with imm := 0 }, .frsqI { i with imm := 0 }, .fsqrtI { i with imm := 0 },
      .fexp2I { i with imm := 0 }, .flog2I { i with imm := 0 }, .ftanhI { i with imm := 0 }] := by decide +kernel

/-- The compare and mask family in both formats (R73, R116 to R120). -/
theorem test_decode_compare_and_mask :
    [0x2003146025BC001D, 0x2015F018140C0007, 0x202B406038200004, 0x203014BA2D180003, 0x2040004A38000001, 0x2050145048000002,
      0x2200145027FFFFFF, 0x22171460223F8000, 0x2222005026000009, 0x2230145A320000FF, 0x2240005A32000000, 0x2250105A31000000].map decodeWord =
    [.icmp ⟨.i8x8, .all, .m 2, .v 4, .ic 31, .v 0, .rne, false, .lo, 5⟩, .fcmp ⟨.f64, .n3, .s 1, .s 2, .s 3, .v 0, .rne, false, .elem, 7⟩,
      .sel ⟨.e2m1x16, .p2, .v 6, .v 7, .v 8, .v 0, .rne, false, .elem, 4⟩,
      .mop ⟨.i64, .all, .m 7, .m 1, .m 2, .v 0, .rne, false, .elem, 3⟩, .mcnt ⟨.i64, .all, .v 4, .m 3, .v 0, .v 0, .rne, false, .elem, 1⟩,
      .mmov ⟨.i64, .all, .m 1, .v 9, .v 0, .v 0, .rne, false, .elem, 2⟩, .icmpI ⟨.i64, .all, .m 1, .v 4, 0x7FFFFFF⟩,
      .fcmpI ⟨.f16x4, .all, .m 2, .v 4, 0x23F8000⟩, .selI ⟨.i16x4, .all, .v 5, .v 4, 0x6000009⟩, .mopI ⟨.i64, .all, .m 1, .m 2, 0x20000FF⟩,
      .mcntI ⟨.i64, .all, .v 5, .m 2, 0x2000000⟩, .mmovI ⟨.i64, .all, .s 5, .m 2, 0x1000000⟩] := by decide +kernel

/-- The conversions (R121 to R125: C carries the source shape and the part) and the cross-lane family (R126 to R131). -/
theorem test_decode_conversion_and_cross_lane :
    [0x2407003020002D22, 0x2417003020140C40, 0x2429003020146D80, 0x2429003020000C04, 0x24360030201458E0, 0x2606203020140003,
      0x2610000820000002, 0x26280030255C0004, 0x2631003020000622, 0x2646003020000481].map decodeWord =
    [.cvt ⟨.f16x4, .all, .v 3, .v 4, .v 0, 0x16, .rna, true, 2⟩, .pack ⟨.f16x4, .all, .v 3, .v 4, .v 5, 6, .rz, false, 0⟩,
      .qnt ⟨.e4m3x8, .all, .v 3, .v 4, .v 5, 0x36, .dyn, false, 0⟩, .qntScl ⟨.e4m3x8, .all, .v 3, .v 4, .v 0, 6, .rne, false, 4⟩,
      .dqnt ⟨.f32x2, .all, .v 3, .v 4, .v 5, 0x2C, .ru, true, 0⟩, .xperm ⟨.f32x2, .p1, .v 3, .v 4, .v 5, 0, .rne, false, 3⟩,
      .ptld ⟨.i64, .all, .v 0, .s 4, .v 0, 0, .rne, false, 2⟩, .shfl ⟨.bf16x4, .all, .v 3, .v 4, .ic 7, 0, .rne, false, 4⟩,
      .red ⟨.i32x2, .all, .v 3, .v 4, .v 0, 3, .rne, true, 2⟩, .scan ⟨.f32x2, .all, .v 3, .v 4, .v 0, 2, .rd, false, 1⟩] := by decide +kernel

/-- The group family (R84 to R89), memory (R151 to R154), copies (R155, R157), atomics (R186 to R190) and ordering (R192, R193); several of the words stand in the spec. -/
theorem test_decode_group_and_memory :
    [0x2800000000000007, 0x2810000000000003, 0x2820001000000000, 0x282010100000000A, 0x283000082000000C, 0x40092030236FFFF8,
      0x4000102808000000, 0x4013A0302497FFFF, 0x4026003021400010, 0x4032003021800018, 0x4044103820000020, 0x4050000020200028,
      0x4200000838000000, 0x4210308000000000, 0x4400004813000010, 0x441000681BC00000, 0x4426003820090000, 0x440140402948FFFC,
      0x4603600000000000, 0x4610105000000000].map decodeWord =
    [.rxa 7, .rxr 3, .srd (.v 1) 0, .srd (.s 1) 0x0A, .swr (.s 4) 0x0C, .ld ⟨9, .p1, .v 3, .v 4, .dev, .acq, 2, 0xFFFF8⟩,
      .ld ⟨0, .all, .s 2, .s 1, .grp, .rlx, 0, 0⟩, .st ⟨3, .n1, .v 3, .v 4, .sys, .rel, 1, 0x7FFFF⟩,
      .ldsh ⟨6, .all, .v 3, .v 4, .team, .acq, 0, 16⟩, .stsh ⟨2, .all, .v 3, .v 4, .team, .rel, 0, 24⟩,
      .ldc ⟨4, .all, .s 3, .s 4, .grp, .rlx, 0, 32⟩, .prf ⟨0, .all, .v 0, .v 4, .grp, .rlx, 2, 40⟩, .cpy (.s 7), .drain (.s 8) 1,
      .amo ⟨0, .all, .v 4, .s 2, .dev, .rlx, 0, 16⟩, .cas ⟨0, .all, .v 6, .s 3, .dev, .ar, 0, 0⟩,
      .redo ⟨6, .all, .v 3, .s 4, .grp, .rlx, 9, 0⟩, .amo ⟨1, .p2, .v 4, .v 5, .team, .acq, 8, 0xFFFC⟩, .fence .dev .ar, .rflush (.s 5)] := by decide +kernel

/-- Transactions (R213), queues and chains (R240, R256), barriers (R230) and tiles (R280). -/
theorem test_decode_transactions_to_tiles :
    [0x4800000000000000, 0x4810000000000000, 0x4820000000000000, 0x4830000007FFFFFE, 0x4840000000000000, 0x4A00000830000002,
      0x4A00200000000002, 0x4A10109840000001, 0x4A20111000000000, 0x4A3010A000000001, 0x4A40101810000000, 0x4A50103000000000,
      0x4A60104000000000, 0x4C00000828ABCDEF, 0x4C1170683800FFFF, 0x4C10200838000001, 0x4C20908848000000, 0x4C3010A858000000,
      0x4E0010100000000F, 0x4E1020000000000E, 0x4E20102818000000, 0x4E3010400000000D, 0x4E3030583000000C, 0x4E4021483800000B,
      0x4E5041584000000A].map decodeWord =
    [.tbegin, .tend, .retry, .otherwise 0x7FFFFFE, .tabort, .qbind (.s 6) 2, .qbindFree 2, .put (.s 9) (.s 8) 1, .get (.s 17) 0,
      .qcnt (.s 10) 1, .chload (.s 1) (.s 2), .chfold (.s 3), .chspread (.s 4), .binit (.s 5) 0xABCDEF,
      .barv true .dev (.s 6) (.s 7) 0xFFFF, .barv false .team (.v 0) (.s 7) 1, .bwait .sys (.s 8) (.s 9), .btest (.s 10) (.s 11),
      .mxacq (.s 1) 15, .mxrel true 14, .mxiss (.s 2) (.s 3), .mxrank (.s 4) 13, .mxrankSet (.s 5) (.s 6) 12, .mxrd .u (.v 20) (.s 7) 11,
      .mxwr .v (.v 21) (.s 8) 10] := by decide +kernel

/-- The fabric (R310), LAUNCH and COLL (R353, R400), ERET and TLBI (R383, R158), branches (R95; the first is the spec's example) and the trailer (R58). -/
theorem test_decode_fabric_to_trailer :
    [0x500050181000007F, 0x5000301810000005, 0x5010103820000000, 0x5020105830055E09, 0x5030107000000008, 0x5030308848000007,
      0x503050A000000006, 0x504010B000000005, 0x520010C86800010E, 0x5210109830000000, 0x5400000000000000, 0x5400200000000000,
      0x541010181000003F, 0x541030300000003E, 0x5410504000000000, 0xFC00203C00000005, 0xFC135579FFFFFFFF, 0xFC20E00300000000,
      0xFC30000000000005, 0xFC40200000000000, 0xFC50A00000000000, 0xFC60C00000000000, 0xFC70600000000033, 0xFC80000000000044,
      0xFE00008140FFFFF0, 0xFE7ABC00CFFFEFF0].map decodeWord =
    [.fcfg true (.s 1) (.s 2) 127, .fcfgRestore false (.s 1) (.s 2) 5, .frun (.s 3) (.s 4), .fconst (.s 5) (.s 6) 9 0xABC,
      .fstopKill (.s 7) 8, .fstopSave (.s 8) (.s 9) 7, .fstopUnload (.s 10) 6, .fstat (.s 11) 5, .launch (.s 12) (.s 13) (.s 14),
      .coll (.s 9) (.s 6), .eret false, .eret true, .tlbiPage (.s 1) (.s 2) 63, .tlbiCtx (.s 3) 62, .tlbiAll (.s 4), .bra .p1 30 5,
      .brm 3 .p2 0xABC 0x1FFFFFFFF, .call .n3 1 0x100000000, .calli .all (.v 5), .ret .p1, .exit .n1, .yield .n2, .trap .p3 0x33,
      .brk .all 0x44, .trl false false false 0 (some (.s 2)) (some (.s 3)) none none,
      .trl true true true 0xABC (some (.v 1)) (some (.s 63)) none (some (.v 255))] := by decide +kernel

/-- Words that are no instructions (R63, R73, R74, R86): MAJ 0, unassigned MAJ and MIN, SHP 13, MSK 4, rounding code 7, reserved operand
codes, an unused C, a shape that the family refuses, SCOPE 5, a reserved special register, RXA of none, COND of BRA and beyond 3, a reserved name. -/
theorem test_decode_refuses :
    [0x0000000000000001, 0x0600000000000000, 0x2A00000000000000, 0x03400010100C0000, 0x020D0010100C0000, 0x02008010100C0000,
      0x02000010100C01C0, 0x020014C0100C0000, 0x0200001C000C0000, 0x02000010100C0800, 0x02050010100C0000, 0x10000010100C0000,
      0x4000001015000000, 0x2820001000000025, 0x2800000000000000, 0xFC01000000000000, 0xFC14000000000000, 0xFE0000A7FFFFFFF0,
      0xFC300000000001BF, 0x5600000000000000].map decodeWord =
    [.illegalWord 0x1, .unassignedWord 0x0600000000000000, .unassignedWord 0x2A00000000000000, .unassignedWord 0x03400010100C0000,
      .unassignedWord 0x020D0010100C0000, .unassignedWord 0x02008010100C0000, .unassignedWord 0x02000010100C01C0,
      .unassignedWord 0x020014C0100C0000, .unassignedWord 0x0200001C000C0000, .unassignedWord 0x02000010100C0800,
      .unassignedWord 0x02050010100C0000, .unassignedWord 0x10000010100C0000, .unassignedWord 0x4000001015000000,
      .unassignedWord 0x2820001000000025, .unassignedWord 0x2800000000000000, .unassignedWord 0xFC01000000000000,
      .unassignedWord 0xFC14000000000000, .unassignedWord 0xFE0000A7FFFFFFF0, .unassignedWord 0xFC300000000001BF,
      .unassignedWord 0x5600000000000000] := by decide +kernel

/-- The words of a sequencer (R332, R333), and words that it refuses: an unassigned OP, an ARRV of weight 0, a nonzero reserved field. -/
theorem test_decode_sequencer :
    [0x047FFFFE, 0x0848C000, 0x0D17FFFF, 0x119E0000, 0x166AC000, 0x1B378000, 0x1FC48000, 0x20D14000, 0x244A0000, 0x28D00005, 0x2D9C0008,
      0x32000001, 0x3640003F, 0x38480001, 0x3CC00000, 0x41000ABC, 0x4540FFFF, 0x49800000, 0x4C000000, 0x50000000, 0x00000000, 0x45400000,
      0x0848C001, 0x4C000001].map decodeSeq =
    [some (.seqLi 1 0x3FFFFE), some (.seqAdd 1 2 3), some (.seqAddi 4 5 0x3FFFF), some (.seqSub 6 7 8), some (.seqShl 9 10 11),
      some (.seqShr 12 13 14), some (.seqAnd 15 1 2), some (.seqOr 3 4 5), some (.seqBeq 1 2 0x20000), some (.seqBne 3 4 5),
      some (.seqBlt 6 7 8), some (.seqJ 0x2000001), some (.seqArg 9 63), some (.seqRec 1 2 true), some (.seqPwait 3),
      some (.seqCnst 4 0xABC), some (.seqArrv 5 0xFFFF), some (.seqEvt 6), some .seqHalt, none, none, none, none, none] := by decide +kernel

-- ===== states for the statements' hypotheses =====

/-- One page of context 0 mapped onto itself, readable, writable and executable for the user. -/
def wPage : TlbEnt := ⟨0, 1, { pa := 65536, w := true, x := true, u := true }, true⟩
/-- A group that issues at 65536 with every lane active: s1 is an address of the page, s2 is 3, s3 is 64, s9 and lane 0 of v9 are poisoned. -/
def wGrp : Group :=
  { life := .issuing, tid := 1, run := some { ent := { pc := 65536, mask := 0xFFFFFFFF }, pc := 65536 },
    v := [(288, ⟨7, true⟩)], s := [(1, ⟨65792, false⟩), (2, ⟨3, false⟩), (3, ⟨64, false⟩), (9, ⟨5, true⟩)], spr := { uvec := 69632 } }
/-- A trailer stands at 65544, the word after the group's. -/
def wH : HMem := { bytes := [(65544, 0xF0), (65545, 0xFF), (65546, 0xFF), (65547, 0xFF), (65548, 0xFF), (65551, 0xFE)] }
def wTeam : Team := { live := true, ngroup := 1, shm := 1, quota := 64 }
/-- The device with context 0 ACTIVE, that group in slot 0 of core 0, and its team. -/
def wSt : State :=
  { State.reset with cur := .group 0, h := wH, tlb := [wPage], ctxs := [(0, { st := .active, keycnt := 1 })], keys := [(0, .plain)],
                     groups := [(0, wGrp)], teams := [(1, wTeam)] }
/-- The same with another group in its place. -/
def wWith (x : Group) : State := { wSt with groups := [(0, x)] }
/-- The same with other bytes in memory after the trailer. -/
def wMem (bs : SMap Byte) : State := { wSt with h := { wH with bytes := wH.bytes ++ bs } }
/-- A handler's group: IH is set and the trap's state kept. -/
def wHand : Group := { wGrp with spr := { wGrp.spr with trapCause := 0x261, trapPc := 65600 },
                                 trapS := some { pc := 65600, prio := 5, lanes := 0xFFFFFFFF, rs := { pos := 3 } } }
/-- A transaction's group. -/
def wTx : Group := { wGrp with tx := { act := true, lanes := 0xFFFFFFFF, restart := { pc := 65536 } } }
/-- A context in compatibility mode. -/
def wCompat (x : Group) : State := { wWith x with ctxs := [(0, { st := .active, keycnt := 1, compat := true })] }
/-- Supervisor level. -/
def wSup : State := wWith { wGrp with sup := true }

/-- Whether a check has answered, and what the answer meets. -/
def okAnd {α : Type} (e : Except Trap α) (p : α → Bool) : Bool := match e with | .ok a => p a | .error _ => false
def failed {α : Type} (e : Except Trap α) : Bool := match e with | .ok _ => false | .error _ => true
def someAnd {α : Type} (o : Option α) (p : α → Bool) : Bool := match o with | some a => p a | none => false

-- ===== the hypotheses of the statements: decoding, steps, traps =====

theorem test_meets_EncodedInstructionsDecodeBack : WellFormed (.trl true false false 5 (some (.s 63)) none none none) ∧
    (encodeWord (.trl true false false 5 (some (.s 63)) none none none)).isSome = true ∧ WellFormed (.seqArrv 3 1) ∧
    (encodeSeq (.seqArrv 3 1)).isSome = true ∧ decodeSeq 0x4C000000 = some .seqHalt := by decide +kernel

theorem test_meets_StepsRunTheDecodedInstruction :
    (wSt.regs.bootStat = 5 ∧ (wSt.grp 0).life = .issuing ∧ (wSt.grp 0).run.isSome = true ∧ exhausted (wSt.grp 0) = false ∧ mayIssue wSt (wSt.grp 0) = true ∧
      ((wSt.grp 0).atBoundary && !(wSt.grp 0).roundDone) = false ∧ okAnd (fetchWord wSt (wSt.grp 0) (runPc (wSt.grp 0))) (· == 0) = true) ∧
    (let s : State := { wMem [] with comps := [(0, bootComp)], h := { bytes := [(65539, 0x4C)] } }
     s.regs.bootStat = 5 ∧ seqReady s 0 = true ∧ okAnd (seqRead s 0 65536 4) (fun p => p.2 == false && decodeSeq (BitVec.ofNat 32 (ofBytes p.1)) == some .seqHalt) = true) := by
  and_intros <;> decide +kernel

theorem test_meets_TrapsEnterTheHandler :
    (∀ i ∈ [Instr.trap .all 5, .brk .all 5], Runs wSt 0 i ∧ liveOf (wSt.grp 0) .all ≠ 0) ∧ CanSettle wSt 0 ∧
    ((settled wSt 0).grp 0).tx.act = false ∧ inHandler ((settled wSt 0).grp 0) = false ∧ ((settled wSt 0).grp 0).spr.uvec ≠ 0 ∧
    (∀ i ∈ [Instr.trap .p1 5, .brk .p1 5], Runs wSt 0 i ∧ liveOf (wSt.grp 0) .p1 = 0) ∧
    issuer wSt = some 0 ∧ precheck wSt 0 (.unassignedWord 0x0600000000000000) = .unassigned ∧
    (let s := wSt.updGrp 0 (fun x => writeEmu x 0x0600000000000000)
     CanSettle s 0 ∧ ((settled s 0).grp 0).tx.act = false ∧ inHandler ((settled s 0).grp 0) = false ∧ ((settled s 0).grp 0).spr.uvec ≠ 0) := by
  delta Runs CanSettle; and_intros <;> decide +kernel

theorem test_meets_TrapsGoToTheSupervisor :
    (∀ i ∈ [Instr.tlbiPage (.s 10) (.s 1) 0, .tlbiCtx (.s 10) 0, .tlbiAll (.s 10)], issuer wSt = some 0 ∧
      posBad wSt (wSt.grp 0) (info (wSt.grp 0).chain.isSome i) = none ∧ (info (wSt.grp 0).chain.isSome i).illegal = false) ∧
    (wSt.grp 0).tx.act = false ∧ (wSt.grp 0).sup = false ∧ CanSettle wSt 0 ∧ ((settled wSt 0).grp 0).tx.act = false ∧
    ((settled wSt 0).grp 0).sup = false ∧ inHandler ((settled wSt 0).grp 0) = false ∧
    (let s := wWith wHand
     Runs s 0 (.brk .all 5) ∧ liveOf (s.grp 0) .all ≠ 0 ∧ CanSettle s 0 ∧ ((settled s 0).grp 0).tx.act = false ∧ inHandler ((settled s 0).grp 0) = true) := by
  delta Runs CanSettle; and_intros <;> decide +kernel

theorem test_meets_EretReturnsFromTheHandler :
    (let s := wWith wHand
     (∀ nx ∈ [true, false], Runs s 0 (.eret nx)) ∧ inHandler (s.grp 0) = true ∧ active (s.grp 0) = (unexited (s.grp 0) &&& handlerLanes (s.grp 0))) ∧
    (∀ nx ∈ [true, false],
      let s := wWith { wHand with run := some { ent := { pc := 65536, mask := 0xFFFFFFFF }, pc := 65544, rs := { pos := 1, xfer := { eret := some nx, decided := true } } } }
      Runs s 0 (.trl false false false 0 none none none none) ∧ (s.grp 0).tx.act = false ∧ (s.grp 0).chain = none ∧
      (runState (s.grp 0)).xfer.eret = some nx ∧ (s.grp 0).trapS.isSome = true ∧ active (s.grp 0) ≠ 0 ∧
      someAnd (s.grp 0).trapS (fun ts => (s.grp 0).spr.trapPc + (if nx then 8 else 0) == (if nx then ts.pc + 8 else ts.pc) && !ts.trl) = true) := by
  delta Runs; and_intros <;> decide +kernel

-- ===== arithmetic =====

def wA : FmtA := ⟨.i64, .all, .v 3, .v 1, .v 2, .v 4, .rne, false, .elem, 0⟩
def wF : FmtA := ⟨.f32x2, .all, .v 3, .v 1, .v 0, .v 0, .rs, true, .bca, 0⟩
def wI : FmtI := ⟨.i64, .all, .v 3, .v 1, 0⟩
def wIF : FmtI := ⟨.f32x2, .all, .v 3, .v 1, 0⟩

theorem test_meets_IntegerWords : (∀ p ∈ intWordsA wA, Runs wSt 0 p.2) ∧ (∀ p ∈ intWordsI { wI with imm := 0x4000000 }, Runs wSt 0 p.2) := by
  delta Runs; and_intros <;> decide +kernel

theorem test_meets_FloatWords : (∀ p ∈ fpWordsA wF, WellFormed p.2 ∧ Runs wSt 0 p.2) ∧ (∀ p ∈ fpWordsI wIF, WellFormed p.2 ∧ Runs wSt 0 p.2) := by
  delta Runs; and_intros <;> decide +kernel

theorem test_meets_FunctionWordsGoInFlight : (∀ p ∈ fnWordsA wF, WellFormed p.2 ∧ Runs wSt 0 p.2) ∧ (∀ p ∈ fnWordsI wIF, WellFormed p.2 ∧ Runs wSt 0 p.2) := by
  delta Runs; and_intros <;> decide +kernel

theorem test_meets_ValuesAndRoundings : exactVal (.fin true 3 (-1) false) = true ∧ (3 : Nat) ≠ 0 ∧ ratOf (.fin true 3 1 false) = ((-6 : Int) : ℚ) ∧
    ratOf (.fin false 1 (-3) false) = (2 : ℚ) ^ (-3 : Int) ∧ |ratOf (.fin true 3 (-1) false)| < 2 ^ 20 ∧
    (∀ f ∈ [Val.exp2, Val.logTwo, Val.tanh], (match f (.fin false 3 (-1) false) with | (.fin false k _ st, 0) => k != 0 && st | _ => false) = true) ∧
    (∀ m ∈ [Rnd.rne, .rz, .rd, .ru, .rna, .rs], m ≠ .dyn ∧ ((FF.fp32.round m false (2 ^ 24 - 1) (.fin true 3 (-1) false)).2 &&& fOF) = 0) := by
  and_intros <;> decide +kernel

theorem test_meets_CompareWords :
    (∀ c ∈ cmpForms (wSt.grp 0) wA wI ++ cmpForms (wSt.grp 0) wF wIF, Runs wSt 0 c.i ∧ opIsM c.d = false) ∧
    (∀ c ∈ cmpForms (wSt.grp 0) { wA with d := .m 7 } { wI with d := .m 7 }, Runs wSt 0 c.i ∧ c.d = .m 7 ∧ ∀ l ∈ lanes (liveOf (wSt.grp 0) c.msk), c.poi l = false) ∧
    (∀ c ∈ cmpForms (wSt.grp 0) { wA with d := .m 1, a := .v 9 } { wI with d := .m 1, a := .v 9 }, Runs wSt 0 c.i ∧ c.d = .m 1 ∧
      ∃ l ∈ lanes (liveOf (wSt.grp 0) c.msk), c.poi l = true) := by
  delta Runs; and_intros <;> decide +kernel

theorem test_meets_SelectWordsChooseByLane : Runs wSt 0 (.sel { wA with fam := 7 }) ∧ Runs wSt 0 (.selI { wI with imm := 0x7000001 }) := by
  delta Runs; and_intros <;> decide +kernel

theorem test_meets_MaskWords :
    (∀ k < 5, ∀ i ∈ [Instr.mop { wA with d := .m 7, a := .m 1, b := .m 2, fam := BitVec.ofNat 3 k }, .mopI { wI with d := .m 7, a := .m 1, imm := BitVec.ofNat 27 (k * 2 ^ 24) },
      .mop { wA with msk := .p1, d := .m 1, a := .s 9, b := .s 2, fam := BitVec.ofNat 3 k }], Runs wSt 0 i) ∧
    (opVal (wSt.grp 0) .i64 (.m 1) 0).poi = false ∧ liveOf (wSt.grp 0) .all ≠ 0 ∧ liveOf (wSt.grp 0) .p1 = 0 ∧
    Runs wSt 0 (.mop { wA with d := .m 1, a := .s 9, b := .s 2 }) ∧ Runs wSt 0 (.mopI { wI with d := .m 1, a := .s 9 }) ∧ (opVal (wSt.grp 0) .i64 (.s 9) 0).poi = true ∧
    (∀ k < 3, Runs wSt 0 (.mcnt { wA with a := .m 1, fam := BitVec.ofNat 3 k }) ∧ Runs wSt 0 (.mcntI { wI with a := .m 1, imm := BitVec.ofNat 27 (k * 2 ^ 24) })) ∧
    (∀ a ∈ [Opd.s 2, .s 9], Runs wSt 0 (.mmov { wA with d := .m 1, a := a, fam := 0 }) ∧ Runs wSt 0 (.mmovI { wI with d := .m 1, a := a, imm := 0 })) ∧
    Runs wSt 0 (.mmov { wA with a := .m 1, fam := 1 }) ∧ Runs wSt 0 (.mmovI { wI with a := .m 1, imm := 0x1000000 }) ∧
    (∀ a ∈ [Opd.v 1, .v 9], Runs wSt 0 (.mmov { wA with d := .m 1, a := a, fam := 2 }) ∧ Runs wSt 0 (.mmovI { wI with d := .m 1, a := a, imm := 0x2000000 })) ∧
    (∀ l ∈ lanes (liveOf (wSt.grp 0) .all), (opVal (wSt.grp 0) .i64 (.v 1) l).poi = false) ∧ (∃ l ∈ lanes (liveOf (wSt.grp 0) .all), (opVal (wSt.grp 0) .i64 (.v 9) l).poi = true) ∧
    Runs wSt 0 (.mmov { wA with a := .m 1, fam := 3 }) ∧ Runs wSt 0 (.mmovI { wI with a := .m 1, imm := 0x3000000 }) := by
  delta Runs; and_intros <;> decide +kernel

def wC : FmtC := ⟨.f16x4, .all, .v 3, .v 1, .v 0, 6, .rs, false, 0⟩

theorem test_meets_Conversions :
    wC.srcShape? = some .f32x2 ∧ (∀ i ∈ [Instr.cvt wC, .cvt { wC with ctl := 0x16 }, .pack { wC with b := .v 2 }, .qnt { wC with shp := .e4m3x8, ctl := 0x36 },
      .qntScl { wC with shp := .e4m3x8, rnd := .rne, fam := 4 }, .dqnt { wC with shp := .f32x2, ctl := 9 }], WellFormed i ∧ Runs wSt 0 i) ∧
    ({ wC with ctl := 9 } : FmtC).srcShape? = some .e4m3x8 := by
  delta Runs; and_intros <;> decide +kernel

def wX : FmtC := ⟨.f32x2, .all, .v 3, .v 1, .v 2, 0, .rne, false, 0⟩

theorem test_meets_ShufflesAndPatternTables :
    (∀ k < 5, Runs wSt 0 (.shfl { wX with fam := BitVec.ofNat 3 k }) ∧ Runs wSt 0 (.shfl { wX with b := .v 9, fam := BitVec.ofNat 3 k })) ∧
    (∀ l ∈ workLanes (wSt.grp 0) .all (.v 3), (opVal (wSt.grp 0) .f32x2 (.v 2) l).poi = false) ∧
    (∃ l ∈ workLanes (wSt.grp 0) .all (.v 3), (opVal (wSt.grp 0) .f32x2 (.v 9) l).poi = true) ∧
    (∀ k < 8, Runs wSt 0 (.xperm { wX with shp := .i8x8, fam := BitVec.ofNat 3 k, b := .v 0 }) ∧ Runs wSt 0 (.xperm { wX with shp := .i8x8, a := .v 9, fam := BitVec.ofNat 3 k, b := .v 0 })) ∧
    (∀ l ∈ workLanes (wSt.grp 0) .all (.v 3), (opVal (wSt.grp 0) .i8x8 (.v 1) l).poi = false) ∧
    (∀ a ∈ [Opd.s 1, .s 2, .s 9], Runs wSt 0 (.ptld { wC with shp := .i64, d := .v 0, a := a, ctl := 0, rnd := .rne, fam := 3 })) ∧
    (opVal (wSt.grp 0) .i64 (.s 9) 0).poi = true ∧ (opVal (wSt.grp 0) .i64 (.s 2) 0).poi = false ∧
    failed (checkAddr wSt 0 false .load false (opVal (wSt.grp 0) .i64 (.s 2) 0).val 1024) = true ∧ okAnd (checkAddr wSt 0 false .load false 66560 1024) (fun _ => true) = true ∧
    (let s := wWith { wGrp with s := [(1, ⟨66560, false⟩)] }
     Runs s 0 (.ptld { wC with shp := .i64, d := .v 0, a := .s 1, ctl := 0, rnd := .rne }) ∧ opVal (s.grp 0) .i64 (.s 1) 0 = ⟨66560, false⟩) := by
  delta Runs; and_intros <;> decide +kernel

theorem test_meets_ReductionsAndScans :
    (∀ k < 6, ∀ c ∈ [0#9, 2#9], ∀ i ∈ [Instr.red { wX with shp := .i8x8, b := .v 0, ctl := c, fam := BitVec.ofNat 3 k }, .scan { wX with shp := .i8x8, b := .v 0, ctl := c, fam := BitVec.ofNat 3 k }],
      WellFormed i ∧ Runs wSt 0 i) ∧ WellFormed (.red { wX with b := .v 0, sat := true }) ∧ Runs wSt 0 (.red { wX with b := .v 0, sat := true }) ∧
    (let s := wWith { wGrp with spr := { wGrp.spr with fpmode := 0x500 } }
     modeOf (s.grp 0) .dyn = .rs ∧ ∀ i ∈ [Instr.red { wX with b := .v 0, rnd := .dyn }, .scan { wX with b := .v 0, rnd := .dyn }], WellFormed i ∧ Runs s 0 i) := by
  delta Runs; and_intros <;> decide +kernel

-- ===== the group family and memory =====

theorem test_meets_BlocksAreAcquiredAndReleased :
    (Runs wSt 0 (.rxa 7) ∧ (wSt.grp 0).blocks < 7 ∧ 7 - (wSt.grp 0).blocks ≤ poolFree wSt 0) ∧
    (let s := wWith { wGrp with blocks := 7 }
     Runs s 0 (.rxa 7) ∧ Runs s 0 (.rxr 7) ∧ (s.grp 0).blocks = 7) ∧
    (let s : State := { wSt with groups := [(0, wGrp), (1, { blocks := 42 })] }
     Runs s 0 (.rxa 7) ∧ poolFree s 0 < 7 ∧ (s.grp 0).tx.act = false) ∧
    (let s := wWith { wGrp with blocks := 1 }
     Runs s 0 (.rxr 0) ∧ 0 < (s.grp 0).blocks ∧ ∀ c ∈ (List.range 32).map (· + 32), c ∉ (runState (s.grp 0)).hazard ∧ pending (s.grp 0) c = false) ∧
    (let s := wWith { wGrp with blocks := 1, inflight := [{ tag := 3, regs := [32], waits := [.load 0] }] }
     Runs s 0 (.rxr 0) ∧ 0 < (s.grp 0).blocks ∧ pending (s.grp 0) 32 = true) ∧
    (let s := wWith { wGrp with blocks := 1, run := some { ent := { pc := 65536, mask := 0xFFFFFFFF }, pc := 65536, rs := { hazard := [63] } } }
     Runs s 0 (.rxr 0) ∧ 63 ∈ (runState (s.grp 0)).hazard) := by
  delta Runs; and_intros <;> decide +kernel

theorem test_meets_SpecialRegistersAreReadAndWritten :
    (∀ p ∈ specials wSt 0, Runs wSt 0 (.srd (.v 3) (BitVec.ofNat 8 p.1)) ∧ p.1 = (BitVec.ofNat 8 p.1).toNat ∧ (p.1 ≠ 0 → Runs wSt 0 (.srd (.s 10) (BitVec.ofNat 8 p.1)))) ∧
    (∀ p ∈ counters wSt 0, ∀ d ∈ [Opd.v 3, .s 10], Runs wSt 0 (.srd d (BitVec.ofNat 8 p.1)) ∧ p.1 = (BitVec.ofNat 8 p.1).toNat) ∧
    (∀ p ∈ specialsAfter (wSt.grp 0).spr 65792, Runs wSt 0 (.swr (.s 1) (BitVec.ofNat 8 p.1)) ∧ Runs wSt 0 (.swr (.s 9) (BitVec.ofNat 8 p.1))) ∧
    (∀ p ∈ teamAfter (wSt.teams.get 1) 65792, Runs wSt 0 (.swr (.s 1) (BitVec.ofNat 8 p.1)) ∧ p.1 = (BitVec.ofNat 8 p.1).toNat) ∧
    (opVal (wSt.grp 0) .i64 (.s 1) 0).poi = false ∧ (opVal (wSt.grp 0) .i64 (.s 9) 0).poi = true := by
  delta Runs; and_intros <;> decide +kernel

/-- A memory word with its base in s1, at an offset. -/
def wM (d : Opd) (off : BitVec 20) : FmtM := ⟨0, .all, d, .s 1, .dev, .rlx, 0, off⟩
def wMs (d : Opd) (off : BitVec 20) : FmtM := ⟨0, .all, d, .s 3, .team, .rlx, 0, off⟩
/-- A page of the device registers, for the supervisor. -/
def wDev : State := { wSup with tlb := [wPage, ⟨0, 2, { pa := devBase + 0x10000, w := true, cp := 2 }, true⟩], groups := [(0, { wGrp with sup := true, s := [(1, ⟨131072, false⟩), (3, ⟨64, false⟩)] })] }

theorem test_meets_LoadsIssueTheirReads :
    (Runs wSt 0 (.ld (wM (.v 3) 1)) ∧ failed (checkLanes wSt (wSt.grp 0) .load true 0 (.s 1) 1 (workLanes (wSt.grp 0) .all (.v 3))) = true) ∧
    (Runs wSt 0 (.ldc { wM (.v 3) 1 with scope := .grp }) ∧ failed (checkLanes wSt (wSt.grp 0) .load false 0 (.s 1) 1 (workLanes (wSt.grp 0) .all (.v 3))) = true) ∧
    (Runs wSt 0 (.ldsh (wMs (.v 3) 1)) ∧ failed (firstTrap ((workLanes (wSt.grp 0) .all (.v 3)).map (checkShared wSt (wSt.grp 0) 0 (.s 3) 1))) = true) ∧
    (Runs wSt 0 (.ld (wM (.v 3) 8)) ∧ (!(wSt.grp 0).tx.act && !inCompat wSt (wSt.grp 0)) = true ∧
      okAnd (checkLanes wSt (wSt.grp 0) .load true 0 (.s 1) 8 (workLanes (wSt.grp 0) .all (.v 3))) (fun as => as.length == 32 && as.all (fun a => !inDevice a.xl.pa)) = true) ∧
    (Runs wSt 0 (.ldc { wM (.v 3) 8 with scope := .grp }) ∧
      okAnd (checkLanes wSt (wSt.grp 0) .load false 0 (.s 1) 8 (workLanes (wSt.grp 0) .all (.v 3))) (fun as => as.length == 32) = true) ∧
    (Runs wSt 0 (.ldsh (wMs (.v 3) 0xFB8)) ∧ okAnd (firstTrap ((workLanes (wSt.grp 0) .all (.v 3)).map (checkShared wSt (wSt.grp 0) 0 (.s 3) 4024))) (fun as => as.length == 32) = true) ∧
    (Runs wDev 0 (.ld (wM (.s 10) 0)) ∧ (wDev.grp 0).tx.act = false ∧ isAcq .rlx = false ∧
      okAnd (checkLanes wDev (wDev.grp 0) .load true 0 (.s 1) 0 (workLanes (wDev.grp 0) .all (.s 10)))
        (fun as => as != [] && as.all (fun a => inDevice a.xl.pa && (decide (a.xl.pa < devBase + 0x100) || decide (devBase + 0x300 ≤ a.xl.pa)))) = true) ∧
    (let s := wCompat wGrp
     Runs s 0 (.ld (wM (.v 3) 8)) ∧ Runs s 0 (.ldsh (wMs (.v 3) 8)) ∧ (s.grp 0).tx.act = false ∧ inCompat s (s.grp 0) = true ∧
      okAnd (checkLanes s (s.grp 0) .load true 0 (.s 1) 8 (workLanes (s.grp 0) .all (.v 3))) (fun as => as.all (fun a => !inDevice a.xl.pa)) = true ∧
      okAnd (firstTrap ((workLanes (s.grp 0) .all (.v 3)).map (checkShared s (s.grp 0) 0 (.s 3) 8))) (fun _ => true) = true) := by
  delta Runs; and_intros <;> decide +kernel

theorem wFrames : FramesAligned wSt := by intro e he; simp [wSt] at he; subst he; rfl

theorem test_meets_StoresIssueTheirWrites :
    FramesAligned wSt ∧
    (∀ p ∈ [(Instr.st { wM (.v 9) 8 with order := .rel }, true), (.stsh { wMs (.v 9) 8 with order := .rel }, true), (.st (wM (.v 1) 1), false), (.stsh (wMs (.v 1) 1), false),
            (.st (wM (.v 9) 8), false), (.stsh (wMs (.v 9) 0xFB8), false)], WellFormed p.1 ∧ Runs wSt 0 p.1) ∧
    isRel .rel = true ∧ (opVal (wSt.grp 0) .i64 (.v 9) 0).poi = true ∧ ¬isRel .rlx = true ∧
    failed (checkLanes wSt (wSt.grp 0) .store true 0 (.s 1) 1 (workLanes (wSt.grp 0) .all (.v 1))) = true ∧
    failed (firstTrap ((workLanes (wSt.grp 0) .all (.v 1)).map (checkShared wSt (wSt.grp 0) 0 (.s 3) 1))) = true ∧
    okAnd (checkLanes wSt (wSt.grp 0) .store true 0 (.s 1) 8 (workLanes (wSt.grp 0) .all (.v 9))) (fun as => as.all (fun a => !inDevice a.xl.pa)) = true ∧
    okAnd (firstTrap ((workLanes (wSt.grp 0) .all (.v 9)).map (checkShared wSt (wSt.grp 0) 0 (.s 3) 4024))) (fun as => as.length == 32) = true ∧
    inCompat wSt (wSt.grp 0) = false ∧ (wSt.grp 0).tx.act = false ∧
    (let s := wCompat wGrp
     Runs s 0 (.st (wM (.v 1) 8)) ∧ Runs s 0 (.stsh (wMs (.v 1) 8)) ∧ inCompat s (s.grp 0) = true ∧
      okAnd (checkLanes s (s.grp 0) .store true 0 (.s 1) 8 (workLanes (s.grp 0) .all (.v 1))) (fun as => as.all (fun a => !inDevice a.xl.pa && !cfull (s.grp 0) a.lane false a.xl.pa)) = true ∧
      okAnd (firstTrap ((workLanes (s.grp 0) .all (.v 1)).map (checkShared s (s.grp 0) 0 (.s 3) 8))) (fun as => as.all (fun a => !cfull (s.grp 0) a.lane true a.xl.pa)) = true) ∧
    (Runs wDev 0 (.st (wM (.s 3) 0)) ∧ (wDev.grp 0).tx.act = false ∧
      okAnd (checkLanes wDev (wDev.grp 0) .store true 0 (.s 1) 0 (workLanes (wDev.grp 0) .all (.s 3))) (fun as => as.length == 1 && as.all (fun a => inDevice a.xl.pa)) = true) := by
  refine ⟨wFrames, ?_⟩; delta Runs; and_intros <;> decide +kernel

/-- A group with one queued operation. -/
def wOp (o : MemOp) : State := wWith { wGrp with iq := [o] }

theorem test_meets_OperationsPerform :
    (let o : MemOp := { id := 4, kind := .store, pa := 65792, n := 64, bytes := [(63, some 5)] }
     ((wOp o).grp 0).iq.find? (fun y => y.id == o.id) = some o ∧ mayPerform (wOp o) 0 o = true ∧ o.kind = .store ∧ o.shared = false ∧ o.cp = 0 ∧
      ∀ e ∈ ((wOp o).grp 0).sb, e.line = o.pa / 64 → e.key = o.key) ∧
    (∀ ext ∈ [Ext.zero, .sign], let o : MemOp := { id := 4, kind := .load ext, pa := 65792, n := 8, tag := 3, reg := 3, order := .acq, scope := .sys }
     ((wOp o).grp 0).iq.find? (fun y => y.id == o.id) = some o ∧ mayPerform (wOp o) 0 o = true ∧ o.kind = .load ext ∧ o.shared = false ∧ o.ldc = false ∧
      isAcq o.order = true ∧ (1 : Nat) ≤ 2 ∧ 2 < scopeLevel o.scope) ∧
    (∀ sc ∈ [Scope.grp, .team, .clu, .dev, .sys], ∀ r ∈ [{ op := 0, wide := true, val := 1 }, { cas := true, wide := true, cmp := 0 }, { cas := true, wide := true, cmp := 1 }],
      let o : MemOp := { id := 4, kind := .atomic r, pa := 65792, n := 8, tag := 3, reg := 3, scope := sc }
      ((wOp o).grp 0).iq.find? (fun y => y.id == o.id) = some o ∧ mayPerform (wOp o) 0 o = true ∧ (o.n = 4 ∨ o.n = 8) ∧ o.pa % o.n = 0 ∧
        ofBytes ((findBytes (passOwn (dequeue (wOp o) 0 4) 0 (atomLevel sc) (fun e => e.holds 65792 8)) 0 0 65792 8 (atomLevel sc) 0).map (·.byte)) = 0) ∧
    (let o : MemOp := { id := 4, kind := .atomic { op := 0, wide := true, val := 1 }, pa := 65792, n := 8, tag := 3, reg := 3, scope := .dev }
     let s : State := { wOp o with oldWords := [⟨65792, 8, true, 5⟩] }
     (s.grp 0).iq.find? (fun y => y.id == o.id) = some o ∧ mayPerform s 0 o = true ∧ o.sa = false ∧
       s.oldWords.find? (fun w => w.host && w.pa == o.pa && w.n == o.n) = some ⟨65792, 8, true, 5⟩) := by
  and_intros <;> decide +kernel

theorem test_meets_PrefetchesFencesAndReleases :
    (∀ a ∈ [Opd.v 1, .v 9], Runs wSt 0 (.prf ⟨0, .all, .v 0, a, .grp, .rlx, 0, 0⟩)) ∧ (laneAddr (wSt.grp 0) (.v 9) 0 0).poi = true ∧
    (∀ l ∈ lanes (liveOf (wSt.grp 0) .all), (laneAddr (wSt.grp 0) (.v 1) 0 l).poi = false) ∧
    (∀ sc ∈ [Scope.grp, .team, .clu, .dev, .sys], Runs wSt 0 (.fence sc .ar)) ∧ inCompat wSt (wSt.grp 0) = false ∧ Runs wSt 0 (.rflush (.s 10)) := by
  delta Runs; and_intros <;> decide +kernel

-- ===== atomics and copies =====

def wT (op : BitVec 4) (d a : Opd) (off : BitVec 16) : FmtAt := ⟨0, .all, d, a, .dev, .ar, op, off⟩

theorem test_meets_AtomicWordsIssue :
    (Runs wSt 0 (.amo (wT 0 (.v 9) (.s 1) 0)) ∧ (opVal (wSt.grp 0) .i64 (.v 9) 0).poi = true) ∧
    (Runs wSt 0 (.cas (wT 0 (.v 8) (.s 1) 0)) ∧ (rget (wSt.grp 0) 9 0).poi = true) ∧
    (∀ i ∈ [Instr.amo (wT 0 (.v 1) (.s 1) 1), .cas (wT 0 (.v 1) (.s 1) 1), .amo (wT 0 (.v 1) (.s 1) 8), .cas (wT 0 (.v 1) (.s 1) 8)], Runs wSt 0 i) ∧
    failed (firstTrap ((workLanes (wSt.grp 0) .all (.v 1)).map (checkAtom wSt (wSt.grp 0) (wT 0 (.v 1) (.s 1) 1)))) = true ∧
    okAnd (firstTrap ((workLanes (wSt.grp 0) .all (.v 1)).map (checkAtom wSt (wSt.grp 0) (wT 0 (.v 1) (.s 1) 8)))) (fun as => as.length == 32) = true ∧
    (∀ l ∈ workLanes (wSt.grp 0) .all (.v 1), (opVal (wSt.grp 0) .i64 (.v 1) l).poi = false ∧ (rget (wSt.grp 0) 2 l).poi = false) ∧
    mayPass wSt (wSt.grp 0) ∧ (let s := wCompat { wGrp with roundDone := true }; Runs s 0 (.amo (wT 0 (.v 1) (.s 1) 8)) ∧ mayPass s (s.grp 0)) := by
  delta Runs mayPass; and_intros <;> decide +kernel

/-- A group whose atomic buffer holds these entries. -/
def wRedo (es : List RedoEnt) : State := wWith { wGrp with redo := es }
def wE (pa : Nat) (op : BitVec 4) : RedoEnt := { pa := pa, wide := true, op := op }

theorem test_meets_ReductionsGatherAndSettle :
    (Runs wSt 0 (.redo { wT 0 (.v 1) (.s 1) 1 with scope := .grp, order := .rlx }) ∧
      failed (firstTrap ((workLanes (wSt.grp 0) .all (.v 1)).map (checkAtom wSt (wSt.grp 0) (wT 0 (.v 1) (.s 1) 1)))) = true) ∧
    (Runs wSt 0 (.redo { wT 0 (.v 9) (.s 1) 8 with scope := .grp, order := .rlx }) ∧ (opVal (wSt.grp 0) .i64 (.v 9) 0).poi = true ∧
      okAnd (firstTrap ((workLanes (wSt.grp 0) .all (.v 9)).map (checkAtom wSt (wSt.grp 0) (wT 0 (.v 9) (.s 1) 8)))) (fun _ => true) = true) ∧
    mayPass wSt (wSt.grp 0) ∧
    (∀ p ∈ [([wE 65800 0], true, false), ([wE 65808 0], false, true), ([wE 65800 2], false, false),
            ([wE 65808 0, wE 65816 0, wE 65824 0, wE 65832 0, wE 65840 0], false, false)],
      let s := wRedo p.1
      Runs s 0 (.redo { wT 0 (.s 2) (.s 1) 8 with scope := .grp, order := .rlx }) ∧
      okAnd (firstTrap ((workLanes (s.grp 0) .all (.s 2)).map (checkAtom s (s.grp 0) (wT 0 (.s 2) (.s 1) 8)))) (fun as => as.length == 1 && as.all (fun a => a.xl.pa == 65800)) = true ∧
      (opVal (s.grp 0) .i64 (.s 2) 0).poi = false ∧
      (p.2.1 = true ↔ ∃ h ∈ (s.grp 0).redo, h.pa = 65800 ∧ h.op = 0) ∧ (p.2.2 = true ↔ (∀ h ∈ (s.grp 0).redo, h.pa ≠ 65800) ∧ (s.grp 0).redo.length < 5)) ∧
    (let p : Partial := { id := 1, ent := wE 65800 0 }
     let q (n k : Nat) : State := { wSt with flights := [p], staged := List.replicate k { p with id := 0, ent := wE 65808 0 }, ctxs := [(0, { st := .active, keycnt := 1, rdq := n })] }
     (q 0 0).flights[0]? = some p ∧ (q 1 4095).flights[0]? = some p ∧ ((q 1 4095).ctxs.get p.ctx).rdq ≠ 0 ∧ (q 1 4095).staged.length < 1 * 4096 ∧
      ¬(q 1 4096).staged.length < 1 * 4096 ∧ (sortPartials ([] ++ [p])).length = 1) := by
  delta Runs mayPass; and_intros <;> decide +kernel

theorem test_meets_ResultsReturn :
    (let f : Flight := { tag := 3, regs := [4], flags := 1, stage := 1 }
     let s := { wWith { wGrp with chain := some (1, 0), inflight := [f] } with chains := [(1, { stages := [{}, {}] })] }
     (s.grp 0).inflight.find? (fun h => h.tag == 3) = some f ∧ flightReady s (s.grp 0) f = true ∧ (s.grp 0).chain = some (1, 0) ∧ f.stage ≠ 0) ∧
    (∀ f ∈ [({ tag := 3, regs := [4], writes := [⟨4, 31, ⟨9, true⟩⟩], flags := 31, pinfo := [(0, 7)], acquire := true } : Flight), { tag := 3, regs := [0x10A], drainKinds := 7, waits := [.copies []] }],
      let s := wWith { wGrp with life := .parked, run := none, parkNames := [4], inflight := [f] }
      (s.grp 0).inflight.find? (fun h => h.tag == 3) = some f ∧ flightReady s (s.grp 0) f = true ∧ (s.grp 0).life = .parked ∧
        ∀ c ∈ (s.grp 0).parkNames, ∀ h ∈ (s.grp 0).inflight.filter (fun h => h.tag != 3), c ∉ h.regs) ∧
    (let f : Flight := { tag := 3, regs := [4] }
     let s := wWith { wGrp with life := .parked, run := none, parkNames := [5], inflight := [f, { tag := 6, regs := [5] }] }
     (s.grp 0).inflight.find? (fun h => h.tag == 3) = some f ∧ flightReady s (s.grp 0) f = true ∧
      ¬((s.grp 0).life = .parked ∧ ∀ c ∈ (s.grp 0).parkNames, ∀ h ∈ (s.grp 0).inflight.filter (fun h => h.tag != 3), c ∉ h.regs)) := by
  and_intros <;> decide +kernel

/-- A copy descriptor at 65792: one row of 8 bytes from 66048 to 66112. -/
def wCpy (ctl : Byte) : State := wMem [(65793, 2), (65794, 1), (65800, 0x40), (65801, 2), (65802, 1), (65808, ctl), (65816, 8), (65820, 1)]

theorem test_meets_CopiesAreIssuedAndComplete :
    (Runs wSt 0 (.cpy (.s 9)) ∧ failed (addrOf (wSt.grp 0) (.s 9)) = true) ∧
    (Runs wSt 0 (.cpy (.s 2)) ∧ okAnd (addrOf ((performAll wSt 0).grp 0) (.s 2)) (fun va => failed (readDesc (seenRange (performAll wSt 0) 0 va 64) 0 va 64 64)) = true) ∧
    (let u := seenRange (performAll (wCpy 7) 0) 0 65792 64
     Runs (wCpy 7) 0 (.cpy (.s 1)) ∧ okAnd (readDesc u 0 65792 64 64) (fun ws => copyBad ws (copyOf ws) || decTooBig u (u.grp 0) (copyOf ws)) = true) ∧
    (let u := seenRange (performAll (wCpy 5) 0) 0 65792 64
     Runs (wCpy 5) 0 (.cpy (.s 1)) ∧ okAnd (addrOf (u.grp 0) (.s 1)) (· == 65792) = true ∧
      okAnd (readDesc u 0 65792 64 64) (fun ws => !copyBad ws (copyOf ws) && failed (copyCheck u (u.grp 0) (copyOf ws))) = true) ∧
    (let u := seenRange (performAll (wCpy 4) 0) 0 65792 64
     Runs (wCpy 4) 0 (.cpy (.s 1)) ∧
      okAnd (readDesc u 0 65792 64 64) (fun ws => !(copyBad ws (copyOf ws) || decTooBig u (u.grp 0) (copyOf ws)) && okAnd (copyCheck u (u.grp 0) (copyOf ws)) (fun _ => true)) = true) ∧
    Runs wSt 0 (.drain (.s 10) 7) ∧
    (let c : Copy := { id := 5, tid := 1, src := 66048, dst := 131064, dkind := 1, rows := 1, rowlen := 8, xl := [(1, { pa := 65536, w := true })] }
     let s : State := { wSt with copies := [c] }
     s.copies.find? (fun d => d.id == 5) = some c ∧ (s.teams.get 1).exits < (s.teams.get 1).ngroup ∧ c.row + 1 = c.rows ∧ 0 < c.rowlen ∧ c.dec = false ∧ c.skind ≠ 1 ∧ c.dkind ≠ 0 ∧
      alarmed s = false ∧ (dstRow c c.row).toNat % 65536 + c.rowlen ≤ 65536) ∧
    (∀ k, keyIx wSt k = 0) ∧
    (let c : Copy := { id := 5, tid := 1, rows := 1 }
     let s : State := { wSt with copies := [c], groups := [], teams := [(1, { wTeam with exits := 1 })] }
     s.copies.find? (fun d => d.id == 5) = some c ∧ (s.teams.get 1).ngroup ≤ (s.teams.get 1).exits ∧ (∀ e ∈ s.engines, ∀ n ∈ e.2, n.tid ≠ 1) ∧ (∀ e ∈ s.groups, e.2.tid ≠ 1) ∧
      (∀ d ∈ s.copies, d.id ≠ 5 → d.tid ≠ 1) ∧ (s.reentry.get 1).isEmpty ∧ c.rowlen = 0) := by
  delta Runs
  refine ⟨by decide +kernel, by decide +kernel, by decide +kernel, by decide +kernel, by decide +kernel, by decide +kernel, by decide +kernel, ?_, by decide +kernel⟩
  intro k; cases k with
  | zero => rfl
  | succ k => simp [keyIx, wSt, SMap.get]; rfl

-- ===== transactions and barriers =====

/-- A transaction whose read set holds a line at a position. -/
def wTxR (pos : Nat) (tx : Tx) : Group := { wTx with tx := { tx with act := true, restart := { pc := 65536 }, reads := [⟨1028, pos, 0⟩] } }
def wAll : BitVec 32 := 0xFFFFFFFF

theorem test_meets_TransactionWords :
    (Runs wSt 0 .tbegin ∧ (wSt.grp 0).tx.act = false ∧ mayPass wSt (wSt.grp 0)) ∧
    (let s := wCompat { wGrp with roundDone := true }; Runs s 0 .tbegin ∧ inCompat s (s.grp 0) = true ∧ mayPass s (s.grp 0)) ∧
    (∀ i ∈ [Instr.tbegin, .tend, .retry, .tabort, .otherwise 2], let s := wWith (wTxR 0 { lanes := 1 })
      Runs s 0 i ∧ (s.grp 0).tx.act = true ∧ active (s.grp 0) ≠ (s.grp 0).tx.lanes ∧ txValid s (s.grp 0) = true) ∧
    (∀ i ∈ [Instr.tbegin, .tend, .retry, .tabort, .otherwise 2], let s := wWith (wTxR 1 { lanes := 1 })
      Runs s 0 i ∧ active (s.grp 0) ≠ (s.grp 0).tx.lanes ∧ txValid s (s.grp 0) = false) ∧
    (let s := wWith (wTxR 0 { lanes := 1 }); CanSettle (s.setGrp 0 { closeTx (s.grp 0) 7 (runPc (s.grp 0)) with capCount := 0 }) 0) ∧
    (∀ n ∈ [0, 14, 15], let s := wWith (wTxR 0 { lanes := wAll, nest := n })
      Runs s 0 .tbegin ∧ Runs s 0 .tend ∧ (s.grp 0).tx.act = true ∧ active (s.grp 0) = (s.grp 0).tx.lanes ∧ (s.grp 0).tx.nest = n ∧ mayPass s (s.grp 0)) ∧
    (∀ i ∈ [Instr.tend, .retry, .tabort, .otherwise 2], Runs wSt 0 i ∧ (wSt.grp 0).tx.act = false) ∧
    (∀ pos ∈ [0, 1], let s := wWith (wTxR pos { lanes := wAll, writes := [⟨1030, 0, [(0, some 7)], [], false⟩] })
      Runs s 0 .tend ∧ Runs s 0 .retry ∧ active (s.grp 0) = (s.grp 0).tx.lanes ∧ (s.grp 0).tx.nest = 0 ∧ (∀ e ∈ (s.grp 0).tx.writes, ∀ b ∈ e.poi, b.2 = false) ∧
        txValid (releaseAt (pastBoundary s 0) 0 .dev) (s.grp 0) = (pos == 0) ∧ txValid s (s.grp 0) = (pos == 0) ∧ (s.grp 0).tx.succ = none ∧ (s.grp 0).tx.reads ≠ [] ∧ mayPass s (s.grp 0)) ∧
    (let s := wWith (wTxR 0 { lanes := wAll, succ := some { pc := 65600 } })
     Runs s 0 .retry ∧ Runs s 0 (.otherwise 2) ∧ (s.grp 0).tx.succ ≠ none ∧ active (s.grp 0) = (s.grp 0).tx.lanes ∧ inCompat s (s.grp 0) = false ∧ mayPass s (s.grp 0)) ∧
    (∀ a ∈ [2, 3], let s := wWith (wTxR 0 { lanes := wAll, alt := a })
      Runs s 0 (.otherwise 2) ∧ Runs s 0 .tabort ∧ (s.grp 0).tx.succ = none ∧ (s.grp 0).tx.alt = a ∧ active (s.grp 0) = (s.grp 0).tx.lanes ∧ mayPass s (s.grp 0)) := by
  delta Runs CanSettle mayPass; and_intros <;> decide +kernel

theorem test_meets_TransactionsKeepTheirSets :
    (let s := wWith wTx
     (s.grp 0).tx.act = true ∧ Runs s 0 (.ld (wM (.v 3) 8)) ∧
      okAnd (checkLanes s (s.grp 0) .load false 0 (.s 1) 8 (workLanes (s.grp 0) .all (.v 3)))
        (fun as => (addReads s 0 (as.flatMap (txLoadLines (s.grp 0)))).isSome && as.all (fun a => a.ext == .zero)) = true ∧
      FramesAligned s ∧ WellFormed (.st (wM (.v 9) 8)) ∧ Runs s 0 (.st (wM (.v 9) 8)) ∧ ¬isRel .rlx = true ∧
      okAnd (checkLanes s (s.grp 0) .store false 0 (.s 1) 8 (workLanes (s.grp 0) .all (.v 9)))
        (fun as => decide ((s.grp 0).tx.writes.length + (as.map (fun a => a.xl.pa / 64)).eraseDups.length ≤ 8)) = true ∧
      issuer s = some 0 ∧ precheck s 0 (.cpy (.s 1)) = .refused) ∧
    (let s := wWith (wTxR 1 { lanes := wAll }); (s.grp 0).tx.act = true ∧ txValid s (s.grp 0) = false ∧ (s.grp 0).life = .issuing ∧ (s.grp 0).run.isSome = true ∧
      ((s.grp 0).atBoundary && (s.grp 0).pastWord) = false) ∧
    (let s := wWith (wTxR 0 { lanes := wAll })
     Runs s 0 (.trap .all 5) ∧ liveOf (s.grp 0) .all ≠ 0 ∧ CanSettle s 0 ∧ txValid (settled s 0) ((settled s 0).grp 0) = true ∧ inHandler (s.grp 0) = false ∧
      (s.grp 0).spr.uvec ≠ 0) := by
  delta Runs CanSettle; refine ⟨⟨rfl, by decide +kernel, by decide +kernel, ?_, by decide +kernel⟩, by decide +kernel, by decide +kernel⟩
  exact wFrames

/-- A barrier line at 65792 with these bytes. -/
def wBar (bs : SMap Byte) : State := wMem bs
/-- The same line poisoned. -/
def wBarP : State := { wSt with h := { wH with poi := [(1028, true)] } }

theorem test_meets_Barriers :
    (∀ i ∈ [Instr.binit (.s 2) 1, .barv false .dev (.v 0) (.s 2) 1, .barv true .dev (.s 10) (.s 2) 1, .bwait .dev (.s 3) (.s 2), .btest (.s 10) (.s 2)], Runs wSt 0 i) ∧
    failed (barAddr wSt (wSt.grp 0) .store (.s 2)) = true ∧ failed (barAddr wSt (wSt.grp 0) .load (.s 2)) = true ∧
    (∀ i ∈ [Instr.binit (.s 1) 0xFFFFFF, .barv false .grp (.v 0) (.s 1) 1, .barv true .sys (.s 10) (.s 1) 0xFFFF, .bwait .dev (.s 3) (.s 1), .bwait .dev (.s 9) (.s 1), .btest (.s 10) (.s 1)],
      Runs wSt 0 i) ∧
    okAnd (barAddr wSt (wSt.grp 0) .store (.s 1)) (fun b => b.2.key == 0 && b.2.pa % 64 == 0 && b.2.pa == 65792) = true ∧
    okAnd (barAddr wSt (wSt.grp 0) .load (.s 1)) (fun _ => true) = true ∧ alarmed (releaseAt wSt 0 .dev) = false ∧
    (arrive (settleLine (releaseAt wSt 0 .dev) 0 0 1028) 0 65792 1 0xFF).poi = false ∧
    (arrive (settleLine (releaseAt wBarP 0 .dev) 0 0 1028) 0 65792 1 0xFF).poi = true ∧
    (inMemory 65792 = true ∧ 65792 % 64 = 0 ∧ (0 : Nat) < 1) ∧
    (opVal (wSt.grp 0) .i64 (.s 9) 0).poi = true ∧ (opVal (wSt.grp 0) .i64 (.s 3) 0).poi = false ∧ (wSt.grp 0).tx.act = false ∧
    (hPoi (settleLine wBarP 0 0 1028) 1028 = true) ∧
    (let v := hNat (settleLine (wBar [(65799, 0x80)]) 0 0 1028) 0 65792 8; barBroken v = true) ∧
    (let v := hNat (settleLine (wBar [(65792, 2)]) 0 0 1028) 0 65792 8; barBroken v = false ∧ barPhase v = barPhase 64) ∧
    (let v := hNat (settleLine (wBar [(65792, 2), (65798, 0xFF)]) 0 0 1028) 0 65792 8; barBroken v = false ∧ barPhase v ≠ barPhase 64) ∧
    (let v := hNat (wBar []) 0 65792 8; barBroken v = false ∧ barMalformed v = true) ∧
    (hNat (wBar [(65792, 1), (65798, 0xFF), (65799, 0x40)]) 0 65792 8 = barState 1 0 255 1 ∧ (0 : Nat) < 1 ∧ (1 : Nat) < 2 ^ 24 ∧ (255 : Nat) < 256 ∧ (1 : Nat) < 2) ∧
    (hNat (wBar [(65792, 0xFF), (65793, 0xFF), (65794, 0xFF), (65795, 0xFE), (65796, 0xFF), (65797, 0xFF)]) 0 65792 8 = barState 0xFFFFFF 0xFFFFFE 0 0 ∧ (0xFFFFFF : Nat) < 2 ^ 24 ∧ (0xFFFFFE : Nat) < 0xFFFFFF) := by
  delta Runs; and_intros <;> decide +kernel

-- ===== queues and chains =====

/-- A handle bound to the queue descriptor at 65792, whose words are PUTCNT, GETCNT, the ring at 66048 and CTL. -/
def wHandle (link : Bool) : QHandle := { bound := true, link := link, addr := 65792 }
def wQG : Group := { wGrp with q := [(1, wHandle false)] }
def wQ (bs : SMap Byte) : State := { wMem bs with groups := [(0, wQG)] }

theorem test_meets_QueueWords :
    (Runs wSt 0 (.qbind (.s 9) 7) ∧ failed (addrOf (wSt.grp 0) (.s 9)) = true ∧ Runs wSt 0 (.qcnt (.s 10) 7) ∧ ((wSt.grp 0).q.get 7).bound = false ∧ (wSt.grp 0).tx.act = false) ∧
    (Runs wSt 0 (.qbind (.s 2) 7) ∧ okAnd (addrOf (wSt.grp 0) (.s 2)) (fun va => failed (checkAddr wSt 0 false .load false va 64)) = true) ∧
    (let s := wWith { wGrp with q := [(1, { bound := true, addr := 3 })] }
     Runs s 0 (.qcnt (.s 10) 1) ∧ failed (checkAddr s 0 false .load false ((s.grp 0).q.get 1).addr 64) = true) ∧
    (let s : State := { wQ [(65809, 2), (65810, 1), (65816, 2)] with h := { (wQ [(65809, 2), (65810, 1), (65816, 2)]).h with poi := [(1028, true)] } }
     Runs s 0 (.qbind (.s 1) 1) ∧ Runs s 0 (.qcnt (.s 10) 1) ∧ okAnd (checkAddr s 0 false .load false 65792 64) (fun xl => hPoi (settleLine s 0 xl.key (xl.pa / 64)) (xl.pa / 64)) = true) ∧
    (let s := wQ [(65809, 2), (65810, 1), (65816, 1)]
     Runs s 0 (.qbind (.s 1) 1) ∧ Runs s 0 (.qcnt (.s 10) 1) ∧ okAnd (checkAddr s 0 false .load false 65792 64)
      (fun xl => (qdescOf 65792 xl.key xl.pa (hRead (settleLine s 0 xl.key (xl.pa / 64)) xl.key xl.pa 64)).bad) = true) ∧
    (let s := wQ [(65809, 2), (65810, 1), (65816, 2), (65820, 0x0F)]
     Runs s 0 (.qbind (.s 1) 1) ∧ okAnd (addrOf (s.grp 0) (.s 1)) (· == 65792) = true ∧ someAnd (queueFound s 0 .load 65792) (fun r => r.2.lnch) = true) ∧
    (let s := wQ [(65792, 2), (65809, 2), (65810, 1), (65816, 2)]
     Runs s 0 (.qbind (.s 1) 1) ∧ Runs s 0 (.qbindFree 1) ∧ Runs s 0 (.qcnt (.s 10) 1) ∧ ((s.grp 0).q.get 1).bound = true ∧
      someAnd (queueFound s 0 .load 65792) (fun r => !r.2.lnch) = true) := by
  delta Runs; and_intros <;> decide +kernel

theorem test_meets_PutsAndGets :
    (∀ p ∈ [(([(65809, 2), (65810, 1), (65816, 2)] : SMap Byte), false, false), ([(65809, 2), (65810, 1), (65816, 2), (65820, 0x20)], false, true), ([(65792, 2), (65809, 2), (65810, 1), (65816, 2)], true, false),
            ([(65792, 0xFF), (65793, 0xFF), (65794, 0xFF), (65795, 0xFF), (65796, 0xFF), (65797, 0xFF), (65798, 0xFF), (65799, 0xFF), (65800, 0xFE), (65801, 0xFF), (65802, 0xFF), (65803, 0xFF), (65804, 0xFF), (65805, 0xFF), (65806, 0xFF), (65807, 0xFF), (65809, 2), (65810, 1), (65816, 2)], false, false)], let s := wQ p.1
      Runs s 0 (.put (.s 10) (.s 2) 1) ∧ Runs s 0 (.put (.s 10) (.v 1) 1) ∧ (s.grp 0).tx.act = false ∧ ((s.grp 0).q.get 1).bound = true ∧ ((s.grp 0).q.get 1).link = false ∧
        someAnd (queueFound s 0 .store 65792) (fun r =>
          (blockBad r.1 (r.1.grp 0) 65792 0x102 r.2.words).isNone && (elemPoison (s.grp 0) 0x102 r.2.words [0]).isNone && r.2.cclosed == p.2.2 && (decide (r.2.cap < r.2.count + 1) == p.2.1) && (p.2.1 || okAnd (qSlots r.1 (gAcc (s.grp 0)) .store r.2 r.2.put 1) (fun sl => sl.length == 1))) = true) ∧
    (let s := wQ [(65809, 2), (65810, 1), (65816, 2)]
     Runs s 0 (.put (.s 10) (.s 9) 1) ∧ someAnd (queueFound s 0 .store 65792) (fun r =>
      (blockBad r.1 (r.1.grp 0) 65792 0x109 r.2.words).isNone && elemPoison (s.grp 0) 0x109 r.2.words (batchLanes (s.grp 0) (.s 9)) == some 0) = true) ∧
    (∀ p ∈ [(([(65809, 2), (65810, 1), (65816, 2)] : SMap Byte), true, false), ([(65809, 2), (65810, 1), (65816, 2), (65820, 0x10)], true, true), ([(65792, 1), (65809, 2), (65810, 1), (65816, 2)], false, false)], let s := wQ p.1
      Runs s 0 (.get (.s 10) 1) ∧ someAnd (queueFound s 0 .store 65792) (fun r => (blockBad r.1 (r.1.grp 0) 65792 0x10A r.2.words).isNone &&
        (decide (r.2.count < (batchLanes (s.grp 0) (.s 10)).length) == p.2.1) && r.2.pclosed == p.2.2 &&
        okAnd (qSlots r.1 (gAcc (s.grp 0)) .load r.2 r.2.get 1) (fun sl => sl.length == 1)) = true) ∧
    alarmed wSt = false ∧ someAnd (queueFound (wQ [(65809, 2), (65810, 1), (65816, 2)]) 0 .store 65792) (fun r => r.2.key == 0 && r.2.pa % 64 == 0 && decide (66048 ≥ r.2.pa + 8)) = true := by
  delta Runs; and_intros <;> decide +kernel

/-- A chain descriptor at 65792 of two stages, whose link's queue descriptor stands at 66048. -/
def wChl (bs : SMap Byte) : State := wMem bs

theorem test_meets_ChainWords :
    (Runs wSt 0 (.chload (.s 10) (.s 9)) ∧ failed (addrOf (wSt.grp 0) (.s 9)) = true) ∧
    (Runs wSt 0 (.chload (.s 10) (.s 2)) ∧ okAnd (addrOf (wSt.grp 0) (.s 2)) (fun va => failed (readDesc (seenRange (releaseAt wSt 0 .dev) 0 va 64) 0 va 64 64)) = true) ∧
    (let s : State := { wWith { wGrp with s := [(1, ⟨131008, false⟩)] } with h := { wH with bytes := wH.bytes ++ [(131008, 1)] } }
     let v := seenRange (releaseAt s 0 .dev) 0 131008 64
     Runs s 0 (.chload (.s 10) (.s 1)) ∧ okAnd (readDesc v 0 131008 64 64) (fun hd => field (wordAt hd 0) 0 3 == 1) = true ∧
      failed (readRange (seenRange v 0 131072 64) 0 131072 64) = true) ∧
    (let s : State := { wChl [(65792, 1)] with h := { bytes := wH.bytes ++ [(65792, 1)], poi := [(1029, true)] } }
     let v := seenRange (releaseAt s 0 .dev) 0 65792 64
     Runs s 0 (.chload (.s 10) (.s 1)) ∧ okAnd (readDesc v 0 65792 64 64) (fun hd => field (wordAt hd 0) 0 3 == 1) = true ∧
      okAnd (readRange (seenRange v 0 65856 64) 0 65856 64) (fun r => r.2.isSome) = true) ∧
    (∀ p ∈ [(([(65792, 0x41), (65856, 0x40), (65858, 1), (65865, 8), (65867, 8), (65872, 5), (65881, 2), (65882, 1), (65888, 0x48), (65890, 1), (65896, 8), (65897, 8), (65898, 8), (65899, 8), (65904, 6), (66064, 0x40), (66065, 2), (66066, 1), (66072, 2)] : SMap Byte), true, false, true),
            ([(65792, 1), (65856, 0x40), (65858, 1), (65865, 8), (65867, 8), (65872, 5), (65881, 2), (65882, 1), (65888, 0x48), (65890, 1), (65896, 8), (65897, 8), (65898, 8), (65899, 8), (65904, 6), (66064, 0x40), (66065, 2), (66066, 1), (66072, 2), (66076, 0x10)], false, true, true),
            ([(65792, 1), (65856, 0x40), (65858, 1), (65865, 8), (65867, 8), (65872, 5), (65881, 2), (65882, 1), (65888, 0x48), (65890, 1), (65896, 8), (65897, 8), (65898, 8), (65899, 8), (65904, 6), (66064, 0x40), (66065, 2), (66066, 1), (66072, 2)], false, false, true),
            ([(65792, 9), (65856, 0x40), (65858, 1), (65865, 8), (65867, 8), (65872, 5), (65881, 2), (65882, 1), (65888, 0x48), (65890, 1), (65896, 8), (65897, 8), (65898, 8), (65899, 8), (65904, 6), (66064, 0x40), (66065, 2), (66066, 1), (66072, 2)], false, false, true),
            ([(65792, 1), (65856, 0x40), (65858, 1), (65865, 8), (65867, 8), (65872, 5), (65881, 2), (65882, 1), (65888, 0x48), (65890, 1), (65896, 0x20), (65897, 8), (65898, 8), (65899, 8), (65904, 6), (66064, 0x40), (66065, 2), (66066, 1), (66072, 2)], false, false, false),
            ([(65792, 9), (65856, 0x40), (65858, 1), (65865, 8), (65867, 8), (65872, 5), (65881, 2), (65882, 1), (65888, 0x48), (65890, 1), (65896, 0x20), (65897, 8), (65898, 8), (65899, 8), (65904, 6), (66064, 0x40), (66065, 2), (66066, 1), (66072, 2)], false, false, false)],
      let s : State := { wChl p.1 with groups := if p.2.2.2 then [(0, wGrp)] else [(0, wGrp), (1, { blocks := 48 })] }
      let v := seenRange (releaseAt s 0 .dev) 0 65792 64
      let u := seenRange v 0 65856 64
      Runs s 0 (.chload (.s 10) (.s 1)) ∧ okAnd (addrOf (s.grp 0) (.s 1)) (· == 65792) = true ∧
      okAnd (readDesc v 0 65792 64 64) (fun hd => field (wordAt hd 0) 0 3 == 1 && okAnd (readRange u 0 65856 64) (fun r =>
        r.2.isNone &&
        let ws := hd ++ toWords r.1
        let ts := stagesOf ws 2
        stagesBad ws ts == p.2.1 && (p.2.1 || failed (linksCheck u (u.grp 0) ts) == p.2.2.1) &&
        (decide (if flag (wordAt ws 0) 3 then 1 ≤ (freeSlots u 0).length ∧ maxBlocks ts ≤ poolFree u 0 else 2 ≤ (freeSlots u 0).length ∧ sumBlocks ts ≤ poolFree u 0) == p.2.2.2))) = true) ∧
    (∀ i ∈ [Instr.chfold (.s 10), .chspread (.s 10)], Runs wSt 0 i) ∧ (wSt.grp 0).chain = none ∧
    (∀ f ∈ [true, false], let s : State := { wWith { wGrp with chain := some (1, 1) } with chains := [(1, { live := true, folded := f, stages := [{}, { slen := 16 }] })] }
      Runs s 0 (.chfold (.s 10)) ∧ Runs s 0 (.chspread (.s 10)) ∧ (s.grp 0).chain = some (1, 1) ∧ (s.chains.get 1).folded = f) := by
  delta Runs; and_intros <;> decide +kernel

/-- Two stages with a link between them, its register full or empty, in one folded chain whose stage `i` runs. -/
def wStages (l : Option (List (BitVec 64) × Bool)) : List Stage := [{ pc := 65600, vlen := 8, slen := 8, outq := 65792, link := l, gid := 0 }, { pc := 65608, vbase := 8, vlen := 8, sbase := 8, slen := 8, gid := 1 }]
def wFold (i : Nat) (l : Option (List (BitVec 64) × Bool)) : State :=
  { wQ [(65809, 2), (65810, 1), (65816, 2)] with
    groups := [(0, { wGrp with chain := some (1, i), q := [(0, wHandle true), (1, wHandle true)] })],
    chains := [(1, { live := true, tid := 1, folded := true, running := i, stages := wStages l })] }
/-- The same chain with its group at a trailer; and in spread form, both stages' groups at trailers. -/
def wAtTrl : Group := { wGrp with life := .ready, run := none, frontier := [{ pc := 65600, mask := wAll }], chain := some (1, 0) }
def wFoldT (w : List ChainWant) : State :=
  { wQ [(65809, 2), (65810, 1), (65816, 2)] with groups := [(0, wAtTrl)], chains := [(1, { live := true, tid := 1, folded := true, stages := wStages none, wants := w })] }
def wSpreadT (w : List ChainWant) : State :=
  { wQ [(65792, 1), (65809, 2), (65810, 1), (65816, 2)] with groups := [(0, wAtTrl), (1, { wAtTrl with chain := some (1, 1) })], chains := [(1, { live := true, tid := 1, stages := wStages none, wants := w })] }

theorem test_meets_ChainsMoveTheirElements :
    (∀ l ∈ [none, some ([5#64], true)], let s := wFold 0 l
      Runs s 0 (.put (.s 4) (.s 2) 1) ∧ (s.grp 0).tx.act = false ∧ ((s.grp 0).q.get 1).bound = true ∧ ((s.grp 0).q.get 1).link = true ∧ (s.grp 0).chain = some (1, 0) ∧
      (s.chains.get 1).folded = true ∧ linkBad s (s.grp 0) (.s 2) true = false ∧ (((s.chains.get 1).stages.getD 1 default).exited = false) ∧
      ((s.chains.get 1).stages.getD 0 default).link = l ∧
      someAnd (queueFound s 0 .store 65792) (fun r => (blockBad r.1 (r.1.grp 0) 65792 0x102 r.2.words).isNone && (elemPoison (s.grp 0) 0x102 r.2.words [0]).isNone && !r.2.cclosed) = true) ∧
    (∀ l ∈ [none, some ([5#64], true)], let s := wFold 1 l
      Runs s 0 (.get (.s 10) 0) ∧ (s.grp 0).chain = some (1, 1) ∧ 1 < (s.chains.get 1).stages.length ∧ linkBad s (s.grp 0) (.s 10) true = false ∧
      ((s.chains.get 1).stages.getD 0 default).link = l ∧ ((s.chains.get 1).stages.getD 0 default).exited = false ∧
      someAnd (queueFound s 0 .store 65792) (fun r => (blockBad r.1 (r.1.grp 0) 65792 0x10A r.2.words).isNone && !r.2.pclosed && r.2.words == 1) = true) ∧
    (let w : ChainWant := ⟨true, 0, 7, true⟩
     ((wFoldT [w]).chains.get 1).wants.find? (fun w => w.on && w.fold) = some w ∧ ((wFoldT [w]).chains.get 1).folded = true) ∧
    (∀ w ∈ [[], [⟨true, 0, 7, true⟩]], let s := wSpreadT w
     let h := s.chains.get 1
     let gs := (liveStages h).map (fun e => s.grp e.2.gid)
     h.wants.find? (fun w => w.on && w.fold) = w.head? ∧ h.live = true ∧ h.folded = false ∧ h.noFold = false ∧ liveStages h ≠ [] ∧
      (gs.all (stageStands s 1) && gs.all stagePlain && linksLight s h) = true ∧ foldRoom s h = true ∧ (foldChain s 1).isSome = true) ∧
    (∀ p ∈ [(wTx, false), ({ blocks := 48 }, true)], let s : State := { wSpreadT [⟨true, 0, 7, true⟩] with
                groups := [(0, wAtTrl), (1, { wAtTrl with chain := some (1, 1), tx := p.1.tx }), (2, { blocks := p.1.blocks })] }
     let h := s.chains.get 1
     let gs := (liveStages h).map (fun e => s.grp e.2.gid)
     h.folded = false ∧ gs.all (stageStands s 1) = true ∧ (gs.all stagePlain && linksLight s h) = p.2) ∧
    (let w : ChainWant := ⟨false, 0, 7, true⟩
     ((wSpreadT [w]).chains.get 1).wants.find? (fun w => w.on && !w.fold) = some w ∧ ((wSpreadT [w]).chains.get 1).folded = false) ∧
    (let s := wFoldT []
     let h := s.chains.get 1
     h.live = true ∧ h.folded = true ∧ h.noSpread = false ∧ spreadStands (s.grp h.gid) = true ∧ stagePlain (s.grp h.gid) = true ∧ spreadRoom s h = true ∧ ∀ t ∈ h.stages, t.link = none) := by
  delta Runs; and_intros <;> decide +kernel

-- ===== tiles =====

/-- The team with these tiles, a shared store with these bytes, and these operations in the core's engine. -/
def wTiles (ts : SMap Tile) (sh : SMap Byte) (es : List EngEnt) : State :=
  { wSt with teams := [(1, { wTeam with tiles := ts, sh := sh, shm := 1 })], engines := [(0, es)] }
/-- An operation of the team by word 0 of its block. -/
def wOpn (w : BitVec 64) : EngEnt := { id := 1, tid := 1, words := [w] }

theorem test_meets_TilesAreOwnedReadAndWritten :
    (let s := wTiles [] [] [wOpn 0x0300000000000000]
     Runs s 0 (.mxacq (.s 10) 3) ∧ ((s.teams.get 1).tiles.get 3).tok = false ∧ tileBusy s 1 3 = true) ∧
    (∀ f ∈ [0, 1, 2, 3], let s := wTiles [(3, { flt := f, fblk := 2 })] [] []
     Runs s 0 (.mxacq (.s 10) 3) ∧ tileBusy s 1 3 = false ∧ ((s.teams.get 1).tiles.get 3).flt = f) ∧
    (∀ k ∈ [true, false], let s := wTiles [(15, { tok := k, rank := 2 })] [] []
     (∀ r ∈ [true, false], Runs s 0 (.mxrel r 15)) ∧ Runs s 0 (.mxrank (.s 10) 15) ∧ ((s.teams.get 1).tiles.get 15).tok = k) ∧
    (∀ q ∈ [64, 0], let tm : Team := { wTeam with quota := q, rcap := 2, tileMode := 1, tiles := [(15, { tok := true, rank := 2 })] }
      let s : State := { wSt with teams := [(1, tm)], groups := [(0, { wGrp with s := [(2, ⟨3, false⟩), (3, ⟨32, false⟩)] })] }
      Runs s 0 (.mxrankSet (.s 10) (.s 2) 15) ∧ (opVal (s.grp 0) .i64 (.s 2) 0).val = 3 ∧ tm.rcap.toNat % 32 < 3 ∧ tm.tileMode.getLsbD 0 = true ∧
        Runs s 0 (.mxrankSet (.s 10) (.s 3) 15) ∧ (opVal (s.grp 0) .i64 (.s 3) 0).val = 32 ∧ roomFor tm 15 8 false = (q == 64) ∧
        Runs s 0 (.mxwr .row (.v 9) (.s 2) 15) ∧ (tm.tiles.get 15).dense = false) ∧
    (∀ p ∈ [(2#6, 3, 31, 64, true), (3, 64, 31, 64, false), (2, 3, 2, 64, false), (2, 3, 3, 0, false), (2, 3, 3, 1, true)],
      let s : State := { wTiles [(15, { tok := true, rank := 2 })] [] [] with
                         teams := [(1, { wTeam with quota := p.2.2.2.1, rcap := BitVec.ofNat 64 p.2.2.1, tiles := [(15, { tok := true, rank := 2 })] })] }
      let v := opVal (s.grp 0) .i64 (.s p.1) 0
      Runs s 0 (.mxrankSet (.s 10) (.s p.1) 15) ∧ v.poi = false ∧ v.val.toNat = p.2.1 ∧ ((s.teams.get 1).tiles.get 15).tok = true ∧
        ((32 < v.val.toNat) ∨ (p.2.2.1 < v.val.toNat ∧ (s.teams.get 1).tileMode.getLsbD 0 = false) ∨
          (v.val.toNat ≤ p.2.2.1 ∧ roomFor (s.teams.get 1) 15 ((v.val.toNat + 3) / 4) false = p.2.2.2.2))) ∧
    (let s : State := { wTiles [(15, { tok := true, dense := true })] [] [] with groups := [(0, { wGrp with s := [(2, ⟨32, false⟩)] })] }
     Runs s 0 (.mxrankSet (.s 10) (.s 2) 15) ∧ (opVal (s.grp 0) .i64 (.s 2) 0).val = 32 ∧ roomFor (s.teams.get 1) 15 8 false = true) ∧
    (∀ a ∈ [Opd.s 2, .s 3, .s 9], ∀ k ∈ [true, false], let s := wTiles [(15, { tok := k, dense := true, poi := true })] [] []
      ∀ i ∈ [Instr.mxrd .row (.v 3) a 15, .mxwr .row (.v 9) a 15, .mxrankSet (.s 10) a 15], Runs s 0 i) ∧
    (let s := wTiles [(15, { tok := true, rank := 4 })] [] []
     (∀ p ∈ [TilePart.u, .v], Runs s 0 (.mxrd p (.v 3) (.s 2) 15) ∧ Runs s 0 (.mxwr p (.v 9) (.s 2) 15)) ∧ ((3#64).toNat < 4) ∧
      (∀ p ∈ [TilePart.u, .v, .row], vecValid ((s.teams.get 1).tiles.get 15) p 64 = false ∧ Runs s 0 (.mxwr p (.v 9) (.s 3) 15) ∧ Runs s 0 (.mxrd p (.v 3) (.s 3) 15))) ∧
    (opVal (wSt.grp 0) .i64 (.s 2) 0 = ⟨3, false⟩ ∧ (opVal (wSt.grp 0) .i64 (.s 9) 0).poi = true ∧ (3 : Nat) < 64) := by
  delta Runs; and_intros <;> decide +kernel

/-- A group whose s1 is 64, the offset of a block in the shared store. -/
def wBlk (bs : SMap Byte) (ts : SMap Tile) (es : List EngEnt) : State :=
  { wTiles ts bs es with groups := [(0, { wGrp with s := [(1, ⟨64, false⟩), (2, ⟨3, false⟩), (3, ⟨4096, false⟩), (9, ⟨5, true⟩)] })] }
/-- The block of an MMA with K = 4 on INT8 maps at 128 and 160. -/
def wMma : SMap Byte := [(64, 4), (71, 0x13), (72, 0xA0), (76, 0x80), (129, 2), (136, 0x10), (144, 0x0D), (161, 8), (168, 0x10), (176, 0x0D)]

theorem test_meets_TileOperationsAreIssued :
    (∀ a ∈ [Opd.s 1, .s 2, .s 3, .s 9], Runs (wBlk [] [] []) 0 (.mxiss (.s 10) a)) ∧
    ((opVal ((wBlk [] [] []).grp 0) .i64 (.s 9) 0).poi = true ∧ (3 : Nat) % 64 ≠ 0 ∧ 4096 * 1 < 4096 + 64) ∧
    (let s : State := { wBlk [] [] [] with teams := [(1, { wTeam with shPoi := [(9, true)] })] }
     Runs s 0 (.mxiss (.s 10) (.s 1)) ∧ shPoisoned ((releaseAt s 0 .team).teams.get 1) 64 64 = true) ∧
    (∀ p ∈ [(([(71, 0x90)] : SMap Byte), true, false), ([(64, 4), (71, 0x13), (72, 0xA1), (76, 0x80)], false, true), (wMma, false, false), ([(68, 4), (71, 3)], false, false)],
      let u := releaseAt (wBlk p.1 [] []) 0 .team
      let tm := u.teams.get 1
      let ws := shWords tm 64 5
      Runs (wBlk p.1 [] []) 0 (.mxiss (.s 10) (.s 1)) ∧ (opVal ((wBlk p.1 [] []).grp 0) .i64 (.s 1) 0) = ⟨64, false⟩ ∧ shPoisoned tm 64 64 = false ∧
        blockRefused ws = p.2.1 ∧ (p.2.1 || (mapChecks u tm ws).isSome == p.2.2) = true ∧ blkGlb (wordAt ws 0) = false) ∧
    (let s := wBlk [(68, 8), (71, 0x63), (81, 2), (82, 1)] [] []
     let u := releaseAt s 0 .team
     Runs s 0 (.mxiss (.s 10) (.s 1)) ∧ blockRefused (shWords (u.teams.get 1) 64 5) = false ∧ mapChecks u (u.teams.get 1) (shWords (u.teams.get 1) 64 5) = none ∧
      okAnd (glbCheck u 0 false (shWords (u.teams.get 1) 64 5)) (fun xl => xl.length == 1) = true) ∧
    (∀ k ∈ [true, false], let u := releaseAt (wBlk wMma [(3, { tok := k })] []) 0 .team
     namedTiles (wordAt (shWords (u.teams.get 1) 64 5) 0) = [3] ∧ ((u.teams.get 1).tiles.get 3).tok = k) ∧
    (let s := wBlk wMma [] (List.replicate 16 (wOpn 0))
     Runs s 0 (.mxiss (.s 10) (.s 1)) ∧ 16 ≤ ((releaseAt s 0 .team).engines.get 0).length ∧ (releaseAt s 0 .team).reentry.get 1 = [] ∧
      ((releaseAt (wBlk wMma [] []) 0 .team).engines.get (0 / 48)).length < 16) := by
  delta Runs; and_intros <;> decide +kernel

/-- Tile 3 takes the result of an operation on tiles 1 and 2, whose block stands at 64. -/
def wEng (w : BitVec 64) (cap quota : Nat) (ts : SMap Tile) : State :=
  { wTiles ts [] [{ id := 1, tid := 1, blk := 64, words := [w], rcap := cap }, { id := 2, tid := 1, words := [0] }] with
    teams := [(1, { wTeam with quota := quota, tiles := ts })] }
/-- Whether the head of the queue runs, the form and rank of what it makes, and whether there is room. -/
def wEngRuns (s : State) : Bool × Bool × Nat × Bool :=
  let e := (s.engines.get 0).headD default
  let w := wordAt e.words 0
  let dz := (s.teams.get 1).tiles.get (blkDz w)
  let c := ((contentOf s e).run 0).1.1
  ((skipTile s e).isNone && e.badRow.isNone && !((blkOpc w == 4 || blkOpc w == 5) && blkAz w == blkDz w), c.dense, c.rank,
    roomFor (s.teams.get 1) (blkDz w) c.gran ((sourcesOf w dz.res).contains (blkDz w)))

/-- The singular values that RCMP of a tile finds. -/
def wSigmas (a : Tile) : List Val :=
  let qu := valueOf (qr ((List.range a.rank).map (fun l => (List.range 64).map (fun i => val32 (a.u.get (64 * l + i))))))
  let qv := valueOf (qr ((List.range a.rank).map (fun l => (List.range 64).map (fun i => val32 (a.v.get (64 * l + i))))))
  let m := qv.1.map (fun x => qu.1.map (fun y => valueOf (dot x y)))
  let eye := (List.range a.rank).map (fun j => (List.range a.rank).map (fun i => if i = j then Val.ofInt 1 else Val.zero false))
  (valueOf (sweepPairs ((List.replicate 6 (pairsOf a.rank)).flatten) (m, eye))).1.map (fun x => valueOf (sqrt32 (valueOf (dot x x))))
/-- An STT of tile 1 by maps at 64 and 2048, or to memory from 65536 with a stride of 256 bytes. -/
def wStt (f pitch : Nat) (t : Tile) : State :=
  { wTiles [] [] [] with
    engines := [(0, [{ wOpn (BitVec.ofNat 64 (0x7010000000000000 + f * 2 ^ 34)) with
      words := [BitVec.ofNat 64 (0x7010000000000000 + f * 2 ^ 34), 0, 65536, 256], blk := 1024, amap := [64, BitVec.ofNat 64 pitch, 1, 0], bmap := [2048, BitVec.ofNat 64 pitch, 1, 0],
      xl := [(1, { wPage.leaf with fmt := 1 })] }])],
    teams := [(1, { wTeam with tiles := [(1, t)] })] }

theorem test_meets_TheEnginePerforms_by_opcode :
    (∀ t ∈ [({} : Tile), { rank := 1, u := [(0, 0x7F800000)] }], skipTile (wEng 0x4330000000000000 31 64 [(3, t)]) (wOpn 0x4330000000000000) = none) ∧
    (∀ p ∈ [(0x4330000000000000#64, 4), (0x5330000000000000, 5)], skipTile (wEng p.1 31 64 [(3, { dense := true })]) (wOpn p.1) = none ∧ blkAz p.1 = blkDz p.1 ∧ blkOpc p.1 = p.2) ∧
    (let t : Tile := { rank := 1, u := [(0, 0x7F800000)] }
     let s := wEng 0x4330000000000000 31 64 [(3, t)]
     blkAz 0x4330000000000000 = 3 ∧ (valueOf (contentOf s (wOpn 0x4330000000000000))).2.1 = 4) ∧
    (∀ q ∈ [64, 7], let s := wEng 0x2312000000000000 4 q [(1, { rank := 3 }), (2, { rank := 2 })]
     let e : EngEnt := { id := 1, tid := 1, blk := 64, words := [0x2312000000000000], rcap := 4, dfall := true }
     skipTile s e = none ∧ (valueOf (contentOf s e)).1.dense = false ∧ e.rcap < (valueOf (contentOf s e)).1.rank ∧
      roomFor (s.teams.get 1) 3 8 (!((s.teams.get 1).tiles.get 3).res && (sourcesOf 0x2312000000000000 false).contains 3) = (q == 64)) ∧
    (∀ p ∈ [(0, 16, ({ dense := true } : Tile)), (1, 16, { dense := true }), (1, 16, { rank := 2 }), (1, 0xFFFF, { rank := 2 })], let s := wStt p.1 p.2.1 p.2.2
      let e := (s.engines.get 0).headD default
      blkOpc (wordAt e.words 0) = 7 ∧ skipTile s e = none ∧ blkGlb (wordAt e.words 0) = false ∧ blkFirn (wordAt e.words 0) = (p.1 == 1) ∧
        fmtScaled (omapOf e.amap).fmt = false ∧ (omapOf e.amap).ef.width % 8 = 0 ∧ fmtScaled (omapOf e.bmap).fmt = false ∧ (omapOf e.bmap).ef.width % 8 = 0 ∧
        (p.2.2.dense = true ∨ (omapOf e.amap).beyond p.2.2.rank 4096 = (p.2.1 == 0xFFFF))) ∧
    (let s := wStt 2 16 { dense := true }
     let e := (s.engines.get 0).headD default
     blkGlb (wordAt e.words 0) = true ∧ alarmed s = false ∧ ∀ i < 64, (match glbRowParts s e.xl e.words i with
      | [q] => q.n == 64 && q.leaf.fmt == 1 && q.leaf.pa + 4 * q.first == 65536 + 256 * i
      | _ => false) = true) ∧
    (∀ p ∈ [(({} : Tile), false), ({ u := [(0, 0x7F7FFFFF)], v := [(0, 0x7F7FFFFF)] }, true)], let a : Tile := { p.1 with rank := 1 }
      (∀ i < 64, ∀ x ∈ [val32 (a.u.get i), val32 (a.v.get i)], x.isNan = false ∧ x.isInf = false) ∧ (wSigmas a).any (fun x => x.isNan || x.isInf) = p.2) ∧
    (∀ p ∈ [(0x2312000000000000#64, 2), (0x3312000000000000, 3), (0x4310000000000000, 4), (0x5310000000000000, 5), (0x6300000000000000, 6), (0x6300000400000000, 6),
        (0x6300000800000000, 6), (0x8310000000000000, 8), (0x1300000000000001, 1)], blkOpc p.1 = p.2) ∧
    (blkGlb 0x6300000800000000 = true ∧ blkGlb 0x6300000400000000 = false ∧ blkFirn 0x6300000400000000 = true ∧ blkFirn 0x6300000000000000 = false) ∧
    (let s := wStt 2 16 {}
     let e : EngEnt := { (s.engines.get 0).headD default with words := [0x6300000800000000, 0, 65536, 256] }
     ∀ i < 64, (glbRowElems s e i).length = 64) := by
  and_intros <;> decide +kernel

theorem test_meets_TheEnginePerforms :
    (∀ p ∈ engineOps 0, let s := wEng (BitVec.ofNat 64 (p.1 * 2 ^ 60 + 0x0312000000000000)) 31 64 []
      ∃ e rest, s.engines.get 0 = e :: rest ∧ (∀ n ∈ rest, n.id ≠ e.id) ∧ (s.teams.get e.tid).exits < (s.teams.get e.tid).ngroup ∧
        blkOpc (wordAt e.words 0) = p.1) ∧
    (wEngRuns (wEng 0x0300000000000000 31 8 []) = (true, true, 0, true) ∧ wEngRuns (wEng 0x0300000000000000 31 7 []) = (true, true, 0, false) ∧
      wEngRuns (wEng 0x0300000400000000 31 0 []) = (true, false, 0, true)) ∧
    (let ts : SMap Tile := [(1, { rank := 3 }), (2, { rank := 2 })]
     wEngRuns (wEng 0x2312000200000000 5 64 ts) = (true, false, 5, true) ∧ wEngRuns (wEng 0x2312000000000000 4 64 ts) = (true, false, 5, true) ∧
      wEngRuns (wEng 0x2312000000000000 31 3 ts) = (true, false, 5, false)) ∧
    (∀ o ∈ [3, 4, 8], wEngRuns (wEng (BitVec.ofNat 64 (o * 2 ^ 60 + (if o = 3 then 0x0312000000000000 else 0x0310000000000000))) 31 0 []) = (true, false, 0, true)) ∧
    (wEngRuns (wEng 0x5310000000000000 31 64 []) = (true, true, 0, true) ∧ wEngRuns (wEng 0x6300000400000000 31 64 []) = (true, false, 0, true)) ∧
    (let e := { wOpn 0x1300000000000001 with amap := [64, 16, 13, 0], bmap := [2048, 16, 13, 0] }
     let s : State := { wTiles [] [] [e] with teams := [(1, { wTeam with tiles := [] })] }
     blkOpc (wordAt e.words 0) = 1 ∧ (omapOf e.amap).fmt = 13 ∧ (omapOf e.bmap).fmt = 13 ∧ (omapOf e.amap).sp = false ∧ (omapOf e.bmap).sp = false ∧
      (((s.teams.get 1).tiles.get 3)).nextk = 0 ∧ (((s.teams.get 1).tiles.get 3)).res = false ∧ blkAcc (wordAt e.words 0) = false ∧
      wEngRuns s = (true, true, 0, true)) ∧
    (let s : State := { wTiles [] [] (List.replicate 14 (wOpn 0)) with reentry := [(1, [wOpn 0, { wOpn 0 with id := 2 }])] }
     s.reentry.get 1 ≠ [] ∧ (s.ctxs.get (s.teams.get 1).ctx).st ≠ .saving ∧ (s.engines.get (s.teams.get 1).core).length + (s.reentry.get 1).length ≤ 16) := by
  refine ⟨by simp only [engineOps, List.forall_mem_cons]; refine ⟨?_, ?_, ?_, ?_, ?_, ?_, ?_, ?_, ?_, by simp⟩ <;> exact ⟨_, _, rfl, by decide, by decide, by decide⟩, ?_⟩
  and_intros <;> decide +kernel

-- ===== the fabric =====

/-- Compartment 3 of context 0: one block, with sluice 0. -/
def wCmp (c : Compartment) : State := { wSt with comps := [(3, { c with rect := some (0, 0, 1, 1), slmask := 1 })] }
/-- The same with bytes in memory. -/
def wCmpM (c : Compartment) (bs : SMap Byte) : State := { wCmp c with h := { wH with bytes := wH.bytes ++ bs } }

theorem test_meets_FabricWords :
    (∀ i ∈ [Instr.fstat (.s 10) 3, .fstopKill (.s 10) 3, .fstopUnload (.s 10) 3, .fstopSave (.s 10) (.s 1) 3, .fconst (.s 10) (.s 2) 3 1,
            .fconst (.s 10) (.s 9) 3 1, .fcfg false (.s 10) (.s 1) 3, .fcfgRestore false (.s 10) (.s 1) 3], Runs (wCmp {}) 0 i) ∧
    ((wSt.grp 0).sup = false ∧ (wSt.comps.get 3).rect.isSome = false) ∧ (((wCmp {}).comps.get 3).rect.isSome = true ∧ ((wCmp {}).comps.get 3).grant = ((wCmp {}).grp 0).ctx) ∧
    (∀ st ∈ [CState.empty, .loading, .loaded, .running, .freezing], let s := wCmp { st := st }
      ∀ i ∈ [Instr.fstopKill (.s 10) 3, .fstopUnload (.s 10) 3, .fstopSave (.s 10) (.s 1) 3], Runs s 0 i ∧ (s.comps.get 3).st = st) ∧
    (∀ k ∈ [0, 1, 2], ∀ st ∈ [CState.loaded, .running], Runs (wCmp { st := st, planes := { consts := [5, 6] } }) 0 (.fconst (.s 10) (.s 2) 3 (BitVec.ofNat 12 k))) ∧
    ((1#12).toNat < 2 ∧ 2 ≤ (2#12).toNat ∧ (opVal (wSt.grp 0) .i64 (.s 2) 0).poi = false) ∧
    (opVal (wSt.grp 0) .i64 (.s 9) 0).poi = true ∧
    (okAnd (addrOf ((wCmp {}).grp 0) (.s 1)) (· == 65792) = true ∧ okAnd (checkAddr (wCmp {}) 0 false .store false 65792 64) (fun _ => true) = true) ∧
    (let s : State := { wCmp { st := .running } with tlb := (List.range 10).map (fun k => ⟨0, 1 + k, { pa := 65536 + 65536 * k, w := true, u := true }, true⟩) }
     Runs s 0 (.fstopSave (.s 10) (.s 1) 3) ∧ okAnd (checkSpan s 0 false .store 65792 (2 ^ 19)) (fun xl => xl.length == 9) = true) := by
  delta Runs; and_intros <;> decide +kernel

/-- An image of one unit that sluice 0 feeds, with the CRC that a calculator gives it. -/
def wImg : SMap Byte := [(65792, 0x31), (65793, 0x4C), (65794, 0x44), (65795, 0x50), (65796, 1), (65800, 1), (65804, 1), (65805, 1), (65808, 1), (65810, 1), (65816, 0x40), (65820, 0x80), (65824, 0xC0), (65828, 0xC0), (65832, 0xC0), (65836, 0x58), (65837, 0x11), (65838, 0xF2), (65839, 0x50), (65859, 0xFF), (65860, 0x0F), (65863, 0x34), (65927, 0x80)]
def wImgHdr (crc : Nat) : List (BitVec 64) := [0x150444C31, 0x10100000001, 0x10001, 0x8000000040, 0xC0000000C0, BitVec.ofNat 64 (crc * 2 ^ 32 + 192), 0, 0]
/-- A save of a graph without units, its area of sequencer and sluices at 64; its header. -/
def wSavHdr : List (BitVec 64) := [0x150444C53, 0x10100000000, 0, 65792, 16704, 0x4000000040, 0x4000000040, 0x4000000040]
def wLoading (r : Bool) (hdr : List (BitVec 64)) : State :=
  { wCmpM { st := .loading, loading := some { prev := .loaded, hdr := hdr, va := 65792, xl := [(1, wPage.leaf)], restore := r } } wImg with
    cache := [(0, 0, { cfgid := 1, shr := 1, shc := 1 })] }
def isCode (r : Restored) : Bool := match r with | .code _ => true | .ok _ _ => false

theorem test_meets_LoadsRunsAndTheLoader :
    (∀ r ∈ [true, false], ∀ i ∈ [Instr.fcfg true (.s 10) (.s 1) 3, .fcfgRestore false (.s 10) (.s 1) 3], let s := wCmpM { st := if r then .empty else .running } wImg
      Runs s 0 i ∧ notOwned s (s.grp 0) 3 = false ∧ okAnd (addrOf (s.grp 0) (.s 1)) (· == 65792) = true ∧ loadable ((releaseAt s 0 .dev).comps.get 3) = r) ∧
    (let u := headSeen (releaseAt (wCmpM {} wImg) 0 .dev) 0 65792
     okAnd (loadChecks u (u.grp 0) 65792 false) (fun l => l.hdr == wImgHdr 0x50F21158) = true ∧ failed (loadChecks u (u.grp 0) 3 false) = true) ∧
    (let u := headSeen (releaseAt (wCmpM {} [(65792, 0x53), (65793, 0x4C), (65794, 0x44), (65795, 0x50), (65796, 1), (65804, 1), (65805, 1), (65809, 2), (65810, 1), (65817, 1), (65818, 1), (65824, 0x40)]) 0 .dev) 0 65792
     okAnd (loadChecks u (u.grp 0) 65792 true) (fun l => l.xl.length == 2) = true ∧ failed (loadChecks u (u.grp 0) 3 true) = true) ∧
    (∀ p ∈ [(([(65792, 1), (65796, 3), (65800, 0x40), (65802, 1)] : SMap Byte), true), ([(65792, 1), (65796, 3), (65800, 0x41), (65802, 1)], false)], let u := seenRange (performAll (wCmpM { st := .loaded } p.1) 0) 0 65792 64
      let r := blockSeen u 0 65792
      Runs (wCmpM { st := .loaded } p.1) 0 (.frun (.s 1) (.s 1)) ∧ okAnd (addrOf (u.grp 0) (.s 1)) (· == 65792) = true ∧ okAnd (readBlock u 0 65792) (fun w =>
        field (wordAt w 0) 32 7 == 3 && !notOwned r (u.grp 0) 3 && notOwned { r with comps := [] } (u.grp 0) 3 &&
        okAnd (checkAddr r 0 false .store false 65792 64) (fun _ => true) && okAnd (firstErr ((blockOuts w).map (fun o => checkSpan r 0 false .store o.1 o.2.toNat))) (fun _ => true)) = p.2) ∧
    (let s := wWith wGrp; okAnd (addrOf ((performAll s 0).grp 0) (.s 2)) (· == 3) = true ∧ failed (readBlock (seenRange (performAll s 0) 0 3 64) 0 3) = true) ∧
    (∀ st ∈ [CState.loaded, .empty], let v := releaseAt (blockSeen (seenRange (performAll (wCmp { st := st, planes := { cfgid := 1 } }) 0) 0 65792 64) 0 65792) 0 .dev
      (v.comps.get 3).st = st ∧ (v.comps.get 3).planes.cfgid = 1 ∧ (v.comps.get 3).rect.isSome = true) ∧
    (∀ p ∈ [(0#64, 0), (1, 3)], let s := wLoading false ((wImgHdr 0).set 7 p.1)
      (s.comps.get 3).loading.isSome = true ∧ (s.comps.get 3).st = .loading ∧
        (loadImage s 3 false ((wImgHdr 0).set 7 p.1) 65792 [(1, wPage.leaf)] false).code = p.2) ∧
    (let s := wLoading true (5 :: wSavHdr.drop 1)
     someAnd (s.comps.get 3).loading (fun ld => isCode (restoreFrom s 3 ld ld.hdr [] false)) = true) ∧
    (let s := wCmp { st := .freezing, saving := some { va := 65792, xl := [(1, wPage.leaf)] } }
     (s.comps.get 3).saving.isSome = true ∧ (s.comps.get 3).st = .freezing) := by
  delta Runs; and_intros <;> decide +kernel

theorem ofBytes_zeros (n : Nat) : ofBytes (List.replicate n 0) = 0 := by
  induction n with
  | zero => rfl
  | succ n ih => rw [List.replicate_succ, ofBytes, List.foldr_cons]; rw [ofBytes] at ih; rw [ih]; rfl
theorem wordIn_zeros (n o : Nat) : wordIn (List.replicate n 0) o = 0 := by
  rw [wordIn, List.drop_replicate, List.take_replicate, ofBytes_zeros]; rfl
theorem sluiceIn_zeros (n o : Nat) : sluiceIn (List.replicate n 0) o = some {} := by
  rw [sluiceIn, wordIn_zeros]; rfl
theorem restoreFrom_ok {s : State} {n : Nat} {ld : Loading} {h : List (BitVec 64)} {bs : List Byte} {p : Planes} {b : Xl} {d : Compartment} (h1 : saveHdrOk h = true)
    (h2 : (if ld.nocache then none else cached s n (cmpOf s n).grant (field (wordAt h 0) 32 32) (field (wordAt h 1) 0 32)) = some p)
    (h3 : checkPlanes (loadEnv s n) (islandCount p) true p = fcOk)
    (h4 : (field (wordAt h 1) 32 8, field (wordAt h 1) 40 8) = (loadEnv s n).shape) (h5 : checkAddr s ld.ctx (keptRun s n ld).sup .store false (wordAt h 3) 64 = .ok b)
    (h6 : restoreInto (cmpOf s n) p h bs = some d) : ∃ r q, restoreFrom s n ld h bs false = .ok r q := by
  simp [restoreFrom, h1, h2, h3, h4, h5, h6]

/-- The planes of the graph without units, which the cache holds, and a restore of its save from a memory of zeros. -/
def wNoUnits : Planes := { cfgid := 1, shr := 1, shc := 1 }
def wRestoring : State := { wLoading true wSavHdr with h := {} }
theorem wRestored : ∃ d, restoreInto (wRestoring.comps.get 3) wNoUnits wSavHdr (List.replicate 16704 0) = some d := by
  rw [restoreInto]
  simp only [sluiceIn_zeros, wordIn_zeros, List.length_replicate]
  rw [if_neg (by decide +kernel)]
  exact ⟨_, rfl⟩
theorem wRestoring_reads (n : Nat) : hRead wRestoring 0 65792 n = List.replicate n 0 := by
  have h : ∀ k a : Nat, (List.range k).map (fun i => hByte wRestoring 0 (a + i)) = (List.range k).map (fun _ => (0 : Byte)) := fun k a => List.map_congr_left fun i _ => rfl
  rw [hRead, h, List.map_const', List.length_range]

theorem test_meets_LoadsRunsAndTheLoader_restore : let s := wRestoring
    ∃ ld r p, (s.comps.get 3).loading = some ld ∧ (s.comps.get 3).st = .loading ∧ ld.restore = true ∧
      restoreFrom s 3 ld ld.hdr (savedBytes s ld).1 (savedBytes s ld).2 = .ok r p := by
  obtain ⟨d, hd⟩ := wRestored
  have hb : (match checkAddr wRestoring 0 false .store false 65792 64 with | .ok _ => true | .error _ => false) = true := by decide +kernel
  split at hb
  case h_2 => cases hb
  case h_1 b h =>
    obtain ⟨r, p, hr⟩ := restoreFrom_ok (s := wRestoring) (n := 3) (ld := { prev := .loaded, hdr := wSavHdr, va := 65792, xl := [(1, wPage.leaf)], restore := true })
      (h := wSavHdr) (p := wNoUnits) (by decide +kernel) (by decide +kernel) (by decide +kernel) (by decide +kernel) h hd
    have e : savedBytes wRestoring { prev := .loaded, hdr := wSavHdr, va := 65792, xl := [(1, wPage.leaf)], restore := true } = (List.replicate 16704 0, false) := by
      have e1 : (if saveLenOk wSavHdr then saveLen wSavHdr else 64) = 16704 := by decide +kernel
      have e2 : pieces 65792 16704 = [(65792, 16704)] := by decide +kernel
      have e3 : hPoiSpan wRestoring 65792 16704 = false := by decide +kernel
      have e4 : paIn [(1, wPage.leaf)] 65792 = 65792 ∧ keyIx wRestoring (leafIn [(1, wPage.leaf)] 65792).key = 0 := by decide +kernel
      simp only [savedBytes, e1, readIn, show (65792 : BitVec 64).toNat = 65792 from rfl, e2, List.foldl_cons, List.foldl_nil, e4.1, e4.2, wRestoring_reads, e3, List.nil_append, Bool.or_self]
    exact ⟨_, r, p, by rfl, by rfl, rfl, by rw [e]; exact hr⟩

/-- A running graph of one unit or island, fed by sluice 0 at port 0 and sluice 1 at port 1. -/
def wRun (node : BitVec 64) (c : Compartment) : State :=
  wCmpM { c with st := .running, planes := { nodes := [node], edges := [0x8000000000000000, 0x8010001000000000], consts := [7, 8] } } []
def wTok (v : BitVec 64) (ends : BitVec 4) : Token := { data := v, valid := true, ends := ends }

theorem test_meets_UnitsAndIslandsFire :
    (∀ o ∈ [0, 1, 2], ∀ p ∈ [(wTok 5 1, wTok 6 1, true), (wTok 5 1, wTok 6 0, false), ({ wTok 5 1 with valid := false }, { wTok 6 1 with valid := false, poi := true }, true)],
      let s := wRun (BitVec.ofNat 64 (o * 2 ^ 59 + 0x0400000FFF000000)) { bufs := [(0, [p.1]), (1, [p.2.1])] }
      let c := s.comps.get 3
      graphLive s 3 = true ∧ 0 < c.planes.nodes.length ∧ ndOpc (nodeAt c.planes 0) = o ∧ headsOf c 0 = some [p.1, p.2.1] ∧ outsFree c 0 = true ∧
        tokensAgree [p.1, p.2.1] = p.2.2 ∧ hasConst (nodeAt c.planes 0) = false ∧ ndFmt (nodeAt c.planes 0) ≤ 1) ∧
    (∀ k ∈ [1, 3], let ends := BitVec.ofNat 4 k
      let s := wRun 0xF060000FFF000000 { bufs := [(0, [wTok 0x38 ends])], units := [(0, { queue := [wTok 0x40 ends] })] }
      let c := s.comps.get 3
      graphLive s 3 = true ∧ isIsland (nodeAt c.planes 0) = true ∧ inEdge c.planes 0 0 = some 0 ∧ inEdge c.planes 0 1 = some 1 ∧
        edMx (edgeAt c.planes 0) = false ∧ edMx (edgeAt c.planes 1) = false ∧ c.bufs.get 0 = [wTok 0x38 ends] ∧ c.bufs.get 1 = [] ∧
        (c.units.get 0).queue = [wTok 0x40 ends] ∧ ends ≠ 0 ∧ outsFree c 0 = true) := by
  and_intros <;> decide +kernel

/-- A record of 16-bit elements from 65792 on, and its sluice's walk at a position; sluice 0 reads or writes the edge. -/
def wRec (w : Bool) (base : Nat) : StreamRec := { write := w, ew := 2, base := base, counts := [3], strides := [1] }
def wWalk (w : Bool) (base posn : Nat) (ts : List Token) (wait : List StreamRec) : State :=
  wCmp { st := .running, planes := { nodes := [0x3200000FFF000000], edges := if w then [0x0002000000000000] else [0x8000000000000000] },
         bufs := [(0, ts)], sl := [(0, { active := some (wRec w base), posn := posn, waiting := wait })] }
def isFound (r : Spot) : Bool := match r with | .found _ => true | _ => false
def isStall (r : Spot) : Bool := match r with | .fault _ => true | _ => false

theorem test_meets_StreamsAndTheEndOfGraphs :
    (∀ posn ∈ [0, 1, 2], ∀ wait ∈ [[], [wRec false 65800]], ∀ p ∈ [(false, 65792, [wTok 1 0]), (false, 65793, []), (true, 65792, [wTok 9 (if posn = 2 then 1 else 0)])],
      let s := wWalk p.1 p.2.1 posn p.2.2 wait
      let c := s.comps.get 3
      let r := wRec p.1 p.2.1
      graphLive s 3 = true ∧ (c.sl.get 0).active = some r ∧ (c.sl.get 0).stalled = false ∧ sluiceEdge c.planes 0 = some 0 ∧ r.dmode = 0 ∧
        walkBare r.counts = false ∧ (p.1 = true ∨ (c.bufs.get 0).length < edgeDepth c.planes 0) ∧ (c.sl.get 0).posn = posn ∧
        (if p.2.1 = 65793 then isStall (placeOf s 3 .load r (edgeAt c.planes 0) posn) else isFound (placeOf s 3 (if p.1 then .store else .load) r (edgeAt c.planes 0) posn)) = true ∧
        (p.1 = false ∨ c.bufs.get 0 = [wTok 9 (walkEnds r.counts posn)])) ∧
    (let s := wRun 0 { seq := { on := true, halted := true } }
     graphLive s 3 = true ∧ (s.comps.get 3).seq.halted = true ∧ (∀ e ∈ (s.comps.get 3).sl, e.2.active = none) ∧ alarmed s = false ∧ (s.comps.get 3).barAt = (0, 0)) ∧
    stallDue ((wRun 0 { seq := { on := true, halted := true }, quiet := 2 ^ 20 }).comps.get 3) = true ∧
    (let s : State := { wRun 0 {} with regs := { State.reset.regs with slPend := [(0, [0x300000001])] } }
     s.regs.slPend.get 0 = 0x300000001 :: []) := by
  and_intros <;> decide +kernel

/-- A sequencer of the same graph at its word. -/
def wSeq (d : SMap (BitVec 64)) (bs : SMap Byte) (sl : SMap Sluice) : State :=
  let r : Compartment := { rect := some (0, 0, 1, 1), slmask := 1, st := .running, seq := { pc := 65536, on := true, d := d }, args := [0, 0, 1, 0, 0, 0, 0, 0, 77], sl := sl,
                           planes := { nodes := [0x3200000FFF000000], edges := [0x8000000000000000], consts := [7, 8] } }
  { wMem bs with cur := .seqr 3, comps := [(3, r)] }

theorem test_meets_SequencerWords :
    (wSeq [] [] []).cur = .seqr 3 ∧ seqReady (wSeq [] [] []) 3 = true ∧
    ((1#6).toNat = (wordAt ((wSeq [] [] []).comps.get 3).args 2).toNat % 64 ∧ (0#6).toNat < (wordAt ((wSeq [] [] []).comps.get 3).args 2).toNat % 64) ∧
    (65793 % 16 ≠ 0 ∧ failed (seqRead (wSeq [] [] []) 3 131072 16) = true) ∧
    (let s : State := { wSeq [] [] [] with h := { wH with poi := [(1028, true)] } }
     seqReady s 3 = true ∧ okAnd (seqRead s 3 65792 16) (·.2) = true) ∧
    (let s : State := { wSeq [] [] [] with h := { wH with poi := [(1029, true)] } }
     65840 % 16 = 0 ∧ okAnd (seqRead s 3 65840 16) (fun h => !h.2 && field (wordAt (toWords h.1) 1) 52 2 == 0) = true ∧ okAnd (seqRead s 3 65856 16) (·.2) = true) ∧
    (okAnd (seqRead (wSeq [] [] []) 3 65792 16) (fun h => !h.2 && field (wordAt (toWords h.1) 1) 52 2 == 0 &&
      !headFits ((wSeq [] [] []).comps.get 3) (wordAt (toWords h.1) 0) (wordAt (toWords h.1) 1)) = true ∧ okAnd (seqRead (wSeq [] [] []) 3 65808 16) (fun d => !d.2) = true) ∧
    (∀ p ∈ [(([] : SMap Sluice), true), ([(0, { active := some (wRec false 0), waiting := [wRec false 0, wRec false 0, wRec false 0] })], true),
            ([(0, { active := some (wRec false 0), waiting := [wRec false 0, wRec false 0, wRec false 0, wRec false 0] })], false)],
      let s := wSeq [(1, 65792)] [(65793, 1), (65794, 1), (65806, 1), (65807, 0x10), (65808, 1), (65816, 3), (65823, 0x20)] p.1
      let c := s.comps.get 3
      seqReady s 3 = true ∧ okAnd (seqRead s 3 65792 16) (fun h =>
        let lo := wordAt (toWords h.1) 0
        let hi := wordAt (toWords h.1) 1
        !h.2 && headFits c lo hi && okAnd (seqRead s 3 65808 (16 * (field hi 52 2 + 1))) (fun d => !d.2 &&
          (List.range (wordPairs d.1).length).all (fun i => dimOk i ((wordPairs d.1).getD i default).2) &&
          rcSlc hi == 0 && sluiceW c.planes (edgeAt c.planes 0) == some (recOf lo hi (wordPairs d.1)).ew)) = true ∧ sluiceEdge c.planes 0 = some 0 ∧
        (p.2 = true ↔ ((c.sl.get 0).active = none ∨ (c.sl.get 0).waiting.length < 4))) ∧
    (((wSeq [] [] []).comps.get 3).sl.get 0 = {} ∧ (((wSeq [] [] [(0, { active := some (wRec false 0) })]).comps.get 3).sl.get 0).active.isSome = true ∧
      ((wSeq [] [] []).comps.get 3).slmask.getLsbD 0 = true) ∧
    ((wSeq [] [] []).comps.get 3).planes.consts.length = 2 ∧
    (failed (checkAddr (wSeq [] [] []) 0 false .store false 131072 64) = true ∧ okAnd (checkAddr (wSeq [] [] []) 0 false .store false 65792 64) (fun x => x.key == 0 && x.pa % 64 == 0) = true ∧
      alarmed (wSeq [] [] []) = false) ∧
    (∀ w ∈ [SeqWait.none, .room 0, .done 1, .consts 1], graphLive (wRun 0 { seq := { on := true, wait := w } }) 3 = true) := by
  and_intros <;> decide +kernel

-- ===== control transfers =====

theorem test_meets_BranchesAreDecided :
    ∀ m ∈ [Msk.all, .p1], Runs wSt 0 (.bra m 5 0x1FFFFFFFF) ∧ ∀ c < 4, Runs wSt 0 (.brm (BitVec.ofNat 2 c) m 5 2) := by
  delta Runs; decide +kernel

/-- A group at a call depth, with its stack's range. -/
def wDeep (d : Nat) (base limit : BitVec 64) : Group :=
  { wGrp with run := some { ent := { pc := 65536, depth := d, mask := wAll }, pc := 65536 }, rstk := [(0, [0x500000000002001, 1, 2, 3])],
              spr := { wGrp.spr with stkBase := base, stkLimit := limit } }

theorem test_meets_CallsReturnsAndExits :
    (∀ p ∈ [(0, 0#64, false), (3, 0, false), (4, 66047, true), (4, 66048, false), (5, 66303, true), (5, 66304, false), (65534, 0x7FFFFFFFFFFFFFFF, false), (65535, 0x7FFFFFFFFFFFFFFF, true)],
      let s := wWith (wDeep p.1 65792 p.2.1)
      (∀ i ∈ [Instr.call .all 5 2, .call .p1 5 2, .calli .all (.s 1), .calli .all (.s 2), .calli .all (.v 9)], Runs s 0 i) ∧
      let d := (runEnt (s.grp 0)).depth + 1
      ((65536 ≤ d ∨ (5 ≤ d ∧ (s.grp 0).spr.stkLimit.toNat < (s.grp 0).spr.stkBase.toNat + 256 * (d - 4))) ↔ p.2.2 = true) ∧
      okAnd (fetchWord s (s.grp 0) 65544) (fun w => w == 0xFE0000FFFFFFFFF0) = true) ∧
    (65792 % 8 = 0 ∧ (3 : Nat) % 8 ≠ 0 ∧ (opVal (wSt.grp 0) .i64 (.v 9) 0).poi = true ∧ liveOf (wSt.grp 0) .p1 = 0) ∧
    (let s := wWith (wDeep 4 65792 66048)
     okAnd (firstTrap ((lanes (liveOf (s.grp 0) .all)).map (checkSlot s (s.grp 0) .store 1))) (fun as => as.length == 32) = true ∧ inCompat s (s.grp 0) = false) ∧
    (∀ p ∈ [true, false], let s : State := { wWith (wDeep 5 65792 66304) with h := { wH with poi := if p then [(1029, true)] else [] } }
      okAnd (firstTrap ((lanes (liveOf (s.grp 0) .all)).map (checkSlot s (s.grp 0) .load 1))) (fun as => as.length == 32 &&
        (as.find? (fun a => (slotBytes (slotsSeen s 0 as) 0 a).2)).isSome == p) = true ∧ Runs s 0 (.ret .all)) ∧
    (∀ p ∈ [(4, Acc.store), (5, .load)], let s := wWith (wDeep p.1 131072 262144)
      failed (firstTrap ((lanes (liveOf (s.grp 0) .all)).map (checkSlot s (s.grp 0) p.2 1))) = true) ∧
    (∀ d ∈ [0, 1, 4, 5], ∀ m ∈ [Msk.all, .p1], Runs (wWith (wDeep d 65792 66304)) 0 (.ret m)) ∧
    (∀ m ∈ [Msk.all, .p1], Runs wSt 0 (.exit m) ∧ Runs wSt 0 (.yield m)) ∧ mayPass wSt (wSt.grp 0) := by
  delta Runs mayPass; and_intros <;> decide +kernel

/-- The group at its trailer, with a transfer decided and entries in the frontier. -/
def wTrl (xf : Xfer) (fs : List Entry) : Group :=
  { wGrp with run := some { ent := { pc := 65536, mask := wAll }, pc := 65544, rs := { pos := 1, xfer := xf } }, frontier := fs }

theorem test_meets_TrailersEndRuns :
    (let s := wWith { wTrl {} [] with inflight := [{ tag := 5, regs := [0x105] }] }
     Runs s 0 (.trl false false false 5 (some (.s 5)) none none (some (.s 6))) ∧ pending (s.grp 0) 0x105 = true ∧ pending (s.grp 0) 0x106 = false) ∧
    (∀ pos ∈ [0, 1], let s := wWith { wTrl {} [] with tx := { act := true, lanes := wAll, restart := { pc := 65536 }, reads := [⟨1028, pos, 0⟩] } }
      Runs s 0 (.trl false false false 5 none none none none) ∧ (s.grp 0).tx.act = true ∧ txValid s (s.grp 0) = (pos == 0)) ∧
    (∀ y ∈ [true, false], ∀ f ∈ [true, false], ∀ q ∈ [true, false], ∀ p ∈ [(({ jump := [(3, 65600, 7, 1)], exits := 0x10, decided := true } : Xfer), [({ pc := 65552, prio := 1, mask := 0 } : Entry), { pc := 65552, depth := 1 }], false),
        ({ exits := wAll, decided := true }, [], true)],
      let s := wWith (wTrl p.1 p.2.1)
      let x := s.grp 0
      let u := if f && !x.roundDone then (flushRedo s 0).2 else s
      Runs s 0 (.trl y f q 5 none none none none) ∧ x.tx.act = false ∧ (runState x).xfer.eret = none ∧ x.chain = none ∧ inHandler x = false ∧
        (q = true → mayPass u (u.grp 0)) ∧ x.frontier.Pairwise (fun e f => ¬(e.pc = f.pc ∧ e.depth = f.depth)) ∧ (∀ e ∈ x.frontier, e.resume = none) ∧
        ((x.frontier ++ insertions x 5 = []) ↔ p.2.2 = true) ∧ x.inflight = []) ∧
    (let s := wWith { wTrl { yield := true, decided := true } [] with budgeted := true }
     Runs s 0 (.trl false false false 5 none none none none) ∧ (s.grp 0).budgeted = true ∧ (runState (s.grp 0)).xfer.yield = true) := by
  delta Runs mayPass; and_intros <;> decide +kernel

-- ===== supervisor words, LAUNCH and COLL =====

/-- A supervisor's group with these kept translations. -/
def wTlb (ts : List TlbEnt) : State := { wSup with tlb := ts, copies := [{ id := 3, xl := [(1, wPage.leaf)] }] }
/-- A launch queue's descriptor at 65792 and a record at 65920; s4 is its address. -/
def wLnch (ctl : BitVec 64) (bs : SMap Byte) : State :=
  { wMem bs with groups := [(0, { wGrp with s := wGrp.s ++ [(10, ⟨65920, false⟩), (11, ⟨131072, false⟩), (12, ⟨ctl, false⟩)] })] }
/-- A descriptor of COLL at 65792 with two ranks, whose ids stand at 66176. -/
def wColl (bs : SMap Byte) (l : SMap Link) : State := { wMem bs with links := l, tlb := [wPage, ⟨0, 3, { pa := sramBase, w := true, u := true }, true⟩] }

theorem test_meets_TranslationsLaunchesAndCollectives :
    (∀ i ∈ [Instr.tlbiPage (.s 10) (.s 1) 0, .tlbiPage (.s 10) (.s 9) 0, .tlbiCtx (.s 10) 63, .tlbiAll (.s 10)], Runs (wTlb [wPage]) 0 i) ∧
    okAnd (addrOf ((wTlb []).grp 0) (.s 1)) (fun v => v == 65792) = true ∧ failed (addrOf ((wTlb []).grp 0) (.s 9)) = true ∧
    (∀ p ∈ [(([(65809, 2), (65810, 1), (65816, 2), (65820, 0x2F)] : SMap Byte), true, true), ([(65809, 2), (65810, 1), (65816, 2), (65820, 0x0F)], false, true), ([(65792, 1), (65809, 2), (65810, 1), (65816, 2), (65820, 0x0F)], false, false),
            ([(65809, 2), (65810, 1), (65816, 2)], true, true)],
      let s := wLnch 0 p.1
      let u := seenRange (performAll s 0) 0 65920 128
      Runs s 0 (.launch (.s 13) (.s 1) (.s 10)) ∧ okAnd (addrOf (u.grp 0) (.s 1)) (· == 65792) = true ∧ okAnd (addrOf (u.grp 0) (.s 10)) (· == 65920) = true ∧
        (u.grp 0).tx.act = false ∧ okAnd (readRange u 0 65920 128) (fun r => r.2.isNone) = true ∧ someAnd (queueFound (releaseAt u 0 .dev) 0 .store 65792) (fun r =>
          ((!r.2.lnch || r.2.cclosed) == p.2.1) && (decide (r.2.count + 2 ≤ r.2.cap) == p.2.2) &&
          okAnd (qSlots r.1 (gAcc (u.grp 0)) .store r.2 r.2.put 2) (fun sl => sl.length == 2)) = true) ∧
    (let s := wLnch 0 []
     Runs s 0 (.launch (.s 13) (.s 9) (.s 10)) ∧ Runs s 0 (.launch (.s 13) (.s 1) (.s 9)) ∧ Runs s 0 (.launch (.s 13) (.s 1) (.s 2)) ∧ Runs s 0 (.launch (.s 13) (.s 1) (.s 11)) ∧
      failed (addrOf ((performAll s 0).grp 0) (.s 9)) = true ∧ okAnd (addrOf ((performAll s 0).grp 0) (.s 2)) (fun v => v.toNat % 64 != 0) = true ∧
      okAnd (addrOf ((performAll s 0).grp 0) (.s 11)) (fun v => v.toNat % 64 == 0) = true ∧ failed (readRange (seenRange (performAll s 0) 0 131072 128) 0 131072 128) = true) ∧
    (let s : State := { wLnch 0 [] with h := { wH with poi := [(1031, true)] } }
     Runs s 0 (.launch (.s 13) (.s 1) (.s 10)) ∧ okAnd (readRange (seenRange (performAll s 0) 0 65920 128) 0 65920 128) (fun r => r.2.isSome) = true) := by
  delta Runs; and_intros <;> decide +kernel

theorem test_meets_TranslationsLaunchesAndCollectives_of_coll :
    (let s := wColl [] []
     Runs s 0 (.coll (.s 13) (.s 9)) ∧ Runs s 0 (.coll (.s 13) (.s 2)) ∧ failed (addrOf ((performAll s 0).grp 0) (.s 9)) = true ∧
      okAnd (addrOf ((performAll s 0).grp 0) (.s 2)) (fun va => failed (readDesc (seenRange (performAll s 0) 0 va 64) 0 va 64 64)) = true) ∧
    (∀ p ∈ [(([(65792, 1), (65796, 2), (65800, 9), (65809, 2), (65810, 1), (65816, 0x40), (65817, 2), (65818, 1), (65824, 1), (65832, 0x80), (65833, 1), (65834, 1), (65848, 0x80), (65849, 2), (65850, 1)] : SMap Byte), false, false, true, false, true), ([(65792, 0x11), (65796, 2), (65800, 9), (65809, 2), (65810, 1), (65816, 0x40), (65817, 2), (65818, 1), (65824, 1), (65832, 0x81), (65833, 1), (65834, 1)], true, false, true, false, true),
            ([(65792, 1), (65796, 2), (65800, 9), (65810, 2), (65816, 0x40), (65817, 2), (65818, 1), (65824, 1), (65832, 0x80), (65833, 1), (65834, 1), (65848, 0x80), (65849, 2), (65850, 1)], false, true, true, false, true), ([(65792, 1), (65793, 0x10), (65796, 2), (65800, 9), (65809, 2), (65810, 1), (65816, 0x40), (65817, 2), (65818, 1), (65824, 1), (65832, 0x80), (65833, 1), (65834, 1), (65840, 0xC0), (65841, 2), (65842, 1), (65848, 0x80), (65849, 2), (65850, 1)], false, false, false, false, true),
            ([(65792, 1), (65793, 0x10), (65796, 2), (65800, 9), (65809, 2), (65810, 1), (65816, 0x40), (65817, 2), (65818, 1), (65824, 1), (65832, 0x80), (65833, 1), (65834, 1), (65842, 3), (65848, 0x80), (65849, 2), (65850, 1)], false, false, true, false, true), ([(65792, 1), (65796, 2), (65800, 9), (65809, 2), (65810, 1), (65816, 0x40), (65817, 2), (65818, 1), (65824, 1), (65832, 0x80), (65833, 1), (65834, 1), (65850, 2)], false, false, true, true, true),
            ([(65792, 1), (65796, 2), (65800, 9), (65809, 2), (65810, 1), (65816, 0x40), (65817, 2), (65818, 1), (65824, 1), (65832, 0x80), (65833, 1), (65834, 1), (65848, 0x80), (65849, 2), (65850, 1), (66178, 5)], false, false, true, false, false)],
      let s := wColl p.1 []
      let u := seenRange (performAll s 0) 0 65792 64
      let x := u.grp 0
      Runs s 0 (.coll (.s 13) (.s 1)) ∧ okAnd (addrOf x (.s 1)) (· == 65792) = true ∧ okAnd (readDesc u 0 65792 64 64) (fun w =>
        let r := rankOfDesc w x 0
        ((descBad w r || (r.k != 0 && !hasCap u 2)) == p.2.1) && (p.2.1 || failed (collChecks u r) == p.2.2.1) &&
        (p.2.1 || p.2.2.1 || let v := if r.op = 0 then u else seenRange u 0 (wordAt w 7) (2 * r.p)
          okAnd (collChecks u r) (fun xl => ((r.k == 0 || resInSram xl r) == p.2.2.2.1) && (failed (readIds v 0 r (wordAt w 7)) == p.2.2.2.2.1) &&
          (p.2.2.2.2.1 || okAnd (readIds v 0 r (wordAt w 7)) (fun ids =>
            (remoteNeighbours v { r with ids := ids, xl := xl }).all (fun n => (linkTo v n).isSome) == p.2.2.2.2.2))))) = true) ∧
    ((releaseAt (performAll (wColl [] []) 0) 0 .dev).ranks = [] ∧
      64 ≤ ((releaseAt (performAll { wColl [] [] with ranks := List.replicate 64 {} } 0) 0 .dev).ranks.filter (fun r => !r.done)).length) := by
  delta Runs; and_intros <;> decide +kernel

-- ===== the life of a group =====

/-- A group that is READY with these entries. -/
def wReady (fs : List Entry) : Group := { wGrp with life := .ready, run := none, frontier := fs }
def wFront : List Entry := [{ pc := 65600, prio := 5, mask := 1 }, { pc := 65592, prio := 5, mask := 6 }, { pc := 65608, prio := 9, depth := 1, mask := 8 }]

theorem test_meets_SelectionTakesTheTopEntry :
    (∀ x ∈ [wReady wFront, { wReady wFront with tx := { act := true, lanes := 6 } }, { wReady wFront with spr := { trapCause := 0x261 }, trapS := some { lanes := 1 } }],
      let s := wWith x
      (s.grp 0).life = .ready ∧ MayBeSelected s (s.grp 0) ∧ (s.ctxs.get 0).st = .active ∧ (s.grp 0).run = none ∧
        ∃ e ∈ (s.grp 0).frontier, selectable (s.grp 0) e = true) := by
  delta MayBeSelected; decide +kernel

/-- A kernel whose grid is 0. -/
def wKern : Kernel := { entry := 65536, slen := 4, nclu := 4, dmask := 15 }

theorem test_meets_GroupsArePlacedAndWoken :
    (∀ n ∈ [0, 47, 48], let s : State := { wWith { life := .unborn, xblk := n } with kernels := [wKern] }
      (s.grp 0).life = .unborn ∧ s.kernels.find? (fun k => k.grid == (s.grp 0).spr.grid) = some wKern ∧ (s.ctxs.get 0).st = .active ∧ n ≤ poolFree s 0) ∧
    (let s := wWith { wGrp with life := .ready }
     (s.grp 0).life = .ready ∧ MayBeSelected s (s.grp 0) ∧ (s.grp 0).run.isSome = true) ∧
    ((wWith { wGrp with life := .waiting }).grp 0).life = .waiting ∧ awaitsRound wGrp = false ∧ awaitsRound { wGrp with atBoundary := true, pastWord := true } = true ∧
    (let s := wWith { wGrp with life := .parked, parkNames := [0x105], inflight := [{ regs := [0x106] }] }
     (s.grp 0).life = .parked ∧ ∀ c ∈ (s.grp 0).parkNames, pending (s.grp 0) c = false) ∧
    (∀ l ∈ [Life.issuing, .ready, .parked], let s : State := { wWith { wGrp with life := l, budgeted := true } with kernels := [wKern] }
      let v := s.setGrp 0 { s.grp 0 with atBoundary := false, roundDone := false, pastWord := false, parkNames := [] }
      startRun (s.grp 0) = some (s.grp 0) ∧ (∃ e ∈ s.groups, e.1 = 0) ∧ (s.grp 0).budgeted = true ∧ (s.grp 0).budget = 0 ∧ (s.grp 0).life = l ∧ (s.grp 0).run.isSome = true ∧ (s.grp 0).tx.act = false ∧
        CanSettle v 0 ∧ ((settled v 0).grp 0).tx.act = false) ∧
    (let s : State := { wWith { wReady wFront with budgeted := true } with kernels := [wKern] }
     (match startRun (s.grp 0) with
      | some y => let v := s.setGrp 0 { y with atBoundary := false, roundDone := false, pastWord := false, parkNames := [] }
        CanSettle v 0 ∧ ((settled v 0).grp 0).tx.act = false
      | none => False)) := by
  delta CanSettle MayBeSelected; and_intros <;> decide +kernel

/-- Context 0 with a save area at 0x40000 of one record of each kind: the group's at 0x50000. -/
def wSave (st : CtxState) (x : Group) : State :=
  { wWith x with
    ctxs := [(0, { st := st, keycnt := 1, savepa := 0x40000, savelen := 0x400000, wasHalted := true })],
    h := { bytes := [(262144, 0x41), (262145, 0x53), (262146, 0x58), (262147, 0x43), (262152, 1), (262156, 1), (262160, 1), (262170, 1), (262178, 3), (262186, 0x2B)] } }

theorem test_meets_RoundsStopsAndReturns :
    (let s := wCompat { wGrp with atBoundary := true }
     teamGroups s 1 ≠ [] ∧ s.frozen = [] ∧ (∀ g ∈ teamGroups s 1, inCompat s (s.grp g) = true ∧ (s.grp g).life = .issuing ∧ (s.grp g).atBoundary = true ∧
      (s.grp g).roundDone = false ∧ okAnd (fetchWord ((teamGroups s 1).foldl commitGroup s) (s.grp g) (runPc (s.grp g))) (fun w => w == 0) = true)) ∧
    (∀ l ∈ [Life.issuing, .ready, .parked], let s := wCompat { wGrp with life := l, atBoundary := true, pastWord := true }
     (s.grp 0).pastWord = true ∧ awaitsRound (s.grp 0) = true ∧ s.frozen = [] ∧ inCompat s (s.grp 0) = true) ∧
    (let s : State := { wSave .saving { wGrp with life := .parked } with
                        h := { bytes := [(262144, 0x41), (262145, 0x53), (262146, 0x58), (262147, 0x43), (262152, 1), (262156, 1), (262160, 1), (262170, 1), (262178, 3), (262186, 0x2B), (327687, 0x80)] } }
     stopWhy s 0 = some .save ∧ (s.grp 0).chain = none ∧ freeRecs (performAll s 0) 0 (grpRecs (performAll s 0) 0) = []) ∧
    (∀ l ∈ [Life.issuing, .ready, .parked, .waiting, .trapped], let s := wSave .saving { wGrp with life := l }
      stopWhy s 0 = some .save ∧ CanSettle s 0 ∧ freeRecs (performAll s 0) 0 (grpRecs (performAll s 0) 0) = [0x50000] ∧ alarmed s = false ∧ recKey s 0 = 0) ∧
    (let s := wSave .saving wGrp; (s.ctxs.get 0).st = .saving ∧ (s.ctxs.get 0).saveClock * 10 / 36 + (s.ctxs.get 0).ywait ≤ (timen s).toNat) ∧
    (∀ st ∈ [CtxState.restoring, .active], let s : State := { wSave st {} with groups := [], frozen := [{ pa := 0x50000, due := true, x := wGrp }] }
      (grpRecs s 0)[0]? = some 0x50000 ∧ s.frozen.find? (fun f => f.pa == 0x50000 && f.ctx == 0 && f.due) = some { pa := 0x50000, due := true, x := wGrp } ∧
        (s.ctxs.get 0).st = st ∧ 0 = (s.teams.get wGrp.tid).core ∧ wGrp.blocks ≤ poolFree s 0 ∧ wGrp.tx.act = false ∧ wGrp.chain = none ∧ alarmed s = false ∧ recKey s 0 = 0) := by
  delta CanSettle; and_intros <;> decide +kernel

-- ===== dispatch and homes =====

/-- Context 0 with cores 0 and 1, a launch queue and a fault queue at 65792. -/
def wDisp (bs : SMap Byte) (ks : List Kernel) : State :=
  { wMem bs with ctxs := [(0, { st := .active, keycnt := 1, lqs := [65792], fq := 65792, cores := 3, frecs := [[1]], share := 8 })], kernels := ks, groups := [], teams := [] }

theorem test_meets_DispatchAndHomes :
    (let s := wDisp [] []; (s.ctxs.get 0).frecs = [1] :: [] ∧ faultQueue s 0 = none) ∧
    (let s := wDisp [(65792, 0xFF), (65793, 0xFF), (65794, 0xFF), (65795, 0xFF), (65796, 0xFF), (65797, 0xFF), (65798, 0xFF), (65799, 0xFF), (65800, 0xFE), (65801, 0xFF), (65802, 0xFF), (65803, 0xFF), (65804, 0xFF), (65805, 0xFF), (65806, 0xFF), (65807, 0xFF), (65809, 2), (65810, 1), (65816, 2), (65820, 3)] []
     someAnd (faultQueue s 0) (fun q => decide (q.count < q.cap) && okAnd (qSlots s (faultAcc 0) .store q q.put 1) (fun sl => sl.length == 1)) = true) ∧
    (∀ p ∈ [(([(65792, 2), (65809, 2), (65810, 1), (65816, 2), (65820, 0x0F), (66048, 1), (66056, 0x40), (66058, 1), (66064, 7), (66072, 0x48), (66074, 1), (66080, 1), (66084, 0x40), (66085, 0x10), (66086, 1), (66128, 1)] : SMap Byte), false), ([(65792, 2), (65809, 2), (65810, 1), (65816, 2), (65820, 0x0F), (66048, 2), (66056, 0x40), (66058, 1)], true)],
      let s := wDisp p.1 []
      let u := { s with ctxs := s.ctxs.upd 0 (fun c => { c with badq := c.badq.filter (fun b => b.lq != 0) }) }
      (s.ctxs.get 0).st = .active ∧ (s.ctxs.get 0).lqs.getD 0 0 ≠ 0 ∧ lqLook s (s.ctxs.get 0) 0 = true ∧ someAnd (openLq s 0 65792) (fun q =>
        decide (2 ≤ q.count) && okAnd (qSlots u (dispAcc s 0) .load q q.get 2) (fun sl =>
          let bs := getPieces u sl.flatten
          let k := kernelOf 0 0 (toWords bs.1)
          bs.2 == false && ((recordBad (toWords bs.1) k || noSlots (qPop u q 2) k) == p.2) && q.key == 0 && q.pa % 64 == 0)) = true ∧ alarmed s = false) ∧
    (∀ n ∈ [1, 48], let k : Kernel := { wKern with ngroup := n }
      let s := wDisp [] [k]
      s.kernels.find? (fun k => k.grid == 0 && k.st == .running) = some k ∧ (s.ctxs.get k.ctx).st = .active ∧ slotFits s k 0 1 = true ∧ sliceFor s k 0 1 = some 0 ∧
        nothingEarlier s k 0 = true ∧ someAnd (rangeAt ((handOut s k 0).ranges.filter (fun r => r.slice == 0)) 0 1) (fun _ => true) = true ∧ (dieSlots s k 0)[1]? = some (0, 1) ∧ k.ngroup ≤ 48) ∧
    (∀ n ∈ [2, 3], let k : Kernel := { wKern with handed := [0], ranges := [⟨0, 0, some 0, 1, n⟩] }
      let s := wDisp [] [k]
      s.kernels.find? (fun q => q.grid == k.grid && q.st == .running) = some k ∧ k.rep = false ∧ (s.ctxs.get k.ctx).st = .active ∧ 0 ∈ eligibleDies s k ∧
        (dieSlots s k 0).length = 2 ∧ runnable k 0 = true ∧ 0 * k.slen ≤ 1 ∧ 1 + n ≤ (0 + 1) * k.slen) ∧
    (∀ b ∈ [0, 65792], ((wDisp [] [{ wKern with st := .settling, bar := BitVec.ofNat 64 b }]).kernels.find? (fun k => k.grid == 0 && k.st == .settling)).map (·.bar) = some (BitVec.ofNat 64 b)) ∧
    (wDisp [] []).flights = [] ∧ (wDisp [] []).staged = [] ∧
    okAnd (checkAddr (wDisp [] []) 0 false .store false 65792 64) (fun x => x.key == 0 && x.pa % 64 == 0) = true ∧
    (∀ p ∈ [(some 0, 5, 0, false), (some 64, 0, 0, false), (some 0, 5, 1, true)],
      let r : HReq := ⟨0, 4, false, 0, 0⟩
      let e : HReq := ⟨1, 2, true, 1, 0⟩
      let s : State := { wDisp [] [] with clock := 100, homes := [(0, { reqs := r :: List.replicate p.2.2.1 e, deficit := [(0, p.2.1)], cur := p.1 })] }
      let h := s.homes.get 0
      headOf s h 0 = some r ∧ h.cur = p.1 ∧ ((∃ e ∈ h.reqs, expired s e = true) ↔ p.2.2.2 = true) ∧
        (p.1 = some 0 ∧ (r.cost : Int) ≤ h.deficit.get 0 ∨
         p.1 = some 64 ∧ fitsNow s h 64 = false ∧ nextClass s (some 64) = 0 ∧ (r.cost : Int) ≤ h.deficit.get 0 + quantum s 0)) := by
  and_intros <;> decide +kernel

-- ===== commands of the supervisor =====

/-- A command of CTX_CMD for context 1, which is in a state; its descriptor stands at 0x60000, its save area at 0x40000. -/
def wCtxCmd (op : Nat) (st : CtxState) (desc : Nat) : State :=
  { wSt with
    ctxs := [(1, { st := st, savepa := 0x40000, savelen := 0x400000 })], groups := [], teams := [],
    h := { bytes := [(262144, 0x41), (262145, 0x53), (262146, 0x58), (262147, 0x43), (262152, 1), (262156, 1), (262160, 1), (262170, 1), (262178, 3), (262186, 0x2B), (393218, 1), (393232, 8), (393257, 1), (393258, 1), (393266, 4), (393274, 0x40), (393344, 3)] },
    regs := { State.reset.regs with ctxPend := [BitVec.ofNat 64 (op * 2 ^ 44 + 2 ^ 38)], ctxDesc := BitVec.ofNat 64 desc } }
/-- The same with a group of the context. -/
def wCtxGrp (st : CtxState) (n : Nat) : State :=
  { wCtxCmd 4 st 0 with groups := (List.range n).map (fun g => (g, { wGrp with ctx := 1 })) }

theorem test_meets_ContextCommands :
    (∀ op ∈ [1, 2, 3, 4, 5, 6], ∀ st ∈ [CtxState.free, .active, .halted, .saving, .saved, .restoring, .quarantined, .ending],
      let s := wCtxCmd op st 0
      s.regs.ctxPend.length = 1 ∧ ((s.regs.ctxPend.headD 0).toNat / 2 ^ 44 % 16 = op) ∧ (s.regs.ctxPend.headD 0).toNat / 2 ^ 38 % 64 = 1 ∧ (s.ctxs.get 1).st = st) ∧
    (∀ p ∈ [(0x60000, 0), (0x50000, 2)], let s := wCtxCmd 1 .free p.1
      (readCtx { s with regs := { s.regs with ctxPend := [] }, ctxs := s.ctxs.set 1 {} } 1).1 = p.2) ∧
    (∀ n ∈ [1, 2], let s := wCtxGrp .active n
      let u := { s with regs := { s.regs with ctxPend := [] } }
      ((s.groups.filter (fun e => e.2.ctx == 1)).length ≤ (freeRecs u 1 (grpRecs u 1)).length ↔ n = 1) ∧
        (ctxTeams s 1).length ≤ (freeRecs u 1 (teamRecs u 1)).length ∧ (heldComps s 1).length ≤ (freeRecs u 1 (compRecs u 1)).length ∧ ∃ e ∈ s.groups, e.2.ctx = 1) ∧
    (∀ p ∈ [(0x60000, 0), (0x50000, 2)], let s := wCtxCmd 5 .saved p.1
      let u := { s with regs := { s.regs with ctxPend := [] } }
      let r := readCtx u 1
      let w := { u with ctxs := s.ctxs.upd 1 (fun _ => r.2) }
      r.1 = p.2 ∧ (p.2 = 0 → ∀ pa ∈ grpRecs w 1 ++ teamRecs w 1 ++ compRecs w 1, recUsed w 1 pa = false)) ∧
    (∀ st ∈ [CtxState.saving, .restoring, .ending], let s := wCtxCmd 0 st 0
      (s.ctxs.get 1).st = st ∧ s.groups = [] ∧ s.teams = [] ∧ s.comps = [] ∧ s.copies = [] ∧ s.frozen = [] ∧ (s.ctxs.get 1).frecs = []) := by
  and_intros <;> decide +kernel

/-- A command of TRAP_CMD for the group in slot 0 of core 0. -/
def wTrapCmd (v : Nat) (x : Group) : State := { wWith x with regs := { State.reset.regs with trapPend := [BitVec.ofNat 64 v] } }
/-- A TRAPPED group with the state of its trap; and one that escalated from its handler. -/
def wTrapped (ih : Bool) : Group :=
  { wGrp with
    life := .trapped, run := none, trapS := some { pc := 65600, prio := 5, lanes := 7, rs := { pos := 2 } },
    escS := if ih then some { pc := 65608, prio := 6, lanes := 3, trl := false } else none,
    spr := { wGrp.spr with trapPc := 65600, trapCause := if ih then 0x361 else 0x161 } }

theorem test_meets_TrapCommands :
    (∀ op ∈ [1, 2, 3, 4], ∀ ih ∈ [true, false], let s := wTrapCmd (op * 2 ^ 60) (wTrapped ih)
      s.regs.trapPend.length = 1 ∧ (s.regs.trapPend.headD 0).toNat / 2 ^ 60 % 8 = op ∧ (s.regs.trapPend.headD 0).toNat % 2 ^ 57 = 0 ∧ (∃ e ∈ s.groups, e.1 = 0) ∧ (s.grp 0).life = .trapped ∧ (s.grp 0).ctx = 0 ∧
        (s.grp 0).budgeted = false ∧ (s.grp 0).chain = none ∧ ((s.grp 0).spr.trapCause.getLsbD 8 = true) ∧ inHandler (s.grp 0) = ih ∧ ((s.grp 0).escS ≠ none ↔ ih = true)) ∧
    (let x := wTrapped false
     ∃ ts, x.trapS = some ts ∧ ts.lanes ≠ 0 ∧ x.spr.trapPc = ts.pc ∧ ts.trl = false ∧ x.spr.uvec ≠ 0 ∧ inHandler x = false) ∧
    (∃ ts, (wTrapped true).escS = some ts ∧ ts.lanes ≠ 0 ∧ ts.trl = false) ∧
    (∀ v ∈ [2 ^ 60 + 11, 2 ^ 60 + 12, 2 ^ 60 + 384 * 2 ^ 32], let s := wTrapCmd v (wTrapped false)
      ¬((∃ e ∈ s.groups, e.1 = 48 * (v / 2 ^ 32 % 2 ^ 9) + 12 * (v / 16 % 4) + v % 16) ∧ v % 16 < 12 ∧ v / 2 ^ 32 % 2 ^ 9 < 384)) := by
  refine ⟨by decide +kernel, ⟨_, rfl, by decide +kernel⟩, ⟨_, rfl, by decide +kernel⟩, by decide +kernel⟩

/-- Commands of KEY_CMD: 64 bytes wrapped under the session key of zeros stand at 65536. -/
def wKeyCmd (op : Nat) : State :=
  { wSt with h := { bytes := [(65536, 0xDA), (65537, 0x68), (65538, 0x6E), (65539, 0xD6), (65540, 0x38), (65541, 0xD6), (65542, 0x3D), (65543, 0xB8), (65544, 0xC8), (65545, 0x11), (65546, 0x4C), (65547, 0x19), (65548, 0x57), (65549, 0x96), (65550, 0x31), (65551, 0xB8), (65552, 0x46), (65553, 0x6D), (65554, 0x66), (65555, 0x84), (65556, 0x60), (65557, 0x25), (65558, 0xC3), (65559, 0x7D), (65560, 0x88), (65561, 0x8B), (65562, 0x86), (65563, 0x10), (65564, 0x2C), (65565, 0x58), (65566, 0x8C), (65567, 0x46), (65568, 0xA6), (65569, 0xF5), (65570, 9), (65571, 0x67), (65572, 0xC3), (65573, 0xD3), (65574, 0xC8), (65575, 0x23), (65576, 0x8E), (65577, 0x85), (65578, 0x31), (65579, 0x94), (65580, 0x17), (65581, 0x78), (65582, 0x35), (65583, 0x5F), (65584, 0x54), (65585, 0x76), (65586, 0xA4), (65587, 0x2C), (65588, 0xAE), (65589, 0xD7), (65590, 0x0F), (65591, 0x3B), (65592, 0x50), (65593, 0x72), (65594, 0x49), (65595, 0xE1), (65596, 0x6B), (65597, 8), (65598, 0x88), (65599, 0x65), (65600, 0x51), (65601, 0x17), (65602, 0x38), (65603, 0xF8), (65604, 0x89), (65605, 9), (65606, 0x51), (65607, 0xB2)] }, sessions := [(0, some (List.replicate 32 0))],
             regs := { State.reset.regs with keyPend := [(BitVec.ofNat 64 (op * 2 ^ 61 + 7 * 2 ^ 43 + 128), .host)] } }
def wWrapped : List Byte := toBytes 72 0xB2510989F83817516588086BE14972503B0FD7AE2CA476545F3578179431858E23C8D3C36709F5A6468C582C10868B887DC3256084666D46B8319657194C11C8B83DD638D66E68DA
/-- Commands of PL_GRANT and MC_CPCMD of stack 0. -/
def wGrant (v : Nat) (c : Compartment) : State :=
  { wSt with comps := [(3, c)], regs := { State.reset.regs with plPend := [(0, [BitVec.ofNat 64 v])], mcPend := [(0, [BitVec.ofNat 64 v])] } }

/-- The integrity register and the blocks of a wrapped key, and the unwrapping of the one above in parts of eight steps. -/
def wPair (n : Nat) : List Byte × List (List Byte) := ((toBytes 72 n).take 8, chunks 8 8 ((toBytes 72 n).drop 8))
theorem wUnwrap_0 : unwrapN zeroKeys 8 48 (wPair 0xB2510989F83817516588086BE14972503B0FD7AE2CA476545F3578179431858E23C8D3C36709F5A6468C582C10868B887DC3256084666D46B8319657194C11C8B83DD638D66E68DA) = wPair 0xB7B7B660A5C4A9D833EB6DE8A3721380E1F7F414B934A2942CC1EEF4AE4DF337A74A2E672C4CE91396AD5BCA9C2A37EBAC101397B5D4B40258FBD943253E6D1E873F372EACDC91C0 := by decide +kernel
theorem wUnwrap_1 : unwrapN zeroKeys 8 40 (wPair 0xB7B7B660A5C4A9D833EB6DE8A3721380E1F7F414B934A2942CC1EEF4AE4DF337A74A2E672C4CE91396AD5BCA9C2A37EBAC101397B5D4B40258FBD943253E6D1E873F372EACDC91C0) = wPair 0xFF78CAC2ADA5ADFCB6787D87C868FA887AA3892E97B7F25D2C9D17B3A9318F6FDB472C7100A9F553AAD6F01B220C5247EB86D0F4FBCACF54AE8E56896DB928767147B110D2FC1DF4 := by decide +kernel
theorem wUnwrap_2 : unwrapN zeroKeys 8 32 (wPair 0xFF78CAC2ADA5ADFCB6787D87C868FA887AA3892E97B7F25D2C9D17B3A9318F6FDB472C7100A9F553AAD6F01B220C5247EB86D0F4FBCACF54AE8E56896DB928767147B110D2FC1DF4) = wPair 0x9B5C31991D8533C792A41557116C8E96B234D7AA7DDE37F9464C46406107B447409B64803468E4E1F9EAA670DFACD1635C53987AD168183EF649267776B4FAEA3F09037EDBF8D05F := by decide +kernel
theorem wUnwrap_3 : unwrapN zeroKeys 8 24 (wPair 0x9B5C31991D8533C792A41557116C8E96B234D7AA7DDE37F9464C46406107B447409B64803468E4E1F9EAA670DFACD1635C53987AD168183EF649267776B4FAEA3F09037EDBF8D05F) = wPair 0x8178DB12DEF46EBA07E26FE70C967BF905A71D953430674A5956441AD1C54501C6E4D30CDE6DBD53F7760F2DAB9AE68DEA36AACE86DFDBFCDFA9E94FABA07AC151CA1526A3304880 := by decide +kernel
theorem wUnwrap_4 : unwrapN zeroKeys 8 16 (wPair 0x8178DB12DEF46EBA07E26FE70C967BF905A71D953430674A5956441AD1C54501C6E4D30CDE6DBD53F7760F2DAB9AE68DEA36AACE86DFDBFCDFA9E94FABA07AC151CA1526A3304880) = wPair 0x2C473A00A81F636C6AEC92498A66C1CB66FF3D521F90250002C053D69180A68758FB9815FF3B030F9FB1C9D1558B76D0E9325AEA9C1A2C25E447961B0AC42072552ED37264BBE945 := by decide +kernel
theorem wUnwrap_5 : unwrapN zeroKeys 8 8 (wPair 0x2C473A00A81F636C6AEC92498A66C1CB66FF3D521F90250002C053D69180A68758FB9815FF3B030F9FB1C9D1558B76D0E9325AEA9C1A2C25E447961B0AC42072552ED37264BBE945) = wPair 0x403F3E3D3C3B3A393837363534333231302F2E2D2C2B2A292827262524232221201F1E1D1C1B1A191817161514131211100F0E0D0C0B0A090807060504030201A6A6A6A6A6A6A6A6 := by decide +kernel
theorem wUnwrap_all : unwrapT zeroKeys 48 (wPair 0xB2510989F83817516588086BE14972503B0FD7AE2CA476545F3578179431858E23C8D3C36709F5A6468C582C10868B887DC3256084666D46B8319657194C11C8B83DD638D66E68DA).1 (wPair 0xB2510989F83817516588086BE14972503B0FD7AE2CA476545F3578179431858E23C8D3C36709F5A6468C582C10868B887DC3256084666D46B8319657194C11C8B83DD638D66E68DA).2 = wPair 0x403F3E3D3C3B3A393837363534333231302F2E2D2C2B2A292827262524232221201F1E1D1C1B1A191817161514131211100F0E0D0C0B0A090807060504030201A6A6A6A6A6A6A6A6 := by
  rw [unwrapT_first _ 8 40, wUnwrap_0, unwrapT_first _ 8 32, wUnwrap_1, unwrapT_first _ 8 24, wUnwrap_2, unwrapT_first _ 8 16, wUnwrap_3, unwrapT_first _ 8 8, wUnwrap_4,
    unwrapT_first _ 8 0, wUnwrap_5]
  rfl
def wUnwrapped : List Byte := toBytes 64 0x403F3E3D3C3B3A393837363534333231302F2E2D2C2B2A292827262524232221201F1E1D1C1B1A191817161514131211100F0E0D0C0B0A090807060504030201
/-- The state as KEY_LOAD finds it, its command taken. -/
def wKeyTaken : State := { wKeyCmd 1 with regs := { (wKeyCmd 1).regs with keyPend := [] } }

theorem loadedKey_unwraps {s : State} {ag : RegAgent} {pa : Nat} {kek w : List Byte} (hk : sessionKey s ag = some kek)
    (hp : (!inMemory pa || hPoiSpan s pa 72) = false) (hw : hRead s 0 pa 72 = w) : loadedKey s ag pa = unwrapKey kek w := by
  simp [loadedKey, hk, hp, hw]

theorem wWrapped_unwraps : unwrapKey (List.replicate 32 0) wWrapped = some wUnwrapped := by
  have h := wUnwrap_all
  rw [← roundKeys_zero, ← unwrapSteps_tab] at h
  exact (congrArg (fun r : List Byte × List (List Byte) => if r.1 = List.replicate 8 0xA6 then some r.2.flatten else none) h).trans (by decide +kernel)

theorem test_meets_GrantsFramesAndKeys :
    (∀ p ∈ [(2 ^ 62 + 3 * 2 ^ 53 + 2 ^ 43 + 2 ^ 39 + 1, false), (2 ^ 62 + 3 * 2 ^ 53, true)], let s := wGrant p.1 {}
      s.regs.plPend.get 0 = [BitVec.ofNat 64 p.1] ∧ (BitVec.ofNat 64 p.1).getLsbD 62 = true ∧
        grantRefused { s with regs := { s.regs with plPend := s.regs.plPend.set 0 [] } } 0 (BitVec.ofNat 64 p.1) = p.2) ∧
    (∀ st ∈ [CState.empty, .loading, .loaded, .running, .freezing], let s := wGrant (3 * 2 ^ 53) { st := st }
      (BitVec.ofNat 64 (3 * 2 ^ 53)).getLsbD 62 = false ∧ (s.comps.get 3).st = st) ∧
    (∀ m ∈ [0, 1], let s := wGrant (m * 2 ^ 61 + 5) {}
      s.regs.mcPend.get 0 = [BitVec.ofNat 64 (m * 2 ^ 61 + 5)] ∧ (BitVec.ofNat 64 (m * 2 ^ 61 + 5)).toNat / 2 ^ 61 % 4 = m) ∧
    (∀ op ∈ [1, 2, 3], (wKeyCmd op).regs.keyPend = [(BitVec.ofNat 64 (op * 2 ^ 61 + 7 * 2 ^ 43 + 128), .host)] ∧
      (BitVec.ofNat 64 (op * 2 ^ 61 + 7 * 2 ^ 43 + 128)).toNat / 2 ^ 61 % 4 = op ∧ 512 * ((BitVec.ofNat 64 (op * 2 ^ 61 + 7 * 2 ^ 43 + 128)).toNat % 2 ^ 43) = 65536) ∧
    loadedKey (wKeyCmd 1) .super 65536 = none ∧ alarmed (wKeyCmd 1) = false ∧
    loadedKey wKeyTaken .host 65536 = some wUnwrapped := by
  and_intros
  iterate 6 decide +kernel
  exact (loadedKey_unwraps rfl (by decide +kernel) (by decide +kernel)).trans wWrapped_unwraps

-- ===== links and collectives =====

/-- Link 0 in a state, with two flits out and a window of one page of context 0; a transfer of rank 4 is on it. -/
def wLink (st tries : Nat) (r : Rank) : State :=
  { wSt with
    links := [(0, { en := st != 0, st := st, unacked := [[5], [6]] })], transfers := [{ id := 1, link := 0, rank := 4, tries := tries }], ranks := [r],
    regs := { State.reset.regs with win := [(0, 0xC000000000010001)] } }
/-- A flit of zeros with its CRC. -/
def wFlit : List Byte := List.replicate 252 0 ++ toBytes 4 0xA66359F1
theorem wFlit_ok : flitOk wFlit = true := by
  rw [flitOk, crc32_fold]; decide +kernel
/-- A PUT with rank 4's number, and a rank of an all-reduce of integers. -/
def wPut : Rank := { id := 4, p := 2, bar := 65792, ids := [0, 7], xl := [(1, wPage.leaf)] }
def wRank (id q : Nat) : Rank :=
  { id := id, op := 1, dt := 2, p := 2, rank := q, tag := 9, dst := 65920, count := 2, bar := 65792, ids := [0, 0], xl := [(1, wPage.leaf)], data := [1, 0, 0, 0, 0xFF, 0xFF, 0xFF, 0xFF] }
def wPeerMem (poi : Bool) : State := { wLink 2 0 wPut with h := { bytes := [(65792, 5)], poi := if poi then [(1028, true)] else [] } }
def wRanks : State := { wSt with ranks := [wRank 4 0, wRank 5 1] }
/-- The same ranks with a transfer of the first, and an all-reduce of one rank. -/
def wXfer (tries : Nat) : State := { wLink 2 tries wPut with ranks := [wRank 4 0, wRank 5 1] }
def wAlone : State := { wSt with ranks := [{ wRank 4 0 with p := 1 }] }

theorem test_meets_LinksAndCollectives :
    (∀ st ∈ [0, 1, 2, 3, 4], ((wLink st 0 wPut).links.get 0).st = st) ∧
    (flitOk wFlit = true ∧ flitSeq wFlit = 0 ∧ ((wLink 2 0 wPut).links.get 0).rxSeq = 0 ∧ flitOk [0] = false) ∧
    (∀ st ∈ [2, 3], ∀ t ∈ [0, 7, 8], let s := wLink st t wPut
      s.transfers.find? (fun t => t.id == 1) = some { id := 1, link := 0, rank := 4, tries := t } ∧ (s.links.get 0).st = st ∧
        s.ranks.find? (fun r => r.id == 4) = some wPut ∧ wPut.op = 0 ∧ alarmed s = false ∧ rankBar s wPut = (0, 65792) ∧ s.h.poi.get (65792 / 64) = false ∧
        barBroken (hNat s 0 65792 8) = false) ∧
    (∀ t ∈ [0, 7, 8], let s := wXfer t
      s.transfers.find? (fun t => t.id == 1) = some { id := 1, link := 0, rank := 4, tries := t } ∧ (s.links.get 0).st = 2 ∧
        s.ranks.find? (fun r => r.id == 4) = some (wRank 4 0) ∧ (wRank 4 0).op ≠ 0 ∧ (wRank 4 0).written = false ∧ (contribs s (wRank 4 0)).isSome = true ∧
        (∃ m ∈ instanceRanks s (wRank 4 0), m.id = 4) ∧ ∃ m ∈ instanceRanks s (wRank 4 0), m.done = false) ∧
    (let s := wLink 2 0 wPut
     linkUp (s.links.get 0) = true ∧ ∀ k ∈ [Acc.load, .store], ∀ w ∈ [true, false], peerSpan s 0 (BitVec.ofNat 64 (2 ^ 56)) 64 k w = none ∧ peerSpan s 0 65536 1 k w = none) ∧
    (∀ poi ∈ [true, false], let s := wPeerMem poi
      linkUp (s.links.get 0) = true ∧ ∀ n ∈ [4, 8, 64], ∀ p ∈ [(Acc.load, false), (.store, true)],
        someAnd (peerSpan s 0 256 n p.1 p.2) (fun r => r.1 == 65792 && keyIx s (leafIn r.2 r.1.toNat).key == 0 && paIn r.2 r.1.toNat == 65792 && hPoi s (65792 / 64) == poi) = true) ∧
    (let s := wPeerMem false
     65792 % 65536 + 64 ≤ 65536 ∧ 65792 % 64 = 0 ∧ alarmed s = false ∧ s.h.poi.get 1028 = false ∧ barBroken (hNat s 0 65792 8) = false) ∧
    (let s := wLink 2 0 wPut
     s.ranks.find? (fun r => r.id == 4 && !r.done) = some wPut ∧ wPut.k = 0 ∧ wPut.op = 0 ∧ wPut.ids.getD 1 0 ≠ s.regs.devId ∧
       ∀ t ∈ ({ s with transfers := [] } : State).transfers, t.rank ≠ 4) ∧
    (let s := wRanks
     s.ranks.find? (fun r => r.id == 4 && !r.done) = some (wRank 4 0) ∧ s.transfers = [] ∧ (wRank 4 0).op ≠ 0 ∧ (localRank s 9 2 0).map (·.id) = some 4 ∧
       someAnd (contribs s (wRank 4 0)) (fun cs => cs.length == 2 && cs.all (fun c => c.els.length == 2 && c.els.all (· < 2 ^ 32))) = true ∧
       wRank 5 1 ∈ instanceRanks s (wRank 4 0) ∧ (contribs s (wRank 5 1)).isSome = true ∧ rankBar (writeAll s (wRank 4 0)) (wRank 4 0) = (0, 65792)) ∧
    (let r := { wRank 4 0 with p := 1 }
     wAlone.ranks.find? (fun r => r.id == 4 && !r.done) = some r ∧ (localRank wAlone 9 1 0).map (·.id) = some 4 ∧ instanceRanks wAlone r = [r] ∧
       (contribs wAlone r).isSome = true) := by
  refine ⟨by decide +kernel, ⟨wFlit_ok, by decide +kernel⟩, ?_⟩
  and_intros <;> decide +kernel

-- ===== the network and the host =====

/-- Context 0 with a key of zeros in slot 0, a launch queue in a page of slot 1, and binding 5 of port 2 for UDP port 4660. -/
def wNet (seq : Nat) (lq : BitVec 64) : State :=
  { wSt with
    ctxs := [(0, { st := .active, keycnt := 2, lqs := [lq] })], keys := [(0, .key (List.replicate 64 0)), (1, .plain)],
    tlb := [{ wPage with leaf := { wPage.leaf with key := 1 } }], h := { bytes := [(65809, 2), (65810, 1), (65816, 2), (65820, 0x0F)] },
    regs := { State.reset.regs with ncBind := [(5, 0xA000000000001234)], ncSeq := [(5, seq)] } }
/-- A payload of SEQ 1 with its tag, and the frame of IPv4 and UDP that carries a payload. -/
def wPay : List Byte := 1 :: List.replicate 147 0 ++ toBytes 16 0x3195705F86A176138A4C1AF56B36778C
def wFrame (pay : List Byte) : List Byte :=
  List.replicate 12 0 ++ [8, 0, 0x45] ++ List.replicate 8 0 ++ [17] ++ List.replicate 12 0 ++ [0x12, 0x34] ++ (toBytes 2 (pay.length + 8)).reverse ++ [0, 0] ++ pay
theorem tagOk_of_key {s : State} {c : Nat} {k pay : List Byte} (hk : gmacKey s c = some k) : tagOk s c pay = (gmac k ((pay.drop 8).take 12) (pay.take 148) == pay.drop 148) := by
  rw [tagOk, hk]
theorem wPay_tag (seq : Nat) (lq : BitVec 64) : tagOk (wNet seq lq) 0 wPay = true := by
  rw [tagOk_of_key (k := List.replicate 32 0) rfl, gmac_tab, roundKeys_zero]; decide +kernel
/-- A receive and a send ring of port 2, each with one buffer of 64 bytes. -/
def wRing : State :=
  { wSt with
    h := { bytes := [(393216, 1), (393233, 1), (393234, 6), (393240, 4), (393244, 1), (393474, 7), (393480, 0x40), (458752, 8), (458753, 7), (458754, 6), (458755, 5), (458756, 4), (458757, 3), (458758, 2), (458759, 1)] },
    regs := { State.reset.regs with netRx := [(2, 0x60000)], netTx := [(2, 0x60000)] } }

theorem test_meets_NetworkHostAndManagement :
    (∀ p ∈ [(0, 0, false), (0, 65792, true), (1, 65792, true)], let s := wNet p.1 (BitVec.ofNat 64 p.2.1)
      tagOk s 0 wPay = true ∧ bindingOf s 2 (wFrame wPay) = some (5, wPay) ∧ (s.regs.ncBind.get 5).toNat / 2 ^ 53 % 64 = 0 ∧ (s.regs.ncBind.get 5).toNat / 2 ^ 51 % 4 = 0 ∧
        wPay.length = 164 ∧ (s.ctxs.get 0).st = .active ∧ (s.regs.ncSeq.get 5 < ofBytes (wPay.take 8) ↔ p.1 = 0) ∧ (intakePush s 0 0 ((wPay.drop 20).take 128)).isSome = p.2.2) ∧
    bindingOf (wNet 0 0) 2 (wFrame [1, 2]) = some (5, [1, 2]) ∧ bindingOf (wNet 0 0) 1 (wFrame wPay) = none ∧
    (bindingOf wRing 2 [1, 2, 3] = none ∧ netRing wRing (wRing.regs.netRx.get 1) = none ∧ someAnd (netRing wRing (wRing.regs.netRx.get 2)) (fun q =>
      q.count != 0 && someAnd (ringHead wRing q) (fun b => 3 ≤ b.2 && bufferOk b.1 3 &&
        (let u := qPop (hWriteSpan wRing 0 b.1.toNat [1, 2, 3] false) q 1
         someAnd (netRing u 0x60000) (fun q1 => okAnd (qPushAs u netAcc q1 [toBytes 8 b.1.toNat ++ toBytes 8 3]) Option.isSome)))) = true) ∧
    someAnd (netRing wRing (wRing.regs.netTx.get 2)) (fun q => q.count != 0 && someAnd (ringHead wRing q) (fun b => b.2 == 64 && bufferOk b.1 b.2 && !hPoiSpan wRing b.1.toNat b.2)) = true ∧
    (0 < 8 ∧ 0x10080000000 - 8 + 8 ≤ 0x10080000000 ∧ ¬(0x10080000000 - 8 + 9 ≤ 0x10080000000) ∧ (0x10080000000 - 8) % 8 = 0 ∧ hPoi wSt ((0x10080000000 - 8) / 64) = false ∧ (11#4).toNat < 12 ∧ hPoi wBarP (65792 / 64) = true ∧ 65792 % 8 = 0) ∧
    (RegAgent.host ≠ .mgmt ∧ (List.replicate 32 (0 : Byte)).length = 32) := by
  refine ⟨?_, ?_⟩
  · intro p hp
    exact ⟨wPay_tag _ _, by revert p; decide +kernel⟩
  · and_intros <;> decide +kernel

-- ===== errors, alarms and resets; the invariant =====

/-- A key whose signature of the image of one byte 1 is twice that image's digest: with the digest as the x of a point R, the key is R - G. -/
def wKey : List Byte := beBytes 32 0xBDE82C7B2AEE552FF1DA7A8C81937CCFAB7C03C8C01A05921CF6A2462D92E011 ++ beBytes 32 0xCB90F0210DFD93ACA35365F80EC2FC11269DCE6A44B5F1697BB3A3FE15D65FAB
def wSig : List Byte := beBytes 32 0x4BF5122F344554C53BDE2EBB8CD2B7E3D1600AD631C385A5D7CCE23C7785459A ++ beBytes 32 0x4BF5122F344554C53BDE2EBB8CD2B7E3D1600AD631C385A5D7CCE23C7785459A
def wBoot (n ver : Nat) (f : Option FwImage) : State :=
  { wSt with fwVersion := ver, fwNext := f, fwKey := 0xC4575CC6A63CA9B2E05EBC66628A7BF617EBC6F1237464334732C671C33F4D16, regs := { wSt.regs with bootStat := n } }
/-- FIPS 180-4's example. -/
theorem test_sha256_abc : sha256 [0x61, 0x62, 0x63] = 0xBA7816BF8F01CFEA414140DE5DAE2223B00361A396177A9CB410FF61F20015AD := by decide +kernel
theorem test_signature : signedBy wKey wSig [1] = true ∧ signedBy wKey (List.replicate 64 0) [1] = false ∧ sha256 wKey = (wBoot 1 0 none).fwKey := by decide +kernel
/-- A read by the host from each die's stacks, with poison there. -/
def wFar (poi : Bool) : State := { wSt with h := { poi := if poi then [1, 2 ^ 32 + 1, 2 ^ 33 + 1, 2 ^ 33 + 2 ^ 32 + 1].map (fun l => (l, true)) else [] } }

theorem test_meets_ErrorsAlarmsAndResets :
    ((wSt.teams.get 1).live = true ∧ 511 < 512 * (wSt.teams.get 1).shm) ∧ (∃ e ∈ wSt.groups, e.1 = 0) ∧
    (31 < 32 * ((wSt.grp 0).blocks + 1) ∧ 0xFF < 0x100) ∧
    (∀ st ∈ [CState.running, .loaded], ((wCmp { st := st }).comps.get 3).st = st) ∧
    (alarmed wSt = false ∧ alarmed { wSt with regs := { wSt.regs with alarm := 1 } } = true) ∧
    ((wSt.ctxs.get 0).st ≠ .free ∧ ∃ e ∈ wSt.ctxs, e.1 = 0) ∧
    (∀ p ∈ [(wSig, 4, true), (wSig, 5, true), (wSig, 3, false), (List.replicate 64 0, 5, false)], let f : FwImage := ⟨[1], p.2.1, wKey, p.1⟩
      (wBoot 1 4 (some f)).fwNext = some f ∧
      ((sha256 f.key = (wBoot 1 4 (some f)).fwKey ∧ signedBy f.key f.sig f.image = true ∧ (wBoot 1 4 (some f)).fwVersion ≤ f.ver) ↔ p.2.2 = true)) ∧
    (∀ n < 6, (wBoot n 0 none).regs.bootStat = n ∧ (wBoot n 0 none).fwNext = none) ∧
    (∀ poi ∈ [true, false], ∀ d < 4, hPoiSpan (wFar poi) (d * 2 ^ 38 + 64) 8 = poi ∧ stackOf (d * 2 ^ 38 + 64) / 4 = d ∧ d * 2 ^ 38 + 64 + 8 ≤ 0x10080000000) := by
  and_intros <;> decide +kernel

theorem test_meets_StepsKeepTheInvariant : Memory.wf wSt.h = true ∧ FramesAligned wSt ∧ ∃ t, step wSt = .next t := by
  have h : (match step wSt with | .next _ => true | _ => false) = true := by decide +kernel
  refine ⟨by decide +kernel, wFrames, ?_⟩
  generalize step wSt = r at h ⊢
  match r, h with
  | .next t, _ => exact ⟨t, rfl⟩

theorem test_meets_WordsAreTheEncodingsOfWhatTheyDecodeTo : decodeSeq 0x4C000000 = some .seqHalt ∧ decodeSeq 0xFFFFFFFF = none := by decide +kernel

end Sys2Proof.Machine
end

section
/-!
SUPPORT. Control transfers that are decided at their word (R95 to R97), and the selection of a group's next entry (R79, R81, R92): what BRA, BRM and
SELECTION do, and the statements about them.
-/

namespace Sys2Proof.Machine

-- ===== transfers decided at a word (R95) =====

theorem OnlyGroup.advance (s : State) (g : Nat) : OnlyGroup s (advance s g) g := OnlyGroup.updGrp s g _
theorem OnlyGroup.decideJumps (s : State) (g : Nat) (js : List (Nat × (BitVec 64 × Nat × Nat))) : OnlyGroup s (decideJumps s g js) g := by
  rw [Machine.decideJumps, decideXfer]
  exact OnlyGroup.updGrp s g _

/-- The group after a word that decides where its lanes go. -/
theorem advance_decideJumps_grp (s : State) (g : Nat) (js : List (Nat × (BitVec 64 × Nat × Nat))) :
    (advance (decideJumps s g js) g).grp g = deciding (s.grp g) { (runState (s.grp g)).xfer with jump := js } := by
  rw [advance_grp, decideJumps, decideXfer, State.grp_updGrp_self]
  unfold deciding stepOn updRs updRun runState
  cases (s.grp g).run <;> rfl

/-- A word that passes its checks and decides the jumps `js` changes nothing else. -/
theorem issue_decideJumps {i : Instr} {body : State → Nat → Eff} {s : State} {g : Nat} {js : List (Nat × (BitVec 64 × Nat × Nat))}
    (h : Runs s g i) (hbody : body s g = .done (decideJumps s g js)) :
    ∃ t, issue i body s = .next t ∧ OnlyGroup s t g ∧ t.grp g = deciding (s.grp g) { (runState (s.grp g)).xfer with jump := js } := by
  obtain ⟨hg, hok⟩ := h
  refine ⟨advance (decideJumps s g js) g, ?_, (OnlyGroup.decideJumps s g js).trans (OnlyGroup.advance _ g), advance_decideJumps_grp s g js⟩
  rw [issue_ok hg hok, hbody, finish_done]

theorem exec_bra (msk : Msk) (prio : BitVec 12) (off : BitVec 33) (s : State) :
    exec (.bra msk prio off) s = issue (.bra msk prio off) (braBody msk prio off) s := rfl
theorem exec_brm (cond : BitVec 2) (msk : Msk) (prio : BitVec 12) (off : BitVec 33) (s : State) :
    exec (.brm cond msk prio off) s = issue (.brm cond msk prio off) (brmBody cond msk prio off) s := rfl

theorem brmBody_holds {cond : BitVec 2} {msk : Msk} (prio : BitVec 12) (off : BitVec 33) {s : State} {g : Nat}
    (h : brmHolds (s.grp g) cond msk = true) :
    brmBody cond msk prio off s g =
      .done (decideJumps s g (jumpAll (active (s.grp g)) (branchTo (s.grp g) off) prio.toNat (runEnt (s.grp g)).depth)) := by
  simp only [brmBody, h, if_true]
theorem brmBody_fails {cond : BitVec 2} {msk : Msk} (prio : BitVec 12) (off : BitVec 33) {s : State} {g : Nat}
    (h : brmHolds (s.grp g) cond msk = false) : brmBody cond msk prio off s g = .done (decideJumps s g []) := by
  simp only [brmBody, h, Bool.false_eq_true, if_false]

/-- Settles O44: each word decides one list of jumps, by `issue_decideJumps`, and BRM's condition is the model's `brmHolds`. -/
theorem branchesAreDecided : Obligations.BranchesAreDecided := by
  unfold Obligations.BranchesAreDecided
  intro s g msk prio off cond x live aims holds
  have hcond : brmHolds x cond msk = true ↔ holds := by
    simp only [brmHolds, holds]
    match cond.toNat with
    | 0 => simp
    | 1 => exact bne_iff_ne
    | 2 => exact beq_iff_eq
    | n + 3 => exact beq_iff_eq
  refine ⟨fun h => ?_, fun h => ?_⟩
  · rw [exec_bra]
    exact issue_decideJumps h rfl
  · rw [exec_brm]
    cases hb : brmHolds x cond msk
    case true =>
      obtain ⟨t, hexec, honly, hgrp⟩ := issue_decideJumps h (brmBody_holds prio off hb)
      exact ⟨t, hexec, honly, fun _ => hgrp, fun hn => absurd (hcond.mp hb) hn⟩
    case false =>
      obtain ⟨t, hexec, honly, hgrp⟩ := issue_decideJumps h (brmBody_fails prio off hb)
      exact ⟨t, hexec, honly, fun hh => absurd (hcond.mpr hh) (by simp [hb]), fun _ => hgrp⟩

-- ===== the order of R92 =====

theorem before_iff_outranks {a b : Entry} : before a b = true ↔ Outranks a b := by
  simp only [before, Outranks, Bool.or_eq_true, Bool.and_eq_true, decide_eq_true_eq, beq_iff_eq]
  omega

theorem Outranks.asymm {a b : Entry} (h : Outranks a b) : ¬Outranks b a := by
  unfold Outranks at *
  omega

/-- The order of R92 is a weak order: what does not outrank an entry outranks nothing that the entry does not outrank. -/
theorem not_outranks_trans {a b c : Entry} (hab : ¬Outranks a b) (hbc : ¬Outranks b c) : ¬Outranks a c := by
  unfold Outranks at *
  omega

/-- A nonempty list has a best entry, which belongs to it and which none of it outranks. -/
theorem bestOf_spec {l : List Entry} (hne : l ≠ []) : ∃ e, bestOf l = some e ∧ e ∈ l ∧ ∀ f ∈ l, ¬Outranks f e := by
  induction l with
  | nil => exact absurd rfl hne
  | cons a r ih =>
    have self : ¬Outranks a a := fun h => h.asymm h
    by_cases hr : r = []
    · exact ⟨a, by simp [hr, bestOf], by simp, by simpa [hr] using self⟩
    · obtain ⟨b, hb, hmem, htop⟩ := ih hr
      by_cases hba : before b a = true
      · refine ⟨b, by simp [bestOf, hb, hba], List.mem_cons_of_mem a hmem, ?_⟩
        exact List.forall_mem_cons.mpr ⟨(before_iff_outranks.mp hba).asymm, htop⟩
      · refine ⟨a, by simp [bestOf, hb, hba], List.mem_cons_self, ?_⟩
        have hna : ¬Outranks b a := fun h => hba (before_iff_outranks.mpr h)
        exact List.forall_mem_cons.mpr ⟨self, fun f hf => not_outranks_trans (htop f hf) hna⟩

/-- Where an entry may be selected, the selected one may be, and no other that may be outranks it (R92). -/
theorem selected_spec {x : Group} (h : ∃ e ∈ x.frontier, selectable x e = true) :
    ∃ e, selected x = some e ∧ e ∈ x.frontier ∧ selectable x e = true ∧ ∀ f ∈ x.frontier, selectable x f = true → ¬Outranks f e := by
  obtain ⟨e₀, hmem₀, hsel₀⟩ := h
  obtain ⟨e, he, hmem, htop⟩ := bestOf_spec (List.ne_nil_of_mem (List.mem_filter.mpr ⟨hmem₀, hsel₀⟩))
  obtain ⟨hfront, hsel⟩ := List.mem_filter.mp hmem
  exact ⟨e, he, hfront, hsel, fun f hf hs => htop f (List.mem_filter.mpr ⟨hf, hs⟩)⟩

-- ===== the event of selection =====

/-- The group whose run starts at the entry `e` of its frontier. -/
def startAt (x : Group) (e : Entry) : Group :=
  { x with frontier := x.frontier.erase e, run := some { ent := { e with resume := none }, pc := e.pc, rs := e.resume.getD {} } }

theorem startRun_of_selected {x : Group} {e : Entry} (hrun : x.run = none) (he : selected x = some e) : startRun x = some (startAt x e) := by
  simp only [startRun, hrun, he, startAt]

/-- The stop of a YIELD that found no record lets the group go on once one is free (R365). -/
theorem stopFailed_iff {s : State} {x : Group} : stopFailed s x = true ↔
    x.yielded = true ∧ (s.ctxs.get x.ctx).st = .active ∧ sliceHeld s x = false ∧ freeRecs s x.ctx (grpRecs s x.ctx) ≠ [] := by
  simp [stopFailed, and_assoc]

/-- A context that lets a group be selected: ACTIVE, or SAVING with the bound of R363 still to come and the group not at its stop. -/
theorem ctxRuns_iff {s : State} {x : Group} : ctxRuns s x = true ↔
    (s.ctxs.get x.ctx).st = .active ∨
    ((s.ctxs.get x.ctx).st = .saving ∧ (s.ctxs.get x.ctx).wasHalted = false ∧
      (timen s).toNat < (s.ctxs.get x.ctx).saveClock * 10 / 36 + (s.ctxs.get x.ctx).ywait ∧ (x.run.isSome = true ∨ x.safe = false)) := by
  simp [ctxRuns, ywaitOver, and_assoc]

/-- `MayBeSelected` is the model's test for a READY group that its context does not hold at its stop. -/
theorem selectableNow_of_mayBeSelected {s : State} {x : Group} (hlife : x.life = .ready) (hmay : MayBeSelected s x)
    (hctx : (s.ctxs.get x.ctx).st = .active ∨ x.run.isSome = true ∨ x.safe = false) : selectableNow s x = true := by
  obtain ⟨hstop, hround, hchain, hsave⟩ := hmay
  have hgo : (!x.stopWait || stopFailed s x) = true := by
    rcases hstop with h | h
    · simp [h]
    · simp [stopFailed_iff.mpr h]
  have hruns : ctxRuns s x = true := by
    rw [ctxRuns_iff]
    rcases hsave with h | ⟨hst, hhalt, hbound⟩
    · exact .inl h
    · exact hctx.imp_right (fun h => ⟨hst, hhalt, hbound, h⟩)
  simp [selectableNow, hlife, hgo, hround, hchain, hruns]

theorem selection_eq {s : State} {g : Nat} {y : Group} (hnow : selectableNow s (s.grp g) = true) (hstart : startRun (s.grp g) = some y) :
    selection s g = s.setGrp g { y with life := .issuing, safe := false, yielded := false, stopWait := false } := by
  simp only [selection, hnow, if_true, hstart]
theorem exec_selection (g : Nat) (s : State) : exec (.selection g) s = .next (selection s g) := rfl

-- ===== STK_DEPTH (R87) =====

theorem specials_numbers_nodup (s : State) (g : Nat) : ((specials s g).map Prod.fst).Nodup := by
  simp only [specials, List.map_cons, List.map_nil]
  decide

theorem stkDepth_mem_specials (s : State) (g : Nat) : (0x1E, fun _ => BitVec.ofNat 64 (runEnt (s.grp g)).depth) ∈ specials s g := by
  simp [specials]

/-- STK_DEPTH reads the depth of the run's entry in every lane. -/
theorem specials_stkDepth {s : State} {g : Nat} {p : Nat × (Nat → BitVec 64)} (hp : p ∈ specials s g) (hnum : p.1 = 0x1E) (l : Nat) :
    p.2 l = BitVec.ofNat 64 (runEnt (s.grp g)).depth := by
  rw [List.inj_on_of_nodup_map (specials_numbers_nodup s g) hp (stkDepth_mem_specials s g) hnum]

/-- Settles O48: `bestOf` answers an entry that none of the frontier's selectable ones outranks, and the event starts the run there. -/
theorem selectionTakesTheTopEntry : Obligations.SelectionTakesTheTopEntry := by
  unfold Obligations.SelectionTakesTheTopEntry
  intro s g x hlife hmay hctx hrun hsome
  obtain ⟨e, he, hmem, hsel, htop⟩ := selected_spec hsome
  have hnow : selectableNow s x = true := selectableNow_of_mayBeSelected hlife hmay (hctx.imp_right .inr)
  have hgrp := State.grp_setGrp_self s g { startAt x e with life := .issuing, safe := false, yielded := false, stopWait := false }
  refine ⟨_, e, by rw [exec_selection, selection_eq hnow (startRun_of_selected hrun he)], OnlyGroup.setGrp s g _, hmem, hsel, htop, hgrp, ?_, ?_⟩
  · rw [hgrp]
    rfl
  · intro p hp hnum l
    rw [specials_stkDepth hp hnum l, hgrp]
    rfl

end Sys2Proof.Machine
end
